-- ==== Sys2Proof/Word.lean ====
section
/-! DEFINITION. The word types of the SBX codec engine: 32-bit registers (00_scope.md R8, 10_state.md
R41), bytes of BUF (20_memory.md R60), and the sentinel NONE (00_scope.md R9). -/

namespace Sys2Proof

/-- A 32-bit register value or BUF offset operand (R8: "register width | 32 bits, fixed"). -/
abbrev Word := BitVec 32

/-- One byte of BUF, of a block, or one element of GF(2^8) (R60, R190). -/
abbrev Byte := BitVec 8

/-- The three tag bytes t0 t1 t2 of a TLV record as one 24-bit value, t0 most significant
(30_encoding.md R82, operand type `tag`; 42_metadata_tlv.md R161). -/
abbrev Tag := BitVec 24

/-- The sentinel NONE = 0xFFFF_FFFF (00_scope.md R9). -/
def NONE : Word := 0xFFFFFFFF#32

end Sys2Proof
end

