-- ==== Sys2Proof/Syntax.lean ====
section
/-! DEFINITION. The commands of the engine: one constructor per row of spec/opcode_table.json
(30_encoding.md R83). A command word carries no operand but the FLAGS field; every operand is in an
ARG register (R82). FLAGS is kept, eight bits wide as R80 has it, for the two commands that define
FLAGS bits (R85). -/

namespace Sys2Proof

/-- The 21 commands of R83, in the table's order. -/
inductive Instr where
  | nop
  | crc16
  | blkSeal
  /-- `flags` is CMD[15:8]: bit 0 EV, bit 1 EU (R85). -/
  | blkCheck (flags : BitVec 8)
  | blkKind
  | layoutPos
  | layoutSeq
  | tlvParse
  | tlvFind
  | tlvAppend
  | tlvPad
  | mhParse
  | gfMul
  | gfInv
  | rsCoef
  | rsEncode
  | rsRecon
  | rsVote
  /-- `flags` is CMD[15:8]: bit 0 TO, bit 1 STRICT, bit 2 PV, bit 3 UID (R85). -/
  | scanInit (flags : BitVec 8)
  | scanNext
  | scanProbe
  deriving DecidableEq, Repr

/-- Why a command word selects no command (R90). Each of them completes with Usage(0x100). -/
inductive DecodeError where
  /-- CMD[31:16] is not 0 (R86). -/
  | rsvdNonzero
  /-- CMD[7:0] is not in the opcode map (R84). -/
  | reservedOpcode
  /-- A FLAGS bit is set that the command does not define (R85). -/
  | undefinedFlags
  deriving DecidableEq, Repr

end Sys2Proof
end

