-- ==== Sys2Proof/WellFormed.lean ====
section
/-! DEFINITION. Which terms of Instr are commands of the opcode map: the FLAGS field sets only bits
that its command defines (30_encoding.md R85). -/

namespace Sys2Proof

/-- The FLAGS bits that a command defines (R85): BLK_CHECK bits 0-1, SCAN_INIT bits 0-3, no other. -/
def Instr.definedFlags : Instr → BitVec 8
  | .blkCheck _ => 0x03#8
  | .scanInit _ => 0x0F#8
  | .nop | .crc16 | .blkSeal | .blkKind | .layoutPos | .layoutSeq | .tlvParse | .tlvFind | .tlvAppend
  | .tlvPad | .mhParse | .gfMul | .gfInv | .rsCoef | .rsEncode | .rsRecon | .rsVote | .scanNext
  | .scanProbe => 0#8

/-- The FLAGS field that a command's word carries: 0 for a command without FLAGS (R85). -/
def Instr.flags : Instr → BitVec 8
  | .blkCheck f => f
  | .scanInit f => f
  | .nop | .crc16 | .blkSeal | .blkKind | .layoutPos | .layoutSeq | .tlvParse | .tlvFind | .tlvAppend
  | .tlvPad | .mhParse | .gfMul | .gfInv | .rsCoef | .rsEncode | .rsRecon | .rsVote | .scanNext
  | .scanProbe => 0#8

/-- No FLAGS bit is set that the command does not define (R85). -/
def Instr.wellFormed (i : Instr) : Bool := i.flags &&& ~~~ i.definedFlags == 0#8

end Sys2Proof
end

