-- ==== Sys2Proof/Decode.lean ====
section
/-! DEFINITION. The decoder and the encoder of command words (30_encoding.md R80-R90). The engine
fetches no instruction from memory: the word is the one the host wrote to CMD (10_state.md R36). -/

namespace Sys2Proof

/-- CMD[7:0], the OPCODE field (R80). -/
def opcodeField (w : Word) : BitVec 8 := w.extractLsb' 0 8

/-- CMD[15:8], the FLAGS field (R80). -/
def flagsField (w : Word) : BitVec 8 := w.extractLsb' 8 8

/-- CMD[31:16], the RSVD field (R80). -/
def rsvdField (w : Word) : BitVec 16 := w.extractLsb' 16 16

/-- The opcode map of R83: the command an opcode selects, carrying FLAGS where the command defines
FLAGS bits; none for a reserved opcode (R84). -/
def lookupOpcode (op flags : BitVec 8) : Option Instr :=
  match op.toNat with
  | 0x00 => some .nop
  | 0x10 => some .crc16
  | 0x11 => some .blkSeal
  | 0x12 => some (.blkCheck flags)
  | 0x13 => some .blkKind
  | 0x14 => some .layoutPos
  | 0x15 => some .layoutSeq
  | 0x20 => some .tlvParse
  | 0x21 => some .tlvFind
  | 0x22 => some .tlvAppend
  | 0x23 => some .tlvPad
  | 0x24 => some .mhParse
  | 0x30 => some .gfMul
  | 0x31 => some .gfInv
  | 0x32 => some .rsCoef
  | 0x33 => some .rsEncode
  | 0x34 => some .rsRecon
  | 0x35 => some .rsVote
  | 0x40 => some (.scanInit flags)
  | 0x41 => some .scanNext
  | 0x42 => some .scanProbe
  | _ => none

/-- The decoding procedure of R90: RSVD first, then the opcode, then the FLAGS bits. -/
def decode (w : Word) : Except DecodeError Instr :=
  if rsvdField w ≠ 0#16 then .error .rsvdNonzero
  else
    match lookupOpcode (opcodeField w) (flagsField w) with
    | none => .error .reservedOpcode
    | some i =>
      if flagsField w &&& ~~~ i.definedFlags = 0#8 then .ok i else .error .undefinedFlags

/-- The opcode of a command (R83). -/
def opcodeOf : Instr → BitVec 8
  | .nop => 0x00#8
  | .crc16 => 0x10#8
  | .blkSeal => 0x11#8
  | .blkCheck _ => 0x12#8
  | .blkKind => 0x13#8
  | .layoutPos => 0x14#8
  | .layoutSeq => 0x15#8
  | .tlvParse => 0x20#8
  | .tlvFind => 0x21#8
  | .tlvAppend => 0x22#8
  | .tlvPad => 0x23#8
  | .mhParse => 0x24#8
  | .gfMul => 0x30#8
  | .gfInv => 0x31#8
  | .rsCoef => 0x32#8
  | .rsEncode => 0x33#8
  | .rsRecon => 0x34#8
  | .rsVote => 0x35#8
  | .scanInit _ => 0x40#8
  | .scanNext => 0x41#8
  | .scanProbe => 0x42#8

/-- The command word of a command: RSVD 0, FLAGS, OPCODE (R80). -/
def encode (i : Instr) : Word := 0#16 ++ (i.flags ++ opcodeOf i)

/-- The `match` and `mask` of every row of the opcode table (R90, opcode_table.json). -/
def opcodeRows : List (Word × Word) :=
  [ (0x00000000#32, 0xFFFFFFFF#32), (0x00000010#32, 0xFFFFFFFF#32), (0x00000011#32, 0xFFFFFFFF#32),
    (0x00000012#32, 0xFFFFFCFF#32), (0x00000013#32, 0xFFFFFFFF#32), (0x00000014#32, 0xFFFFFFFF#32),
    (0x00000015#32, 0xFFFFFFFF#32), (0x00000020#32, 0xFFFFFFFF#32), (0x00000021#32, 0xFFFFFFFF#32),
    (0x00000022#32, 0xFFFFFFFF#32), (0x00000023#32, 0xFFFFFFFF#32), (0x00000024#32, 0xFFFFFFFF#32),
    (0x00000030#32, 0xFFFFFFFF#32), (0x00000031#32, 0xFFFFFFFF#32), (0x00000032#32, 0xFFFFFFFF#32),
    (0x00000033#32, 0xFFFFFFFF#32), (0x00000034#32, 0xFFFFFFFF#32), (0x00000035#32, 0xFFFFFFFF#32),
    (0x00000040#32, 0xFFFFF0FF#32), (0x00000041#32, 0xFFFFFFFF#32), (0x00000042#32, 0xFFFFFFFF#32) ]

/-- A word selects a row iff `(w & mask) = match` (R90). -/
def rowMatches (w : Word) (row : Word × Word) : Bool := w &&& row.2 == row.1

/-- The command that the decoder reads from the word whose `nbits` bits are `w`; a command is one
32-bit word (R81), and the bits above `nbits` are 0. -/
def decodeTableWord (nbits w : Nat) : Option Instr :=
  if nbits ≤ 32 then
    match decode (BitVec.ofNat 32 (w % 2 ^ nbits)) with
    | .ok i => some i
    | .error _ => none
  else none

end Sys2Proof
end

