-- ==== Sys2Proof/Config.lean ====
section
/-! DEFINITION. What an implementation or a platform fixes (00_scope.md R8): the parameters BUF_SIZE
and BUF_OFFSET with their defaults and constraints, the container versions of R6, and the FREE
VALUES that the spec leaves open, as opaque constants with no body. -/

namespace Sys2Proof

/-- The two defaulted parameters of R8. State holds one value of this type, which no step changes, so
a statement over every state holds for every choice of the parameters. -/
structure Params where
  /-- BUF_SIZE, the bytes of buffer memory; BUFSZ reads it (10_state.md R28). -/
  bufSize : Nat
  /-- BUF_OFFSET, the offset of the BUF aperture from DEV_BASE (20_memory.md R61). -/
  bufOffset : Nat
  deriving DecidableEq, Repr

/-- The defaults of R8: BUF_SIZE 0x0020_0000 and BUF_OFFSET 0x0100_0000. -/
def Params.default : Params := { bufSize := 0x200000, bufOffset := 0x1000000 }

/-- The constraints of R8 on BUF_SIZE and BUF_OFFSET. -/
abbrev Params.Valid (p : Params) : Prop :=
  p.bufSize % 4096 = 0 ∧ 0x100000 ≤ p.bufSize ∧ p.bufSize ≤ 0x80000000 ∧
  p.bufOffset % 4096 = 0 ∧ 0x1000 ≤ p.bufOffset

/-- The container versions of R6: the "known versions". -/
inductive Version where
  | v1 | v2 | v3 | v17 | v18 | v19
  deriving DecidableEq, Repr

/-! Free values. DESIGN CHOICE of the form (a constant with no body); no value is chosen, so each is
safe: a claim that is proved holds for every value. -/

/-- DEV_BASE divided by 4096. DEV_BASE is an OPEN parameter of the platform, 4096-byte aligned (R8;
93_implementation_defined.md U7; assumption 3). -/
opaque Config.devPage : Nat

/-- What BUF byte `addr` holds after the `epoch`-th power-on if nothing has been written to it since:
any value per byte, chosen once at power-on (10_state.md R39, 70_reset_and_hazards.md R290, U3;
assumption 1). -/
opaque Config.powerOnByte (epoch addr : Nat) : Byte

/-- How many model steps pass between the `k`-th accepted command and the step that completes it,
beyond the completion step itself: finite and unspecified (R300, U6; assumption 5). -/
opaque Config.completionDelay (k : Nat) : Nat

/-- Whether the in-flight command, the `k`-th accepted, is the one that an abort request cancels
(40_control.md R107, U4; assumption 6). -/
opaque Config.abortCancels (k : Nat) : Bool

end Sys2Proof
end

