-- ==== Sys2Proof/Machine/State.lean ====
section
/-! DEFINITION. The state of the SBX codec engine as plain data: every register of the register map
(10_state.md R20-R35), the hidden state of R37, the buffer memory BUF (R39), the parameters of
00_scope.md R8, the host's pending accesses (R5), and the model's own counters for free values. -/

namespace Sys2Proof.Machine

open Sys2Proof

/-! ## Memory -/

/-- BUF as the list of the bytes written since power-on, keyed by BUF offset, offsets strictly rising.
An offset that is not listed has not been written since power-on: it holds no value of the host's or
of a command's, and a read gives the free byte Config.powerOnByte (R39, R290, U3; assumption 1). -/
abbrev Memory := List Host.Cell

/-- What an unlisted offset holds: nothing written. No entry can be equal to it, so equal memories are
equal lists. -/
def Memory.unlisted : Option Byte := none

/-- The canonical form: offsets strictly rising (so no offset is listed twice). -/
def Memory.wf : Memory → Bool
  | [] => true
  | c :: m => m.all (fun d => decide (c.1 < d.1)) && Memory.wf m

/-! ## Errors, faults, refusals -/

/-- The error kinds of 60_exceptions.md R261, codes 1 to 9. -/
inductive ErrKind where
  | io
  | invalidBlock
  | unknownVersion
  | metadataMalformed
  | insufficientShards
  /-- Code 6, reserved: no command raises it (R267). -/
  | hashMismatch
  | uidMismatch
  | usage
  | cancelled
  deriving DecidableEq, Repr

/-- `raise E(info)` (00_scope.md R12): an error and its ERRINFO value. An error is the outcome of a
command, not a stop of the machine (R260). -/
structure CmdError where
  kind : ErrKind
  info : Word
  deriving DecidableEq, Repr

/-- The stops that the machine itself reports: none. Every error of a command is a completion (R260, R272),
and a bus error is a refusal of the host program (20_memory.md R63). -/
inductive Fault where
  deriving DecidableEq, Repr

/-- The stops that the model makes where the spec says that a model refuses the host program. -/
inductive Refusal where
  /-- Raised by exec for an instruction that has no meaning in the model. SAFE. No arm of exec is left
  so. -/
  | notModelled (mnemonic : String)
  /-- A host access that has no target: outside both apertures (R61, R63, U5; assumptions 8 and 17). Raised
  by a host access, never by a command. SAFE: the machine stops where the hardware goes on unchanged. -/
  | busNoTarget
  /-- A host access of a width its aperture does not take (20_memory.md R63; U5: "refuse: a bus error,
  no engine state change"). Raised by a host access, never by a command. SAFE. -/
  | busWidth
  /-- A host access that is not naturally aligned (R63, U5). Raised by a host access, never by a
  command. SAFE. -/
  | busMisaligned
  deriving DecidableEq, Repr

/-! ## Scanner state -/

/-- The alignment codes of 44_scanner.md R232; code 3 is never held (10_state.md R33). -/
inductive Align where
  | a128 | a512 | a4096
  deriving DecidableEq, Repr

/-- The reference block that a scan holds (44_scanner.md R237): SCAN_REF_OFF, SCAN_CFG.REF_VER and
SCAN_REF_UID (10_state.md R33, R34). -/
structure ScanRef where
  off : Word
  ver : Version
  uid : Word
  deriving DecidableEq, Repr

/-- The scanner registers of 10_state.md R32-R34. REF_VALID, PV_SET and UID_SET say whether an Option
is present; the fields that R33 and R34 give as 0 when such a bit is 0 are read so (Flags.lean). -/
structure Scan where
  base : Word
  len : Word
  from_ : Word
  to_ : Word
  pos : Word
  align : Align
  strict : Bool
  toSet : Bool
  pv : Option Version
  uid : Option Word
  ref : Option ScanRef
  exhausted : Bool
  errs : Word
  deriving DecidableEq, Repr

/-- The scanner after reset: the empty scan (70_reset_and_hazards.md R290, R292). -/
def Scan.reset : Scan :=
  { base := 0, len := 0, from_ := 0, to_ := 0, pos := 0, align := .a128, strict := false,
    toSet := false, pv := none, uid := none, ref := none, exhausted := false, errs := 0 }

/-! ## Staged effects -/

/-- STAGED (10_state.md R37): the RES values, the BUF writes in staging order and the scanner registers
that the command in flight has staged (00_scope.md R12). -/
structure Staged where
  /-- RES0, RES1, ... ; a register past the end is one that the rule does not define. -/
  res : List Word
  /-- MemWrite(addr, bytes) in staging order. -/
  writes : List (Nat × List Byte)
  scan : Option Scan
  deriving DecidableEq, Repr

/-- Nothing staged. -/
def Staged.none : Staged := { res := [], writes := [], scan := Option.none }

/-! ## Host accesses -/

/-- The widths of a host bus access (20_memory.md R63). -/
inductive Width where
  | w8 | w16 | w32
  deriving DecidableEq, Repr

/-- What the world outside the engine can do in one step (00_scope.md R5): one bus access by the host,
at an offset from DEV_BASE, or a power-on reset. A soft reset is a host write of CTRL. -/
inductive HostOp where
  | read (w : Width) (off : Nat)
  /-- The low `w` bits of `v` are written. -/
  | write (w : Width) (off : Nat) (v : Word)
  | powerOn
  deriving DecidableEq, Repr

/-! ## State -/

/-- The whole state of the engine and of what its next steps read from outside. -/
structure State where
  /-- BUF_SIZE and BUF_OFFSET (R8); BUFSZ reads the first (R28). Constant. -/
  params : Params
  /-- CTRL.IE (R22). -/
  ie : Bool
  /-- STATUS.BUSY (R23). -/
  busy : Bool
  /-- STATUS.DONE (R23). -/
  done : Bool
  /-- STATUS.ERR (R23). -/
  err : Bool
  /-- STATUS.WERR (R23). -/
  werr : Bool
  /-- STATUS.ERRCODE (R23). -/
  errcode : BitVec 8
  /-- ERRACC (R24). -/
  erracc : Word
  /-- LATCH_CMD, which CMD reads (R25, R37). -/
  cmd : Word
  /-- ERRINFO (R26). -/
  errinfo : Word
  /-- CMDCNT (R27). -/
  cmdcnt : Word
  /-- ARG0..ARG7 (R29). -/
  arg : Vector Word 8
  /-- RES0..RES7 (R30). -/
  res : Vector Word 8
  /-- RS_MASK0..RS_MASK7 (R31). -/
  rsMask : Vector Word 8
  /-- SCAN_BASE .. SCAN_ERRS (R32-R34). -/
  scan : Scan
  /-- The buffer memory BUF (R39, R60). -/
  buf : Memory
  /-- LATCH_ARG[0..7] (R37). -/
  latchArg : Vector Word 8
  /-- SNAP (R37): BUF as it stood when the command was accepted. -/
  snap : Memory
  /-- STAGED (R37): what the command in flight has staged. -/
  staged : Staged
  /-- ABORT_REQ (R37). -/
  abortReq : Bool
  /-- THE MODEL'S OWN: how many more steps pass before the step that completes the command in flight
  (R300, U6; assumption 5). -/
  delay : Nat
  /-- THE MODEL'S OWN: how many commands have been accepted; the index of the next free values
  (assumptions 5 and 6). -/
  draws : Nat
  /-- THE MODEL'S OWN: which power-on this is; the index of the free bytes of BUF (assumption 1). -/
  powerOns : Nat
  /-- THE MODEL'S OWN: what the host does next, in program order (R5, R68; assumption 4, DESIGN CHOICE,
  safe: a claim over every state holds for every host program). -/
  host : List HostOp
  /-- THE MODEL'S OWN: the value that the host's last bus read returned (assumption 4). -/
  busData : Word
  deriving DecidableEq, Repr

/-- Right after power-on reset (R40, R290): every register at the reset value of R20, the hidden state
clear, nothing written to BUF, the engine idle, the host with nothing to do yet. -/
def State.reset : State :=
  { params := Params.default, ie := false, busy := false, done := false, err := false, werr := false,
    errcode := 0, erracc := 0, cmd := 0, errinfo := 0, cmdcnt := 0,
    arg := Vector.replicate 8 0, res := Vector.replicate 8 0, rsMask := Vector.replicate 8 0,
    scan := Scan.reset, buf := [], latchArg := Vector.replicate 8 0, snap := [],
    staged := Staged.none, abortReq := false,
    delay := 0, draws := 0, powerOns := 0, host := [], busData := 0 }

end Sys2Proof.Machine
end

