-- ==== Sys2Proof/Machine/Flags.lean ====
section
/-! DEFINITION. Every flag and status computation of the spec: the error codes (60_exceptions.md R261),
the words that STATUS, CTRL and ERRACC read as (10_state.md R22-R24), the interrupt line (R274), and
the fields of SCAN_CFG and the scanner's reference and filter registers (R33, R34). -/

namespace Sys2Proof

/-- The version byte of a known version (00_scope.md R6). -/
def Version.byte : Version → Byte
  | .v1 => 1#8
  | .v2 => 2#8
  | .v3 => 3#8
  | .v17 => 17#8
  | .v18 => 18#8
  | .v19 => 19#8

/-- The known version that a byte names; none for an unknown version (R6). -/
def Version.ofByte? (b : Byte) : Option Version :=
  match b.toNat with
  | 1 => some .v1
  | 2 => some .v2
  | 3 => some .v3
  | 17 => some .v17
  | 18 => some .v18
  | 19 => some .v19
  | _ => none

/-- bs(v), the block size in bytes (R6). -/
def Version.blockSize : Version → Nat
  | .v1 => 512
  | .v2 => 128
  | .v3 => 4096
  | .v17 => 512
  | .v18 => 128
  | .v19 => 4096

/-- L(v) = bs(v) - 16, the payload length (R6, R9). -/
def Version.payloadLen (v : Version) : Nat := v.blockSize - 16

/-- The parity versions 17, 18, 19 (R6). -/
def Version.isParity : Version → Bool
  | .v1 => false
  | .v2 => false
  | .v3 => false
  | .v17 => true
  | .v18 => true
  | .v19 => true

end Sys2Proof

namespace Sys2Proof.Machine

/-- The code table of R261. -/
def ErrKind.code : ErrKind → BitVec 8
  | .io => 1#8
  | .invalidBlock => 2#8
  | .unknownVersion => 3#8
  | .metadataMalformed => 4#8
  | .insufficientShards => 5#8
  | .hashMismatch => 6#8
  | .uidMismatch => 7#8
  | .usage => 8#8
  | .cancelled => 9#8

/-- A flag as one bit of a register. -/
def flagBit (b : Bool) (n : Nat) : Word := if b then 1#32 <<< n else 0#32

/-- STATUS (R23): BUSY bit 0, DONE bit 1, ERR bit 2, WERR bit 3, ERRCODE bits [15:8], the rest 0. -/
def State.statusWord (s : State) : Word :=
  flagBit s.busy 0 ||| flagBit s.done 1 ||| flagBit s.err 2 ||| flagBit s.werr 3 |||
    (s.errcode.setWidth 32 <<< 8)

/-- CTRL (R22): IE is bit 0; ABORT, SRST and the reserved bits read 0. -/
def State.ctrlWord (s : State) : Word := flagBit s.ie 0

/-- The bits of ERRACC that are not reserved (R24): bits 1 to 9. -/
def erraccBits : Word := 0x3FE#32

/-- ERRACC as read (R24): bits 0 and [31:10] are reserved and read 0. -/
def State.erraccWord (s : State) : Word := s.erracc &&& erraccBits

/-- ERRACC after a command completes with error kind `k`: its bit is set (R24, R103). -/
def erraccSet (e : Word) (k : ErrKind) : Word := e ||| (1#32 <<< k.code.toNat)

/-- ERRACC after a write of `v`: the bits written as 1 are cleared, no other (R24, R70). -/
def erraccW1C (e v : Word) : Word := e &&& ~~~ v

/-- IRQ = STATUS.DONE and CTRL.IE, a combinational output (R22, R274). -/
def State.irq (s : State) : Bool := s.done && s.ie

/-- The alignment code of R232. -/
def Align.code : Align → Word
  | .a128 => 0#32
  | .a512 => 1#32
  | .a4096 => 2#32

/-- The alignment A in bytes (R232). -/
def Align.bytes : Align → Nat
  | .a128 => 128
  | .a512 => 512
  | .a4096 => 4096

/-- REF_VALID (R33). -/
def Scan.refValid (c : Scan) : Bool := c.ref.isSome

/-- SCAN_CFG (R33): ALIGN [1:0], STRICT 2, PV_SET 3, UID_SET 4, TO_SET 5, PV [15:8], REF_VALID 16,
EXHAUSTED 17, REF_VER [31:24], the rest 0. PV is 0 when PV_SET = 0, REF_VER 0 when REF_VALID = 0. -/
def Scan.cfgWord (c : Scan) : Word :=
  c.align.code ||| flagBit c.strict 2 ||| flagBit c.pv.isSome 3 ||| flagBit c.uid.isSome 4 |||
    flagBit c.toSet 5 ||| (((c.pv.map Version.byte).getD 0#8).setWidth 32 <<< 8) |||
    flagBit c.refValid 16 ||| flagBit c.exhausted 17 |||
    (((c.ref.map (fun r => r.ver.byte)).getD 0#8).setWidth 32 <<< 24)

/-- SCAN_REF_OFF, 0 when REF_VALID = 0 (R34). -/
def Scan.refOffWord (c : Scan) : Word := (c.ref.map ScanRef.off).getD 0#32

/-- SCAN_REF_UID, 0 when REF_VALID = 0 (R34). -/
def Scan.refUidWord (c : Scan) : Word := (c.ref.map ScanRef.uid).getD 0#32

/-- SCAN_UID, 0 when UID_SET = 0 (R34). -/
def Scan.uidWord (c : Scan) : Word := c.uid.getD 0#32

end Sys2Proof.Machine
end

