-- ==== Sys2Proof/Machine/Ops.lean ====
section
/-! DEFINITION. The named operations over memory and registers: reading and storing bytes of BUF, byte
order, ARG and MASK, acceptance of a command (40_control.md R100), its successful and its error
completion (R102, R103: the error completion is this hardware's exception entry, R272, and there is no
return from it, R273), soft reset and power-on reset (70_reset_and_hazards.md R290, R291). -/

namespace Sys2Proof.Machine

/-! ## Memory -/

/-- The byte listed at an offset (assumption 1). -/
def Memory.get? : Memory → Nat → Option Byte
  | [], _ => Memory.unlisted
  | c :: m, a => if c.1 = a then some c.2 else Memory.get? m a

/-- The bytes `bs` as entries at offsets a, a+1, ... -/
def cellsFrom (a : Nat) : List Byte → Memory
  | [] => []
  | b :: bs => (a, b) :: cellsFrom (a + 1) bs

/-- BUF[a .. a+n) <- bs, for n the length of `bs`; it keeps the canonical form. -/
def Memory.store (m : Memory) (a : Nat) (bs : List Byte) : Memory :=
  m.filter (fun c => decide (c.1 < a)) ++ cellsFrom a bs ++
    m.filter (fun c => decide (a + bs.length ≤ c.1))

/-- The value of BUF byte `a`: what was last written, or the free power-on byte (R39, U3). -/
def byteAt (epoch : Nat) (m : Memory) (a : Nat) : Byte :=
  match Memory.get? m a with
  | some b => b
  | none => Config.powerOnByte epoch a

/-- The n bytes from offset `a` on. -/
def bytesAt (epoch : Nat) (m : Memory) (a n : Nat) : List Byte :=
  (List.range n).map (fun i => byteAt epoch m (a + i))

/-- BUF byte `a` as it stands now (what the host reads, R67). -/
def State.bufByte (s : State) (a : Nat) : Byte := byteAt s.powerOns s.buf a

/-- MemRead(addr, n): from the snapshot taken at acceptance (00_scope.md R12, R101). -/
def State.memRead (s : State) (a n : Nat) : List Byte := bytesAt s.powerOns s.snap a n

/-- Staged writes applied in the order staged (R12, R102). -/
def applyWrites (m : Memory) (ws : List (Nat × List Byte)) : Memory :=
  ws.foldl (fun m w => Memory.store m w.1 w.2) m

/-! ## Byte order: big-endian (20_memory.md R62) -/

/-- be(s): the unsigned big-endian value of a byte sequence (00_scope.md R12). -/
def beNat (s : List Byte) : Nat := s.foldl (fun acc b => acc * 256 + b.toNat) 0

/-- be16(s). -/
def be16 (s : List Byte) : BitVec 16 := BitVec.ofNat 16 (beNat s)

/-- be32(s). -/
def be32 (s : List Byte) : Word := BitVec.ofNat 32 (beNat s)

/-- be64(s). -/
def be64 (s : List Byte) : BitVec 64 := BitVec.ofNat 64 (beNat s)

/-- bytes_be(v, k): the k-byte big-endian encoding of v (R12). -/
def bytesBE (v k : Nat) : List Byte :=
  (List.range k).map (fun i => BitVec.ofNat 8 (v / 256 ^ (k - 1 - i)))

/-- s[i..j) (R10). -/
def slice (s : List Byte) (i j : Nat) : List Byte := (s.drop i).take (j - i)

/-- n zero bytes. -/
def zeros (n : Nat) : List Byte := List.replicate n 0#8

/-! ## Registers that commands read -/

/-- ARG[i]: argument register i as latched at acceptance (00_scope.md R12, R29). -/
def State.ARG (s : State) (i : Fin 8) : Word := s.latchArg[i]

/-- MASK(i): bit i mod 32 of RS_MASK[i div 32] (10_state.md R31). -/
def State.mask (s : State) (i : Nat) : Bool :=
  ((s.rsMask[i / 32]?).getD 0#32).getLsbD (i % 32)

/-! ## Command lifecycle -/

/-- Acceptance of the command word `w` (R100). The delay until completion is free (R300). STATUS.ERR and
ERRCODE are cleared here, as R100, R23 and R273 say, so that a read while BUSY = 1 returns 0 for both, although
R295 lists them among what then reads as before the command (DEDUCED, unsafe; assumption 18). -/
def State.accept (s : State) (w : Word) : State :=
  { s with cmd := w, latchArg := s.arg, snap := s.buf, staged := Staged.none,
           busy := true, done := false, err := false, errcode := 0, abortReq := false,
           delay := Config.completionDelay s.draws, draws := s.draws + 1 }

/-- The hidden state cleared: LATCH_ARG, SNAP, STAGED, ABORT_REQ (R37, R102). -/
def State.clearHidden (s : State) : State :=
  { s with latchArg := Vector.replicate 8 0, snap := [], staged := Staged.none, abortReq := false,
           delay := 0 }

/-- The staged effects of a rule, held in STAGED until the completion step (R37, R101). -/
def State.stage (s : State) (st : Staged) : State := { s with staged := st }

/-- RES0..RES7 at a successful completion: the staged value where the rule defined one, else 0
(R30, R89, R102). -/
def resFile (rs : List Word) : Vector Word 8 := Vector.ofFn (fun i => rs.getD i.val 0#32)

/-- Successful completion (R102): every staged effect at once. -/
def State.completeOk (s : State) : State :=
  State.clearHidden
    { s with buf := applyWrites s.buf s.staged.writes, res := resFile s.staged.res,
             scan := s.staged.scan.getD s.scan,
             busy := false, done := true, err := false, errcode := 0, errinfo := 0,
             cmdcnt := s.cmdcnt + 1 }

/-- Error completion (R103, R260): no staged effect is applied; ERR, ERRCODE, ERRINFO and the bit of
ERRACC report the error. It saves no program counter and jumps nowhere (R272). -/
def State.completeError (s : State) (e : CmdError) : State :=
  State.clearHidden
    { s with busy := false, done := true, err := true, errcode := e.kind.code, errinfo := e.info,
             erracc := erraccSet s.erracc e.kind, cmdcnt := s.cmdcnt + 1 }

/-- The completion of a command whose rule gives the outcome `r` (R101). -/
def State.finish (s : State) (r : Except CmdError Staged) : State :=
  match r with
  | .ok st => (s.stage st).completeOk
  | .error e => s.completeError e

/-- Usage(0x100), the outcome of a malformed command word (30_encoding.md R84-R86, R269). -/
def malformedWord : CmdError := { kind := .usage, info := 0x100#32 }

/-- Cancelled(0), outcome (b) of an abort (40_control.md R107, R270). -/
def cancelledError : CmdError := { kind := .cancelled, info := 0#32 }

/-- Soft reset (R291): every register at its reset value, the hidden state cleared, the command in
flight abandoned, BUF unchanged. The model's own fields go on. -/
def State.softReset (s : State) : State :=
  { State.reset with params := s.params, buf := s.buf, draws := s.draws, powerOns := s.powerOns,
                     host := s.host, busData := s.busData }

/-- Power-on reset (R290): as a soft reset, and every byte of BUF is unspecified anew (U3). -/
def State.powerOnReset (s : State) : State :=
  { State.reset with params := s.params, draws := s.draws, powerOns := s.powerOns + 1,
                     host := s.host, busData := s.busData }

/-- One step of the delay passes while a command is in flight (R300). -/
def State.tick (s : State) : State := { s with delay := s.delay - 1 }

end Sys2Proof.Machine
end

