-- ==== Sys2Proof/Machine/Operands.lean ====
section
/-! DEFINITION. The operand types of 30_encoding.md R82, each with its check, and the range check of
20_memory.md R65. A check answers the operand's assembled value or the error it raises. -/

namespace Sys2Proof.Machine

/-- Usage(i): argument register i failed a check (60_exceptions.md R269). -/
def usageError (i : Fin 8) : CmdError := { kind := .usage, info := BitVec.ofNat 32 i.val }

/-- IO(addr) (R262). -/
def ioError (addr : Nat) : CmdError := { kind := .io, info := BitVec.ofNat 32 addr }

/-- UnknownVersion(v) (R264). -/
def unknownVersionError (b : Byte) : CmdError := { kind := .unknownVersion, info := b.setWidth 32 }

/-- MetadataMalformed(offset) (R265). -/
def malformedError (off : Nat) : CmdError :=
  { kind := .metadataMalformed, info := BitVec.ofNat 32 off }

/-- InsufficientShards(k) (R266). -/
def insufficientError (k : Nat) : CmdError :=
  { kind := .insufficientShards, info := BitVec.ofNat 32 k }

/-- `if cond then raise e` (40_control.md R105). -/
def raiseIf (cond : Bool) (e : CmdError) : Except CmdError Unit :=
  if cond then .error e else .ok ()

/-- A region is in range iff it is empty or ends at or before BUF_SIZE, on mathematical integers (R65). -/
def State.inRange (s : State) (addr n : Nat) : Bool :=
  n == 0 || decide (addr + n ≤ s.params.bufSize)

/-- CheckRange(addr, n) (00_scope.md R12, R65). -/
def State.checkRange (s : State) (addr n : Nat) : Except CmdError Unit :=
  raiseIf (!s.inRange addr n) (ioError addr)

/-- The low byte of an argument, ARG[i][7:0]. -/
def lowByte (w : Word) : Byte := w.extractLsb' 0 8

/-- Operand type `ver`: reserved bits, then known. -/
def State.opVer (s : State) (i : Fin 8) : Except CmdError Version :=
  if (s.ARG i).extractLsb' 8 24 ≠ 0#24 then .error (usageError i)
  else
    match Version.ofByte? (lowByte (s.ARG i)) with
    | none => .error (unknownVersionError (lowByte (s.ARG i)))
    | some v => .ok v

/-- Operand type `pver`: as `ver`, then a parity version. -/
def State.opPver (s : State) (i : Fin 8) : Except CmdError Version := do
  let v ← s.opVer i
  raiseIf (!v.isParity) (usageError i)
  return v

/-- Operand type `xver`: an expected or filter version; every failure is Usage(i). -/
def State.opXver (s : State) (i : Fin 8) : Except CmdError Version :=
  if (s.ARG i).extractLsb' 8 24 ≠ 0#24 then .error (usageError i)
  else
    match Version.ofByte? (lowByte (s.ARG i)) with
    | none => .error (usageError i)
    | some v => .ok v

/-- D = ARG[i][7:0] of a packed geometry. -/
def geomD (w : Word) : Nat := (w.extractLsb' 0 8).toNat

/-- P = ARG[i][15:8] of a packed geometry. -/
def geomP (w : Word) : Nat := (w.extractLsb' 8 8).toNat

/-- x in [1, 128] (00_scope.md R7). -/
def shardCountOk (x : Nat) : Bool := decide (1 ≤ x) && decide (x ≤ 128)

/-- Operand type `geom`: the pair (D, P), each in [1, 128]. -/
def State.opGeom (s : State) (i : Fin 8) : Except CmdError (Nat × Nat) :=
  let w := s.ARG i
  if w.extractLsb' 16 16 = 0#16 ∧ shardCountOk (geomD w) ∧ shardCountOk (geomP w) then
    .ok (geomD w, geomP w)
  else .error (usageError i)

/-- Operand type `vgeom`: D = 1 and P in [1, 128]; answers P. -/
def State.opVgeom (s : State) (i : Fin 8) : Except CmdError Nat :=
  let w := s.ARG i
  if w.extractLsb' 16 16 = 0#16 ∧ geomD w = 1 ∧ shardCountOk (geomP w) then .ok (geomP w)
  else .error (usageError i)

/-- Operand type `burst`: B in [0, 1000], and 0 with a non-parity version. -/
def State.opBurst (s : State) (i : Fin 8) (v : Version) : Except CmdError Nat :=
  let b := (s.ARG i).toNat
  if v.isParity then if 1000 < b then .error (usageError i) else .ok b
  else if b ≠ 0 then .error (usageError i) else .ok b

/-- Operand type `init16`: a CRC initial value. -/
def State.opInit16 (s : State) (i : Fin 8) : Except CmdError (BitVec 16) :=
  if (s.ARG i).extractLsb' 16 16 ≠ 0#16 then .error (usageError i)
  else .ok ((s.ARG i).extractLsb' 0 16)

/-- Operand type `byte`: a GF(2^8) element. -/
def State.opByte (s : State) (i : Fin 8) : Except CmdError Byte :=
  if (s.ARG i).extractLsb' 8 24 ≠ 0#24 then .error (usageError i) else .ok (lowByte (s.ARG i))

/-- Operand type `tag`: the three tag bytes. -/
def State.opTag (s : State) (i : Fin 8) : Except CmdError Tag :=
  if (s.ARG i).extractLsb' 24 8 ≠ 0#8 then .error (usageError i)
  else .ok ((s.ARG i).extractLsb' 0 24)

/-- Operand type `tlen`: a TLV value length, at most 255. -/
def State.opTlen (s : State) (i : Fin 8) : Except CmdError Nat :=
  let n := (s.ARG i).toNat
  if 255 < n then .error (usageError i) else .ok n

/-- Operand types `addr`, `len`, `count`, `seq` and `u32`: the unsigned value, unscaled, no check. -/
def State.opNat (s : State) (i : Fin 8) : Nat := (s.ARG i).toNat

/-- Operand type `soff`: sint32(ARG[i]) (00_scope.md R11). -/
def State.opSoff (s : State) (i : Fin 8) : Int := (s.ARG i).toInt

/-- Operand type `align` (44_scanner.md R232). -/
def State.opAlign (s : State) (i : Fin 8) : Except CmdError Align :=
  match (s.ARG i).toNat with
  | 0 => .ok .a128
  | 1 => .ok .a512
  | 2 => .ok .a4096
  | _ => .error (usageError i)

/-- align_up(x, a) (00_scope.md R11). -/
def alignUp (x a : Nat) : Nat := (x + a - 1) / a * a

end Sys2Proof.Machine
end

