-- ==== Sys2Proof/Machine/Bus.lean ====
section
/-! DEFINITION. The host interface: the register aperture (10_state.md R20-R35), the BUF aperture
(20_memory.md R60-R63), and one host access as one step (R61, R63, R66-R68). -/

namespace Sys2Proof.Machine

/-! ## Addresses -/

/-- DEV_BASE, 4096-byte aligned (00_scope.md R8; assumption 3). -/
def devBase : Nat := 4096 * Config.devPage

/-- The offset from DEV_BASE of a host address; none below the device window (R61). -/
def windowOffset (hostAddr : Nat) : Option Nat :=
  if devBase ≤ hostAddr then some (hostAddr - devBase) else none

/-- The size of the register aperture (R20). -/
def apertureSize : Nat := 0x1000

/-- Where an offset from DEV_BASE leads (R61). -/
inductive Target where
  /-- The register at an offset of the aperture. -/
  | reg (off : Nat)
  /-- The BUF byte at a BUF offset. -/
  | buf (a : Nat)
  deriving DecidableEq, Repr

/-- The host address map (R61): none for an address with no target. R61 leaves to the platform whether the
window's unused space is decoded and does not give the window's size; the model decodes none of it and
takes every offset outside both apertures, however large, as one without a target (DESIGN CHOICE, safe;
assumption 17). -/
def targetOf (p : Params) (off : Nat) : Option Target :=
  if off < apertureSize then some (.reg off)
  else if p.bufOffset ≤ off ∧ off < p.bufOffset + p.bufSize then some (.buf (off - p.bufOffset))
  else none

/-- The width of an access in bytes (R63). -/
def Width.bytes : Width → Nat
  | .w8 => 1
  | .w16 => 2
  | .w32 => 4

/-- The outcome of an access check: the target, or how the access is a bus error. -/
inductive BusCheck where
  | hit (t : Target)
  | noTarget
  | badWidth
  | misaligned
  deriving DecidableEq, Repr

/-- R63: registers take aligned 32-bit accesses only, BUF takes 8, 16 or 32 bits naturally aligned,
anything else is a bus error; the width of a register access is checked before its alignment
(assumption 8). DEV_BASE is 4096-aligned, so the offset decides the alignment. -/
def busCheck (p : Params) (w : Width) (off : Nat) : BusCheck :=
  match targetOf p off with
  | none => .noTarget
  | some (.reg r) =>
    if w ≠ .w32 then .badWidth else if off % 4 ≠ 0 then .misaligned else .hit (.reg r)
  | some (.buf a) => if off % w.bytes ≠ 0 then .misaligned else .hit (.buf a)

/-! ## Registers -/

/-- The ID register's constant (R21). -/
def idValue : Word := 0x53427801#32

/-- A word of a register file of eight. -/
def fileGet (v : Vector Word 8) (k : Nat) : Word := (v[k]?).getD 0#32

/-- A register file of eight with word `k` written. -/
def fileSet (v : Vector Word 8) (k : Nat) (x : Word) : Vector Word 8 := v.setIfInBounds k x

/-- What a 32-bit aligned read of the register at `off` returns (R20-R35). It has no side effect
(R67). -/
def State.regRead (s : State) (off : Nat) : Word :=
  if off = 0x000 then idValue
  else if off = 0x004 then s.ctrlWord
  else if off = 0x008 then s.statusWord
  else if off = 0x00C then s.erraccWord
  else if off = 0x010 then s.cmd
  else if off = 0x014 then s.errinfo
  else if off = 0x018 then s.cmdcnt
  else if off = 0x01C then BitVec.ofNat 32 s.params.bufSize
  else if off < 0x040 then fileGet s.arg ((off - 0x020) / 4)
  else if off < 0x060 then fileGet s.res ((off - 0x040) / 4)
  else if off < 0x080 then fileGet s.rsMask ((off - 0x060) / 4)
  else if off = 0x080 then s.scan.base
  else if off = 0x084 then s.scan.len
  else if off = 0x088 then s.scan.from_
  else if off = 0x08C then s.scan.to_
  else if off = 0x090 then s.scan.pos
  else if off = 0x094 then s.scan.cfgWord
  else if off = 0x098 then s.scan.refOffWord
  else if off = 0x09C then s.scan.refUidWord
  else if off = 0x0A0 then s.scan.uidWord
  else if off = 0x0A4 then s.scan.errs
  else 0#32

/-- A write of CTRL (R22): SRST wins; else IE is bit 0, and ABORT counts only while BUSY = 1 (R107). -/
def State.writeCtrl (s : State) (v : Word) : State :=
  if v.getLsbD 2 then s.softReset
  else { s with ie := v.getLsbD 0, abortReq := s.abortReq || (s.busy && v.getLsbD 1) }

/-- A write of STATUS (R23): W1C of DONE and WERR. -/
def State.writeStatus (s : State) (v : Word) : State :=
  { s with done := s.done && !v.getLsbD 1, werr := s.werr && !v.getLsbD 3 }

/-- A write of ERRACC (R24). -/
def State.writeErracc (s : State) (v : Word) : State := { s with erracc := erraccW1C s.erracc v }

/-- A busy-dropped write: ignored, WERR set (70_reset_and_hazards.md R294). -/
def State.dropWrite (s : State) : State := { s with werr := true }

/-- A write of CMD (R25): acceptance while idle, dropped while busy. -/
def State.writeCmd (s : State) (v : Word) : State := if s.busy then s.dropWrite else s.accept v

/-- A write of ARGk (R29). -/
def State.writeArg (s : State) (k : Nat) (v : Word) : State :=
  if s.busy then s.dropWrite else { s with arg := fileSet s.arg k v }

/-- A write of RS_MASKk (R31). -/
def State.writeMask (s : State) (k : Nat) (v : Word) : State :=
  if s.busy then s.dropWrite else { s with rsMask := fileSet s.rsMask k v }

/-- What a 32-bit aligned write of `v` to the register at `off` does (R20-R35): writes to RO and
reserved registers are ignored and do not set WERR (R294). -/
def State.regWrite (s : State) (off : Nat) (v : Word) : State :=
  if off = 0x004 then s.writeCtrl v
  else if off = 0x008 then s.writeStatus v
  else if off = 0x00C then s.writeErracc v
  else if off = 0x010 then s.writeCmd v
  else if 0x020 ≤ off ∧ off < 0x040 then s.writeArg ((off - 0x020) / 4) v
  else if 0x060 ≤ off ∧ off < 0x080 then s.writeMask ((off - 0x060) / 4) v
  else s

/-! ## BUF -/

/-- A host read of BUF (R62): big-endian lanes. -/
def State.bufRead (s : State) (a n : Nat) : Word := be32 (bytesAt s.powerOns s.buf a n)

/-- A host write of BUF (R62, R67): the low 8·n bits of `v`, most significant byte first. It lands in
BUF also while a command is in flight, which reads its snapshot (R296; assumption 7). -/
def State.bufWrite (s : State) (a n : Nat) (v : Word) : State :=
  { s with buf := Memory.store s.buf a (bytesBE v.toNat n) }

/-! ## One host access -/

/-- The state after a host read returned `v`. -/
def State.returned (s : State) (v : Word) : State := { s with busData := v }

/-- One host read (R63, R67): a bus error stops the run, the host program being refused (U5). -/
def hostRead (s : State) (w : Width) (off : Nat) : Host.Outcome State Fault Refusal :=
  match busCheck s.params w off with
  | .hit (.reg r) => .next (s.returned (s.regRead r))
  | .hit (.buf a) => .next (s.returned (s.bufRead a w.bytes))
  | .noTarget => .refused .busNoTarget
  | .badWidth => .refused .busWidth
  | .misaligned => .refused .busMisaligned

/-- One host write (R63, R67). -/
def hostWrite (s : State) (w : Width) (off : Nat) (v : Word) : Host.Outcome State Fault Refusal :=
  match busCheck s.params w off with
  | .hit (.reg r) => .next (s.regWrite r v)
  | .hit (.buf a) => .next (s.bufWrite a w.bytes v)
  | .noTarget => .refused .busNoTarget
  | .badWidth => .refused .busWidth
  | .misaligned => .refused .busMisaligned

/-- What the outside does in one step (00_scope.md R5). -/
def hostStep (s : State) : HostOp → Host.Outcome State Fault Refusal
  | .read w off => hostRead s w off
  | .write w off v => hostWrite s w off v
  | .powerOn => .next s.powerOnReset

/-- The state with the host's next access taken off its list and one step of the delay passed. -/
def State.advanceHost (s : State) (rest : List HostOp) : State := { s.tick with host := rest }

/-- A step in which the engine completes nothing: the host's next access, or, where the host has
none, the engine waits (00_scope.md R5, 60_exceptions.md R282). -/
def hostTurn (s : State) : Host.Outcome State Fault Refusal :=
  match s.host with
  | [] => .next s.tick
  | op :: rest => hostStep (s.advanceHost rest) op

end Sys2Proof.Machine
end

