-- ==== Sys2Proof/Machine/BlockCodec.lean ====
section
/-! DEFINITION. The block codec (41_block_codec.md): CRC-CCITT, the block verdict, the interleave
permutation, and the commands CRC16, BLK_SEAL, BLK_CHECK, BLK_KIND, LAYOUT_POS and LAYOUT_SEQ. -/

namespace Sys2Proof.Machine

/-! ## CRC (R123, R124) -/

/-- `n` shifts of the CRC register, most significant bit first, polynomial 0x1021 (R124). -/
def crcShift : Nat → BitVec 16 → BitVec 16
  | 0, c => c
  | n + 1, c => if c.msb then crcShift n ((c <<< 1) ^^^ 0x1021#16) else crcShift n (c <<< 1)

/-- One byte through the CRC register (R124). -/
def crcByte (c : BitVec 16) (b : Byte) : BitVec 16 := crcShift 8 (c ^^^ (b.setWidth 16 <<< 8))

/-- crc16(s, c): CRC-CCITT of the bytes `s` from the initial value `c` (R124). -/
def crc16 (s : List Byte) (c : BitVec 16) : BitVec 16 := s.foldl crcByte c

/-- crcBlock(blk, v): over the whole block with bytes 4-5 taken as zero, initial value the version
(R123). -/
def crcBlock (blk : List Byte) (v : Version) : BitVec 16 :=
  crc16 (slice blk 0 4 ++ [0#8, 0#8] ++ slice blk 6 v.blockSize) (v.byte.setWidth 16)

/-! ## The block verdict (R126) -/

/-- The magic "SBx" (R121). -/
def magic : List Byte := [0x53#8, 0x42#8, 0x78#8]

/-- The verdicts of R126 with the version they were reached at: a byte for an unknown version. -/
inductive Verdict where
  | accept (v : Version)
  | misaligned
  | noMagic
  | unknownVersion (b : Byte)
  | truncated (v : Version)
  | crcMismatch (v : Version)
  | versionFiltered (v : Version)
  | uidFiltered (v : Version)
  | outOfRange
  deriving DecidableEq, Repr

/-- The verdict codes of R126. -/
def Verdict.code : Verdict → Word
  | .accept _ => 0#32
  | .misaligned => 1#32
  | .noMagic => 2#32
  | .unknownVersion _ => 3#32
  | .truncated _ => 4#32
  | .crcMismatch _ => 5#32
  | .versionFiltered _ => 6#32
  | .uidFiltered _ => 7#32
  | .outOfRange => 8#32

/-- Verdict(get, p, lim, pv, uf, ref) of R126: the one function that decides every block check.
`get x k` is the k bytes of the byte source from offset x on. -/
def verdict (get : Nat → Nat → List Byte) (p lim : Nat) (pv : Option Version) (uf : Option Word)
    (ref : Option (Version × Word)) : Verdict :=
  if lim < p + 4 ∨ get p 3 ≠ magic then .noMagic
  else
    let b := (get (p + 3) 1).headD 0#8
    match Version.ofByte? b with
    | none => .unknownVersion b
    | some v =>
      if pv.any (fun w => decide (v ≠ w)) then .versionFiltered v
      else if lim < p + v.blockSize then .truncated v
      else
        let blk := get p v.blockSize
        if be16 (slice blk 4 6) ≠ crcBlock blk v then .crcMismatch v
        else
          let uid := be32 (slice blk 6 10)
          if uf.any (fun u => decide (uid ≠ u)) then .uidFiltered v
          else if ref.any (fun r => decide (v ≠ r.1) || decide (uid ≠ r.2)) then .uidFiltered v
          else .accept v

/-! ## Container layout (R131) -/

/-- Phys(s): the physical index of the block with sequence number `sq` in a parity container with D
data and P parity shards a group and burst parameter B (R131). -/
def phys (D P B sq : Nat) : Nat :=
  if sq = 0 then 0
  else
    let n := D + P
    let i := sq - 1
    if B = 0 then 1 + P + i
    else
      let S := n * B
      1 + P + i / S * S + i % S % n * B + i % S / n

/-- Seq(p): the sequence number at physical index `p` (R131). -/
def seqAt (D P B p : Nat) : Nat :=
  if p ≤ P then 0
  else
    let n := D + P
    let t := p - (1 + P)
    if B = 0 then 1 + t
    else
      let S := n * B
      1 + t / S * S + t % S % B * n + t % S / B

/-! ## Commands -/

/-- CRC16's rule (R135). -/
def cmdCrc16 (s : State) : Except CmdError Staged := do
  let c ← s.opInit16 2
  s.checkRange (s.opNat 0) (s.opNat 1)
  return { Staged.none with res := [(crc16 (s.memRead (s.opNat 0) (s.opNat 1)) c).setWidth 32] }

/-- CRC16 (R135). -/
def execCrc16 (s : State) : Host.Outcome State Fault Refusal := .next (s.finish (cmdCrc16 s))

/-- The 16 header bytes of a block with CRC field `c` (R121): magic, version, CRC, UID, sequence number,
and 00 00 in the reserved bytes. -/
def headerBytes (v : Version) (c : BitVec 16) (uid sq : Word) : List Byte :=
  magic ++ [v.byte] ++ bytesBE c.toNat 2 ++ bytesBE uid.toNat 4 ++ bytesBE sq.toNat 4 ++ [0#8, 0#8]

/-- The CRC that BLK_SEAL stamps on a payload (R136): over the new header with a zero CRC field and the
payload. -/
def sealCrc (v : Version) (uid sq : Word) (payload : List Byte) : BitVec 16 :=
  crc16 (headerBytes v 0#16 uid sq ++ payload) (v.byte.setWidth 16)

/-- BLK_SEAL's rule (R136). -/
def cmdBlkSeal (s : State) : Except CmdError Staged := do
  let v ← s.opVer 1
  let a := s.opNat 0
  s.checkRange a v.blockSize
  let blk := s.memRead a v.blockSize
  let c := sealCrc v (s.ARG 2) (s.ARG 3) (slice blk 16 v.blockSize)
  return { Staged.none with
    res := [c.setWidth 32, BitVec.ofNat 32 v.blockSize],
    writes := [(a, headerBytes v c (s.ARG 2) (s.ARG 3))] }

/-- BLK_SEAL (R136). -/
def execBlkSeal (s : State) : Host.Outcome State Fault Refusal := .next (s.finish (cmdBlkSeal s))

/-- BLK_CHECK's expected version: read only under FLAGS.EV (R137). -/
def blkCheckVersion (s : State) (flags : BitVec 8) : Except CmdError (Option Version) :=
  if flags.getLsbD 0 then (s.opXver 2).map some else .ok none

/-- BLK_CHECK's rule (R137), with the FLAGS check of 40_control.md R104 step 1. -/
def cmdBlkCheck (flags : BitVec 8) (s : State) : Except CmdError Staged := do
  raiseIf (!(Instr.blkCheck flags).wellFormed) malformedWord
  let pv ← blkCheckVersion s flags
  let uf := if flags.getLsbD 1 then some (s.ARG 3) else none
  let a := s.opNat 0
  let avail := s.opNat 1
  s.checkRange a avail
  match verdict (fun x k => s.memRead (a + x) k) 0 avail pv uf none with
  | .accept v =>
    let blk := s.memRead a v.blockSize
    .ok { Staged.none with
      res := [v.byte.setWidth 32, be32 (slice blk 6 10), be32 (slice blk 10 14),
              BitVec.ofNat 32 v.blockSize, (be16 (slice blk 4 6)).setWidth 32] }
  | .unknownVersion b => .error (unknownVersionError b)
  | .uidFiltered v => .error { kind := .uidMismatch, info := (Verdict.uidFiltered v).code }
  | vd => .error { kind := .invalidBlock, info := vd.code }

/-- BLK_CHECK (R137). -/
def execBlkCheck (flags : BitVec 8) (s : State) : Host.Outcome State Fault Refusal :=
  .next (s.finish (cmdBlkCheck flags s))

/-- RES0..RES3 of BLK_KIND (R138): kind, group, index within the group, data ordinal. `geom` is (D, P)
for a parity version. -/
def blockKind (sq : Nat) (geom : Option (Nat × Nat)) : List Word :=
  if sq = 0 then [0#32, NONE, NONE, NONE]
  else
    match geom with
    | none => [1#32, NONE, NONE, BitVec.ofNat 32 (sq - 1)]
    | some (D, P) =>
      let n := D + P
      let g := (sq - 1) / n
      let j := (sq - 1) % n
      if j < D then [1#32, BitVec.ofNat 32 g, BitVec.ofNat 32 j, BitVec.ofNat 32 (g * D + j)]
      else [2#32, BitVec.ofNat 32 g, BitVec.ofNat 32 (j - D), NONE]

/-- The geometry operand of BLK_KIND, LAYOUT_POS and LAYOUT_SEQ: read only for a parity version. -/
def parityGeom (s : State) (v : Version) : Except CmdError (Option (Nat × Nat)) :=
  if v.isParity then (s.opGeom 2).map some else .ok none

/-- BLK_KIND's rule (R138). -/
def cmdBlkKind (s : State) : Except CmdError Staged := do
  let v ← s.opVer 1
  let geom ← parityGeom s v
  return { Staged.none with res := blockKind (s.opNat 0) geom }

/-- BLK_KIND (R138). -/
def execBlkKind (s : State) : Host.Outcome State Fault Refusal := .next (s.finish (cmdBlkKind s))

/-- The checks that LAYOUT_POS and LAYOUT_SEQ share, in R139's order: the geometry of a parity version
(none for another) and B. -/
def layoutOperands (s : State) : Except CmdError (Option (Nat × Nat) × Nat) := do
  let v ← s.opVer 1
  let geom ← parityGeom s v
  let B ← s.opBurst 3 v
  return (geom, B)

/-- A layout result above 2^32 - 1 is Usage(0) (R139, R140). -/
def layoutFits (x : Nat) : Except CmdError Unit := raiseIf (decide (2 ^ 32 - 1 < x)) (usageError 0)

/-- LAYOUT_POS's rule (R139). -/
def cmdLayoutPos (s : State) : Except CmdError Staged := do
  let (geom, B) ← layoutOperands s
  let sq := s.opNat 0
  match geom with
  | none =>
    return { Staged.none with res := [BitVec.ofNat 32 sq, if sq = 0 then 0#32 else NONE] }
  | some (D, P) =>
    if sq = 0 then return { Staged.none with res := [0#32, BitVec.ofNat 32 P] }
    else
      layoutFits (phys D P B sq)
      return { Staged.none with res := [BitVec.ofNat 32 (phys D P B sq), NONE] }

/-- LAYOUT_POS (R139). -/
def execLayoutPos (s : State) : Host.Outcome State Fault Refusal :=
  .next (s.finish (cmdLayoutPos s))

/-- LAYOUT_SEQ's rule (R140). -/
def cmdLayoutSeq (s : State) : Except CmdError Staged := do
  let (geom, B) ← layoutOperands s
  let p := s.opNat 0
  match geom with
  | none => return { Staged.none with res := [BitVec.ofNat 32 p, if p = 0 then 0#32 else NONE] }
  | some (D, P) =>
    if p ≤ P then return { Staged.none with res := [0#32, BitVec.ofNat 32 p] }
    else
      layoutFits (seqAt D P B p)
      return { Staged.none with res := [BitVec.ofNat 32 (seqAt D P B p), NONE] }

/-- LAYOUT_SEQ (R140). -/
def execLayoutSeq (s : State) : Host.Outcome State Fault Refusal :=
  .next (s.finish (cmdLayoutSeq s))

end Sys2Proof.Machine
end

