-- ==== Sys2Proof/Machine/Control.lean ====
section
/-! DEFINITION. The control family (40_control.md): NOP. -/

namespace Sys2Proof.Machine

/-- NOP (R106): it stages nothing, so RES0..RES7 become 0 at its completion. -/
def execNop (s : State) : Host.Outcome State Fault Refusal := .next (s.finish (.ok Staged.none))

end Sys2Proof.Machine
end

