-- ==== Sys2Proof/Machine/Gf.lean ====
section
/-! DEFINITION. GF(2^8) with the polynomial 0x11D and matrices over it (43_reed_solomon.md R190-R195),
and the commands GF_MUL and GF_INV. -/

namespace Sys2Proof.Machine

/-! ## The field (R190-R192) -/

/-- a · x reduced modulo x^8 + x^4 + x^3 + x^2 + 1 (R190): a shift, and 0x11D taken off when bit 8 came
up (in eight bits, 0x1D). -/
def gfDouble (a : Byte) : Byte := if a.msb then (a <<< 1) ^^^ 0x1D#8 else a <<< 1

/-- The loop of R190, `n` rounds left: p gathers a · x^k for the bits of b. -/
def gmulLoop : Nat → Byte → Byte → Byte → Byte
  | 0, _, _, p => p
  | n + 1, a, b, p =>
    if b.getLsbD 0 then gmulLoop n (gfDouble a) (b >>> 1) (p ^^^ a)
    else gmulLoop n (gfDouble a) (b >>> 1) p

/-- gmul(a, b), the field product (R190). -/
def gmul (a b : Byte) : Byte := gmulLoop 8 a b 0#8

/-- gexp(a, k), the power (R192): 1 for k = 0, also for a = 0. -/
def gexp (a : Byte) : Nat → Byte
  | 0 => 1#8
  | k + 1 => gmul (gexp a k) a

/-- EXP[k] = 2^k (R191). -/
def gfExp (k : Nat) : Byte := gexp 2#8 k

/-- LOG[a] for a ≠ 0: the least k with EXP[k] = a (R191). -/
def gfLog (a : Byte) : Nat := ((List.range 255).find? (fun k => gfExp k == a)).getD 0

/-- inv(a) = a^254 for a ≠ 0, the unique b with a ⊗ b = 1 (R192), as the product of a^2, a^4, ..,
a^128. -/
def ginv (a : Byte) : Byte :=
  let a2 := gmul a a
  let a4 := gmul a2 a2
  let a8 := gmul a4 a4
  let a16 := gmul a8 a8
  let a32 := gmul a16 a16
  let a64 := gmul a32 a32
  let a128 := gmul a64 a64
  gmul a128 (gmul a64 (gmul a32 (gmul a16 (gmul a8 (gmul a4 a2)))))

/-! ## Vectors and matrices over the field, a matrix as the list of its rows -/

/-- A matrix over GF(2^8), row by row. -/
abbrev GfMatrix := List (List Byte)

/-- x ⊗ v, element by element. -/
def gfScale (x : Byte) (v : List Byte) : List Byte := v.map (gmul x)

/-- u ⊕ v, element by element. -/
def gfAdd (u v : List Byte) : List Byte := List.zipWith (fun a b => a ^^^ b) u v

/-- ⊕_k coeffs[k] ⊗ rows[k], for rows of length `len`. -/
def gfCombine (len : Nat) : List Byte → GfMatrix → List Byte
  | x :: xs, v :: vs => gfAdd (gfScale x v) (gfCombine len xs vs)
  | _, _ => zeros len

/-- The matrix product X · Y for Y with rows of length `len` (R194). -/
def gfMatMul (len : Nat) (X Y : GfMatrix) : GfMatrix := X.map (fun row => gfCombine len row Y)

/-- Entry [r][c] of a matrix. -/
def gfEntry (X : GfMatrix) (r c : Nat) : Byte := (X.getD r []).getD c 0#8

/-- Row c of the identity matrix of size `n`. -/
def gfUnit (n c : Nat) : List Byte := (List.range n).map (fun j => if j = c then 1#8 else 0#8)

/-- The identity matrix I of size `n`. -/
def gfIdentity (n : Nat) : GfMatrix := (List.range n).map (gfUnit n)

/-- The first row with a non-zero element at column `c`, and the other rows in order. -/
def pickPivot (c : Nat) : GfMatrix → Option (List Byte × GfMatrix)
  | [] => none
  | row :: rows =>
    if row.getD c 0#8 = 0#8 then (pickPivot c rows).map (fun p => (p.1, row :: p.2))
    else some (row, rows)

/-- A row with its element at column `c` cleared by the pivot row (whose element there is 1). -/
def clearColumn (c : Nat) (pivot row : List Byte) : List Byte :=
  gfAdd row (gfScale (row.getD c 0#8) pivot)

/-- Gauss-Jordan elimination (R195) from column `c` on, `n` columns left: `top` holds the rows whose
pivots are columns 0 .. c-1, `rest` the others. A column with no pivot is passed over: the engine
inverts only invertible matrices (R196). -/
def gaussJordan : Nat → Nat → GfMatrix → GfMatrix → GfMatrix
  | 0, _, top, rest => top ++ rest
  | n + 1, c, top, rest =>
    match pickPivot c rest with
    | none => gaussJordan n (c + 1) top rest
    | some (p, others) =>
      let pivot := gfScale (ginv (p.getD c 0#8)) p
      gaussJordan n (c + 1) (top.map (clearColumn c pivot) ++ [pivot])
        (others.map (clearColumn c pivot))

/-- X⁻¹ for a square matrix X of size `n` (R195): X beside the identity, eliminated, the right half. -/
def gfInverse (n : Nat) (X : GfMatrix) : GfMatrix :=
  (gaussJordan n 0 [] (List.zipWith (fun row u => row ++ u) X (gfIdentity n))).map
    (fun row => row.drop n)

/-! ## Commands -/

/-- GF_MUL's rule (R205). -/
def cmdGfMul (s : State) : Except CmdError Staged := do
  let a ← s.opByte 0
  let b ← s.opByte 1
  return { Staged.none with res := [(gmul a b).setWidth 32] }

/-- GF_MUL (R205). -/
def execGfMul (s : State) : Host.Outcome State Fault Refusal := .next (s.finish (cmdGfMul s))

/-- GF_INV's rule (R206): 0 has no inverse. -/
def cmdGfInv (s : State) : Except CmdError Staged := do
  let a ← s.opByte 0
  raiseIf (decide (a = 0#8)) (usageError 0)
  return { Staged.none with res := [(ginv a).setWidth 32] }

/-- GF_INV (R206). -/
def execGfInv (s : State) : Host.Outcome State Fault Refusal := .next (s.finish (cmdGfInv s))

end Sys2Proof.Machine
end

