-- ==== Sys2Proof/Machine/ReedSolomon.lean ====
section
/-! DEFINITION. The Reed-Solomon coder (43_reed_solomon.md): the encoding matrix, encode, reconstruct and
majority vote, and the commands RS_COEF, RS_ENCODE, RS_RECON and RS_VOTE. -/

namespace Sys2Proof.Machine

/-! ## The encoding matrix (R193, R194) -/

/-- Row r of the Vandermonde matrix: V[r][c] = gexp(r, c) for c in [0, D) (R193). -/
def vandermondeRow (D r : Nat) : List Byte := (List.range D).map (fun c => gexp (BitVec.ofNat 8 r) c)

/-- The first `n` rows of V (R193). -/
def vandermonde (n D : Nat) : GfMatrix := (List.range n).map (vandermondeRow D)

/-- T⁻¹, for T the rows 0 .. D-1 of V (R194). -/
def topInverse (D : Nat) : GfMatrix := gfInverse D (vandermonde D D)

/-- The encoding matrix M = V · T⁻¹ with n = D + P rows (R194). -/
def encMatrix (D P : Nat) : GfMatrix := gfMatMul D (vandermonde (D + P) D) (topInverse D)

/-! ## Encode, reconstruct, vote (R200-R202) -/

/-- parity_j of the data shards, each of length L (R200): row D + j of M applied to them. -/
def parityShard (M : GfMatrix) (D L j : Nat) (data : List (List Byte)) : List Byte :=
  gfCombine L (M.getD (D + j) []) data

/-- The data shards d_0 .. d_{D-1} of Reconstruct (R201): present shards as they are, missing ones from
the D lowest present shards. -/
def reconData (M : GfMatrix) (D L : Nat) (sh : Nat → List Byte) (present : List Nat) :
    List (List Byte) :=
  let S := present.take D
  let Y := gfInverse D (S.map (fun r => M.getD r []))
  let used := S.map sh
  (List.range D).map (fun i =>
    if present.contains i then sh i else gfCombine L (Y.getD i []) used)

/-- out_m for a missing shard m (R201). -/
def reconShard (M : GfMatrix) (D L : Nat) (data : List (List Byte)) (m : Nat) : List Byte :=
  if m < D then data.getD m [] else parityShard M D L (m - D) data

/-- The number of present shards whose content is that of shard i: the size of i's class (R202). -/
def voteCount (sh : Nat → List Byte) (present : List Nat) (i : Nat) : Nat :=
  (present.filter (fun j => sh j == sh i)).length

/-- The size of the largest class (R202). -/
def voteMax (sh : Nat → List Byte) (present : List Nat) : Nat :=
  (present.map (voteCount sh present)).foldl max 0

/-- The winning index (R202): the smallest member of the largest class; among classes of equal size, of
the class whose smallest member is smallest. That is the smallest present index in a largest class. -/
def voteWinner (sh : Nat → List Byte) (present : List Nat) : Nat :=
  (present.find? (fun i => voteCount sh present i == voteMax sh present)).getD 0

/-! ## Commands -/

/-- RS_COEF's rule (R207). -/
def cmdRsCoef (s : State) : Except CmdError Staged := do
  let (D, P) ← s.opGeom 0
  raiseIf (decide (D + P ≤ s.opNat 1)) (usageError 1)
  raiseIf (decide (D ≤ s.opNat 2)) (usageError 2)
  return { Staged.none with
    res := [(gfEntry (encMatrix D P) (s.opNat 1) (s.opNat 2)).setWidth 32] }

/-- RS_COEF (R207). -/
def execRsCoef (s : State) : Host.Outcome State Fault Refusal := .next (s.finish (cmdRsCoef s))

/-- The region of shard i starts at base + i · stride (R198, R111). -/
def State.shardAddr (s : State) (i : Nat) : Nat := s.opNat 0 + i * s.opNat 1

/-- The content of shard i (R198). -/
def State.shard (s : State) (L i : Nat) : List Byte := s.memRead (s.shardAddr i) L

/-- The indices in [0, n) of the present shards, ascending (R31, R209). -/
def State.presentShards (s : State) (n : Nat) : List Nat := (List.range n).filter s.mask

/-- The indices in [0, n) of the missing shards, ascending. -/
def State.missingShards (s : State) (n : Nat) : List Nat :=
  (List.range n).filter (fun i => !s.mask i)

/-- The cross-argument and range checks that the RS commands share (R208): the stride, then the whole
span from shard 0 to the end of shard n-1. -/
def State.checkShards (s : State) (L n : Nat) : Except CmdError Unit := do
  raiseIf (decide (s.opNat 1 < L)) (usageError 1)
  s.checkRange (s.opNat 0) ((n - 1) * s.opNat 1 + L)

/-- The checks of RS_ENCODE and RS_RECON in R208's order: the shard length L and (D, P). -/
def rsOperands (s : State) : Except CmdError (Nat × Nat × Nat) := do
  let v ← s.opPver 2
  let (D, P) ← s.opGeom 3
  s.checkShards v.payloadLen (D + P)
  return (v.payloadLen, D, P)

/-- RS_ENCODE's rule (R208). -/
def cmdRsEncode (s : State) : Except CmdError Staged := do
  let (L, D, P) ← rsOperands s
  let data := (List.range D).map (s.shard L)
  let M := encMatrix D P
  return { Staged.none with
    res := [BitVec.ofNat 32 (D + P), BitVec.ofNat 32 L],
    writes := (List.range P).map (fun j => (s.shardAddr (D + j), parityShard M D L j data)) }

/-- RS_ENCODE (R208). -/
def execRsEncode (s : State) : Host.Outcome State Fault Refusal := .next (s.finish (cmdRsEncode s))

/-- RS_RECON's rule (R209). -/
def cmdRsRecon (s : State) : Except CmdError Staged := do
  let (L, D, P) ← rsOperands s
  let n := D + P
  let present := s.presentShards n
  raiseIf (decide (present.length < D)) (insufficientError present.length)
  let M := encMatrix D P
  let data := reconData M D L (s.shard L) present
  return { Staged.none with
    res := [BitVec.ofNat 32 (n - present.length), BitVec.ofNat 32 L],
    writes := (s.missingShards n).map (fun m => (s.shardAddr m, reconShard M D L data m)) }

/-- RS_RECON (R209). -/
def execRsRecon (s : State) : Host.Outcome State Fault Refusal := .next (s.finish (cmdRsRecon s))

/-- RS_VOTE's rule (R210). -/
def cmdRsVote (s : State) : Except CmdError Staged := do
  let v ← s.opPver 2
  let P ← s.opVgeom 3
  let L := v.payloadLen
  let n := 1 + P
  s.checkShards L n
  let present := s.presentShards n
  raiseIf present.isEmpty (insufficientError 0)
  let win := voteWinner (s.shard L) present
  let votes := voteMax (s.shard L) present
  return { Staged.none with
    res := [BitVec.ofNat 32 win, BitVec.ofNat 32 votes, BitVec.ofNat 32 (present.length - votes),
            BitVec.ofNat 32 (n - present.length)],
    writes := (s.missingShards n).map (fun m => (s.shardAddr m, s.shard L win)) }

/-- RS_VOTE (R210). -/
def execRsVote (s : State) : Host.Outcome State Fault Refusal := .next (s.finish (cmdRsVote s))

end Sys2Proof.Machine
end

