-- ==== Sys2Proof/Machine/Scanner.lean ====
section
/-! DEFINITION. The block scanner and alignment validator (44_scanner.md): SCAN_INIT, SCAN_NEXT and
SCAN_PROBE over the scanner registers. Offsets are stream offsets (R231). -/

namespace Sys2Proof.Machine

/-- get(x, k) of the stream: BUF bytes from SCAN_BASE + x on, from the snapshot (R231). -/
def State.streamRead (s : State) (x k : Nat) : List Byte := s.memRead (s.scan.base.toNat + x) k

/-- clamp(x) of R233. -/
def clampTo (x : Int) (len : Nat) : Nat := min x.toNat len

/-- The strict reference of a scan verdict: (REF_VER, REF_UID) if STRICT = 1 and REF_VALID = 1 (R236). -/
def Scan.strictRef (c : Scan) : Option (Version × Word) :=
  if c.strict then c.ref.map (fun r => (r.ver, r.uid)) else none

/-- ScanVerdict(p) (R236). -/
def State.scanVerdict (s : State) (p : Nat) : Verdict :=
  verdict s.streamRead p s.scan.to_.toNat s.scan.pv s.scan.uid s.scan.strictRef

/-- The step after a rejected candidate (R235): A before a reference is held, bs(REF_VER) after. -/
def Scan.step (c : Scan) : Nat :=
  match c.ref with
  | some r => r.ver.blockSize
  | none => c.align.bytes

/-- A verdict that SCAN_ERRS counts: 3, 4, 5, 6 or 7 (R238). -/
def Verdict.counted : Verdict → Bool
  | .unknownVersion _ => true
  | .truncated _ => true
  | .crcMismatch _ => true
  | .versionFiltered _ => true
  | .uidFiltered _ => true
  | .accept _ => false
  | .misaligned => false
  | .noMagic => false
  | .outOfRange => false

/-! ## SCAN_INIT -/

/-- SCAN_INIT's version filter: read only under FLAGS.PV (R245). -/
def scanInitVersion (s : State) (flags : BitVec 8) : Except CmdError (Option Version) :=
  if flags.getLsbD 2 then (s.opXver 5).map some else .ok none

/-- SCAN_INIT's rule (R245). -/
def cmdScanInit (flags : BitVec 8) (s : State) : Except CmdError Staged := do
  raiseIf (!(Instr.scanInit flags).wellFormed) malformedWord
  let al ← s.opAlign 4
  let pv ← scanInitVersion s flags
  s.checkRange (s.opNat 0) (s.opNat 1)
  let len := s.opNat 1
  let from_ := clampTo (s.opSoff 2) len
  let to_ := if flags.getLsbD 0 then clampTo (s.opSoff 3) len else len
  let pos := alignUp from_ al.bytes
  return { Staged.none with
    res := [BitVec.ofNat 32 from_, BitVec.ofNat 32 to_, BitVec.ofNat 32 pos],
    scan := some
      { base := s.ARG 0, len := s.ARG 1, from_ := BitVec.ofNat 32 from_, to_ := BitVec.ofNat 32 to_,
        pos := BitVec.ofNat 32 pos, align := al, strict := flags.getLsbD 1,
        toSet := flags.getLsbD 0, pv := pv,
        uid := if flags.getLsbD 3 then some (s.ARG 6) else none,
        ref := none, exhausted := false, errs := 0 } }

/-- SCAN_INIT (R245). -/
def execScanInit (flags : BitVec 8) (s : State) : Host.Outcome State Fault Refusal :=
  .next (s.finish (cmdScanInit flags s))

/-! ## SCAN_NEXT -/

/-- What the candidate loop of SCAN_NEXT ends with. -/
structure ScanOutcome where
  /-- The version of the accepted block, if a candidate was accepted. -/
  found : Option Version
  /-- The accepted candidate, or the first candidate at or after SCAN_TO. -/
  at_ : Nat
  /-- SCAN_ERRS after the loop. -/
  errs : Word
  deriving DecidableEq, Repr

/-- The loop of R246 from candidate `p` on. Every step is at least 128, so a fuel of SCAN_TO - p is
enough (Laws/Scanner.lean proves it). -/
def scanLoop (s : State) : Nat → Nat → Word → ScanOutcome
  | 0, p, errs => { found := none, at_ := p, errs := errs }
  | fuel + 1, p, errs =>
    if p < s.scan.to_.toNat then
      match s.scanVerdict p with
      | .accept v => { found := some v, at_ := p, errs := errs }
      | vd =>
        if vd.counted then scanLoop s fuel (p + s.scan.step) (errs + 1)
        else scanLoop s fuel (p + s.scan.step) errs
    else { found := none, at_ := p, errs := errs }

/-- The reference that a scan holds after a block of version `v` and UID `uid` is accepted at `p`: the
one it held, or this block (R237). -/
def Scan.adopt (c : Scan) (p : Nat) (v : Version) (uid : Word) : ScanRef :=
  match c.ref with
  | some r => r
  | none => { off := BitVec.ofNat 32 p, ver := v, uid := uid }

/-- SCAN_NEXT's rule (R246). -/
def cmdScanNext (s : State) : Except CmdError Staged :=
  if s.scan.exhausted then .ok { Staged.none with res := [0#32] }
  else
    let p0 := s.scan.pos.toNat
    let o := scanLoop s (s.scan.to_.toNat - p0) p0 s.scan.errs
    match o.found with
    | some v =>
      let h := s.streamRead o.at_ 16
      let uid := be32 (slice h 6 10)
      let ref := s.scan.adopt o.at_ v uid
      .ok { Staged.none with
        res := [1#32, BitVec.ofNat 32 o.at_, v.byte.setWidth 32, uid, be32 (slice h 10 14),
                BitVec.ofNat 32 v.blockSize],
        scan := some
          { s.scan with ref := some ref, pos := BitVec.ofNat 32 (o.at_ + ref.ver.blockSize),
                        errs := o.errs } }
    | none =>
      .ok { Staged.none with
        res := [0#32],
        scan := some { s.scan with pos := BitVec.ofNat 32 o.at_, exhausted := true,
                                   errs := o.errs } }

/-- SCAN_NEXT (R246). -/
def execScanNext (s : State) : Host.Outcome State Fault Refusal := .next (s.finish (cmdScanNext s))

/-! ## SCAN_PROBE -/

/-- Whether offset `p` is off the scanner's lattice (R247): with a reference, the mathematical remainder
of p - REF_OFF by bs(REF_VER); without, that of p by A. -/
def Scan.misaligned (c : Scan) (p : Nat) : Bool :=
  match c.ref with
  | some r => decide (((p : Int) - (r.off.toNat : Int)) % (r.ver.blockSize : Int) ≠ 0)
  | none => decide (p % c.align.bytes ≠ 0)

/-- RES1..RES4 of SCAN_PROBE after a verdict other than NO_MAGIC (R247): the version byte, the header's
UID and sequence number where the 16-byte header lies below SCAN_TO, the version's block size. -/
def State.probeHeader (s : State) (p : Nat) : List Word :=
  let b := (s.streamRead (p + 3) 1).headD 0#8
  let whole := decide (p + 16 ≤ s.scan.to_.toNat)
  [b.setWidth 32,
   if whole then be32 (s.streamRead (p + 6) 4) else 0#32,
   if whole then be32 (s.streamRead (p + 10) 4) else 0#32,
   BitVec.ofNat 32 (((Version.ofByte? b).map Version.blockSize).getD 0)]

/-- RES of SCAN_PROBE (R247). -/
def State.probeResult (s : State) (p : Nat) : List Word :=
  if p < s.scan.from_.toNat ∨ s.scan.to_.toNat ≤ p then [Verdict.outOfRange.code]
  else if s.scan.misaligned p then [Verdict.misaligned.code]
  else
    match s.scanVerdict p with
    | .noMagic => [Verdict.noMagic.code]
    | vd => vd.code :: s.probeHeader p

/-- SCAN_PROBE's rule (R247). -/
def cmdScanProbe (s : State) : Except CmdError Staged :=
  .ok { Staged.none with res := s.probeResult (s.opNat 0) }

/-- SCAN_PROBE (R247). -/
def execScanProbe (s : State) : Host.Outcome State Fault Refusal := .next (s.finish (cmdScanProbe s))

end Sys2Proof.Machine
end

