-- ==== Sys2Proof/Machine/Tlv.lean ====
section
/-! DEFINITION. The metadata TLV and multihash framing (42_metadata_tlv.md): the parse algorithm and the
record checks that every TLV command shares, and the commands TLV_PARSE, TLV_FIND, TLV_APPEND, TLV_PAD
and MH_PARSE. Offsets are relative to the payload start. -/

namespace Sys2Proof.Machine

/-! ## Tags (R162) -/

/-- "FNM" -/
def tagFNM : Tag := 0x464E4D#24
/-- "SNM" -/
def tagSNM : Tag := 0x534E4D#24
/-- "FSZ" -/
def tagFSZ : Tag := 0x46535A#24
/-- "FDT" -/
def tagFDT : Tag := 0x464454#24
/-- "SDT" -/
def tagSDT : Tag := 0x534454#24
/-- "HSH" -/
def tagHSH : Tag := 0x485348#24
/-- "PID" -/
def tagPID : Tag := 0x504944#24
/-- "PAD" -/
def tagPAD : Tag := 0x504144#24

/-- The presence bit of a tag: 0 to 7 for the known tags, 8 for any other (R162). -/
def presenceBit (t : Tag) : Nat :=
  if t = tagFNM then 0
  else if t = tagSNM then 1
  else if t = tagFSZ then 2
  else if t = tagFDT then 3
  else if t = tagSDT then 4
  else if t = tagHSH then 5
  else if t = tagPID then 6
  else if t = tagPAD then 7
  else 8

/-! ## Records (R161, R164, R165) -/

/-- A record: its tag, its length, its value offset c + 4 and its record offset c (R164). -/
structure TlvRec where
  tag : Tag
  len : Nat
  off : Nat
  rc : Nat
  deriving DecidableEq, Repr

/-- The tag of three bytes, t0 first. -/
def tagOfBytes (s : List Byte) : Tag := BitVec.ofNat 24 (beNat s)

/-- The three bytes of a tag. -/
def tagBytes (t : Tag) : List Byte := bytesBE t.toNat 3

/-- The value bytes of PID are both in [1, 128] (R165). -/
def pidOk (val : List Byte) : Bool :=
  shardCountOk (val.getD 0 0#8).toNat && shardCountOk (val.getD 1 0#8).toNat

/-- CheckRecord(t, len, val, seen, c) (R165): every failure is MetadataMalformed(c). -/
def checkRecord (t : Tag) (len : Nat) (val : List Byte) (seen : List Tag) (c : Nat) :
    Except CmdError Unit := do
  raiseIf (decide (t = tagFSZ ∨ t = tagFDT ∨ t = tagSDT) && decide (len ≠ 8)) (malformedError c)
  raiseIf (decide (t = tagPID) && decide (len ≠ 2)) (malformedError c)
  raiseIf (seen.contains t) (malformedError c)
  raiseIf (decide (t = tagPID) && !pidOk val) (malformedError c)

/-- ParseTLV from offset `c` on (R164): the records and the stop offset. A record takes at least 4
bytes, so a fuel of L is enough for a payload of L bytes. -/
def parseTlvFrom : Nat → List Byte → Nat → Nat → List Tag → Except CmdError (List TlvRec × Nat)
  | 0, _, _, c, _ => .ok ([], c)
  | fuel + 1, pl, L, c, seen =>
    if L - c < 4 then .ok ([], c)
    else
      let tag := tagOfBytes (slice pl c (c + 3))
      if tag = 0#24 then .ok ([], c)
      else
        let len := (pl.getD (c + 3) 0#8).toNat
        if L < c + 4 + len then .error (malformedError c)
        else do
          checkRecord tag len (slice pl (c + 4) (c + 4 + len)) seen c
          let r : TlvRec := { tag := tag, len := len, off := c + 4, rc := c }
          if tag = tagPAD then return ([r], c + 4 + len)
          else
            let (rs, stop) ← parseTlvFrom fuel pl L (c + 4 + len) (tag :: seen)
            return (r :: rs, stop)

/-- ParseTLV(pl, L) (R164). -/
def parseTlv (pl : List Byte) (L : Nat) : Except CmdError (List TlvRec × Nat) :=
  parseTlvFrom L pl L 0 []

/-- ParsePrefix from offset `c` on (R172): the tags of the records of [0, lim), which must be whole
records with no PAD. -/
def parseLeadingFrom : Nat → List Byte → Nat → Nat → List Tag → Except CmdError (List Tag)
  | 0, _, _, _, seen => .ok seen
  | fuel + 1, pl, lim, c, seen =>
    if lim - c < 4 then if c ≠ lim then .error (malformedError c) else .ok seen
    else
      let tag := tagOfBytes (slice pl c (c + 3))
      if tag = 0#24 ∨ tag = tagPAD then .error (malformedError c)
      else
        let len := (pl.getD (c + 3) 0#8).toNat
        if lim < c + 4 + len then .error (malformedError c)
        else do
          checkRecord tag len (slice pl (c + 4) (c + 4 + len)) seen c
          parseLeadingFrom fuel pl lim (c + 4 + len) (tag :: seen)

/-- ParsePrefix(pl, lim) (R172): the tags of the records in [0, lim). -/
def parseLeading (pl : List Byte) (lim : Nat) : Except CmdError (List Tag) :=
  parseLeadingFrom (lim + 1) pl lim 0 []

/-! ## Commands -/

/-- The presence mask RES1 of TLV_PARSE (R170). -/
def presenceMask (recs : List TlvRec) : Word :=
  recs.foldl (fun m r => m ||| (1#32 <<< presenceBit r.tag)) 0#32

/-- RES2 of TLV_PARSE: PID as D | P << 8, 0 if absent (R170). -/
def pidResult (pl : List Byte) (recs : List TlvRec) : Word :=
  match recs.find? (fun r => r.tag == tagPID) with
  | none => 0#32
  | some r => BitVec.ofNat 32 ((pl.getD r.off 0#8).toNat + 256 * (pl.getD (r.off + 1) 0#8).toNat)

/-- FSZ as a 64-bit value, 0 if absent (R170). -/
def fszResult (pl : List Byte) (recs : List TlvRec) : BitVec 64 :=
  match recs.find? (fun r => r.tag == tagFSZ) with
  | none => 0#64
  | some r => be64 (slice pl r.off (r.off + 8))

/-- A directory entry: tag, length, value offset as 32 bits (R168). -/
def dirEntry (r : TlvRec) : List Byte :=
  tagBytes r.tag ++ [BitVec.ofNat 8 r.len] ++ bytesBE r.off 4

/-- The directory writes of TLV_PARSE: entry e at dir + 8 e (R168). -/
def dirWrites (dir : Nat) : List TlvRec → List (Nat × List Byte)
  | [] => []
  | r :: rs => (dir, dirEntry r) :: dirWrites (dir + 8) rs

/-- TLV_PARSE's rule (R170). -/
def cmdTlvParse (s : State) : Except CmdError Staged := do
  let v ← s.opVer 1
  s.checkRange (s.opNat 0) v.payloadLen
  s.checkRange (s.opNat 2) (8 * s.opNat 3)
  let pl := s.memRead (s.opNat 0) v.payloadLen
  let (recs, stop) ← parseTlv pl v.payloadLen
  let fsz := fszResult pl recs
  return { Staged.none with
    res := [BitVec.ofNat 32 recs.length, presenceMask recs, pidResult pl recs, BitVec.ofNat 32 stop,
            fsz.extractLsb' 32 32, fsz.extractLsb' 0 32],
    writes := dirWrites (s.opNat 2) (recs.take (s.opNat 3)) }

/-- TLV_PARSE (R170). -/
def execTlvParse (s : State) : Host.Outcome State Fault Refusal := .next (s.finish (cmdTlvParse s))

/-- RES0..RES3 of TLV_FIND (R171): found, value offset, value length, record offset; all 0 when no
record has the tag. -/
def findResult (recs : List TlvRec) (t : Tag) : List Word :=
  match recs.find? (fun r => r.tag == t) with
  | none => [0#32, 0#32, 0#32, 0#32]
  | some r => [1#32, BitVec.ofNat 32 r.off, BitVec.ofNat 32 r.len, BitVec.ofNat 32 r.rc]

/-- TLV_FIND's rule (R171). -/
def cmdTlvFind (s : State) : Except CmdError Staged := do
  let v ← s.opVer 1
  let t ← s.opTag 2
  s.checkRange (s.opNat 0) v.payloadLen
  let (recs, _) ← parseTlv (s.memRead (s.opNat 0) v.payloadLen) v.payloadLen
  return { Staged.none with res := findResult recs t }

/-- TLV_FIND (R171). -/
def execTlvFind (s : State) : Host.Outcome State Fault Refusal := .next (s.finish (cmdTlvFind s))

/-- TLV_APPEND's tag operand (R172): neither PAD nor 00 00 00. -/
def opAppendTag (s : State) : Except CmdError Tag := do
  let t ← s.opTag 2
  raiseIf (decide (t = tagPAD ∨ t = 0#24)) (usageError 2)
  return t

/-- The bytes of a record: tag, length, value (R161). -/
def recordBytes (t : Tag) (val : List Byte) : List Byte :=
  tagBytes t ++ [BitVec.ofNat 8 val.length] ++ val

/-- TLV_APPEND's rule (R172). -/
def cmdTlvAppend (s : State) : Except CmdError Staged := do
  let v ← s.opVer 1
  let t ← opAppendTag s
  let len ← s.opTlen 4
  s.checkRange (s.opNat 0) v.payloadLen
  s.checkRange (s.opNat 5) len
  let cur := s.opNat 3
  raiseIf (decide (v.payloadLen < cur + 4 + len)) (malformedError cur)
  let seen ← parseLeading (s.memRead (s.opNat 0) v.payloadLen) cur
  let val := s.memRead (s.opNat 5) len
  checkRecord t len val seen cur
  return { Staged.none with
    res := [BitVec.ofNat 32 (cur + 4 + len)],
    writes := [(s.opNat 0 + cur, recordBytes t val)] }

/-- TLV_APPEND (R172). -/
def execTlvAppend (s : State) : Host.Outcome State Fault Refusal :=
  .next (s.finish (cmdTlvAppend s))

/-- The padding of the last R bytes of a payload (R166): a PAD record and zero fill, zeros alone where
no record fits. -/
def padBytes (R : Nat) : List Byte :=
  if 4 ≤ R then tagBytes tagPAD ++ [BitVec.ofNat 8 (min 255 (R - 4))] ++ zeros (R - 4) else zeros R

/-- RES1 of TLV_PAD: the PAD record's length byte, or NONE when no PAD record was written (R173). -/
def padLength (R : Nat) : Word := if 4 ≤ R then BitVec.ofNat 32 (min 255 (R - 4)) else NONE

/-- TLV_PAD's rule (R173). -/
def cmdTlvPad (s : State) : Except CmdError Staged := do
  let v ← s.opVer 1
  let cur := s.opNat 3
  raiseIf (decide (v.payloadLen < cur)) (usageError 3)
  s.checkRange (s.opNat 0) v.payloadLen
  let R := v.payloadLen - cur
  return { Staged.none with
    res := [BitVec.ofNat 32 v.payloadLen, padLength R],
    writes := [(s.opNat 0 + cur, padBytes R)] }

/-- TLV_PAD (R173). -/
def execTlvPad (s : State) : Host.Outcome State Fault Refusal := .next (s.finish (cmdTlvPad s))

/-! ## Multihash framing (R167) -/

/-- Varint from byte `k` on, the i-th byte of at most 4, `i = 4 - fuel` (R167): the value and the offset
after it; MetadataMalformed(start) past the end of the value or at a fifth byte. -/
def varintFrom (b : List Byte) (n start : Nat) : Nat → Nat → Nat → Except CmdError (Nat × Nat)
  | 0, _, _ => .error (malformedError start)
  | fuel + 1, k, value =>
    if n ≤ k then .error (malformedError start)
    else
      let x := b.getD k 0#8
      let value' := value + (x &&& 0x7F#8).toNat * 2 ^ (7 * (3 - fuel))
      if x.getLsbD 7 then varintFrom b n start fuel (k + 1) value' else .ok (value', k + 1)

/-- Varint(b, k, n): unsigned LEB128 of at most 4 bytes (R167). -/
def varint (b : List Byte) (k n : Nat) : Except CmdError (Nat × Nat) := varintFrom b n k 4 k 0

/-- MH_PARSE's rule (R174). -/
def cmdMhParse (s : State) : Except CmdError Staged := do
  let n ← s.opTlen 1
  s.checkRange (s.opNat 0) n
  let b := s.memRead (s.opNat 0) n
  let (code, k1) ← varint b 0 n
  let (dl, k2) ← varint b k1 n
  raiseIf (decide (n - k2 < dl)) (malformedError k1)
  return { Staged.none with
    res := [BitVec.ofNat 32 code, BitVec.ofNat 32 dl, BitVec.ofNat 32 k2,
            if code = 0x12 ∧ dl = 32 then 1#32 else 0#32, BitVec.ofNat 32 (n - k2 - dl)] }

/-- MH_PARSE (R174). -/
def execMhParse (s : State) : Host.Outcome State Fault Refusal := .next (s.finish (cmdMhParse s))

end Sys2Proof.Machine
end

