-- ==== Sys2Proof/Machine/Dispatch.lean ====
section
/-! DEFINITION. exec: one arm per command of 30_encoding.md R83, each one call of its meaning. exec runs
the command in flight to its completion (40_control.md R101-R103). -/

namespace Sys2Proof.Machine

open Sys2Proof

def exec (i : Instr) (s : State) : Host.Outcome State Fault Refusal :=
  match i with
  | .nop => Sys2Proof.Machine.execNop s
  | .crc16 => Sys2Proof.Machine.execCrc16 s
  | .blkSeal => Sys2Proof.Machine.execBlkSeal s
  | .blkCheck flags => Sys2Proof.Machine.execBlkCheck flags s
  | .blkKind => Sys2Proof.Machine.execBlkKind s
  | .layoutPos => Sys2Proof.Machine.execLayoutPos s
  | .layoutSeq => Sys2Proof.Machine.execLayoutSeq s
  | .tlvParse => Sys2Proof.Machine.execTlvParse s
  | .tlvFind => Sys2Proof.Machine.execTlvFind s
  | .tlvAppend => Sys2Proof.Machine.execTlvAppend s
  | .tlvPad => Sys2Proof.Machine.execTlvPad s
  | .mhParse => Sys2Proof.Machine.execMhParse s
  | .gfMul => Sys2Proof.Machine.execGfMul s
  | .gfInv => Sys2Proof.Machine.execGfInv s
  | .rsCoef => Sys2Proof.Machine.execRsCoef s
  | .rsEncode => Sys2Proof.Machine.execRsEncode s
  | .rsRecon => Sys2Proof.Machine.execRsRecon s
  | .rsVote => Sys2Proof.Machine.execRsVote s
  | .scanInit flags => Sys2Proof.Machine.execScanInit flags s
  | .scanNext => Sys2Proof.Machine.execScanNext s
  | .scanProbe => Sys2Proof.Machine.execScanProbe s

end Sys2Proof.Machine
end

