-- ==== Sys2Proof/Machine/Fetch.lean ====
section
/-! DEFINITION. The completion step of the command in flight (40_control.md R101-R103, R107): the word in
LATCH_CMD is decoded and its command executed; a malformed word ends in Usage(0x100) (R84-R86); an abort
request may replace the outcome by Cancelled(0). -/

namespace Sys2Proof.Machine

/-- The command in flight is due: BUSY and no delay left (R300). -/
def State.due (s : State) : Bool := s.busy && s.delay == 0

/-- An abort request that the engine honours: outcome (b) of R107, a free choice (U4; assumption 6). -/
def State.cancels (s : State) : Bool := s.abortReq && Config.abortCancels s.draws

/-- The command in flight ends with error `e` (R103). -/
def endWithError (s : State) (e : CmdError) : Host.Outcome State Fault Refusal :=
  .next (s.completeError e)

/-- The command that the word in LATCH_CMD stands for runs to its completion (R90, R101). -/
def runLatched (s : State) : Host.Outcome State Fault Refusal :=
  match decode s.cmd with
  | .ok i => exec i s
  | .error _ => endWithError s malformedWord

/-- The completion step (R102, R103, R107). -/
def completionStep (s : State) : Host.Outcome State Fault Refusal :=
  if s.cancels then endWithError s cancelledError else runLatched s

/-- The state with the command word `w` just accepted and due at once: the host's write of CMD (R100)
with a delay of no step, which R300 allows. -/
def State.acceptDue (s : State) (w : Word) : State := { s.accept w with delay := 0 }

end Sys2Proof.Machine
end

