-- ==== Sys2Proof/Machine/Step.lean ====
section
/-! DEFINITION. One model step (00_scope.md R5): the completion of the command in flight when it is due,
else one host access, else the engine waits. -/

namespace Sys2Proof.Machine

/-- One step of the machine (R5, R300). -/
def step (s : State) : Host.Outcome State Fault Refusal :=
  if s.due then completionStep s else hostTurn s

/-- The state whose next step runs the command of `nbits` bits `w`: the engine fetches no instruction
(10_state.md R36), it runs the word that a CMD write latched, so `w` stands there as accepted (R100)
and due (assumption 2). -/
def State.withFetchWord (s : State) (nbits w : Nat) : State :=
  s.acceptDue (BitVec.ofNat 32 (w % 2 ^ nbits))

end Sys2Proof.Machine
end

