-- ==== Sys2Proof/Safety.lean ====
section
/-! DEFINITION. The terms that claims about the engine use: the outcome of a command's rule, successful
and error completion, frames, which bytes the command in flight reads and writes (so which host accesses
race with it, 70_reset_and_hazards.md R296), and the invariants of the machine. -/

namespace Sys2Proof.Machine

open Sys2Proof

/-! ## Outcomes -/

/-- The outcome of a command's rule: the staged effects, or the error raised (40_control.md R101). -/
def outcomeOf (i : Instr) (s : State) : Except CmdError Staged :=
  match i with
  | .nop => .ok Staged.none
  | .crc16 => cmdCrc16 s
  | .blkSeal => cmdBlkSeal s
  | .blkCheck flags => cmdBlkCheck flags s
  | .blkKind => cmdBlkKind s
  | .layoutPos => cmdLayoutPos s
  | .layoutSeq => cmdLayoutSeq s
  | .tlvParse => cmdTlvParse s
  | .tlvFind => cmdTlvFind s
  | .tlvAppend => cmdTlvAppend s
  | .tlvPad => cmdTlvPad s
  | .mhParse => cmdMhParse s
  | .gfMul => cmdGfMul s
  | .gfInv => cmdGfInv s
  | .rsCoef => cmdRsCoef s
  | .rsEncode => cmdRsEncode s
  | .rsRecon => cmdRsRecon s
  | .rsVote => cmdRsVote s
  | .scanInit flags => cmdScanInit flags s
  | .scanNext => cmdScanNext s
  | .scanProbe => cmdScanProbe s

/-- The hidden state of 10_state.md R37 is clear, but for LATCH_CMD, which R25 keeps readable through CMD
(assumption 12). -/
def HiddenClear (t : State) : Prop :=
  t.latchArg = Vector.replicate 8 0 ∧ t.snap = [] ∧ t.staged = Staged.none ∧ t.abortReq = false

/-- What no completion changes: the parameters, IE, WERR, CMD, the ARG and RS_MASK files (R29, R31,
R102, R103), and the model's own fields but the delay. -/
def SameHostSide (s t : State) : Prop :=
  t.params = s.params ∧ t.ie = s.ie ∧ t.werr = s.werr ∧ t.cmd = s.cmd ∧ t.arg = s.arg ∧
  t.rsMask = s.rsMask ∧ t.draws = s.draws ∧ t.powerOns = s.powerOns ∧ t.host = s.host ∧
  t.busData = s.busData

/-- `t` is `s` after a successful completion with the results `rs` (R102; registers past the end of
`rs` are 0, R89), but for BUF and the scanner registers. -/
def CompletedWith (s t : State) (rs : List Word) : Prop :=
  t.busy = false ∧ t.done = true ∧ t.err = false ∧ t.errcode = 0 ∧ t.errinfo = 0 ∧
  t.cmdcnt = s.cmdcnt + 1 ∧ t.res = resFile rs ∧ t.erracc = s.erracc ∧
  HiddenClear t ∧ SameHostSide s t

/-- Every byte of BUF reads as before. -/
def SameBuf (s t : State) : Prop := ∀ a, t.bufByte a = s.bufByte a

/-- Offset `a` lies outside the n bytes from `r` on. -/
def Outside (a r n : Nat) : Prop := a < r ∨ r + n ≤ a

/-- `t` is `s` after an error completion with kind `k` and ERRINFO `info` (R103): BUF, RES and the
scanner registers are as before. -/
def RaisedError (s t : State) (k : ErrKind) (info : Word) : Prop :=
  t.busy = false ∧ t.done = true ∧ t.err = true ∧ t.errcode = k.code ∧ t.errinfo = info ∧
  t.cmdcnt = s.cmdcnt + 1 ∧ t.erracc = erraccSet s.erracc k ∧
  t.res = s.res ∧ t.scan = s.scan ∧ t.buf = s.buf ∧ HiddenClear t ∧ SameHostSide s t

/-- Successful completion of a command that writes neither BUF nor the scanner registers. -/
def CompletedOnly (s t : State) (rs : List Word) : Prop :=
  CompletedWith s t rs ∧ SameBuf s t ∧ t.scan = s.scan

/-- Command `i` on state `s` ends in error `k` with ERRINFO `info`. -/
def Fails (i : Instr) (s : State) (k : ErrKind) (info : Word) : Prop :=
  ∃ t, exec i s = .next t ∧ RaisedError s t k info

/-- The check that operand type `ver` makes of argument `k` (30_encoding.md R82): reserved bits are
Usage(k), an unknown version v is UnknownVersion(v). -/
def ChecksVersion (i : Instr) (s : State) (k : Fin 8) : Prop :=
  ((s.ARG k).extractLsb' 8 24 ≠ 0#24 → Fails i s .usage (BitVec.ofNat 32 k.val)) ∧
  ((s.ARG k).extractLsb' 8 24 = 0#24 → Version.ofByte? (lowByte (s.ARG k)) = none →
    Fails i s .unknownVersion (s.ARG k))

/-- The bytes outside the n bytes from `r` on read as before, and the scanner registers are as before. -/
def WroteOnly (s t : State) (r n : Nat) : Prop :=
  (∀ a, Outside a r n → t.bufByte a = s.bufByte a) ∧ t.scan = s.scan

/-- The n bytes of BUF from `a` on, as they stand now. -/
def State.bufBytes (s : State) (a n : Nat) : List Byte := bytesAt s.powerOns s.buf a n

/-- `v` is the version that argument `i` names legally (30_encoding.md R82, type `ver`). -/
def VersionArg (s : State) (i : Fin 8) (v : Version) : Prop :=
  (s.ARG i).extractLsb' 8 24 = 0#24 ∧ Version.ofByte? (lowByte (s.ARG i)) = some v

/-- Argument `i` is the legal packed geometry (D, P) (R82, type `geom`). -/
def GeometryArg (s : State) (i : Fin 8) (D P : Nat) : Prop :=
  (s.ARG i).toNat = D + 256 * P ∧ 1 ≤ D ∧ D ≤ 128 ∧ 1 ≤ P ∧ P ≤ 128

/-! ## Metadata payloads as lists of records (42_metadata_tlv.md R160-R165) -/

/-- The bytes of a sequence of records (tag, value), back to back. -/
def tlvBytes : List (Tag × List Byte) → List Byte
  | [] => []
  | r :: rs => recordBytes r.1 r.2 ++ tlvBytes rs

/-- The records as a parse that starts at offset `c` reports them. -/
def tlvRecsAt (c : Nat) : List (Tag × List Byte) → List TlvRec
  | [] => []
  | r :: rs =>
    { tag := r.1, len := r.2.length, off := c + 4, rc := c } :: tlvRecsAt (c + 4 + r.2.length) rs

/-- A record that R165 admits when its tag is new: a tag other than 00 00 00, a length of one byte, the
fixed lengths of R162, a PID in range. -/
def RecordOk (r : Tag × List Byte) : Prop :=
  r.1 ≠ 0#24 ∧ r.2.length ≤ 255 ∧
  (r.1 = tagFSZ ∨ r.1 = tagFDT ∨ r.1 = tagSDT → r.2.length = 8) ∧
  (r.1 = tagPID → r.2.length = 2 ∧ pidOk r.2 = true)

/-- Records that R163 admits together: each is admitted, no tag occurs twice, PAD is the last. -/
def RecordsOk (rs : List (Tag × List Byte)) : Prop :=
  (∀ r ∈ rs, RecordOk r) ∧ (rs.map Prod.fst).Nodup ∧ ∀ r ∈ rs.dropLast, r.1 ≠ tagPAD

/-- A parse of the records `rs` followed by the bytes `tail` stops after `rs` (R164): PAD was the last
record, or fewer than 4 bytes remain, or they begin 00 00 00. -/
def StopsAfter (rs : List (Tag × List Byte)) (tail : List Byte) : Prop :=
  (∃ r, rs.getLast? = some r ∧ r.1 = tagPAD) ∨ tail.length < 4 ∨ tail.take 3 = [0#8, 0#8, 0#8]

/-- The bytes `tail`, after records with the tags `seen`, begin with a record that R164 and R165 refuse: it
does not fit, or a fixed length is wrong, or its tag was seen, or a PID value is out of range. -/
def RefusedRecord (seen : List Tag) (tail : List Byte) : Prop :=
  ∃ t len rest, t ≠ 0#24 ∧ len ≤ 255 ∧ tail = tagBytes t ++ [BitVec.ofNat 8 len] ++ rest ∧
    (rest.length < len ∨
      ((t = tagFSZ ∨ t = tagFDT ∨ t = tagSDT) ∧ len ≠ 8) ∨
      (t = tagPID ∧ (len ≠ 2 ∨ pidOk (rest.take len) = false)) ∨
      t ∈ seen)

/-- A parse of the records `rs`, none of them PAD, comes to a record in `tail` that is refused. -/
def FaultAfter (rs : List (Tag × List Byte)) (tail : List Byte) : Prop :=
  (∀ q ∈ rs, q.1 ≠ tagPAD) ∧ RefusedRecord (rs.map Prod.fst) tail

/-- The bytes `rs`, then `tail`, are no sequence of whole non-PAD records, for a reason that lies in `tail`
(ParsePrefix, R172): 1 to 3 bytes, a terminator, a PAD record, or a record that is refused. -/
def LeadingFaultAfter (rs : List (Tag × List Byte)) (tail : List Byte) : Prop :=
  (∀ q ∈ rs, q.1 ≠ tagPAD) ∧
  ((1 ≤ tail.length ∧ tail.length ≤ 3) ∨
    (4 ≤ tail.length ∧ (tail.take 3 = [0#8, 0#8, 0#8] ∨ tail.take 3 = tagBytes tagPAD)) ∨
    RefusedRecord (rs.map Prod.fst) tail)

/-- The value of the record with tag `t`, if there is one. -/
def valueOf (rs : List (Tag × List Byte)) (t : Tag) : Option (List Byte) :=
  (rs.find? (fun r => r.1 == t)).map Prod.snd

/-! ## Varints (R167) -/

/-- `xs` is the bytes of one varint: 1 to 4 bytes, bit 7 set in all but the last. -/
def IsVarint (xs : List Byte) : Prop :=
  1 ≤ xs.length ∧ xs.length ≤ 4 ∧
  ∀ i, ∀ h : i < xs.length, xs[i].getLsbD 7 = decide (i + 1 < xs.length)

/-- The bytes `xs` with `rest` after them begin no varint: each of `xs` asks for another byte, and either
four have been read or the value ends. -/
def Unfinished (xs rest : List Byte) : Prop :=
  (∀ x ∈ xs, x.getLsbD 7 = true) ∧ (xs.length = 4 ∨ (xs.length < 4 ∧ rest = []))

/-- The value of the bytes of a varint: 7 bits a byte, least significant group first. -/
def varintValue : List Byte → Nat
  | [] => 0
  | x :: xs => (x &&& 0x7F#8).toNat + 128 * varintValue xs

/-! ## Reed-Solomon, one byte column at a time (43_reed_solomon.md R199, R200) -/

/-- parity_j[x] of R200: the sum over c of M[D + j][c] ⊗ d_c[x], for the column `col c` = d_c[x]. -/
def parityColumn (D P j : Nat) (col : Nat → Byte) : Byte :=
  (List.range D).foldl (fun acc c => acc ^^^ gmul (gfEntry (encMatrix D P) (D + j) c) (col c)) 0#8

/-- Byte x of shard i as the command in flight reads it. -/
def State.shardByte (s : State) (i x : Nat) : Byte := byteAt s.powerOns s.snap (s.shardAddr i + x)

/-! ## Races between the host and the command in flight (R68 point 3, R296) -/

/-- The BUF regions (offset, length) that a command in flight writes: those it stages. -/
def writeRegions (i : Instr) (s : State) : List (Nat × Nat) :=
  match outcomeOf i s with
  | .ok st => st.writes.map (fun w => (w.1, w.2.length))
  | .error _ => []

/-- The payload region of a TLV command, where its version operand is legal. -/
def payloadRegion (s : State) : List (Nat × Nat) :=
  match s.opVer 1 with
  | .ok v => [(s.opNat 0, v.payloadLen)]
  | .error _ => []

/-- The shard regions of an RS command, for the shards that `use` selects. -/
def shardRegions (s : State) (use : Nat → Nat → Bool) : List (Nat × Nat) :=
  match rsOperands s with
  | .ok (L, D, P) =>
    ((List.range (D + P)).filter (use D)).map (fun i => (s.shardAddr i, L))
  | .error _ => []

/-- BUF regions that hold every byte a command in flight may read (R60, R111). SCAN_NEXT and SCAN_PROBE
read the stream below SCAN_TO (44_scanner.md R231). -/
def readRegions (i : Instr) (s : State) : List (Nat × Nat) :=
  match i with
  | .crc16 => [(s.opNat 0, s.opNat 1)]
  | .blkSeal =>
    match s.opVer 1 with
    | .ok v => [(s.opNat 0, v.blockSize)]
    | .error _ => []
  | .blkCheck _ => [(s.opNat 0, s.opNat 1)]
  | .tlvParse => payloadRegion s
  | .tlvFind => payloadRegion s
  | .tlvAppend => payloadRegion s ++ [(s.opNat 5, s.opNat 4)]
  | .tlvPad => payloadRegion s
  | .mhParse => [(s.opNat 0, s.opNat 1)]
  | .rsEncode => shardRegions s (fun D i => decide (i < D))
  | .rsRecon => shardRegions s (fun _ i => s.mask i)
  | .rsVote => shardRegions s (fun _ i => s.mask i)
  | .scanNext => [(s.scan.base.toNat, s.scan.to_.toNat)]
  | .scanProbe => [(s.scan.base.toNat, s.scan.to_.toNat)]
  | .nop => []
  | .blkKind => []
  | .layoutPos => []
  | .layoutSeq => []
  | .gfMul => []
  | .gfInv => []
  | .rsCoef => []
  | .scanInit _ => []

/-- The n bytes from `a` on meet a region. -/
def meets (a n : Nat) (r : Nat × Nat) : Bool := decide (a < r.1 + r.2) && decide (r.1 < a + n)

/-- A host access to the n bytes of BUF from `a` on races with the command in flight: R296 marks it
implementation-defined, so a host program must not rely on its outcome (U2; assumption 7). -/
def races (s : State) (a n : Nat) : Bool :=
  s.busy &&
    match decode s.cmd with
    | .ok i => (readRegions i s).any (meets a n) || (writeRegions i s).any (meets a n)
    | .error _ => false

/-- The host's next access is one that a portable host program may make: no bus error (R63) and no race
with the command in flight (R296). -/
def hostSafe (s : State) : Bool :=
  match s.host with
  | [] => true
  | .powerOn :: _ => true
  | .read w off :: _ | .write w off _ :: _ =>
    match busCheck s.params w off with
    | .hit (.reg _) => true
    | .hit (.buf a) => !races s a w.bytes
    | .noTarget => false
    | .badWidth => false
    | .misaligned => false

/-! ## Invariants -/

/-- STATUS and ERRACC are coherent: BUSY = 1 implies DONE = 0, ERR = 0 and ERRCODE = 0 (R23; for ERR and
ERRCODE R295 says otherwise, assumption 18); ERR = 1 exactly when ERRCODE ≠ 0; ERRCODE is a code that a
command can raise, so never 6 or above 9 (60_exceptions.md R261, R267); ERRACC has no reserved bit and not
bit 6 (R24). -/
def StatusCoherent (s : State) : Prop :=
  (s.busy = true → s.done = false ∧ s.err = false ∧ s.errcode = 0) ∧
  (s.err = true ↔ s.errcode ≠ 0) ∧
  (s.errcode.toNat ≤ 9 ∧ s.errcode ≠ 6) ∧
  s.erracc &&& 0xFFFFFC41#32 = 0

/-- The hidden state of R37 but LATCH_CMD (assumption 12): clear while idle, and LATCH_ARG equal to ARG
while busy; nothing is staged between steps (assumption 11). -/
def HiddenDiscipline (s : State) : Prop :=
  (s.busy = false → HiddenClear s ∧ s.delay = 0) ∧
  (s.busy = true → s.latchArg = s.arg) ∧
  s.staged = Staged.none

/-- BUF and SNAP are in canonical form and hold no byte past BUF_SIZE (R39, R60). -/
def MemoryWellFormed (s : State) : Prop :=
  Memory.wf s.buf = true ∧ Memory.wf s.snap = true ∧
  (∀ c ∈ s.buf, c.1 < s.params.bufSize) ∧ (∀ c ∈ s.snap, c.1 < s.params.bufSize)

/-- The scanner registers describe a stream inside BUF and a window inside the stream: SCAN_FROM and
SCAN_TO are at most SCAN_LEN (44_scanner.md R233; FROM > TO is legal there, see assumption 9), and the
stream is in range (R231). Without a reference the cursor is on the alignment lattice at or after FROM
(R234, R235); a reference lies inside the window and on the lattice, and the cursor past it at a multiple
of its block size (R235, R237). An exhausted scan has its cursor at or past TO (R239). -/
def ScanWindow (s : State) : Prop :=
  s.scan.from_.toNat ≤ s.scan.len.toNat ∧ s.scan.to_.toNat ≤ s.scan.len.toNat ∧
  s.inRange s.scan.base.toNat s.scan.len.toNat = true ∧
  (∀ r, s.scan.ref = some r →
    s.scan.from_.toNat ≤ r.off.toNat ∧ r.off.toNat + r.ver.blockSize ≤ s.scan.to_.toNat ∧
    r.off.toNat % s.scan.align.bytes = 0 ∧ (s.scan.pos.toNat - r.off.toNat) % r.ver.blockSize = 0 ∧
    r.off.toNat < s.scan.pos.toNat) ∧
  (s.scan.ref = none → s.scan.pos.toNat % s.scan.align.bytes = 0 ∧
    s.scan.from_.toNat ≤ s.scan.pos.toNat) ∧
  (s.scan.exhausted = true → s.scan.to_.toNat ≤ s.scan.pos.toNat)

end Sys2Proof.Machine
end

