-- ==== Sys2Proof/Certificates/Slice0/Obligations.lean ====
section
/-! DEFINITION. The statements for the provers. Each docstring names the rules of spec/ that it
formalises, and the log entry where it rests on a choice of the model. -/

open Sys2Proof Sys2Proof.Machine

/-! ## Encoding (30_encoding.md) -/

/-- R83: one word of every family, written out from the opcode map, decodes to its command. -/
def Obligations.WordsOfEveryFamilyDecode : Prop :=
  decode 0x00000000#32 = .ok .nop ∧ decode 0x00000010#32 = .ok .crc16 ∧
  decode 0x00000312#32 = .ok (.blkCheck 3#8) ∧ decode 0x00000022#32 = .ok .tlvAppend ∧
  decode 0x00000034#32 = .ok .rsRecon ∧ decode 0x00000240#32 = .ok (.scanInit 2#8) ∧
  decode 0x00000042#32 = .ok .scanProbe

/-- R80, R83, R85: decoding and encoding are inverse: the word of every well-formed command decodes to
it, and a word that decodes to a command is that command's word, which is well-formed. -/
def Obligations.DecodeInvertsEncode : Prop :=
  (∀ i : Instr, i.wellFormed = true → decode (encode i) = .ok i) ∧
  (∀ (w : Word) (i : Instr), decode w = .ok i → i.wellFormed = true ∧ encode i = w)

/-- R90: the decoding procedure in its order, and its agreement with the match and mask of the opcode
table: a word decodes exactly when a row matches it, at most one row matches, 19 rows have the full
mask, and the rows of BLK_CHECK and SCAN_INIT leave their FLAGS bits free; a word that does not decode
is Usage(0x100). -/
def Obligations.DecodeFollowsTheOpcodeTable : Prop :=
  (∀ w : Word, rsvdField w ≠ 0#16 → decode w = .error .rsvdNonzero) ∧
  (∀ w : Word, rsvdField w = 0#16 → lookupOpcode (opcodeField w) (flagsField w) = none →
    decode w = .error .reservedOpcode) ∧
  (∀ (w : Word) (i : Instr), rsvdField w = 0#16 →
    lookupOpcode (opcodeField w) (flagsField w) = some i →
    decode w = if flagsField w &&& ~~~ i.definedFlags = 0#8 then .ok i else .error .undefinedFlags) ∧
  (∀ w : Word, (∃ i, decode w = .ok i) ↔ ∃ row ∈ opcodeRows, rowMatches w row = true) ∧
  (∀ w : Word, (opcodeRows.filter (rowMatches w)).length ≤ 1) ∧
  opcodeRows.length = 21 ∧ (opcodeRows.filter (fun r => r.2 == 0xFFFFFFFF#32)).length = 19 ∧
  (0x00000012#32, 0xFFFFFCFF#32) ∈ opcodeRows ∧ (0x00000040#32, 0xFFFFF0FF#32) ∈ opcodeRows ∧
  (∀ s : State, (∀ i, decode s.cmd ≠ .ok i) → ∃ t, runLatched s = .next t ∧
    RaisedError s t .usage 0x100#32)

/-! ## One step -/

/-- R5, R101: when the command in flight is due and no abort is requested, a step is exec of the command
that the latched word decodes to; and the word that withFetchWord places is the one that the very next
step runs, on the state in which it was just accepted (how a word comes to stand there is assumption 2).
When no command is due (none in flight, or its delay not yet over), a step makes the host's next access,
and where the host has none it waits; either way one step of the delay passes (that the host's accesses
stand in a list is assumption 4, the delay is assumption 5). -/
def Obligations.StepRunsTheLatchedCommand : Prop :=
  (∀ (s : State) (i : Instr), s.busy = true → s.delay = 0 → s.abortReq = false →
    decode s.cmd = .ok i → step s = exec i s) ∧
  (∀ (s : State) (w : Nat) (i : Instr), decodeTableWord 32 w = some i →
    step (s.withFetchWord 32 w) = exec i (s.acceptDue (BitVec.ofNat 32 w))) ∧
  (∀ s : State, s.busy = false ∨ s.delay ≠ 0 →
    (s.host = [] → step s = .next { s with delay := s.delay - 1 }) ∧
    (∀ op rest, s.host = op :: rest →
      step s = hostStep { s with delay := s.delay - 1, host := rest } op))

/-- R84, R85, R86: a word with RSVD ≠ 0, a reserved opcode or a FLAGS bit that its command does not
define completes with Usage(0x100), with no other effect than an error completion. -/
def Obligations.MalformedWordsEndInUsage : Prop :=
  ∀ s : State, s.busy = true → s.delay = 0 → s.abortReq = false →
    (rsvdField s.cmd ≠ 0#16 ∨
      (opcodeField s.cmd).toNat ∉ [0x00, 0x10, 0x11, 0x12, 0x13, 0x14, 0x15, 0x20, 0x21, 0x22, 0x23,
        0x24, 0x30, 0x31, 0x32, 0x33, 0x34, 0x35, 0x40, 0x41, 0x42] ∨
      (opcodeField s.cmd ≠ 0x12#8 ∧ opcodeField s.cmd ≠ 0x40#8 ∧ flagsField s.cmd ≠ 0#8) ∨
      (opcodeField s.cmd = 0x12#8 ∧ 4 ≤ (flagsField s.cmd).toNat) ∨
      (opcodeField s.cmd = 0x40#8 ∧ 16 ≤ (flagsField s.cmd).toNat)) →
    ∃ t, step s = .next t ∧ RaisedError s t .usage 0x100#32

/-- R107, R299: an abort request is set by CTRL.ABORT while BUSY = 1 and only then; with one set, the
step that completes the command ends it either in Cancelled(0) or exactly as if none had been
requested. Which one is the free value of assumption 6; the statement holds for each. -/
def Obligations.AbortEndsInOneOfTwoWays : Prop :=
  (∀ (s : State) (v : Word), v.getLsbD 2 = false →
    (s.writeCtrl v).abortReq = (s.abortReq || (s.busy && v.getLsbD 1)) ∧
    (s.writeCtrl v).ie = v.getLsbD 0 ∧ (s.writeCtrl v).busy = s.busy ∧
    (s.busy = false → s.writeCtrl v = { s with ie := v.getLsbD 0 })) ∧
  (∀ s : State, s.busy = true → s.delay = 0 → s.abortReq = true →
    (∃ t, step s = .next t ∧ RaisedError s t .cancelled 0#32) ∨
    step s = step { s with abortReq := false })

/-- R100: a host write of CMD while BUSY = 0 is accepted whatever the word: LATCH_CMD, LATCH_ARG and SNAP
are taken, BUSY is set, DONE, ERR, ERRCODE and ABORT_REQ are cleared, IRQ falls, and WERR, ERRACC,
ERRINFO, CMDCNT, RES and the scanner registers are unchanged; while BUSY = 1 it is dropped. That ERR and
ERRCODE are cleared is what R100, R23 and R273 say against R295 (assumption 18). From then on every step in
which the command does not complete and is not abandoned leaves what R295 lists (RES, ERRINFO, ERR, ERRCODE
and the scanner registers) as acceptance left it: no staged value is visible. -/
def Obligations.CmdWriteIsAcceptedOrDropped : Prop :=
  (∀ (s : State) (w : Word), s.busy = false →
    ∃ t, hostWrite s .w32 0x010 w = .next t ∧
      t.cmd = w ∧ t.regRead 0x010 = w ∧ t.latchArg = s.arg ∧ t.snap = s.buf ∧ t.busy = true ∧
      t.done = false ∧ t.err = false ∧ t.errcode = 0 ∧ t.abortReq = false ∧ t.irq = false ∧
      t.werr = s.werr ∧ t.erracc = s.erracc ∧ t.errinfo = s.errinfo ∧ t.cmdcnt = s.cmdcnt ∧
      t.res = s.res ∧ t.scan = s.scan ∧ t.arg = s.arg ∧ t.rsMask = s.rsMask ∧ t.buf = s.buf ∧
      t.ie = s.ie) ∧
  (∀ (s : State) (w : Word), s.busy = true →
    hostWrite s .w32 0x010 w = .next { s with werr := true }) ∧
  (∀ s t : State, s.busy = true → step s = .next t → t.busy = true →
    t.res = s.res ∧ t.errinfo = s.errinfo ∧ t.err = s.err ∧ t.errcode = s.errcode ∧ t.scan = s.scan)

/-- R300: an accepted command completes: from every busy state whose host waits, some number of steps
leads to an idle state with DONE = 1 and CMDCNT counted up once. The number is the free delay of
assumption 5; the statement holds for every value of it. -/
def Obligations.AcceptedCommandCompletes : Prop :=
  ∀ s : State, s.busy = true → s.host = [] →
    ∃ k t, Sys2Proof.core.run k s = .next t ∧ t.busy = false ∧ t.done = true ∧
      t.cmdcnt = s.cmdcnt + 1

/-! ## Completion, errors, frames (40_control.md, 60_exceptions.md) -/

/-- R101, R102, R103, R267: every command, on every state, ends in one step: in the successful
completion of R102 or in the error completion of R103, which leaves BUF, RES and the scanner registers
alone; no command raises HashMismatch, and none raises Cancelled of itself. -/
def Obligations.EveryCommandCompletes : Prop :=
  ∀ (i : Instr) (s : State), ∃ t, exec i s = .next t ∧
    ((∃ rs, CompletedWith s t rs) ∨
      ∃ k info, RaisedError s t k info ∧ k ≠ .hashMismatch ∧ k ≠ .cancelled)

/-- R101, R108: a command's outcome is a function of LATCH_ARG, SNAP, RS_MASK and the scanner registers
(with BUF_SIZE, and the free bytes of this power-on for what was never written, assumption 1): two states
that agree on these end the command alike, whatever STATUS, CTRL, ERRACC, ERRINFO, CMDCNT, RES, the ARG
registers, BUF itself or a pending abort request hold. -/
def Obligations.OutcomeDependsOnInputsOnly : Prop :=
  ∀ (i : Instr) (s r t u : State), r.params = s.params → r.powerOns = s.powerOns →
    r.latchArg = s.latchArg → r.snap = s.snap → r.rsMask = s.rsMask → r.scan = s.scan →
    exec i s = .next t → exec i r = .next u →
    u.err = t.err ∧ u.errcode = t.errcode ∧ u.errinfo = t.errinfo ∧ u.scan = t.scan ∧
    (t.err = false → u.res = t.res ∧
      ∀ a, (u.bufByte a = t.bufByte a) ∨
        (t.bufByte a = s.bufByte a ∧ u.bufByte a = r.bufByte a))

/-- R24: completing with error code k sets bit k of ERRACC and no other, never bit 6; a success and an
accepted CMD write leave ERRACC alone; writing ERRACC clears exactly the bits written as 1; bits 0 and
[31:10] read 0. -/
def Obligations.ErraccAccumulates : Prop :=
  (∀ (i : Instr) (s t : State), exec i s = .next t → ∀ k : Nat, k < 32 →
    t.erracc.getLsbD k = (s.erracc.getLsbD k || (t.err && decide (t.errcode.toNat = k)))) ∧
  (∀ s t : State, s.busy = true → s.delay = 0 → step s = .next t →
    t.erracc.getLsbD 6 = s.erracc.getLsbD 6 ∧ ∀ k : Nat, k < 32 →
      t.erracc.getLsbD k = (s.erracc.getLsbD k || (t.err && decide (t.errcode.toNat = k)))) ∧
  (∀ (s : State) (w : Word), (s.regWrite 0x010 w).erracc = s.erracc) ∧
  (∀ (s : State) (v : Word), ∃ t, hostWrite s .w32 0x00C v = .next t ∧
    ∀ k : Nat, t.erracc.getLsbD k = (s.erracc.getLsbD k && !v.getLsbD k)) ∧
  (∀ (s : State) (k : Nat), k = 0 ∨ 10 ≤ k → (s.regRead 0x00C).getLsbD k = false)

/-- R298: only SCAN_INIT, SCAN_NEXT and a reset change the scanner registers: no other command does, and
no host access but a write of CTRL with SRST = 1 and a power-on. -/
def Obligations.OnlyScanCommandsMoveTheScanner : Prop :=
  (∀ (i : Instr) (s t : State), exec i s = .next t → (∀ f, i ≠ .scanInit f) → i ≠ .scanNext →
    t.scan = s.scan) ∧
  (∀ (s t : State) (op : HostOp), hostStep s op = .next t → op ≠ .powerOn →
    (∀ v, op = .write .w32 0x004 v → v.getLsbD 2 = false) → t.scan = s.scan)

/-- R60: the commands that write no BUF (all but BLK_SEAL, TLV_PARSE, TLV_APPEND, TLV_PAD, RS_ENCODE,
RS_RECON and RS_VOTE) leave every byte of it as it reads; and what a completion does not change (R29,
R31, R102, R103) every command leaves. -/
def Obligations.CommandFrame : Prop :=
  ∀ (i : Instr) (s t : State), exec i s = .next t →
    SameHostSide s t ∧
    (i ∉ [.blkSeal, .tlvParse, .tlvAppend, .tlvPad, .rsEncode, .rsRecon, .rsVote] → SameBuf s t) ∧
    (t.err = true → SameBuf s t ∧ t.res = s.res ∧ t.scan = s.scan)

/-- R136, R170, R172, R173, R208, R209, R210 ("BUF and state written"): whatever its outcome, each
command that writes BUF leaves every byte outside the regions its rule names as it reads. -/
def Obligations.WritersStayInTheirRegions : Prop :=
  ∀ s t : State,
    (exec .blkSeal s = .next t →
      ∀ a, Outside a (s.opNat 0) 16 → t.bufByte a = s.bufByte a) ∧
    (exec .tlvParse s = .next t →
      ∀ a, Outside a (s.opNat 2) (8 * s.opNat 3) → t.bufByte a = s.bufByte a) ∧
    (exec .tlvAppend s = .next t →
      ∀ a, Outside a (s.opNat 0 + s.opNat 3) (4 + s.opNat 4) → t.bufByte a = s.bufByte a) ∧
    (exec .tlvPad s = .next t → ∀ v, VersionArg s 1 v →
      ∀ a, Outside a (s.opNat 0 + s.opNat 3) (v.payloadLen - s.opNat 3) →
        t.bufByte a = s.bufByte a) ∧
    (exec .rsEncode s = .next t → ∀ v D P, VersionArg s 2 v → GeometryArg s 3 D P →
      ∀ a, (∀ j, j < P → Outside a (s.shardAddr (D + j)) v.payloadLen) →
        t.bufByte a = s.bufByte a) ∧
    (exec .rsRecon s = .next t ∨ exec .rsVote s = .next t →
      ∀ v D P, VersionArg s 2 v → GeometryArg s 3 D P →
      ∀ a, (∀ i, i < D + P → s.mask i = false → Outside a (s.shardAddr i) v.payloadLen) →
        t.bufByte a = s.bufByte a)

/-- R274: IRQ is DONE and IE: every completion raises it exactly when IE = 1, whatever its outcome; it
falls by a W1C write of DONE, by IE = 0, by an accepted CMD write and by a reset, and a busy-dropped
write does not move it. -/
def Obligations.InterruptFollowsDoneAndEnable : Prop :=
  (∀ s : State, s.irq = (s.done && s.ie)) ∧
  (∀ (i : Instr) (s t : State), exec i s = .next t → t.irq = s.ie) ∧
  (∀ s t : State, s.busy = true → s.delay = 0 → step s = .next t → t.irq = s.ie) ∧
  (∀ (s : State) (v : Word), v.getLsbD 1 = true → (s.regWrite 0x008 v).irq = false) ∧
  (∀ (s : State) (v : Word), v.getLsbD 0 = false → (s.regWrite 0x004 v).irq = false) ∧
  (∀ (s : State) (w : Word), s.busy = false → (s.regWrite 0x010 w).irq = false) ∧
  (∀ (s : State) (w : Word), s.busy = true → (s.regWrite 0x010 w).irq = s.irq) ∧
  (∀ s : State, s.softReset.irq = false ∧ s.powerOnReset.irq = false)

/-! ## Host accesses (10_state.md, 20_memory.md, 70_reset_and_hazards.md) -/

/-- R61, R63, R67: a host access takes place exactly when it is an aligned 32-bit access of the register
aperture or a naturally aligned access of the BUF aperture; every other access is refused, one outside both
apertures as an access without a target (the names are assumption 8, the window's unused space is
assumption 17); and a read that takes place changes nothing of the engine: all that is new is the value
that the bus returned, and repeating the read returns it again. -/
def Obligations.HostAccessesTakePlaceWhenLegal : Prop :=
  ∀ (s : State) (w : Width) (off : Nat) (v : Word), s.params.Valid →
    let legal := (off < 0x1000 ∧ w = .w32 ∧ off % 4 = 0) ∨
      (s.params.bufOffset ≤ off ∧ off < s.params.bufOffset + s.params.bufSize ∧ off % w.bytes = 0)
    ((∃ t, hostRead s w off = .next t) ↔ legal) ∧ ((∃ t, hostWrite s w off v = .next t) ↔ legal) ∧
    ((hostWrite s w off v = .refused .busNoTarget) ↔
      (0x1000 ≤ off ∧ (off < s.params.bufOffset ∨ s.params.bufOffset + s.params.bufSize ≤ off))) ∧
    (hostRead s w off = .refused .busNoTarget ↔ hostWrite s w off v = .refused .busNoTarget) ∧
    (∀ t, hostRead s w off = .next t →
      t = { s with busData := t.busData } ∧ hostRead t w off = .next t)

/-- R62, R63: BUF lanes are big-endian: a 32-bit read returns the four bytes, the lowest offset most
significant, a 16-bit read the two, an 8-bit read the one, and that is what the host's access returns; a
32-bit, a 16-bit or an 8-bit write stores its bytes in the same order, so that narrower reads see them, and
changes nothing else, no other byte of BUF and no register. -/
def Obligations.BufLanesAreBigEndian : Prop :=
  (∀ (s : State) (a : Nat),
    s.bufRead a 4 = s.bufByte a ++ s.bufByte (a + 1) ++ s.bufByte (a + 2) ++ s.bufByte (a + 3) ∧
    s.bufRead a 2 = (0#16 ++ (s.bufByte a ++ s.bufByte (a + 1)) : BitVec 32) ∧
    s.bufRead a 1 = (0#24 ++ s.bufByte a : BitVec 32)) ∧
  (∀ (s : State) (w : Width) (a : Nat), s.params.Valid → a % w.bytes = 0 → a < s.params.bufSize →
    hostRead s w (s.params.bufOffset + a) = .next (s.returned (s.bufRead a w.bytes))) ∧
  (∀ (s : State) (w : Width) (a : Nat) (v : Word), s.params.Valid → a % w.bytes = 0 →
    a < s.params.bufSize →
    ∃ t, hostWrite s w (s.params.bufOffset + a) v = .next t ∧ t = { s with buf := t.buf } ∧
      (∀ x, Outside x a w.bytes → t.bufByte x = s.bufByte x) ∧
      match w with
      | .w8 => t.bufByte a = v.extractLsb' 0 8
      | .w16 => t.bufByte a = v.extractLsb' 8 8 ∧ t.bufByte (a + 1) = v.extractLsb' 0 8
      | .w32 => t.bufByte a = v.extractLsb' 24 8 ∧ t.bufByte (a + 1) = v.extractLsb' 16 8 ∧
          t.bufByte (a + 2) = v.extractLsb' 8 8 ∧ t.bufByte (a + 3) = v.extractLsb' 0 8)

/-- R22, R23: a write of CTRL with SRST = 1 is a soft reset, whatever its ABORT bit; with SRST = 0 it sets
IE from bit 0, requests an abort if ABORT = 1 and BUSY = 1, and does nothing else; CTRL reads IE in bit 0
and 0 elsewhere. A write of STATUS clears DONE and WERR where bits 1 and 3 are 1 and does nothing else;
STATUS reads BUSY, DONE, ERR, WERR in bits 0 to 3, ERRCODE in bits [15:8], and 0 elsewhere. -/
def Obligations.CtrlAndStatusActByTheirBits : Prop :=
  ∀ (s : State) (v : Word),
    (v.getLsbD 2 = true → hostWrite s .w32 0x004 v = .next s.softReset) ∧
    (v.getLsbD 2 = false → hostWrite s .w32 0x004 v = .next
      { s with ie := v.getLsbD 0, abortReq := s.abortReq || (s.busy && v.getLsbD 1) }) ∧
    (∀ k : Nat, (s.regRead 0x004).getLsbD k = (decide (k = 0) && s.ie)) ∧
    hostWrite s .w32 0x008 v = .next
      { s with done := s.done && !v.getLsbD 1, werr := s.werr && !v.getLsbD 3 } ∧
    (∀ k : Nat, (s.regRead 0x008).getLsbD k =
      if k = 0 then s.busy else if k = 1 then s.done else if k = 2 then s.err
      else if k = 3 then s.werr else (decide (8 ≤ k) && s.errcode.getLsbD (k - 8)))

/-- R294: while BUSY = 1 a write to CMD, an ARG or an RS_MASK register is dropped and sets WERR, and
changes nothing else; while BUSY = 0 an ARG or RS_MASK write stores the word verbatim (R29, R31, R41) in
that one register; writes to CTRL, STATUS and ERRACC are performed at all times and a write to a RO or
reserved register is ignored at all times, and neither sets WERR. -/
def Obligations.BusyDroppedWrites : Prop :=
  (∀ (s : State) (off : Nat) (v : Word), s.busy = true → off % 4 = 0 →
    (off = 0x010 ∨ (0x020 ≤ off ∧ off < 0x040) ∨ (0x060 ≤ off ∧ off < 0x080)) →
    hostWrite s .w32 off v = .next { s with werr := true }) ∧
  (∀ (s : State) (k : Fin 8) (v : Word), s.busy = false →
    hostWrite s .w32 (0x020 + 4 * k.val) v = .next { s with arg := s.arg.set k v } ∧
    hostWrite s .w32 (0x060 + 4 * k.val) v = .next { s with rsMask := s.rsMask.set k v }) ∧
  (∀ (s : State) (off : Nat) (v : Word), off % 4 = 0 → off < 0x1000 →
    (off = 0x000 ∨ (0x014 ≤ off ∧ off < 0x020) ∨ (0x040 ≤ off ∧ off < 0x060) ∨ 0x080 ≤ off) →
    hostWrite s .w32 off v = .next s) ∧
  (∀ (s : State) (v : Word), hostWrite s .w32 0x004 v = .next (s.writeCtrl v) ∧
    hostWrite s .w32 0x008 v = .next (s.writeStatus v) ∧
    hostWrite s .w32 0x00C v = .next (s.writeErracc v) ∧
    ∀ off, off = 0x004 ∨ off = 0x008 ∨ off = 0x00C → (s.regWrite off v).werr = true → s.werr = true)

/-- R20, R22, R23, R24, R33, R34: the register map as the host reads it: an aligned 32-bit read of the
aperture returns the register at its offset; CTRL reads IE, STATUS its flags and ERRCODE, ERRACC its bits 1
to 9, each 0 in every other bit; each ARG, RES and RS_MASK register stands at its offset, every scanner
register at its own, the fields of SCAN_CFG at their bits, and 0 at the reserved offsets (R35). -/
def Obligations.RegisterMapReads : Prop :=
  ∀ s : State,
    (∀ off, off < 0x1000 → off % 4 = 0 →
      hostRead s .w32 off = .next (s.returned (s.regRead off))) ∧
    (∀ k : Nat, (s.regRead 0x004).getLsbD k = (decide (k = 0) && s.ie)) ∧
    (∀ k : Nat, (s.regRead 0x008).getLsbD k =
      if k = 0 then s.busy else if k = 1 then s.done else if k = 2 then s.err
      else if k = 3 then s.werr else (decide (8 ≤ k) && s.errcode.getLsbD (k - 8))) ∧
    (∀ k : Nat, (s.regRead 0x00C).getLsbD k =
      (decide (1 ≤ k) && decide (k ≤ 9) && s.erracc.getLsbD k)) ∧
    s.regRead 0x000 = 0x53427801#32 ∧ s.regRead 0x010 = s.cmd ∧ s.regRead 0x014 = s.errinfo ∧
    s.regRead 0x018 = s.cmdcnt ∧ s.regRead 0x01C = BitVec.ofNat 32 s.params.bufSize ∧
    (∀ k : Fin 8, s.regRead (0x020 + 4 * k.val) = s.arg[k] ∧ s.regRead (0x040 + 4 * k.val) = s.res[k] ∧
      s.regRead (0x060 + 4 * k.val) = s.rsMask[k]) ∧
    s.regRead 0x080 = s.scan.base ∧ s.regRead 0x084 = s.scan.len ∧ s.regRead 0x088 = s.scan.from_ ∧
    s.regRead 0x08C = s.scan.to_ ∧ s.regRead 0x090 = s.scan.pos ∧ s.regRead 0x0A4 = s.scan.errs ∧
    (∀ r, s.scan.ref = some r → s.regRead 0x098 = r.off ∧ s.regRead 0x09C = r.uid ∧
      (s.regRead 0x094).extractLsb' 24 8 = r.ver.byte ∧ (s.regRead 0x094).getLsbD 16 = true) ∧
    (s.scan.ref = none → s.regRead 0x098 = 0 ∧ s.regRead 0x09C = 0 ∧
      (s.regRead 0x094).extractLsb' 24 8 = 0 ∧ (s.regRead 0x094).getLsbD 16 = false) ∧
    (∀ v, s.scan.pv = some v → (s.regRead 0x094).extractLsb' 8 8 = v.byte ∧
      (s.regRead 0x094).getLsbD 3 = true) ∧
    (s.scan.pv = none → (s.regRead 0x094).extractLsb' 8 8 = 0 ∧
      (s.regRead 0x094).getLsbD 3 = false) ∧
    (s.regRead 0x094).extractLsb' 0 2 = s.scan.align.code.setWidth 2 ∧
    (s.regRead 0x094).getLsbD 2 = s.scan.strict ∧ (s.regRead 0x094).getLsbD 4 = s.scan.uid.isSome ∧
    (s.regRead 0x094).getLsbD 5 = s.scan.toSet ∧ (s.regRead 0x094).getLsbD 17 = s.scan.exhausted ∧
    (s.regRead 0x094).extractLsb' 6 2 = 0 ∧ (s.regRead 0x094).extractLsb' 18 6 = 0 ∧
    s.regRead 0x0A0 = s.scan.uid.getD 0 ∧ (∀ off, 0x0A8 ≤ off → s.regRead off = 0)

/-- R40, R290: right after power-on reset every register reads its reset value, that is 0 but for ID and
BUFSZ (the default BUF_SIZE), IRQ is 0 and the hidden state is clear. A power-on from any state, busy or
not, leaves the same, keeps BUF_SIZE, and gives every byte of BUF the free value of that power-on
(assumptions 1 and 15). -/
def Obligations.PowerOnResetValues : Prop :=
  (∀ off, off < 0x1000 → off % 4 = 0 → State.reset.regRead off =
    if off = 0x000 then 0x53427801#32 else if off = 0x01C then 0x00200000#32 else 0#32) ∧
  State.reset.irq = false ∧ HiddenClear State.reset ∧ State.reset.busy = false ∧
  (∀ s : State, ∃ t, hostStep s .powerOn = .next t ∧
    (∀ off, off ≠ 0x01C → t.regRead off = State.reset.regRead off) ∧
    t.regRead 0x01C = s.regRead 0x01C ∧ t.irq = false ∧ HiddenClear t ∧ t.busy = false ∧
    t.powerOns = s.powerOns + 1 ∧ ∀ a, t.bufByte a = Config.powerOnByte (s.powerOns + 1) a)

/-- R291: a write of CTRL with SRST = 1, busy or not, puts every register at its reset value, clears the
hidden state, leaves BUF unchanged, counts no completion and sets no DONE; IRQ becomes 0. -/
def Obligations.SoftResetKeepsBuf : Prop :=
  ∀ (s : State) (v : Word), v.getLsbD 2 = true →
    ∃ t, hostWrite s .w32 0x004 v = .next t ∧
      (∀ off, off ≠ 0x01C → t.regRead off = State.reset.regRead off) ∧
      t.regRead 0x01C = s.regRead 0x01C ∧ HiddenClear t ∧ t.busy = false ∧ t.done = false ∧
      t.cmdcnt = 0 ∧ t.irq = false ∧ t.buf = s.buf ∧ SameBuf s t

/-- R68 point 3, R66: a host write of BUF while a command is in flight, to bytes that the command does
not write, and the command's completion reach the same BUF in either order, and the same registers: the
command is not affected by it. For bytes that the command reads this is the reference semantics of R296,
which the model takes (assumption 7). -/
def Obligations.HostWritesCommuteWithCompletion : Prop :=
  ∀ (i : Instr) (s t : State) (a n : Nat) (v : Word),
    (∀ r ∈ writeRegions i s, meets a n r = false) → exec i s = .next t →
    ∃ u, exec i (s.bufWrite a n v) = .next u ∧ (∀ x, u.bufByte x = (t.bufWrite a n v).bufByte x) ∧
      u.res = t.res ∧ u.scan = t.scan ∧ u.err = t.err ∧ u.errcode = t.errcode ∧
      u.errinfo = t.errinfo

/-! ## Invariants of every step -/

/-- The invariants hold right after power-on reset. -/
def Obligations.ResetMeetsTheInvariants : Prop :=
  State.reset.params.Valid ∧ StatusCoherent State.reset ∧ HiddenDiscipline State.reset ∧
  MemoryWellFormed State.reset ∧ ScanWindow State.reset

/-- R23, R24, R261, R267: every step keeps STATUS and ERRACC coherent. That ERR and ERRCODE are 0 while
BUSY = 1 is what R23 says against R295 (assumption 18). -/
def Obligations.EveryStepKeepsStatusCoherent : Prop :=
  ∀ s t : State, StatusCoherent s → step s = .next t → StatusCoherent t

/-- R37: every step keeps the hidden state clear while idle, and LATCH_ARG equal to ARG while busy. Two
clauses are the model's choice: LATCH_CMD is not among what is cleared (assumption 12), and STAGED is empty
between steps, while busy too (assumption 11). -/
def Obligations.EveryStepKeepsHiddenDiscipline : Prop :=
  ∀ s t : State, HiddenDiscipline s → step s = .next t → HiddenDiscipline t

/-- R39, R60, R65: every step keeps BUF and SNAP in the model's canonical form (assumption 1), with no
byte past BUF_SIZE, and never changes the parameters (assumption 10). -/
def Obligations.EveryStepKeepsMemoryWellFormed : Prop :=
  ∀ s t : State, s.params.Valid → MemoryWellFormed s → step s = .next t →
    t.params = s.params ∧ MemoryWellFormed t

/-- R231, R234, R235, R237, R239: every step keeps the scanner registers a window inside a stream inside
BUF, the cursor on its lattice and the reference inside the window. -/
def Obligations.EveryStepKeepsScanWindow : Prop :=
  ∀ s t : State, s.params.Valid → ScanWindow s → step s = .next t → ScanWindow t

/-! ## Control and block codec -/

/-- R106: NOP completes with RES0..RES7 = 0 and no other effect than its completion; its opcode with a
FLAGS or RSVD bit set ends in Usage(0x100). -/
def Obligations.NopClearsResults : Prop :=
  decode 0x00000000#32 = .ok .nop ∧
  ∀ s : State, (∃ t, exec .nop s = .next t ∧ CompletedOnly s t [] ∧ t.res = Vector.replicate 8 0) ∧
    (s.busy = true → s.delay = 0 → s.abortReq = false → opcodeField s.cmd = 0#8 → s.cmd ≠ 0#32 →
      ∃ t, step s = .next t ∧ RaisedError s t .usage 0x100#32)

/-- R135: CRC16 completes with the CRC of its region, from its initial value; a bad initial value is
Usage(2), a region out of range IO(ARG0); an empty region at any address returns the initial value. -/
def Obligations.Crc16OfARegion : Prop :=
  decode 0x00000010#32 = .ok .crc16 ∧
  ∀ s : State,
    ((s.ARG 2).extractLsb' 16 16 ≠ 0#16 →
      ∃ t, exec .crc16 s = .next t ∧ RaisedError s t .usage 2#32) ∧
    ((s.ARG 2).extractLsb' 16 16 = 0#16 → (s.opNat 1 ≠ 0 ∧ s.params.bufSize < s.opNat 0 + s.opNat 1) →
      ∃ t, exec .crc16 s = .next t ∧ RaisedError s t .io (s.ARG 0)) ∧
    ((s.ARG 2).extractLsb' 16 16 = 0#16 → (s.opNat 1 = 0 ∨ s.opNat 0 + s.opNat 1 ≤ s.params.bufSize) →
      ∃ t, exec .crc16 s = .next t ∧ CompletedOnly s t
        [(crc16 (s.memRead (s.opNat 0) (s.opNat 1)) ((s.ARG 2).extractLsb' 0 16)).setWidth 32]) ∧
    ((s.ARG 2).extractLsb' 16 16 = 0#16 → s.opNat 1 = 0 →
      ∃ t, exec .crc16 s = .next t ∧ CompletedOnly s t [s.ARG 2])

/-- R124, R125 (95_test_vectors.md property 2): the CRC is the one of polynomial 0x1021, most significant bit
first (the CRC of one byte 01 from 0 is the polynomial, that of "123456789" the check value 0x31C3, and
0x29B1 from 0xFFFF), and an empty sequence leaves its initial value; it tells apart any two byte sequences
that differ in one byte, from every initial value; and the CRC of a sequence followed by its own CRC, most
significant byte first, is 0. -/
def Obligations.CrcDetectsOneByteErrors : Prop :=
  (crc16 [0x01#8] 0#16 = 0x1021#16 ∧ crc16 [0x80#8] 0#16 = 0x9188#16 ∧
    (let digits := [0x31#8, 0x32#8, 0x33#8, 0x34#8, 0x35#8, 0x36#8, 0x37#8, 0x38#8, 0x39#8];
      crc16 digits 0#16 = 0x31C3#16 ∧ crc16 digits 0xFFFF#16 = 0x29B1#16) ∧
    ∀ c, crc16 [] c = c) ∧
  (∀ (before after : List Byte) (b b' : Byte) (c : BitVec 16), b ≠ b' →
    crc16 (before ++ b :: after) c ≠ crc16 (before ++ b' :: after) c) ∧
  (∀ (bs : List Byte) (c : BitVec 16),
    crc16 (bs ++ [(crc16 bs c).extractLsb' 8 8, (crc16 bs c).extractLsb' 0 8]) c = 0#16)

/-- R136: BLK_SEAL on a legal version and a block in range completes with the CRC and the block size,
stamps the 16 header bytes (magic, version, the CRC big-endian, UID, sequence number, 00 00) and writes
no other byte; a bad version is Usage(1) or UnknownVersion(v), a block out of range IO(ARG0). -/
def Obligations.SealStampsTheHeader : Prop :=
  decode 0x00000011#32 = .ok .blkSeal ∧
  ∀ s : State,
    ((s.ARG 1).extractLsb' 8 24 ≠ 0#24 →
      ∃ t, exec .blkSeal s = .next t ∧ RaisedError s t .usage 1#32) ∧
    ((s.ARG 1).extractLsb' 8 24 = 0#24 → Version.ofByte? (lowByte (s.ARG 1)) = none →
      ∃ t, exec .blkSeal s = .next t ∧ RaisedError s t .unknownVersion (s.ARG 1)) ∧
    (∀ v, VersionArg s 1 v → s.params.bufSize < s.opNat 0 + v.blockSize →
      ∃ t, exec .blkSeal s = .next t ∧ RaisedError s t .io (s.ARG 0)) ∧
    (∀ v, VersionArg s 1 v → s.opNat 0 + v.blockSize ≤ s.params.bufSize →
      let payload := s.memRead (s.opNat 0 + 16) v.payloadLen
      let head := fun c : BitVec 16 =>
        [0x53#8, 0x42#8, 0x78#8, v.byte, c.extractLsb' 8 8, c.extractLsb' 0 8,
          (s.ARG 2).extractLsb' 24 8, (s.ARG 2).extractLsb' 16 8, (s.ARG 2).extractLsb' 8 8,
          (s.ARG 2).extractLsb' 0 8, (s.ARG 3).extractLsb' 24 8, (s.ARG 3).extractLsb' 16 8,
          (s.ARG 3).extractLsb' 8 8, (s.ARG 3).extractLsb' 0 8, 0#8, 0#8]
      let c := crc16 (head 0#16 ++ payload) (v.byte.setWidth 16)
      ∃ t, exec .blkSeal s = .next t ∧
        CompletedWith s t [c.setWidth 32, BitVec.ofNat 32 v.blockSize] ∧
        WroteOnly s t (s.opNat 0) 16 ∧ t.bufBytes (s.opNat 0) 16 = head c)

/-- R137, R126: BLK_CHECK accepts a block exactly as R125 says: with the magic, a known version, room for
the block, the stored CRC equal to the recomputed one, and the expected version and UID where FLAGS ask
for them, it completes with version, UID, sequence number, block size and CRC. -/
def Obligations.CheckAcceptsAValidBlock : Prop :=
  ∀ (s : State) (flags : BitVec 8) (v : Version), flags.toNat < 4 →
    (flags.getLsbD 0 = true → VersionArg s 2 v) →
    v.blockSize ≤ s.opNat 1 → s.opNat 0 + s.opNat 1 ≤ s.params.bufSize →
    let blk := s.memRead (s.opNat 0) v.blockSize
    slice blk 0 4 = [0x53#8, 0x42#8, 0x78#8, v.byte] → be16 (slice blk 4 6) = crcBlock blk v →
    (flags.getLsbD 1 = true → be32 (slice blk 6 10) = s.ARG 3) →
    ∃ t, exec (.blkCheck flags) s = .next t ∧ CompletedOnly s t
      [v.byte.setWidth 32, be32 (slice blk 6 10), be32 (slice blk 10 14), BitVec.ofNat 32 v.blockSize,
        (be16 (slice blk 4 6)).setWidth 32]

/-- R137, R126, R263, R264, R268: what BLK_CHECK reports of a block that it does not accept, in the order
of the verdict: no magic InvalidBlock(2), an unknown version UnknownVersion, another version than the
expected one InvalidBlock(6), a short region InvalidBlock(4), a wrong CRC InvalidBlock(5), another UID
UIDMismatch(7). An empty region, at any address, has no magic. Before these, a FLAGS bit above 1 is
Usage(0x100), a bad expected version Usage(2), a region out of range IO(ARG0). -/
def Obligations.CheckReportsTheFirstFailure : Prop :=
  (∀ (s : State) (flags : BitVec 8), 4 ≤ flags.toNat → Fails (.blkCheck flags) s .usage 0x100#32) ∧
  (∀ (s : State) (flags : BitVec 8), flags.toNat < 4 →
    (flags.getLsbD 0 = true → (∀ v, ¬ VersionArg s 2 v) → Fails (.blkCheck flags) s .usage 2#32) ∧
    ((flags.getLsbD 0 = true → ∃ v, VersionArg s 2 v) → s.opNat 1 ≠ 0 →
      s.params.bufSize < s.opNat 0 + s.opNat 1 → Fails (.blkCheck flags) s .io (s.ARG 0))) ∧
  ∀ (s : State) (flags : BitVec 8) (pv : Version), flags.toNat < 4 →
    (flags.getLsbD 0 = true → VersionArg s 2 pv) →
    (s.opNat 1 = 0 ∨ s.opNat 0 + s.opNat 1 ≤ s.params.bufSize) →
    let get := fun x n => s.memRead (s.opNat 0 + x) n
    let fails := fun k info => ∃ t, exec (.blkCheck flags) s = .next t ∧ RaisedError s t k info
    (s.opNat 1 < 4 ∨ get 0 3 ≠ [0x53#8, 0x42#8, 0x78#8] → fails .invalidBlock 2#32) ∧
    (4 ≤ s.opNat 1 → get 0 3 = [0x53#8, 0x42#8, 0x78#8] → ∀ b, get 3 1 = [b] →
      (Version.ofByte? b = none → fails .unknownVersion (b.setWidth 32)) ∧
      ∀ v, Version.ofByte? b = some v →
        (flags.getLsbD 0 = true → v ≠ pv → fails .invalidBlock 6#32) ∧
        ((flags.getLsbD 0 = true → v = pv) →
          (s.opNat 1 < v.blockSize → fails .invalidBlock 4#32) ∧
          (v.blockSize ≤ s.opNat 1 →
            (be16 (get 4 2) ≠ crcBlock (get 0 v.blockSize) v → fails .invalidBlock 5#32) ∧
            (be16 (get 4 2) = crcBlock (get 0 v.blockSize) v → flags.getLsbD 1 = true →
              be32 (get 6 4) ≠ s.ARG 3 → fails .uidMismatch 7#32))))

/-- R136 ("After BLK_SEAL, BLK_CHECK of the same bytes with len ≥ bs(v) accepts"): a block that BLK_SEAL
stamped, checked by a later command whose snapshot is the BUF that BLK_SEAL left, is accepted with the
version, the UID, the sequence number, the block size and the CRC of the seal. -/
def Obligations.SealedBlockIsAccepted : Prop :=
  ∀ (s t u : State) (v : Version), VersionArg s 1 v → s.opNat 0 + v.blockSize ≤ s.params.bufSize →
    s.snap = s.buf → exec .blkSeal s = .next t →
    u.snap = t.buf → u.powerOns = t.powerOns → u.params = t.params → u.ARG 0 = s.ARG 0 →
    v.blockSize ≤ u.opNat 1 → u.opNat 0 + u.opNat 1 ≤ u.params.bufSize →
    ∃ w, exec (.blkCheck 0#8) u = .next w ∧ CompletedOnly u w
      [v.byte.setWidth 32, s.ARG 2, s.ARG 3, BitVec.ofNat 32 v.blockSize, t.res[0]]

/-- R138: BLK_KIND: sequence number 0 is metadata; 1 + g·n + j with j < n is, for a parity version, data
block j of group g with data ordinal g·D + j, or parity block j - D of it; for another version every
other sequence number is data; a bad version is Usage(1) or UnknownVersion(v), a bad geometry with a
parity version Usage(2), whatever the sequence number. -/
def Obligations.KindOfASequenceNumber : Prop :=
  decode 0x00000013#32 = .ok .blkKind ∧ (∀ s : State, ChecksVersion .blkKind s 1) ∧
  (∀ (s : State) (v : Version), VersionArg s 1 v → v.isParity = true → (∀ D P, ¬ GeometryArg s 2 D P) →
    Fails .blkKind s .usage 2#32) ∧
  (∀ (s : State) (v : Version), VersionArg s 1 v → v.isParity = false →
    ∃ t, exec .blkKind s = .next t ∧ CompletedOnly s t
      (if s.ARG 0 = 0#32 then [0#32, NONE, NONE, NONE] else [1#32, NONE, NONE, s.ARG 0 - 1#32])) ∧
  (∀ (s : State) (v : Version) (D P : Nat), VersionArg s 1 v → v.isParity = true →
    GeometryArg s 2 D P →
    (s.ARG 0 = 0#32 →
      ∃ t, exec .blkKind s = .next t ∧ CompletedOnly s t [0#32, NONE, NONE, NONE]) ∧
    (∀ g j, s.opNat 0 = 1 + g * (D + P) + j → j < D →
      ∃ t, exec .blkKind s = .next t ∧ CompletedOnly s t
        [1#32, BitVec.ofNat 32 g, BitVec.ofNat 32 j, BitVec.ofNat 32 (g * D + j)]) ∧
    (∀ g j, s.opNat 0 = 1 + g * (D + P) + D + j → j < P →
      ∃ t, exec .blkKind s = .next t ∧ CompletedOnly s t
        [2#32, BitVec.ofNat 32 g, BitVec.ofNat 32 j, NONE]))

/-- R139, R131: LAYOUT_POS: block j of local group g of super-group q (B groups of n = D + P blocks) lies
at local offset j·B + g behind the 1 + P metadata blocks; without interleave (B = 0) blocks follow in
sequence; sequence number 0 is at 0 with its last copy at P; a position that does not fit 32 bits is
Usage(0); for a non-parity version position and sequence number are equal; the checks of version,
geometry and burst in their order. -/
def Obligations.LayoutPosFollowsTheInterleave : Prop :=
  decode 0x00000014#32 = .ok .layoutPos ∧ (∀ s : State, ChecksVersion .layoutPos s 1) ∧
  (∀ (s : State) (v : Version), VersionArg s 1 v →
    (v.isParity = true → (∀ D P, ¬ GeometryArg s 2 D P) → Fails .layoutPos s .usage 2#32) ∧
    (v.isParity = true → (∃ D P, GeometryArg s 2 D P) → 1000 < s.opNat 3 → Fails .layoutPos s .usage 3#32) ∧
    (v.isParity = false → s.ARG 3 ≠ 0#32 → Fails .layoutPos s .usage 3#32)) ∧
  (∀ (s : State) (v : Version), VersionArg s 1 v → v.isParity = false → s.ARG 3 = 0#32 →
    ∃ t, exec .layoutPos s = .next t ∧ CompletedOnly s t
      [s.ARG 0, if s.ARG 0 = 0#32 then 0#32 else NONE]) ∧
  (∀ (s : State) (v : Version) (D P : Nat), VersionArg s 1 v → v.isParity = true →
    GeometryArg s 2 D P → s.opNat 3 ≤ 1000 →
    let place := fun p =>
      (p < 2 ^ 32 → ∃ t, exec .layoutPos s = .next t ∧
        CompletedOnly s t [BitVec.ofNat 32 p, NONE]) ∧
      (2 ^ 32 ≤ p → ∃ t, exec .layoutPos s = .next t ∧ RaisedError s t .usage 0#32)
    (s.ARG 0 = 0#32 → ∃ t, exec .layoutPos s = .next t ∧
      CompletedOnly s t [0#32, BitVec.ofNat 32 P]) ∧
    (s.ARG 0 ≠ 0#32 → s.opNat 3 = 0 → place (P + s.opNat 0)) ∧
    (∀ q g j, g < s.opNat 3 → j < D + P →
      s.opNat 0 = 1 + q * ((D + P) * s.opNat 3) + g * (D + P) + j →
      place (1 + P + q * ((D + P) * s.opNat 3) + j * s.opNat 3 + g)))

/-- R140, R131: LAYOUT_SEQ: the inverse reading of the same layout: index p ≤ P holds the metadata block
or its copy p, and local offset j·B + g of super-group q holds block j of local group g; the checks are
those of LAYOUT_POS. -/
def Obligations.LayoutSeqInvertsTheInterleave : Prop :=
  decode 0x00000015#32 = .ok .layoutSeq ∧ (∀ s : State, ChecksVersion .layoutSeq s 1) ∧
  (∀ (s : State) (v : Version), VersionArg s 1 v →
    (v.isParity = true → (∀ D P, ¬ GeometryArg s 2 D P) → Fails .layoutSeq s .usage 2#32) ∧
    (v.isParity = true → (∃ D P, GeometryArg s 2 D P) → 1000 < s.opNat 3 → Fails .layoutSeq s .usage 3#32) ∧
    (v.isParity = false → s.ARG 3 ≠ 0#32 → Fails .layoutSeq s .usage 3#32)) ∧
  (∀ (s : State) (v : Version), VersionArg s 1 v → v.isParity = false → s.ARG 3 = 0#32 →
    ∃ t, exec .layoutSeq s = .next t ∧ CompletedOnly s t
      [s.ARG 0, if s.ARG 0 = 0#32 then 0#32 else NONE]) ∧
  (∀ (s : State) (v : Version) (D P : Nat), VersionArg s 1 v → v.isParity = true →
    GeometryArg s 2 D P → s.opNat 3 ≤ 1000 →
    let holds := fun q =>
      (q < 2 ^ 32 → ∃ t, exec .layoutSeq s = .next t ∧
        CompletedOnly s t [BitVec.ofNat 32 q, NONE]) ∧
      (2 ^ 32 ≤ q → ∃ t, exec .layoutSeq s = .next t ∧ RaisedError s t .usage 0#32)
    (s.opNat 0 ≤ P → ∃ t, exec .layoutSeq s = .next t ∧ CompletedOnly s t [0#32, s.ARG 0]) ∧
    (P < s.opNat 0 → s.opNat 3 = 0 → holds (s.opNat 0 - P)) ∧
    (∀ q g j, g < s.opNat 3 → j < D + P →
      s.opNat 0 = 1 + P + q * ((D + P) * s.opNat 3) + j * s.opNat 3 + g →
      holds (1 + q * ((D + P) * s.opNat 3) + g * (D + P) + j)))

/-- R131 (its properties): Phys and Seq are inverse bijections between the sequence numbers from 1 on and
the physical indices from 1 + P on, and B = 1 gives the layout of B = 0. -/
def Obligations.PhysAndSeqAreInverse : Prop :=
  ∀ D P B : Nat, 1 ≤ D + P →
    (∀ q, 1 ≤ q → 1 + P ≤ phys D P B q ∧ seqAt D P B (phys D P B q) = q) ∧
    (∀ p, 1 + P ≤ p → 1 ≤ seqAt D P B p ∧ phys D P B (seqAt D P B p) = p) ∧
    (∀ q, phys D P 1 q = phys D P 0 q)

/-- R132: burst tolerance. With B ≥ 1, any B consecutive blocks of the data region hold at most one block
of each RS group, and any B·P consecutive blocks hold at most P blocks of each. -/
def Obligations.BurstsSpreadOverGroups : Prop :=
  ∀ D P B : Nat, 1 ≤ D → 1 ≤ P → 1 ≤ B → ∀ g : Nat,
    let place := fun j => phys D P B (1 + g * (D + P) + j)
    (∀ j k, j < k → k < D + P → place j + B ≤ place k) ∧
    (∀ x, ((List.range (D + P)).filter
      (fun j => decide (x ≤ place j) && decide (place j < x + B * P))).length ≤ P)

/-! ## Metadata TLV and multihash framing -/

/-- R170, R164, R168: TLV_PARSE of a payload that is a sequence of admissible records followed by a tail
at which parsing stops: it completes with the number of records, the presence mask, PID, the stop offset
and FSZ, writes the directory entries of the first m records, and no other byte. Before that a bad version is
Usage(1) or UnknownVersion(v), a payload out of range IO(ARG0), a directory out of range IO(ARG2); a
payload in which admissible records are followed by one that R164 or R165 refuses is MetadataMalformed at
that record's offset. -/
def Obligations.ParseListsTheRecords : Prop :=
  (∀ s : State, ChecksVersion .tlvParse s 1) ∧
  (∀ (s : State) (v : Version), VersionArg s 1 v →
    (s.params.bufSize < s.opNat 0 + v.payloadLen → Fails .tlvParse s .io (s.ARG 0)) ∧
    (s.opNat 0 + v.payloadLen ≤ s.params.bufSize → s.opNat 3 ≠ 0 →
      s.params.bufSize < s.opNat 2 + 8 * s.opNat 3 → Fails .tlvParse s .io (s.ARG 2)) ∧
    (s.opNat 0 + v.payloadLen ≤ s.params.bufSize →
      (s.opNat 3 = 0 ∨ s.opNat 2 + 8 * s.opNat 3 ≤ s.params.bufSize) → ∀ rs tail,
      s.memRead (s.opNat 0) v.payloadLen = tlvBytes rs ++ tail → RecordsOk rs → FaultAfter rs tail →
      Fails .tlvParse s .metadataMalformed (BitVec.ofNat 32 (tlvBytes rs).length))) ∧
  ∀ (s : State) (v : Version) (rs : List (Tag × List Byte)) (tail : List Byte),
    VersionArg s 1 v → s.opNat 0 + v.payloadLen ≤ s.params.bufSize →
    (s.opNat 3 = 0 ∨ s.opNat 2 + 8 * s.opNat 3 ≤ s.params.bufSize) →
    s.memRead (s.opNat 0) v.payloadLen = tlvBytes rs ++ tail → RecordsOk rs → StopsAfter rs tail →
    ∃ t mask, exec .tlvParse s = .next t ∧
      CompletedWith s t
        [BitVec.ofNat 32 rs.length, mask,
          match valueOf rs tagPID with
          | some val => BitVec.ofNat 32 ((val.getD 0 0#8).toNat + 256 * (val.getD 1 0#8).toNat)
          | none => 0#32,
          BitVec.ofNat 32 (tlvBytes rs).length,
          match valueOf rs tagFSZ with
          | some val => be32 (val.take 4)
          | none => 0#32,
          match valueOf rs tagFSZ with
          | some val => be32 (val.drop 4)
          | none => 0#32] ∧
      (∀ b : Nat, mask.getLsbD b = rs.any (fun r => presenceBit r.1 == b)) ∧
      WroteOnly s t (s.opNat 2) (8 * min rs.length (s.opNat 3)) ∧
      (∀ e, ∀ h : e < min rs.length (s.opNat 3),
        t.bufBytes (s.opNat 2 + 8 * e) 8 =
          tagBytes (rs[e]'(by omega)).1 ++ [BitVec.ofNat 8 (rs[e]'(by omega)).2.length] ++
            bytesBE ((tlvBytes (rs.take e)).length + 4) 4)

/-- R171, R164, R165: TLV_FIND on such a payload: the record with the tag sought, by its value offset, its
length and its record offset; all 0 when no record has the tag. A payload in which admissible records are
followed by one that is refused (it does not fit, a wrong fixed length, a repeated tag, a PID value out of
range) is MetadataMalformed at that record's offset, even when the tag sought precedes it. Before that a bad
version is Usage(1) or UnknownVersion(v), a bad tag operand Usage(2), a payload out of range IO(ARG0). -/
def Obligations.FindLocatesTheRecord : Prop :=
  (∀ s : State, ChecksVersion .tlvFind s 1) ∧
  (∀ (s : State) (v : Version), VersionArg s 1 v →
    ((s.ARG 2).extractLsb' 24 8 ≠ 0#8 → Fails .tlvFind s .usage 2#32) ∧
    ((s.ARG 2).extractLsb' 24 8 = 0#8 → s.params.bufSize < s.opNat 0 + v.payloadLen →
      Fails .tlvFind s .io (s.ARG 0))) ∧
  ∀ (s : State) (v : Version) (rs : List (Tag × List Byte)) (tail : List Byte),
    VersionArg s 1 v → (s.ARG 2).extractLsb' 24 8 = 0#8 →
    s.opNat 0 + v.payloadLen ≤ s.params.bufSize →
    s.memRead (s.opNat 0) v.payloadLen = tlvBytes rs ++ tail → RecordsOk rs →
    (StopsAfter rs tail → ∀ before val after,
      rs = before ++ ((s.ARG 2).extractLsb' 0 24, val) :: after →
      ∃ t, exec .tlvFind s = .next t ∧ CompletedOnly s t
        [1#32, BitVec.ofNat 32 ((tlvBytes before).length + 4), BitVec.ofNat 32 val.length,
          BitVec.ofNat 32 (tlvBytes before).length]) ∧
    (StopsAfter rs tail → (∀ r ∈ rs, r.1 ≠ (s.ARG 2).extractLsb' 0 24) →
      ∃ t, exec .tlvFind s = .next t ∧ CompletedOnly s t [0#32, 0#32, 0#32, 0#32]) ∧
    (FaultAfter rs tail →
      Fails .tlvFind s .metadataMalformed (BitVec.ofNat 32 (tlvBytes rs).length))

/-- R172, R165: TLV_APPEND at the end of a sequence of admissible records without PAD: a new admissible
record that fits is written at the cursor, byte for byte, and nothing else; RES0 is the new cursor. A
record that does not fit, that repeats a tag, that has a wrong fixed length or a PID value out of range is
MetadataMalformed at the cursor; bytes before the cursor that are no such sequence are MetadataMalformed at
the offset where they fail. Before that a bad version is Usage(1) or UnknownVersion(v), a bad tag, PAD or
00 00 00 Usage(2), a length above 255 Usage(4), a payload out of range IO(ARG0), a value IO(ARG5). -/
def Obligations.AppendAddsOneRecord : Prop :=
  (∀ s : State, ChecksVersion .tlvAppend s 1) ∧
  ∀ (s : State) (v : Version), VersionArg s 1 v →
    let t0 := (s.ARG 2).extractLsb' 0 24
    let val := s.memRead (s.opNat 5) (s.opNat 4)
    let tagBad := (s.ARG 2).extractLsb' 24 8 ≠ 0#8 ∨ t0 = tagPAD ∨ t0 = 0#24
    let payloadIn := s.opNat 0 + v.payloadLen ≤ s.params.bufSize
    let valueIn := s.opNat 4 = 0 ∨ s.opNat 5 + s.opNat 4 ≤ s.params.bufSize
    (tagBad → Fails .tlvAppend s .usage 2#32) ∧
    (¬ tagBad → 255 < s.opNat 4 → Fails .tlvAppend s .usage 4#32) ∧
    (¬ tagBad → s.opNat 4 ≤ 255 →
      (¬ payloadIn → Fails .tlvAppend s .io (s.ARG 0)) ∧
      (payloadIn → ¬ valueIn → Fails .tlvAppend s .io (s.ARG 5)) ∧
      (payloadIn → valueIn → v.payloadLen < s.opNat 3 + 4 + s.opNat 4 →
        Fails .tlvAppend s .metadataMalformed (s.ARG 3)) ∧
      (payloadIn → valueIn → s.opNat 3 + 4 + s.opNat 4 ≤ v.payloadLen → ∀ rs tail rest,
        s.memRead (s.opNat 0) v.payloadLen = tlvBytes rs ++ tail ++ rest →
        (tlvBytes rs ++ tail).length = s.opNat 3 → RecordsOk rs →
        (LeadingFaultAfter rs tail →
          Fails .tlvAppend s .metadataMalformed (BitVec.ofNat 32 (tlvBytes rs).length)) ∧
        (tail = [] → (∀ r ∈ rs, r.1 ≠ tagPAD) →
          (¬ RecordOk (t0, val) ∨ (∃ r ∈ rs, r.1 = t0) →
            Fails .tlvAppend s .metadataMalformed (s.ARG 3)) ∧
          (RecordOk (t0, val) → (∀ r ∈ rs, r.1 ≠ t0) →
            ∃ t, exec .tlvAppend s = .next t ∧
              CompletedWith s t [BitVec.ofNat 32 (s.opNat 3 + 4 + s.opNat 4)] ∧
              WroteOnly s t (s.opNat 0 + s.opNat 3) (4 + s.opNat 4) ∧
              t.bufBytes (s.opNat 0 + s.opNat 3) (4 + s.opNat 4) = recordBytes t0 val))))

/-- R173, R166: TLV_PAD pads a payload from the cursor to its end and writes nothing else: a PAD record of
length min(255, R - 4) and zero fill where 4 or more bytes remain, zeros alone where 1 to 3 do; a bad
version is Usage(1) or UnknownVersion(v), a cursor past the payload Usage(3), a payload out of range
IO(ARG0). -/
def Obligations.PadFillsThePayload : Prop :=
  decode 0x00000023#32 = .ok .tlvPad ∧ (∀ s : State, ChecksVersion .tlvPad s 1) ∧
  ∀ (s : State) (v : Version), VersionArg s 1 v →
    (v.payloadLen < s.opNat 3 → ∃ t, exec .tlvPad s = .next t ∧ RaisedError s t .usage 3#32) ∧
    (s.opNat 3 ≤ v.payloadLen → s.params.bufSize < s.opNat 0 + v.payloadLen →
      ∃ t, exec .tlvPad s = .next t ∧ RaisedError s t .io (s.ARG 0)) ∧
    (s.opNat 3 ≤ v.payloadLen → s.opNat 0 + v.payloadLen ≤ s.params.bufSize →
      let R := v.payloadLen - s.opNat 3
      ∃ t, exec .tlvPad s = .next t ∧
        CompletedWith s t [BitVec.ofNat 32 v.payloadLen,
          if 4 ≤ R then BitVec.ofNat 32 (min 255 (R - 4)) else NONE] ∧
        WroteOnly s t (s.opNat 0 + s.opNat 3) R ∧
        t.bufBytes (s.opNat 0 + s.opNat 3) R =
          if 4 ≤ R then
            [0x50#8, 0x41#8, 0x44#8, BitVec.ofNat 8 (min 255 (R - 4))] ++ List.replicate (R - 4) 0#8
          else List.replicate R 0#8)

/-- R166 ("After padding, ParseTLV of the payload ..."): the records of a padded payload parse back, with
the PAD record last where one was written; parsing stops at L when no byte was left, just past the PAD
record when 4 or more were, and at the cursor otherwise. -/
def Obligations.PaddedPayloadParses : Prop :=
  ∀ (rs : List (Tag × List Byte)) (L : Nat), RecordsOk rs → (∀ r ∈ rs, r.1 ≠ tagPAD) →
    (tlvBytes rs).length ≤ L →
    let R := L - (tlvBytes rs).length
    parseTlv (tlvBytes rs ++ padBytes R) L =
      if 4 ≤ R then
        .ok (tlvRecsAt 0 (rs ++ [(tagPAD, zeros (min 255 (R - 4)))]),
          (tlvBytes rs).length + 4 + min 255 (R - 4))
      else .ok (tlvRecsAt 0 rs, (tlvBytes rs).length)

/-- R174, R167: MH_PARSE of a value that is two varints, a digest of the length the second names, and
trailing bytes: function code, digest length, digest offset, checkable, number of trailing bytes. A
length above 255 is Usage(1), a value out of range IO(ARG0), an empty value MetadataMalformed(0); a varint
that runs past the value or needs a fifth byte is MetadataMalformed at its start, and a digest that does not
fit MetadataMalformed at the start of its length. -/
def Obligations.MultihashParses : Prop :=
  decode 0x00000024#32 = .ok .mhParse ∧
  (∀ s : State, 255 < s.opNat 1 → ∃ t, exec .mhParse s = .next t ∧ RaisedError s t .usage 1#32) ∧
  (∀ s : State, s.opNat 1 = 0 →
    ∃ t, exec .mhParse s = .next t ∧ RaisedError s t .metadataMalformed 0#32) ∧
  (∀ (s : State) (xs ys digest trailing : List Byte), s.opNat 1 ≤ 255 →
    s.opNat 0 + s.opNat 1 ≤ s.params.bufSize →
    s.memRead (s.opNat 0) (s.opNat 1) = xs ++ ys ++ digest ++ trailing → IsVarint xs → IsVarint ys →
    digest.length = varintValue ys →
    ∃ t, exec .mhParse s = .next t ∧ CompletedOnly s t
      [BitVec.ofNat 32 (varintValue xs), BitVec.ofNat 32 (varintValue ys),
        BitVec.ofNat 32 (xs.length + ys.length),
        if varintValue xs = 0x12 ∧ varintValue ys = 32 then 1#32 else 0#32,
        BitVec.ofNat 32 trailing.length]) ∧
  (∀ (s : State) (xs ys rest : List Byte), s.opNat 1 ≤ 255 →
    s.opNat 0 + s.opNat 1 ≤ s.params.bufSize →
    s.memRead (s.opNat 0) (s.opNat 1) = xs ++ ys ++ rest → IsVarint xs → IsVarint ys →
    rest.length < varintValue ys →
    ∃ t, exec .mhParse s = .next t ∧
      RaisedError s t .metadataMalformed (BitVec.ofNat 32 xs.length)) ∧
  (∀ s : State, s.opNat 1 ≤ 255 → s.opNat 1 ≠ 0 → s.params.bufSize < s.opNat 0 + s.opNat 1 →
    Fails .mhParse s .io (s.ARG 0)) ∧
  (∀ (s : State) (ys rest : List Byte), s.opNat 1 ≤ 255 →
    s.opNat 0 + s.opNat 1 ≤ s.params.bufSize → Unfinished ys rest →
    (s.memRead (s.opNat 0) (s.opNat 1) = ys ++ rest → Fails .mhParse s .metadataMalformed 0#32) ∧
    (∀ xs, s.memRead (s.opNat 0) (s.opNat 1) = xs ++ ys ++ rest → IsVarint xs →
      Fails .mhParse s .metadataMalformed (BitVec.ofNat 32 xs.length)))

/-! ## Reed-Solomon -/

/-- R205, R190: GF_MUL completes with the field product of its two bytes; a value above 255 is Usage of
that argument, ARG0 first. The product is commutative and associative with identity 1, it distributes
over ⊕, 0 annihilates, and x · x^7 is reduced by 0x11D. -/
def Obligations.GfMulIsTheFieldProduct : Prop :=
  decode 0x00000030#32 = .ok .gfMul ∧
  (∀ s : State,
    (255 < s.opNat 0 → ∃ t, exec .gfMul s = .next t ∧ RaisedError s t .usage 0#32) ∧
    (s.opNat 0 ≤ 255 → 255 < s.opNat 1 → ∃ t, exec .gfMul s = .next t ∧ RaisedError s t .usage 1#32) ∧
    (∀ a b : Byte, s.ARG 0 = a.setWidth 32 → s.ARG 1 = b.setWidth 32 →
      ∃ t, exec .gfMul s = .next t ∧ CompletedOnly s t [(gmul a b).setWidth 32])) ∧
  (∀ a b : Byte, gmul a b = gmul b a) ∧
  (∀ a b c : Byte, gmul (gmul a b) c = gmul a (gmul b c)) ∧
  (∀ a b c : Byte, gmul a (b ^^^ c) = gmul a b ^^^ gmul a c) ∧
  (∀ a : Byte, gmul 0#8 a = 0#8 ∧ gmul 1#8 a = a) ∧ gmul 0x02#8 0x80#8 = 0x1D#8 ∧
  gmul 0xFF#8 0xFF#8 = 0xE2#8 ∧ gmul 0x8E#8 0x02#8 = 0x01#8

/-- R206, R192: GF_INV completes with the one byte whose product with its argument is 1; 0 and every
value above 255 are Usage(0). -/
def Obligations.GfInvCommand : Prop :=
  decode 0x00000031#32 = .ok .gfInv ∧
  ∀ s : State,
    (s.opNat 0 = 0 ∨ 255 < s.opNat 0 → ∃ t, exec .gfInv s = .next t ∧ RaisedError s t .usage 0#32) ∧
    (∀ a : Byte, a ≠ 0#8 → s.ARG 0 = a.setWidth 32 →
      ∃ t b, exec .gfInv s = .next t ∧ CompletedOnly s t [b.setWidth 32] ∧ gmul a b = 1#8 ∧
        ∀ c : Byte, gmul a c = 1#8 → c = b)

/-- R207: RS_COEF completes with the entry of the encoding matrix; a bad geometry is Usage(0), a row
outside [0, D + P) Usage(1), a column outside [0, D) Usage(2); for D = 1 every entry is 1 (R197). -/
def Obligations.RsCoefCommand : Prop :=
  decode 0x00000032#32 = .ok .rsCoef ∧
  (∀ s : State, (∀ D P, ¬ GeometryArg s 0 D P) →
    ∃ t, exec .rsCoef s = .next t ∧ RaisedError s t .usage 0#32) ∧
  (∀ (s : State) (D P : Nat), GeometryArg s 0 D P →
    (D + P ≤ s.opNat 1 → ∃ t, exec .rsCoef s = .next t ∧ RaisedError s t .usage 1#32) ∧
    (s.opNat 1 < D + P → D ≤ s.opNat 2 →
      ∃ t, exec .rsCoef s = .next t ∧ RaisedError s t .usage 2#32) ∧
    (s.opNat 1 < D + P → s.opNat 2 < D →
      ∃ t, exec .rsCoef s = .next t ∧ CompletedOnly s t
        [(gfEntry (encMatrix D P) (s.opNat 1) (s.opNat 2)).setWidth 32]) ∧
    (D = 1 → s.opNat 1 < 1 + P → s.opNat 2 = 0 →
      ∃ t, exec .rsCoef s = .next t ∧ CompletedOnly s t [1#32]))

/-- R193, R194: the encoding matrix M is V · T⁻¹, that is M · T = V for the Vandermonde matrix V and its
first D rows T, for every D and P in their ranges, with n × D entries; and rows 0 to D - 1 of M are the
identity matrix, so the data shards are the first D rows of a codeword unchanged. -/
def Obligations.EncodingMatrixIsSystematic : Prop :=
  ∀ D P : Nat, 1 ≤ D → D ≤ 128 → 1 ≤ P → P ≤ 128 →
    let M := encMatrix D P
    (M.length = D + P ∧ ∀ row ∈ M, row.length = D) ∧
    (∀ r c, r < D + P → c < D →
      (List.range D).foldl (fun acc k => acc ^^^ gmul (gfEntry M r k) (gexp (BitVec.ofNat 8 k) c)) 0#8 =
        gexp (BitVec.ofNat 8 r) c) ∧
    (∀ r c, r < D → c < D → gfEntry M r c = if r = c then 1#8 else 0#8)

/-- R208, R200, R199: RS_ENCODE with a legal version, geometry, stride and span completes with n and L;
byte x of parity shard j is the sum over c of M[D+j][c] ⊗ d_c[x], and every byte outside the parity
shards is as before. -/
def Obligations.EncodeWritesTheParity : Prop :=
  ∀ (s : State) (v : Version) (D P : Nat), VersionArg s 2 v → v.isParity = true →
    GeometryArg s 3 D P → v.payloadLen ≤ s.opNat 1 →
    s.opNat 0 + ((D + P - 1) * s.opNat 1 + v.payloadLen) ≤ s.params.bufSize →
    ∃ t, exec .rsEncode s = .next t ∧
      CompletedWith s t [BitVec.ofNat 32 (D + P), BitVec.ofNat 32 v.payloadLen] ∧
      (∀ j x, j < P → x < v.payloadLen →
        t.bufByte (s.shardAddr (D + j) + x) = parityColumn D P j (fun c => s.shardByte c x)) ∧
      (∀ a, (∀ j, j < P → Outside a (s.shardAddr (D + j)) v.payloadLen) →
        t.bufByte a = s.bufByte a) ∧ t.scan = s.scan

/-- R208, R269: the checks of RS_ENCODE, RS_RECON and RS_VOTE in their order: an unknown version is
UnknownVersion, a known non-parity version Usage(2), a bad geometry (for RS_VOTE also D ≠ 1) Usage(3), a
stride below L Usage(1), a span past BUF_SIZE IO(ARG0). -/
def Obligations.RsChecksInOrder : Prop :=
  ∀ (s : State) (i : Instr), i = .rsEncode ∨ i = .rsRecon ∨ i = .rsVote →
    ((s.ARG 2).extractLsb' 8 24 ≠ 0#24 → ∃ t, exec i s = .next t ∧ RaisedError s t .usage 2#32) ∧
    ((s.ARG 2).extractLsb' 8 24 = 0#24 → Version.ofByte? (lowByte (s.ARG 2)) = none →
      ∃ t, exec i s = .next t ∧ RaisedError s t .unknownVersion (s.ARG 2)) ∧
    (∀ v, VersionArg s 2 v → v.isParity = false →
      ∃ t, exec i s = .next t ∧ RaisedError s t .usage 2#32) ∧
    (∀ v, VersionArg s 2 v → v.isParity = true →
      (∀ D P, GeometryArg s 3 D P → i = .rsVote ∧ D ≠ 1) → Fails i s .usage 3#32) ∧
    (∀ v D P, VersionArg s 2 v → v.isParity = true → GeometryArg s 3 D P → (i = .rsVote → D = 1) →
      (s.opNat 1 < v.payloadLen → ∃ t, exec i s = .next t ∧ RaisedError s t .usage 1#32) ∧
      (v.payloadLen ≤ s.opNat 1 →
        s.params.bufSize < s.opNat 0 + ((D + P - 1) * s.opNat 1 + v.payloadLen) →
        ∃ t, exec i s = .next t ∧ RaisedError s t .io (s.ARG 0)))

/-- R209, R201, R266: RS_RECON with at least D shards present completes with the number of missing shards
and L and writes no byte outside the missing shards; with all data shards present each missing parity
shard is re-encoded from the data; with fewer than D present it is InsufficientShards of their number. -/
def Obligations.ReconRebuildsMissingShards : Prop :=
  ∀ (s : State) (v : Version) (D P : Nat), VersionArg s 2 v → v.isParity = true →
    GeometryArg s 3 D P → v.payloadLen ≤ s.opNat 1 →
    s.opNat 0 + ((D + P - 1) * s.opNat 1 + v.payloadLen) ≤ s.params.bufSize →
    let k := ((List.range (D + P)).filter s.mask).length
    (k < D → ∃ t, exec .rsRecon s = .next t ∧
      RaisedError s t .insufficientShards (BitVec.ofNat 32 k)) ∧
    (D ≤ k → ∃ t, exec .rsRecon s = .next t ∧
      CompletedWith s t [BitVec.ofNat 32 (D + P - k), BitVec.ofNat 32 v.payloadLen] ∧
      (∀ a, (∀ i, i < D + P → s.mask i = false → Outside a (s.shardAddr i) v.payloadLen) →
        t.bufByte a = s.bufByte a) ∧ t.scan = s.scan ∧
      ((∀ c, c < D → s.mask c = true) → ∀ j x, j < P → s.mask (D + j) = false → x < v.payloadLen →
        t.bufByte (s.shardAddr (D + j) + x) = parityColumn D P j (fun c => s.shardByte c x)))

/-- R209, R196, R201: RS_RECON undoes the loss of shards: if the D present shards of lowest index hold what
they have in a codeword (data bytes d_c[x], parity by R200), then every missing shard is written as that
codeword has it, whatever the other present shards hold (U12). -/
def Obligations.ReconRestoresACodeword : Prop :=
  ∀ (s : State) (v : Version) (D P : Nat) (d : Nat → Nat → Byte), VersionArg s 2 v →
    v.isParity = true → GeometryArg s 3 D P → v.payloadLen ≤ s.opNat 1 →
    s.opNat 0 + ((D + P - 1) * s.opNat 1 + v.payloadLen) ≤ s.params.bufSize →
    D ≤ ((List.range (D + P)).filter s.mask).length →
    let word := fun i x => if i < D then d i x else parityColumn D P (i - D) (fun c => d c x)
    (∀ i ∈ ((List.range (D + P)).filter s.mask).take D, ∀ x, x < v.payloadLen →
      s.shardByte i x = word i x) →
    ∃ t, exec .rsRecon s = .next t ∧
      (∀ i x, i < D + P → s.mask i = false → x < v.payloadLen →
        t.bufByte (s.shardAddr i + x) = word i x)

/-- R210, R202: RS_VOTE with at least one copy present completes with the winning index, the size of its
class, the number of disagreeing copies and the number written; no class is larger, and of the largest
classes the winner's holds the smallest index; every missing copy receives the winner's payload, and no
other byte is written; with none present it is InsufficientShards(0). -/
def Obligations.VoteRepairsFromTheMajority : Prop :=
  ∀ (s : State) (v : Version) (P : Nat), VersionArg s 2 v → v.isParity = true →
    GeometryArg s 3 1 P → v.payloadLen ≤ s.opNat 1 →
    s.opNat 0 + (P * s.opNat 1 + v.payloadLen) ≤ s.params.bufSize →
    let copy := fun i => s.memRead (s.shardAddr i) v.payloadLen
    let present := (List.range (1 + P)).filter s.mask
    let class_ := fun i => (present.filter (fun j => decide (copy j = copy i))).length
    (present = [] → ∃ t, exec .rsVote s = .next t ∧ RaisedError s t .insufficientShards 0#32) ∧
    (present ≠ [] → ∃ t win, exec .rsVote s = .next t ∧ win ∈ present ∧
      (∀ i ∈ present, class_ i ≤ class_ win ∧ (class_ i = class_ win → win ≤ i)) ∧
      CompletedWith s t [BitVec.ofNat 32 win, BitVec.ofNat 32 (class_ win),
        BitVec.ofNat 32 (present.length - class_ win), BitVec.ofNat 32 (1 + P - present.length)] ∧
      (∀ i, i < 1 + P → s.mask i = false → t.bufBytes (s.shardAddr i) v.payloadLen = copy win) ∧
      (∀ a, (∀ i, i < 1 + P → s.mask i = false → Outside a (s.shardAddr i) v.payloadLen) →
        t.bufByte a = s.bufByte a) ∧ t.scan = s.scan)

/-! ## Scanner -/

/-- R245, R233, R234: SCAN_INIT with legal operands completes with SCAN_FROM, SCAN_TO and SCAN_POS: FROM
and TO clamped into [0, LEN] (a negative value gives 0), TO = LEN where FLAGS.TO = 0, POS the first
lattice point at or after FROM; it sets every scanner register and reads no BUF. A FLAGS bit above 3 is
Usage(0x100), a bad alignment code Usage(4), a bad filter version Usage(5), a stream out of range
IO(ARG0). -/
def Obligations.ScanInitOpensAScan : Prop :=
  (∀ (s : State) (flags : BitVec 8), 16 ≤ flags.toNat →
    ∃ t, exec (.scanInit flags) s = .next t ∧ RaisedError s t .usage 0x100#32) ∧
  (∀ (s : State) (flags : BitVec 8), flags.toNat < 16 → 2 < s.opNat 4 →
    ∃ t, exec (.scanInit flags) s = .next t ∧ RaisedError s t .usage 4#32) ∧
  (∀ (s : State) (flags : BitVec 8), flags.toNat < 16 → s.opNat 4 ≤ 2 → flags.getLsbD 2 = true →
    (∀ v, ¬ VersionArg s 5 v) → Fails (.scanInit flags) s .usage 5#32) ∧
  (∀ (s : State) (flags : BitVec 8) (al : Align), flags.toNat < 16 → s.ARG 4 = al.code →
    (flags.getLsbD 2 = true → ∃ v, VersionArg s 5 v) →
    (s.opNat 1 ≠ 0 ∧ s.params.bufSize < s.opNat 0 + s.opNat 1 →
      ∃ t, exec (.scanInit flags) s = .next t ∧ RaisedError s t .io (s.ARG 0)) ∧
    (s.opNat 1 = 0 ∨ s.opNat 0 + s.opNat 1 ≤ s.params.bufSize → s.params.Valid →
      ∃ t, exec (.scanInit flags) s = .next t ∧
        CompletedWith s t [t.scan.from_, t.scan.to_, t.scan.pos] ∧ SameBuf s t ∧
        t.scan.base = s.ARG 0 ∧ t.scan.len = s.ARG 1 ∧
        (t.scan.from_.toNat : Int) = min (max (s.ARG 2).toInt 0) (s.opNat 1) ∧
        (t.scan.to_.toNat : Int) =
          (if flags.getLsbD 0 = true then min (max (s.ARG 3).toInt 0) (s.opNat 1 : Int)
            else (s.opNat 1 : Int)) ∧
        (t.scan.from_.toNat ≤ t.scan.pos.toNat ∧ t.scan.pos.toNat % al.bytes = 0 ∧
          t.scan.pos.toNat < t.scan.from_.toNat + al.bytes) ∧
        t.scan.align = al ∧ t.scan.strict = flags.getLsbD 1 ∧ t.scan.toSet = flags.getLsbD 0 ∧
        (flags.getLsbD 2 = true → ∃ v, VersionArg s 5 v ∧ t.scan.pv = some v) ∧
        (flags.getLsbD 2 = false → t.scan.pv = none) ∧
        t.scan.uid = (if flags.getLsbD 3 = true then some (s.ARG 6) else none) ∧
        t.scan.ref = none ∧ t.scan.exhausted = false ∧ t.scan.errs = 0)) ∧
  (∀ (s : State) (flags : BitVec 8) (m : Memory),
    exec (.scanInit flags) { s with snap := m } = exec (.scanInit flags) s)

/-- R246, R235, R237, R238: SCAN_NEXT on a scan whose m-th candidate from the cursor is the first that is
accepted: it completes with that block's offset, version, UID, sequence number and size, adopts it as
the reference if none is held, moves the cursor past it by the reference's block size, and adds to
SCAN_ERRS the rejected candidates with verdict 3 to 7. -/
def Obligations.ScanNextYieldsTheFirstAccepted : Prop :=
  ∀ (s : State) (m : Nat) (v : Version),
    let cand := fun k => s.scan.pos.toNat + k * s.scan.step
    s.scan.exhausted = false → cand m < s.scan.to_.toNat → s.scanVerdict (cand m) = .accept v →
    (∀ k, k < m → ∀ w, s.scanVerdict (cand k) ≠ .accept w) →
    let uid := be32 (s.streamRead (cand m + 6) 4)
    let ref := (s.scan.ref).getD { off := BitVec.ofNat 32 (cand m), ver := v, uid := uid }
    ∃ t, exec .scanNext s = .next t ∧ SameBuf s t ∧
      CompletedWith s t [1#32, BitVec.ofNat 32 (cand m), v.byte.setWidth 32, uid,
        be32 (s.streamRead (cand m + 10) 4), BitVec.ofNat 32 v.blockSize] ∧
      t.scan = { s.scan with
        ref := some ref, pos := BitVec.ofNat 32 (cand m + ref.ver.blockSize),
        errs := s.scan.errs + BitVec.ofNat 32 ((List.range m).filter (fun k =>
          decide (3 ≤ (s.scanVerdict (cand k)).code.toNat) &&
          decide ((s.scanVerdict (cand k)).code.toNat ≤ 7))).length }

/-- R246, R239: SCAN_NEXT on a scan with no accepted candidate before SCAN_TO completes with all results
0, sets EXHAUSTED, leaves the cursor at the first candidate at or after SCAN_TO and counts the errors;
on an exhausted scan it completes with all results 0 and changes no scanner register. -/
def Obligations.ScanNextExhausts : Prop :=
  (∀ s : State, s.scan.exhausted = true →
    ∃ t, exec .scanNext s = .next t ∧ CompletedOnly s t []) ∧
  (∀ (s : State) (m : Nat),
    let cand := fun k => s.scan.pos.toNat + k * s.scan.step
    s.scan.exhausted = false → s.scan.to_.toNat ≤ cand m →
    (∀ k, k < m → cand k < s.scan.to_.toNat ∧ ∀ w, s.scanVerdict (cand k) ≠ .accept w) →
    ∃ t, exec .scanNext s = .next t ∧ SameBuf s t ∧ CompletedWith s t [] ∧
      t.scan = { s.scan with
        pos := BitVec.ofNat 32 (cand m), exhausted := true,
        errs := s.scan.errs + BitVec.ofNat 32 ((List.range m).filter (fun k =>
          decide (3 ≤ (s.scanVerdict (cand k)).code.toNat) &&
          decide ((s.scanVerdict (cand k)).code.toNat ≤ 7))).length })

/-- R236, R126: the scanner's verdict accepts an offset exactly when a whole block with the magic, a known
version, and a matching CRC lies there below SCAN_TO, and the version filter, the UID filter and the
strict reference admit it; and which verdict a rejected offset gets, in the order of the checks: 2 without
the magic, 3 for an unknown version, 6 for one that the filter refuses, 4 for a block that does not fit below
SCAN_TO, 5 for a wrong CRC, 7 for a UID that the filter or the strict reference refuses. -/
def Obligations.ScanVerdictAcceptsValidBlocks : Prop :=
  (∀ (s : State) (p : Nat) (v : Version),
    s.scanVerdict p = .accept v ↔
      (p + v.blockSize ≤ s.scan.to_.toNat ∧
        s.streamRead p 4 = [0x53#8, 0x42#8, 0x78#8, v.byte] ∧
        be16 (s.streamRead (p + 4) 2) = crcBlock (s.streamRead p v.blockSize) v ∧
        (∀ w, s.scan.pv = some w → v = w) ∧
        (∀ u, s.scan.uid = some u → be32 (s.streamRead (p + 6) 4) = u) ∧
        (s.scan.strict = true → ∀ r, s.scan.ref = some r →
          v = r.ver ∧ be32 (s.streamRead (p + 6) 4) = r.uid))) ∧
  (∀ (s : State) (p : Nat),
    let is := fun code => (s.scanVerdict p).code = code
    let uid := be32 (s.streamRead (p + 6) 4)
    (s.scan.to_.toNat < p + 4 ∨ s.streamRead p 3 ≠ [0x53#8, 0x42#8, 0x78#8] → is 2#32) ∧
    (p + 4 ≤ s.scan.to_.toNat → s.streamRead p 3 = [0x53#8, 0x42#8, 0x78#8] →
      ∀ b, s.streamRead (p + 3) 1 = [b] →
      (Version.ofByte? b = none → is 3#32) ∧
      ∀ v, Version.ofByte? b = some v →
        ((∃ w, s.scan.pv = some w ∧ v ≠ w) → is 6#32) ∧
        ((∀ w, s.scan.pv = some w → v = w) →
          (s.scan.to_.toNat < p + v.blockSize → is 4#32) ∧
          (p + v.blockSize ≤ s.scan.to_.toNat →
            let crcOk := be16 (s.streamRead (p + 4) 2) = crcBlock (s.streamRead p v.blockSize) v
            (¬ crcOk → is 5#32) ∧
            (crcOk → (∃ u, s.scan.uid = some u ∧ uid ≠ u) → is 7#32) ∧
            (crcOk → s.scan.strict = true →
              (∃ r, s.scan.ref = some r ∧ (v ≠ r.ver ∨ uid ≠ r.uid)) → is 7#32)))))

/-- R247: SCAN_PROBE completes without moving the scan: 8 outside [FROM, TO), else 1 off the lattice (of
the alignment, or of the reference once one is held), else 2 without the magic, else the verdict with
the version byte, the header's UID and sequence number where the header lies below TO, and the block
size of a known version. -/
def Obligations.ScanProbeClassifies : Prop :=
  decode 0x00000042#32 = .ok .scanProbe ∧
  ∀ s : State,
    let p := s.opNat 0
    let gives := fun rs => ∃ t, exec .scanProbe s = .next t ∧ CompletedOnly s t rs
    let inside := s.scan.from_.toNat ≤ p ∧ p < s.scan.to_.toNat
    let aligned := (∀ r, s.scan.ref = some r →
        ((r.ver.blockSize : Int) ∣ (p : Int) - (r.off.toNat : Int))) ∧
      (s.scan.ref = none → s.scan.align.bytes ∣ p)
    (¬ inside → gives [8#32]) ∧ (inside → ¬ aligned → gives [1#32]) ∧
    (inside → aligned → s.scanVerdict p = .noMagic → gives [2#32]) ∧
    (inside → aligned → s.scanVerdict p ≠ .noMagic → ∀ b, s.streamRead (p + 3) 1 = [b] →
      let size := BitVec.ofNat 32 (((Version.ofByte? b).map Version.blockSize).getD 0)
      (p + 16 ≤ s.scan.to_.toNat →
        gives [(s.scanVerdict p).code, b.setWidth 32, be32 (s.streamRead (p + 6) 4),
          be32 (s.streamRead (p + 10) 4), size]) ∧
      (s.scan.to_.toNat < p + 16 →
        gives [(s.scanVerdict p).code, b.setWidth 32, 0#32, 0#32, size]))
end

