-- ==== Sys2Proof/Laws/Memory.lean ====
section
/-! SUPPORT. The laws of memory: reading after a store, the canonical form, and staged writes. -/

namespace Sys2Proof.Machine

/-! ## Reading after a store -/

@[simp] theorem Memory.get?_nil (a : Nat) : Memory.get? [] a = none := rfl

theorem Memory.get?_append (m n : Memory) (a : Nat) :
    Memory.get? (m ++ n) a = (Memory.get? m a).or (Memory.get? n a) := by
  induction m with
  | nil => rfl
  | cons c m ih => by_cases h : c.1 = a <;> simp [Memory.get?, h, ih]

theorem Memory.get?_filter (p : Nat → Bool) (m : Memory) (a : Nat) :
    Memory.get? (m.filter (fun c => p c.1)) a = if p a then Memory.get? m a else none := by
  induction m with
  | nil => simp
  | cons c m ih =>
    rw [List.filter_cons]
    by_cases h : c.1 = a
    · subst h; cases hp : p c.1 <;> simp_all [Memory.get?]
    · cases hp : p c.1 <;> simp [Memory.get?, h, ih]

theorem get?_cellsFrom (a : Nat) (bs : List Byte) (x : Nat) :
    Memory.get? (cellsFrom a bs) x = if a ≤ x then bs[x - a]? else none := by
  induction bs generalizing a with
  | nil => simp [cellsFrom]
  | cons b bs ih =>
    simp only [cellsFrom, Memory.get?]
    by_cases h : a = x
    · subst h; simp
    · rw [if_neg h, ih]
      by_cases h2 : a ≤ x
      · rw [if_pos (by omega), if_pos h2, show x - a = (x - (a + 1)) + 1 by omega]; simp
      · rw [if_neg (by omega), if_neg h2]

/-- A read inside a store gives the stored byte. -/
theorem Memory.get?_store_inside {m : Memory} {a x : Nat} {bs : List Byte}
    (h1 : a ≤ x) (h2 : x < a + bs.length) : Memory.get? (Memory.store m a bs) x = bs[x - a]? := by
  have hx : x - a < bs.length := by omega
  simp [Memory.store, Memory.get?_append, Memory.get?_filter (fun k => decide (k < a)),
    get?_cellsFrom, h1, Nat.not_lt.mpr h1, List.getElem?_eq_getElem hx]

/-- A read outside a store gives what it gave before. -/
theorem Memory.get?_store_outside {m : Memory} {a x : Nat} {bs : List Byte}
    (h : x < a ∨ a + bs.length ≤ x) : Memory.get? (Memory.store m a bs) x = Memory.get? m x := by
  rw [Memory.store, Memory.get?_append, Memory.get?_append,
    Memory.get?_filter (fun k => decide (k < a)), Memory.get?_filter (fun k => decide (a + bs.length ≤ k)),
    get?_cellsFrom]
  rcases h with h | h
  · have h2 : ¬ a ≤ x := by omega
    have h3 : ¬ a + bs.length ≤ x := by omega
    simp [h, h2, h3]
  · have h2 : ¬ x < a := by omega
    have h3 : bs[x - a]? = none := List.getElem?_eq_none (by omega)
    simp [h, h2, h3]

theorem byteAt_store_inside {epoch : Nat} {m : Memory} {a x : Nat} {bs : List Byte}
    (h1 : a ≤ x) (h2 : x < a + bs.length) :
    byteAt epoch (Memory.store m a bs) x = bs.getD (x - a) 0#8 := by
  have hx : x - a < bs.length := by omega
  simp [byteAt, Memory.get?_store_inside h1 h2, List.getElem?_eq_getElem hx]

theorem byteAt_store_outside {epoch : Nat} {m : Memory} {a x : Nat} {bs : List Byte}
    (h : x < a ∨ a + bs.length ≤ x) : byteAt epoch (Memory.store m a bs) x = byteAt epoch m x := by
  simp only [byteAt, Memory.get?_store_outside h]

@[simp] theorem bytesAt_length (epoch : Nat) (m : Memory) (a n : Nat) :
    (bytesAt epoch m a n).length = n := by simp [bytesAt]

theorem bytesAt_getElem? (epoch : Nat) (m : Memory) (a n i : Nat) :
    (bytesAt epoch m a n)[i]? = if i < n then some (byteAt epoch m (a + i)) else none := by
  by_cases h : i < n
  · simp [bytesAt, h]
  · rw [if_neg h]; exact List.getElem?_eq_none (by simp; omega)

/-- Reading back exactly what was stored. -/
theorem bytesAt_store_same (epoch : Nat) (m : Memory) (a : Nat) (bs : List Byte) :
    bytesAt epoch (Memory.store m a bs) a bs.length = bs := by
  apply List.ext_getElem? ; intro i
  rw [bytesAt_getElem?]
  by_cases h : i < bs.length
  · rw [if_pos h, byteAt_store_inside (by omega) (by omega)]
    simp [h]
  · rw [if_neg h, List.getElem?_eq_none (by omega)]

theorem bytesAt_store_outside (epoch : Nat) (m : Memory) (a : Nat) (bs : List Byte) (x n : Nat)
    (h : x + n ≤ a ∨ a + bs.length ≤ x) :
    bytesAt epoch (Memory.store m a bs) x n = bytesAt epoch m x n := by
  unfold bytesAt
  apply List.map_congr_left
  intro i hi
  have hi := List.mem_range.mp hi
  exact byteAt_store_outside (by omega)

/-! ## The canonical form -/

theorem Memory.wf_iff (m : Memory) : Memory.wf m = true ↔ m.Pairwise (fun c d => c.1 < d.1) := by
  induction m with
  | nil => simp [Memory.wf]
  | cons c m ih => simp [Memory.wf, ih, List.all_eq_true]

theorem cellsFrom_mem {a : Nat} {bs : List Byte} {c : Host.Cell} (h : c ∈ cellsFrom a bs) :
    a ≤ c.1 ∧ c.1 < a + bs.length := by
  induction bs generalizing a with
  | nil => simp [cellsFrom] at h
  | cons b bs ih =>
    rcases List.mem_cons.mp h with h | h
    · subst h; simp
    · have := ih h; simp only [List.length_cons]; omega

theorem cellsFrom_wf (a : Nat) (bs : List Byte) :
    (cellsFrom a bs).Pairwise (fun c d => c.1 < d.1) := by
  induction bs generalizing a with
  | nil => exact List.Pairwise.nil
  | cons b bs ih =>
    refine List.Pairwise.cons ?_ (ih _)
    intro d hd
    have h := cellsFrom_mem hd
    exact Nat.lt_of_succ_le h.1

/-- Every store keeps the canonical form. -/
theorem Memory.store_wf {m : Memory} (h : Memory.wf m = true) (a : Nat) (bs : List Byte) :
    Memory.wf (Memory.store m a bs) = true := by
  rw [Memory.wf_iff] at h ⊢
  rw [Memory.store, List.pairwise_append, List.pairwise_append]
  refine ⟨⟨h.filter _, cellsFrom_wf a bs, ?_⟩, h.filter _, ?_⟩
  · intro c hc d hd
    have h1 := (List.mem_filter.mp hc).2
    have h2 := cellsFrom_mem hd
    simp only [decide_eq_true_eq] at h1
    omega
  · intro c hc d hd
    have h2 := (List.mem_filter.mp hd).2
    simp only [decide_eq_true_eq] at h2
    rcases List.mem_append.mp hc with hc | hc
    · have h1 := (List.mem_filter.mp hc).2
      simp only [decide_eq_true_eq] at h1
      omega
    · have h1 := cellsFrom_mem hc
      omega

theorem Memory.store_bound {m : Memory} {lim a : Nat} {bs : List Byte}
    (h : ∀ c ∈ m, c.1 < lim) (hb : bs = [] ∨ a + bs.length ≤ lim) :
    ∀ c ∈ Memory.store m a bs, c.1 < lim := by
  intro c hc
  rcases List.mem_append.mp hc with hc | hc
  · rcases List.mem_append.mp hc with hc | hc
    · exact h c (List.mem_filter.mp hc).1
    · have h1 := cellsFrom_mem hc
      rcases hb with hb | hb
      · subst hb; simp at h1; omega
      · omega
  · exact h c (List.mem_filter.mp hc).1

theorem Memory.get?_none_of_lt {m : Memory} {a : Nat} (h : ∀ c ∈ m, a < c.1) :
    Memory.get? m a = none := by
  induction m with
  | nil => rfl
  | cons c m ih =>
    have h1 := h c List.mem_cons_self
    rw [Memory.get?, if_neg (by omega)]
    exact ih (fun d hd => h d (List.mem_cons_of_mem c hd))

/-- Equal memories are equal lists: two canonical memories that hold the same at every offset. -/
theorem Memory.ext_of_wf {m n : Memory} (hm : Memory.wf m = true) (hn : Memory.wf n = true)
    (h : ∀ a, Memory.get? m a = Memory.get? n a) : m = n := by
  rw [Memory.wf_iff] at hm hn
  induction m generalizing n with
  | nil =>
    cases n with
    | nil => rfl
    | cons d n => have := h d.1; simp [Memory.get?, Memory.unlisted] at this
  | cons c m ih =>
    cases n with
    | nil => have := h c.1; simp [Memory.get?, Memory.unlisted] at this
    | cons d n =>
      have hc := List.pairwise_cons.mp hm
      have hd := List.pairwise_cons.mp hn
      have key : c.1 = d.1 := by
        rcases Nat.lt_trichotomy c.1 d.1 with hlt | heq | hgt
        · have h1 := h c.1
          rw [Memory.get?_none_of_lt (m := d :: n) (fun e he => by
            rcases List.mem_cons.mp he with he | he
            · subst he; exact hlt
            · exact Nat.lt_trans hlt (hd.1 e he))] at h1
          simp [Memory.get?] at h1
        · exact heq
        · have h1 := h d.1
          rw [Memory.get?_none_of_lt (m := c :: m) (fun e he => by
            rcases List.mem_cons.mp he with he | he
            · subst he; exact hgt
            · exact Nat.lt_trans hgt (hc.1 e he))] at h1
          simp [Memory.get?] at h1
      have hv : c.2 = d.2 := by
        have h1 := h c.1
        simp [Memory.get?, key] at h1
        exact h1
      have hcd : c = d := Prod.ext key hv
      subst hcd
      congr 1
      apply ih hc.2 hd.2
      intro a
      by_cases ha : c.1 = a
      · subst ha
        rw [Memory.get?_none_of_lt hc.1, Memory.get?_none_of_lt hd.1]
      · have h1 := h a
        simpa [Memory.get?, ha] using h1

/-! ## Staged writes -/

theorem applyWrites_wf {m : Memory} (h : Memory.wf m = true) (ws : List (Nat × List Byte)) :
    Memory.wf (applyWrites m ws) = true := by
  induction ws generalizing m with
  | nil => exact h
  | cons w ws ih => exact ih (Memory.store_wf h w.1 w.2)

theorem applyWrites_bound {m : Memory} {lim : Nat} {ws : List (Nat × List Byte)}
    (h : ∀ c ∈ m, c.1 < lim) (hw : ∀ w ∈ ws, w.2 = [] ∨ w.1 + w.2.length ≤ lim) :
    ∀ c ∈ applyWrites m ws, c.1 < lim := by
  induction ws generalizing m with
  | nil => exact h
  | cons w ws ih =>
    exact ih (Memory.store_bound h (hw w List.mem_cons_self))
      (fun v hv => hw v (List.mem_cons_of_mem w hv))

/-- A byte that no staged write covers reads as before. -/
theorem byteAt_applyWrites_outside {epoch : Nat} {m : Memory} {ws : List (Nat × List Byte)} {x : Nat}
    (h : ∀ w ∈ ws, x < w.1 ∨ w.1 + w.2.length ≤ x) :
    byteAt epoch (applyWrites m ws) x = byteAt epoch m x := by
  induction ws generalizing m with
  | nil => rfl
  | cons w ws ih =>
    have h1 := ih (m := Memory.store m w.1 w.2) (fun v hv => h v (List.mem_cons_of_mem w hv))
    exact h1.trans (byteAt_store_outside (h w List.mem_cons_self))

end Sys2Proof.Machine
end

