-- ==== Sys2Proof/Laws/State.lean ====
section
/-! SUPPORT. One lemma per field per update of State, so that no later proof unfolds a record update. -/

namespace Sys2Proof.Machine

section

variable (s : State)

@[simp] theorem State.accept_params (w : Word) : (s.accept w).params = s.params := rfl
@[simp] theorem State.accept_ie (w : Word) : (s.accept w).ie = s.ie := rfl
@[simp] theorem State.accept_busy (w : Word) : (s.accept w).busy = true := rfl
@[simp] theorem State.accept_done (w : Word) : (s.accept w).done = false := rfl
@[simp] theorem State.accept_err (w : Word) : (s.accept w).err = false := rfl
@[simp] theorem State.accept_werr (w : Word) : (s.accept w).werr = s.werr := rfl
@[simp] theorem State.accept_errcode (w : Word) : (s.accept w).errcode = 0 := rfl
@[simp] theorem State.accept_erracc (w : Word) : (s.accept w).erracc = s.erracc := rfl
@[simp] theorem State.accept_cmd (w : Word) : (s.accept w).cmd = w := rfl
@[simp] theorem State.accept_errinfo (w : Word) : (s.accept w).errinfo = s.errinfo := rfl
@[simp] theorem State.accept_cmdcnt (w : Word) : (s.accept w).cmdcnt = s.cmdcnt := rfl
@[simp] theorem State.accept_arg (w : Word) : (s.accept w).arg = s.arg := rfl
@[simp] theorem State.accept_res (w : Word) : (s.accept w).res = s.res := rfl
@[simp] theorem State.accept_rsMask (w : Word) : (s.accept w).rsMask = s.rsMask := rfl
@[simp] theorem State.accept_scan (w : Word) : (s.accept w).scan = s.scan := rfl
@[simp] theorem State.accept_buf (w : Word) : (s.accept w).buf = s.buf := rfl
@[simp] theorem State.accept_latchArg (w : Word) : (s.accept w).latchArg = s.arg := rfl
@[simp] theorem State.accept_snap (w : Word) : (s.accept w).snap = s.buf := rfl
@[simp] theorem State.accept_staged (w : Word) : (s.accept w).staged = Staged.none := rfl
@[simp] theorem State.accept_abortReq (w : Word) : (s.accept w).abortReq = false := rfl
@[simp] theorem State.accept_delay (w : Word) : (s.accept w).delay = Config.completionDelay s.draws := rfl
@[simp] theorem State.accept_draws (w : Word) : (s.accept w).draws = s.draws + 1 := rfl
@[simp] theorem State.accept_powerOns (w : Word) : (s.accept w).powerOns = s.powerOns := rfl
@[simp] theorem State.accept_host (w : Word) : (s.accept w).host = s.host := rfl
@[simp] theorem State.accept_busData (w : Word) : (s.accept w).busData = s.busData := rfl

@[simp] theorem State.acceptDue_params (w : Word) : (s.acceptDue w).params = s.params := rfl
@[simp] theorem State.acceptDue_ie (w : Word) : (s.acceptDue w).ie = s.ie := rfl
@[simp] theorem State.acceptDue_busy (w : Word) : (s.acceptDue w).busy = true := rfl
@[simp] theorem State.acceptDue_done (w : Word) : (s.acceptDue w).done = false := rfl
@[simp] theorem State.acceptDue_err (w : Word) : (s.acceptDue w).err = false := rfl
@[simp] theorem State.acceptDue_werr (w : Word) : (s.acceptDue w).werr = s.werr := rfl
@[simp] theorem State.acceptDue_errcode (w : Word) : (s.acceptDue w).errcode = 0 := rfl
@[simp] theorem State.acceptDue_erracc (w : Word) : (s.acceptDue w).erracc = s.erracc := rfl
@[simp] theorem State.acceptDue_cmd (w : Word) : (s.acceptDue w).cmd = w := rfl
@[simp] theorem State.acceptDue_errinfo (w : Word) : (s.acceptDue w).errinfo = s.errinfo := rfl
@[simp] theorem State.acceptDue_cmdcnt (w : Word) : (s.acceptDue w).cmdcnt = s.cmdcnt := rfl
@[simp] theorem State.acceptDue_arg (w : Word) : (s.acceptDue w).arg = s.arg := rfl
@[simp] theorem State.acceptDue_res (w : Word) : (s.acceptDue w).res = s.res := rfl
@[simp] theorem State.acceptDue_rsMask (w : Word) : (s.acceptDue w).rsMask = s.rsMask := rfl
@[simp] theorem State.acceptDue_scan (w : Word) : (s.acceptDue w).scan = s.scan := rfl
@[simp] theorem State.acceptDue_buf (w : Word) : (s.acceptDue w).buf = s.buf := rfl
@[simp] theorem State.acceptDue_latchArg (w : Word) : (s.acceptDue w).latchArg = s.arg := rfl
@[simp] theorem State.acceptDue_snap (w : Word) : (s.acceptDue w).snap = s.buf := rfl
@[simp] theorem State.acceptDue_staged (w : Word) : (s.acceptDue w).staged = Staged.none := rfl
@[simp] theorem State.acceptDue_abortReq (w : Word) : (s.acceptDue w).abortReq = false := rfl
@[simp] theorem State.acceptDue_delay (w : Word) : (s.acceptDue w).delay = 0 := rfl
@[simp] theorem State.acceptDue_draws (w : Word) : (s.acceptDue w).draws = s.draws + 1 := rfl
@[simp] theorem State.acceptDue_powerOns (w : Word) : (s.acceptDue w).powerOns = s.powerOns := rfl
@[simp] theorem State.acceptDue_host (w : Word) : (s.acceptDue w).host = s.host := rfl
@[simp] theorem State.acceptDue_busData (w : Word) : (s.acceptDue w).busData = s.busData := rfl

@[simp] theorem State.stage_params (st : Staged) : (s.stage st).params = s.params := rfl
@[simp] theorem State.stage_ie (st : Staged) : (s.stage st).ie = s.ie := rfl
@[simp] theorem State.stage_busy (st : Staged) : (s.stage st).busy = s.busy := rfl
@[simp] theorem State.stage_done (st : Staged) : (s.stage st).done = s.done := rfl
@[simp] theorem State.stage_err (st : Staged) : (s.stage st).err = s.err := rfl
@[simp] theorem State.stage_werr (st : Staged) : (s.stage st).werr = s.werr := rfl
@[simp] theorem State.stage_errcode (st : Staged) : (s.stage st).errcode = s.errcode := rfl
@[simp] theorem State.stage_erracc (st : Staged) : (s.stage st).erracc = s.erracc := rfl
@[simp] theorem State.stage_cmd (st : Staged) : (s.stage st).cmd = s.cmd := rfl
@[simp] theorem State.stage_errinfo (st : Staged) : (s.stage st).errinfo = s.errinfo := rfl
@[simp] theorem State.stage_cmdcnt (st : Staged) : (s.stage st).cmdcnt = s.cmdcnt := rfl
@[simp] theorem State.stage_arg (st : Staged) : (s.stage st).arg = s.arg := rfl
@[simp] theorem State.stage_res (st : Staged) : (s.stage st).res = s.res := rfl
@[simp] theorem State.stage_rsMask (st : Staged) : (s.stage st).rsMask = s.rsMask := rfl
@[simp] theorem State.stage_scan (st : Staged) : (s.stage st).scan = s.scan := rfl
@[simp] theorem State.stage_buf (st : Staged) : (s.stage st).buf = s.buf := rfl
@[simp] theorem State.stage_latchArg (st : Staged) : (s.stage st).latchArg = s.latchArg := rfl
@[simp] theorem State.stage_snap (st : Staged) : (s.stage st).snap = s.snap := rfl
@[simp] theorem State.stage_staged (st : Staged) : (s.stage st).staged = st := rfl
@[simp] theorem State.stage_abortReq (st : Staged) : (s.stage st).abortReq = s.abortReq := rfl
@[simp] theorem State.stage_delay (st : Staged) : (s.stage st).delay = s.delay := rfl
@[simp] theorem State.stage_draws (st : Staged) : (s.stage st).draws = s.draws := rfl
@[simp] theorem State.stage_powerOns (st : Staged) : (s.stage st).powerOns = s.powerOns := rfl
@[simp] theorem State.stage_host (st : Staged) : (s.stage st).host = s.host := rfl
@[simp] theorem State.stage_busData (st : Staged) : (s.stage st).busData = s.busData := rfl

@[simp] theorem State.clearHidden_params : (s.clearHidden).params = s.params := rfl
@[simp] theorem State.clearHidden_ie : (s.clearHidden).ie = s.ie := rfl
@[simp] theorem State.clearHidden_busy : (s.clearHidden).busy = s.busy := rfl
@[simp] theorem State.clearHidden_done : (s.clearHidden).done = s.done := rfl
@[simp] theorem State.clearHidden_err : (s.clearHidden).err = s.err := rfl
@[simp] theorem State.clearHidden_werr : (s.clearHidden).werr = s.werr := rfl
@[simp] theorem State.clearHidden_errcode : (s.clearHidden).errcode = s.errcode := rfl
@[simp] theorem State.clearHidden_erracc : (s.clearHidden).erracc = s.erracc := rfl
@[simp] theorem State.clearHidden_cmd : (s.clearHidden).cmd = s.cmd := rfl
@[simp] theorem State.clearHidden_errinfo : (s.clearHidden).errinfo = s.errinfo := rfl
@[simp] theorem State.clearHidden_cmdcnt : (s.clearHidden).cmdcnt = s.cmdcnt := rfl
@[simp] theorem State.clearHidden_arg : (s.clearHidden).arg = s.arg := rfl
@[simp] theorem State.clearHidden_res : (s.clearHidden).res = s.res := rfl
@[simp] theorem State.clearHidden_rsMask : (s.clearHidden).rsMask = s.rsMask := rfl
@[simp] theorem State.clearHidden_scan : (s.clearHidden).scan = s.scan := rfl
@[simp] theorem State.clearHidden_buf : (s.clearHidden).buf = s.buf := rfl
@[simp] theorem State.clearHidden_latchArg : (s.clearHidden).latchArg = Vector.replicate 8 0 := rfl
@[simp] theorem State.clearHidden_snap : (s.clearHidden).snap = [] := rfl
@[simp] theorem State.clearHidden_staged : (s.clearHidden).staged = Staged.none := rfl
@[simp] theorem State.clearHidden_abortReq : (s.clearHidden).abortReq = false := rfl
@[simp] theorem State.clearHidden_delay : (s.clearHidden).delay = 0 := rfl
@[simp] theorem State.clearHidden_draws : (s.clearHidden).draws = s.draws := rfl
@[simp] theorem State.clearHidden_powerOns : (s.clearHidden).powerOns = s.powerOns := rfl
@[simp] theorem State.clearHidden_host : (s.clearHidden).host = s.host := rfl
@[simp] theorem State.clearHidden_busData : (s.clearHidden).busData = s.busData := rfl

@[simp] theorem State.completeOk_params : (s.completeOk).params = s.params := rfl
@[simp] theorem State.completeOk_ie : (s.completeOk).ie = s.ie := rfl
@[simp] theorem State.completeOk_busy : (s.completeOk).busy = false := rfl
@[simp] theorem State.completeOk_done : (s.completeOk).done = true := rfl
@[simp] theorem State.completeOk_err : (s.completeOk).err = false := rfl
@[simp] theorem State.completeOk_werr : (s.completeOk).werr = s.werr := rfl
@[simp] theorem State.completeOk_errcode : (s.completeOk).errcode = 0 := rfl
@[simp] theorem State.completeOk_erracc : (s.completeOk).erracc = s.erracc := rfl
@[simp] theorem State.completeOk_cmd : (s.completeOk).cmd = s.cmd := rfl
@[simp] theorem State.completeOk_errinfo : (s.completeOk).errinfo = 0 := rfl
@[simp] theorem State.completeOk_cmdcnt : (s.completeOk).cmdcnt = s.cmdcnt + 1 := rfl
@[simp] theorem State.completeOk_arg : (s.completeOk).arg = s.arg := rfl
@[simp] theorem State.completeOk_res : (s.completeOk).res = resFile s.staged.res := rfl
@[simp] theorem State.completeOk_rsMask : (s.completeOk).rsMask = s.rsMask := rfl
@[simp] theorem State.completeOk_scan : (s.completeOk).scan = s.staged.scan.getD s.scan := rfl
@[simp] theorem State.completeOk_buf : (s.completeOk).buf = applyWrites s.buf s.staged.writes := rfl
@[simp] theorem State.completeOk_latchArg : (s.completeOk).latchArg = Vector.replicate 8 0 := rfl
@[simp] theorem State.completeOk_snap : (s.completeOk).snap = [] := rfl
@[simp] theorem State.completeOk_staged : (s.completeOk).staged = Staged.none := rfl
@[simp] theorem State.completeOk_abortReq : (s.completeOk).abortReq = false := rfl
@[simp] theorem State.completeOk_delay : (s.completeOk).delay = 0 := rfl
@[simp] theorem State.completeOk_draws : (s.completeOk).draws = s.draws := rfl
@[simp] theorem State.completeOk_powerOns : (s.completeOk).powerOns = s.powerOns := rfl
@[simp] theorem State.completeOk_host : (s.completeOk).host = s.host := rfl
@[simp] theorem State.completeOk_busData : (s.completeOk).busData = s.busData := rfl

@[simp] theorem State.completeError_params (e : CmdError) : (s.completeError e).params = s.params := rfl
@[simp] theorem State.completeError_ie (e : CmdError) : (s.completeError e).ie = s.ie := rfl
@[simp] theorem State.completeError_busy (e : CmdError) : (s.completeError e).busy = false := rfl
@[simp] theorem State.completeError_done (e : CmdError) : (s.completeError e).done = true := rfl
@[simp] theorem State.completeError_err (e : CmdError) : (s.completeError e).err = true := rfl
@[simp] theorem State.completeError_werr (e : CmdError) : (s.completeError e).werr = s.werr := rfl
@[simp] theorem State.completeError_errcode (e : CmdError) : (s.completeError e).errcode = e.kind.code := rfl
@[simp] theorem State.completeError_erracc (e : CmdError) : (s.completeError e).erracc = erraccSet s.erracc e.kind := rfl
@[simp] theorem State.completeError_cmd (e : CmdError) : (s.completeError e).cmd = s.cmd := rfl
@[simp] theorem State.completeError_errinfo (e : CmdError) : (s.completeError e).errinfo = e.info := rfl
@[simp] theorem State.completeError_cmdcnt (e : CmdError) : (s.completeError e).cmdcnt = s.cmdcnt + 1 := rfl
@[simp] theorem State.completeError_arg (e : CmdError) : (s.completeError e).arg = s.arg := rfl
@[simp] theorem State.completeError_res (e : CmdError) : (s.completeError e).res = s.res := rfl
@[simp] theorem State.completeError_rsMask (e : CmdError) : (s.completeError e).rsMask = s.rsMask := rfl
@[simp] theorem State.completeError_scan (e : CmdError) : (s.completeError e).scan = s.scan := rfl
@[simp] theorem State.completeError_buf (e : CmdError) : (s.completeError e).buf = s.buf := rfl
@[simp] theorem State.completeError_latchArg (e : CmdError) : (s.completeError e).latchArg = Vector.replicate 8 0 := rfl
@[simp] theorem State.completeError_snap (e : CmdError) : (s.completeError e).snap = [] := rfl
@[simp] theorem State.completeError_staged (e : CmdError) : (s.completeError e).staged = Staged.none := rfl
@[simp] theorem State.completeError_abortReq (e : CmdError) : (s.completeError e).abortReq = false := rfl
@[simp] theorem State.completeError_delay (e : CmdError) : (s.completeError e).delay = 0 := rfl
@[simp] theorem State.completeError_draws (e : CmdError) : (s.completeError e).draws = s.draws := rfl
@[simp] theorem State.completeError_powerOns (e : CmdError) : (s.completeError e).powerOns = s.powerOns := rfl
@[simp] theorem State.completeError_host (e : CmdError) : (s.completeError e).host = s.host := rfl
@[simp] theorem State.completeError_busData (e : CmdError) : (s.completeError e).busData = s.busData := rfl

@[simp] theorem State.softReset_params : (s.softReset).params = s.params := rfl
@[simp] theorem State.softReset_ie : (s.softReset).ie = false := rfl
@[simp] theorem State.softReset_busy : (s.softReset).busy = false := rfl
@[simp] theorem State.softReset_done : (s.softReset).done = false := rfl
@[simp] theorem State.softReset_err : (s.softReset).err = false := rfl
@[simp] theorem State.softReset_werr : (s.softReset).werr = false := rfl
@[simp] theorem State.softReset_errcode : (s.softReset).errcode = 0 := rfl
@[simp] theorem State.softReset_erracc : (s.softReset).erracc = 0 := rfl
@[simp] theorem State.softReset_cmd : (s.softReset).cmd = 0 := rfl
@[simp] theorem State.softReset_errinfo : (s.softReset).errinfo = 0 := rfl
@[simp] theorem State.softReset_cmdcnt : (s.softReset).cmdcnt = 0 := rfl
@[simp] theorem State.softReset_arg : (s.softReset).arg = Vector.replicate 8 0 := rfl
@[simp] theorem State.softReset_res : (s.softReset).res = Vector.replicate 8 0 := rfl
@[simp] theorem State.softReset_rsMask : (s.softReset).rsMask = Vector.replicate 8 0 := rfl
@[simp] theorem State.softReset_scan : (s.softReset).scan = Scan.reset := rfl
@[simp] theorem State.softReset_buf : (s.softReset).buf = s.buf := rfl
@[simp] theorem State.softReset_latchArg : (s.softReset).latchArg = Vector.replicate 8 0 := rfl
@[simp] theorem State.softReset_snap : (s.softReset).snap = [] := rfl
@[simp] theorem State.softReset_staged : (s.softReset).staged = Staged.none := rfl
@[simp] theorem State.softReset_abortReq : (s.softReset).abortReq = false := rfl
@[simp] theorem State.softReset_delay : (s.softReset).delay = 0 := rfl
@[simp] theorem State.softReset_draws : (s.softReset).draws = s.draws := rfl
@[simp] theorem State.softReset_powerOns : (s.softReset).powerOns = s.powerOns := rfl
@[simp] theorem State.softReset_host : (s.softReset).host = s.host := rfl
@[simp] theorem State.softReset_busData : (s.softReset).busData = s.busData := rfl

@[simp] theorem State.powerOnReset_params : (s.powerOnReset).params = s.params := rfl
@[simp] theorem State.powerOnReset_ie : (s.powerOnReset).ie = false := rfl
@[simp] theorem State.powerOnReset_busy : (s.powerOnReset).busy = false := rfl
@[simp] theorem State.powerOnReset_done : (s.powerOnReset).done = false := rfl
@[simp] theorem State.powerOnReset_err : (s.powerOnReset).err = false := rfl
@[simp] theorem State.powerOnReset_werr : (s.powerOnReset).werr = false := rfl
@[simp] theorem State.powerOnReset_errcode : (s.powerOnReset).errcode = 0 := rfl
@[simp] theorem State.powerOnReset_erracc : (s.powerOnReset).erracc = 0 := rfl
@[simp] theorem State.powerOnReset_cmd : (s.powerOnReset).cmd = 0 := rfl
@[simp] theorem State.powerOnReset_errinfo : (s.powerOnReset).errinfo = 0 := rfl
@[simp] theorem State.powerOnReset_cmdcnt : (s.powerOnReset).cmdcnt = 0 := rfl
@[simp] theorem State.powerOnReset_arg : (s.powerOnReset).arg = Vector.replicate 8 0 := rfl
@[simp] theorem State.powerOnReset_res : (s.powerOnReset).res = Vector.replicate 8 0 := rfl
@[simp] theorem State.powerOnReset_rsMask : (s.powerOnReset).rsMask = Vector.replicate 8 0 := rfl
@[simp] theorem State.powerOnReset_scan : (s.powerOnReset).scan = Scan.reset := rfl
@[simp] theorem State.powerOnReset_buf : (s.powerOnReset).buf = [] := rfl
@[simp] theorem State.powerOnReset_latchArg : (s.powerOnReset).latchArg = Vector.replicate 8 0 := rfl
@[simp] theorem State.powerOnReset_snap : (s.powerOnReset).snap = [] := rfl
@[simp] theorem State.powerOnReset_staged : (s.powerOnReset).staged = Staged.none := rfl
@[simp] theorem State.powerOnReset_abortReq : (s.powerOnReset).abortReq = false := rfl
@[simp] theorem State.powerOnReset_delay : (s.powerOnReset).delay = 0 := rfl
@[simp] theorem State.powerOnReset_draws : (s.powerOnReset).draws = s.draws := rfl
@[simp] theorem State.powerOnReset_powerOns : (s.powerOnReset).powerOns = s.powerOns + 1 := rfl
@[simp] theorem State.powerOnReset_host : (s.powerOnReset).host = s.host := rfl
@[simp] theorem State.powerOnReset_busData : (s.powerOnReset).busData = s.busData := rfl

@[simp] theorem State.tick_params : (s.tick).params = s.params := rfl
@[simp] theorem State.tick_ie : (s.tick).ie = s.ie := rfl
@[simp] theorem State.tick_busy : (s.tick).busy = s.busy := rfl
@[simp] theorem State.tick_done : (s.tick).done = s.done := rfl
@[simp] theorem State.tick_err : (s.tick).err = s.err := rfl
@[simp] theorem State.tick_werr : (s.tick).werr = s.werr := rfl
@[simp] theorem State.tick_errcode : (s.tick).errcode = s.errcode := rfl
@[simp] theorem State.tick_erracc : (s.tick).erracc = s.erracc := rfl
@[simp] theorem State.tick_cmd : (s.tick).cmd = s.cmd := rfl
@[simp] theorem State.tick_errinfo : (s.tick).errinfo = s.errinfo := rfl
@[simp] theorem State.tick_cmdcnt : (s.tick).cmdcnt = s.cmdcnt := rfl
@[simp] theorem State.tick_arg : (s.tick).arg = s.arg := rfl
@[simp] theorem State.tick_res : (s.tick).res = s.res := rfl
@[simp] theorem State.tick_rsMask : (s.tick).rsMask = s.rsMask := rfl
@[simp] theorem State.tick_scan : (s.tick).scan = s.scan := rfl
@[simp] theorem State.tick_buf : (s.tick).buf = s.buf := rfl
@[simp] theorem State.tick_latchArg : (s.tick).latchArg = s.latchArg := rfl
@[simp] theorem State.tick_snap : (s.tick).snap = s.snap := rfl
@[simp] theorem State.tick_staged : (s.tick).staged = s.staged := rfl
@[simp] theorem State.tick_abortReq : (s.tick).abortReq = s.abortReq := rfl
@[simp] theorem State.tick_delay : (s.tick).delay = s.delay - 1 := rfl
@[simp] theorem State.tick_draws : (s.tick).draws = s.draws := rfl
@[simp] theorem State.tick_powerOns : (s.tick).powerOns = s.powerOns := rfl
@[simp] theorem State.tick_host : (s.tick).host = s.host := rfl
@[simp] theorem State.tick_busData : (s.tick).busData = s.busData := rfl

@[simp] theorem State.advanceHost_params (rest : List HostOp) : (s.advanceHost rest).params = s.params := rfl
@[simp] theorem State.advanceHost_ie (rest : List HostOp) : (s.advanceHost rest).ie = s.ie := rfl
@[simp] theorem State.advanceHost_busy (rest : List HostOp) : (s.advanceHost rest).busy = s.busy := rfl
@[simp] theorem State.advanceHost_done (rest : List HostOp) : (s.advanceHost rest).done = s.done := rfl
@[simp] theorem State.advanceHost_err (rest : List HostOp) : (s.advanceHost rest).err = s.err := rfl
@[simp] theorem State.advanceHost_werr (rest : List HostOp) : (s.advanceHost rest).werr = s.werr := rfl
@[simp] theorem State.advanceHost_errcode (rest : List HostOp) : (s.advanceHost rest).errcode = s.errcode := rfl
@[simp] theorem State.advanceHost_erracc (rest : List HostOp) : (s.advanceHost rest).erracc = s.erracc := rfl
@[simp] theorem State.advanceHost_cmd (rest : List HostOp) : (s.advanceHost rest).cmd = s.cmd := rfl
@[simp] theorem State.advanceHost_errinfo (rest : List HostOp) : (s.advanceHost rest).errinfo = s.errinfo := rfl
@[simp] theorem State.advanceHost_cmdcnt (rest : List HostOp) : (s.advanceHost rest).cmdcnt = s.cmdcnt := rfl
@[simp] theorem State.advanceHost_arg (rest : List HostOp) : (s.advanceHost rest).arg = s.arg := rfl
@[simp] theorem State.advanceHost_res (rest : List HostOp) : (s.advanceHost rest).res = s.res := rfl
@[simp] theorem State.advanceHost_rsMask (rest : List HostOp) : (s.advanceHost rest).rsMask = s.rsMask := rfl
@[simp] theorem State.advanceHost_scan (rest : List HostOp) : (s.advanceHost rest).scan = s.scan := rfl
@[simp] theorem State.advanceHost_buf (rest : List HostOp) : (s.advanceHost rest).buf = s.buf := rfl
@[simp] theorem State.advanceHost_latchArg (rest : List HostOp) : (s.advanceHost rest).latchArg = s.latchArg := rfl
@[simp] theorem State.advanceHost_snap (rest : List HostOp) : (s.advanceHost rest).snap = s.snap := rfl
@[simp] theorem State.advanceHost_staged (rest : List HostOp) : (s.advanceHost rest).staged = s.staged := rfl
@[simp] theorem State.advanceHost_abortReq (rest : List HostOp) : (s.advanceHost rest).abortReq = s.abortReq := rfl
@[simp] theorem State.advanceHost_delay (rest : List HostOp) : (s.advanceHost rest).delay = s.delay - 1 := rfl
@[simp] theorem State.advanceHost_draws (rest : List HostOp) : (s.advanceHost rest).draws = s.draws := rfl
@[simp] theorem State.advanceHost_powerOns (rest : List HostOp) : (s.advanceHost rest).powerOns = s.powerOns := rfl
@[simp] theorem State.advanceHost_host (rest : List HostOp) : (s.advanceHost rest).host = rest := rfl
@[simp] theorem State.advanceHost_busData (rest : List HostOp) : (s.advanceHost rest).busData = s.busData := rfl

@[simp] theorem State.dropWrite_params : (s.dropWrite).params = s.params := rfl
@[simp] theorem State.dropWrite_ie : (s.dropWrite).ie = s.ie := rfl
@[simp] theorem State.dropWrite_busy : (s.dropWrite).busy = s.busy := rfl
@[simp] theorem State.dropWrite_done : (s.dropWrite).done = s.done := rfl
@[simp] theorem State.dropWrite_err : (s.dropWrite).err = s.err := rfl
@[simp] theorem State.dropWrite_werr : (s.dropWrite).werr = true := rfl
@[simp] theorem State.dropWrite_errcode : (s.dropWrite).errcode = s.errcode := rfl
@[simp] theorem State.dropWrite_erracc : (s.dropWrite).erracc = s.erracc := rfl
@[simp] theorem State.dropWrite_cmd : (s.dropWrite).cmd = s.cmd := rfl
@[simp] theorem State.dropWrite_errinfo : (s.dropWrite).errinfo = s.errinfo := rfl
@[simp] theorem State.dropWrite_cmdcnt : (s.dropWrite).cmdcnt = s.cmdcnt := rfl
@[simp] theorem State.dropWrite_arg : (s.dropWrite).arg = s.arg := rfl
@[simp] theorem State.dropWrite_res : (s.dropWrite).res = s.res := rfl
@[simp] theorem State.dropWrite_rsMask : (s.dropWrite).rsMask = s.rsMask := rfl
@[simp] theorem State.dropWrite_scan : (s.dropWrite).scan = s.scan := rfl
@[simp] theorem State.dropWrite_buf : (s.dropWrite).buf = s.buf := rfl
@[simp] theorem State.dropWrite_latchArg : (s.dropWrite).latchArg = s.latchArg := rfl
@[simp] theorem State.dropWrite_snap : (s.dropWrite).snap = s.snap := rfl
@[simp] theorem State.dropWrite_staged : (s.dropWrite).staged = s.staged := rfl
@[simp] theorem State.dropWrite_abortReq : (s.dropWrite).abortReq = s.abortReq := rfl
@[simp] theorem State.dropWrite_delay : (s.dropWrite).delay = s.delay := rfl
@[simp] theorem State.dropWrite_draws : (s.dropWrite).draws = s.draws := rfl
@[simp] theorem State.dropWrite_powerOns : (s.dropWrite).powerOns = s.powerOns := rfl
@[simp] theorem State.dropWrite_host : (s.dropWrite).host = s.host := rfl
@[simp] theorem State.dropWrite_busData : (s.dropWrite).busData = s.busData := rfl

@[simp] theorem State.returned_params (v : Word) : (s.returned v).params = s.params := rfl
@[simp] theorem State.returned_ie (v : Word) : (s.returned v).ie = s.ie := rfl
@[simp] theorem State.returned_busy (v : Word) : (s.returned v).busy = s.busy := rfl
@[simp] theorem State.returned_done (v : Word) : (s.returned v).done = s.done := rfl
@[simp] theorem State.returned_err (v : Word) : (s.returned v).err = s.err := rfl
@[simp] theorem State.returned_werr (v : Word) : (s.returned v).werr = s.werr := rfl
@[simp] theorem State.returned_errcode (v : Word) : (s.returned v).errcode = s.errcode := rfl
@[simp] theorem State.returned_erracc (v : Word) : (s.returned v).erracc = s.erracc := rfl
@[simp] theorem State.returned_cmd (v : Word) : (s.returned v).cmd = s.cmd := rfl
@[simp] theorem State.returned_errinfo (v : Word) : (s.returned v).errinfo = s.errinfo := rfl
@[simp] theorem State.returned_cmdcnt (v : Word) : (s.returned v).cmdcnt = s.cmdcnt := rfl
@[simp] theorem State.returned_arg (v : Word) : (s.returned v).arg = s.arg := rfl
@[simp] theorem State.returned_res (v : Word) : (s.returned v).res = s.res := rfl
@[simp] theorem State.returned_rsMask (v : Word) : (s.returned v).rsMask = s.rsMask := rfl
@[simp] theorem State.returned_scan (v : Word) : (s.returned v).scan = s.scan := rfl
@[simp] theorem State.returned_buf (v : Word) : (s.returned v).buf = s.buf := rfl
@[simp] theorem State.returned_latchArg (v : Word) : (s.returned v).latchArg = s.latchArg := rfl
@[simp] theorem State.returned_snap (v : Word) : (s.returned v).snap = s.snap := rfl
@[simp] theorem State.returned_staged (v : Word) : (s.returned v).staged = s.staged := rfl
@[simp] theorem State.returned_abortReq (v : Word) : (s.returned v).abortReq = s.abortReq := rfl
@[simp] theorem State.returned_delay (v : Word) : (s.returned v).delay = s.delay := rfl
@[simp] theorem State.returned_draws (v : Word) : (s.returned v).draws = s.draws := rfl
@[simp] theorem State.returned_powerOns (v : Word) : (s.returned v).powerOns = s.powerOns := rfl
@[simp] theorem State.returned_host (v : Word) : (s.returned v).host = s.host := rfl
@[simp] theorem State.returned_busData (v : Word) : (s.returned v).busData = v := rfl

@[simp] theorem State.writeStatus_params (v : Word) : (s.writeStatus v).params = s.params := rfl
@[simp] theorem State.writeStatus_ie (v : Word) : (s.writeStatus v).ie = s.ie := rfl
@[simp] theorem State.writeStatus_busy (v : Word) : (s.writeStatus v).busy = s.busy := rfl
@[simp] theorem State.writeStatus_done (v : Word) : (s.writeStatus v).done = (s.done && !v.getLsbD 1) := rfl
@[simp] theorem State.writeStatus_err (v : Word) : (s.writeStatus v).err = s.err := rfl
@[simp] theorem State.writeStatus_werr (v : Word) : (s.writeStatus v).werr = (s.werr && !v.getLsbD 3) := rfl
@[simp] theorem State.writeStatus_errcode (v : Word) : (s.writeStatus v).errcode = s.errcode := rfl
@[simp] theorem State.writeStatus_erracc (v : Word) : (s.writeStatus v).erracc = s.erracc := rfl
@[simp] theorem State.writeStatus_cmd (v : Word) : (s.writeStatus v).cmd = s.cmd := rfl
@[simp] theorem State.writeStatus_errinfo (v : Word) : (s.writeStatus v).errinfo = s.errinfo := rfl
@[simp] theorem State.writeStatus_cmdcnt (v : Word) : (s.writeStatus v).cmdcnt = s.cmdcnt := rfl
@[simp] theorem State.writeStatus_arg (v : Word) : (s.writeStatus v).arg = s.arg := rfl
@[simp] theorem State.writeStatus_res (v : Word) : (s.writeStatus v).res = s.res := rfl
@[simp] theorem State.writeStatus_rsMask (v : Word) : (s.writeStatus v).rsMask = s.rsMask := rfl
@[simp] theorem State.writeStatus_scan (v : Word) : (s.writeStatus v).scan = s.scan := rfl
@[simp] theorem State.writeStatus_buf (v : Word) : (s.writeStatus v).buf = s.buf := rfl
@[simp] theorem State.writeStatus_latchArg (v : Word) : (s.writeStatus v).latchArg = s.latchArg := rfl
@[simp] theorem State.writeStatus_snap (v : Word) : (s.writeStatus v).snap = s.snap := rfl
@[simp] theorem State.writeStatus_staged (v : Word) : (s.writeStatus v).staged = s.staged := rfl
@[simp] theorem State.writeStatus_abortReq (v : Word) : (s.writeStatus v).abortReq = s.abortReq := rfl
@[simp] theorem State.writeStatus_delay (v : Word) : (s.writeStatus v).delay = s.delay := rfl
@[simp] theorem State.writeStatus_draws (v : Word) : (s.writeStatus v).draws = s.draws := rfl
@[simp] theorem State.writeStatus_powerOns (v : Word) : (s.writeStatus v).powerOns = s.powerOns := rfl
@[simp] theorem State.writeStatus_host (v : Word) : (s.writeStatus v).host = s.host := rfl
@[simp] theorem State.writeStatus_busData (v : Word) : (s.writeStatus v).busData = s.busData := rfl

@[simp] theorem State.writeErracc_params (v : Word) : (s.writeErracc v).params = s.params := rfl
@[simp] theorem State.writeErracc_ie (v : Word) : (s.writeErracc v).ie = s.ie := rfl
@[simp] theorem State.writeErracc_busy (v : Word) : (s.writeErracc v).busy = s.busy := rfl
@[simp] theorem State.writeErracc_done (v : Word) : (s.writeErracc v).done = s.done := rfl
@[simp] theorem State.writeErracc_err (v : Word) : (s.writeErracc v).err = s.err := rfl
@[simp] theorem State.writeErracc_werr (v : Word) : (s.writeErracc v).werr = s.werr := rfl
@[simp] theorem State.writeErracc_errcode (v : Word) : (s.writeErracc v).errcode = s.errcode := rfl
@[simp] theorem State.writeErracc_erracc (v : Word) : (s.writeErracc v).erracc = erraccW1C s.erracc v := rfl
@[simp] theorem State.writeErracc_cmd (v : Word) : (s.writeErracc v).cmd = s.cmd := rfl
@[simp] theorem State.writeErracc_errinfo (v : Word) : (s.writeErracc v).errinfo = s.errinfo := rfl
@[simp] theorem State.writeErracc_cmdcnt (v : Word) : (s.writeErracc v).cmdcnt = s.cmdcnt := rfl
@[simp] theorem State.writeErracc_arg (v : Word) : (s.writeErracc v).arg = s.arg := rfl
@[simp] theorem State.writeErracc_res (v : Word) : (s.writeErracc v).res = s.res := rfl
@[simp] theorem State.writeErracc_rsMask (v : Word) : (s.writeErracc v).rsMask = s.rsMask := rfl
@[simp] theorem State.writeErracc_scan (v : Word) : (s.writeErracc v).scan = s.scan := rfl
@[simp] theorem State.writeErracc_buf (v : Word) : (s.writeErracc v).buf = s.buf := rfl
@[simp] theorem State.writeErracc_latchArg (v : Word) : (s.writeErracc v).latchArg = s.latchArg := rfl
@[simp] theorem State.writeErracc_snap (v : Word) : (s.writeErracc v).snap = s.snap := rfl
@[simp] theorem State.writeErracc_staged (v : Word) : (s.writeErracc v).staged = s.staged := rfl
@[simp] theorem State.writeErracc_abortReq (v : Word) : (s.writeErracc v).abortReq = s.abortReq := rfl
@[simp] theorem State.writeErracc_delay (v : Word) : (s.writeErracc v).delay = s.delay := rfl
@[simp] theorem State.writeErracc_draws (v : Word) : (s.writeErracc v).draws = s.draws := rfl
@[simp] theorem State.writeErracc_powerOns (v : Word) : (s.writeErracc v).powerOns = s.powerOns := rfl
@[simp] theorem State.writeErracc_host (v : Word) : (s.writeErracc v).host = s.host := rfl
@[simp] theorem State.writeErracc_busData (v : Word) : (s.writeErracc v).busData = s.busData := rfl

@[simp] theorem State.bufWrite_params (a n : Nat) (v : Word) : (s.bufWrite a n v).params = s.params := rfl
@[simp] theorem State.bufWrite_ie (a n : Nat) (v : Word) : (s.bufWrite a n v).ie = s.ie := rfl
@[simp] theorem State.bufWrite_busy (a n : Nat) (v : Word) : (s.bufWrite a n v).busy = s.busy := rfl
@[simp] theorem State.bufWrite_done (a n : Nat) (v : Word) : (s.bufWrite a n v).done = s.done := rfl
@[simp] theorem State.bufWrite_err (a n : Nat) (v : Word) : (s.bufWrite a n v).err = s.err := rfl
@[simp] theorem State.bufWrite_werr (a n : Nat) (v : Word) : (s.bufWrite a n v).werr = s.werr := rfl
@[simp] theorem State.bufWrite_errcode (a n : Nat) (v : Word) : (s.bufWrite a n v).errcode = s.errcode := rfl
@[simp] theorem State.bufWrite_erracc (a n : Nat) (v : Word) : (s.bufWrite a n v).erracc = s.erracc := rfl
@[simp] theorem State.bufWrite_cmd (a n : Nat) (v : Word) : (s.bufWrite a n v).cmd = s.cmd := rfl
@[simp] theorem State.bufWrite_errinfo (a n : Nat) (v : Word) : (s.bufWrite a n v).errinfo = s.errinfo := rfl
@[simp] theorem State.bufWrite_cmdcnt (a n : Nat) (v : Word) : (s.bufWrite a n v).cmdcnt = s.cmdcnt := rfl
@[simp] theorem State.bufWrite_arg (a n : Nat) (v : Word) : (s.bufWrite a n v).arg = s.arg := rfl
@[simp] theorem State.bufWrite_res (a n : Nat) (v : Word) : (s.bufWrite a n v).res = s.res := rfl
@[simp] theorem State.bufWrite_rsMask (a n : Nat) (v : Word) : (s.bufWrite a n v).rsMask = s.rsMask := rfl
@[simp] theorem State.bufWrite_scan (a n : Nat) (v : Word) : (s.bufWrite a n v).scan = s.scan := rfl
@[simp] theorem State.bufWrite_buf (a n : Nat) (v : Word) : (s.bufWrite a n v).buf = Memory.store s.buf a (bytesBE v.toNat n) := rfl
@[simp] theorem State.bufWrite_latchArg (a n : Nat) (v : Word) : (s.bufWrite a n v).latchArg = s.latchArg := rfl
@[simp] theorem State.bufWrite_snap (a n : Nat) (v : Word) : (s.bufWrite a n v).snap = s.snap := rfl
@[simp] theorem State.bufWrite_staged (a n : Nat) (v : Word) : (s.bufWrite a n v).staged = s.staged := rfl
@[simp] theorem State.bufWrite_abortReq (a n : Nat) (v : Word) : (s.bufWrite a n v).abortReq = s.abortReq := rfl
@[simp] theorem State.bufWrite_delay (a n : Nat) (v : Word) : (s.bufWrite a n v).delay = s.delay := rfl
@[simp] theorem State.bufWrite_draws (a n : Nat) (v : Word) : (s.bufWrite a n v).draws = s.draws := rfl
@[simp] theorem State.bufWrite_powerOns (a n : Nat) (v : Word) : (s.bufWrite a n v).powerOns = s.powerOns := rfl
@[simp] theorem State.bufWrite_host (a n : Nat) (v : Word) : (s.bufWrite a n v).host = s.host := rfl
@[simp] theorem State.bufWrite_busData (a n : Nat) (v : Word) : (s.bufWrite a n v).busData = s.busData := rfl

end

end Sys2Proof.Machine
end

