-- ==== Sys2Proof/Laws/Lifecycle.lean ====
section
/-! SUPPORT. What a completion can do, once: every command is its rule's outcome, finished; a finish is a
successful or an error completion; and what one step of the machine can do. -/

namespace Sys2Proof.Machine

open Sys2Proof

/-! ## Checks -/

@[simp] theorem raiseIf_true (e : CmdError) : raiseIf true e = .error e := rfl
@[simp] theorem raiseIf_false (e : CmdError) : raiseIf false e = .ok () := rfl

/-- A check passes exactly when its condition is false. -/
theorem raiseIf_eq_ok {c : Bool} {e : CmdError} {u : Unit} : raiseIf c e = .ok u ↔ c = false := by
  cases c <;> simp [raiseIf]

/-- A check that fails raises its error. -/
theorem raiseIf_eq_error {c : Bool} {e e' : CmdError} :
    raiseIf c e = .error e' ↔ c = true ∧ e = e' := by cases c <;> simp [raiseIf]

@[simp] theorem ok_bind {α β : Type} (x : α) (f : α → Except CmdError β) :
    ((Except.ok x : Except CmdError α) >>= f) = f x := rfl

@[simp] theorem error_bind {α β : Type} (e : CmdError) (f : α → Except CmdError β) :
    ((Except.error e : Except CmdError α) >>= f) = .error e := rfl

/-- A sequence of checks succeeds exactly when each of them does. -/
theorem bind_eq_ok {α β : Type} {x : Except CmdError α} {f : α → Except CmdError β} {b : β} :
    x >>= f = .ok b ↔ ∃ a, x = .ok a ∧ f a = .ok b := by
  cases x with
  | ok a => simp
  | error e => simp

/-- A sequence of checks fails with the first failure. -/
theorem bind_eq_error {α β : Type} {x : Except CmdError α} {f : α → Except CmdError β} {e : CmdError} :
    x >>= f = .error e ↔ x = .error e ∨ ∃ a, x = .ok a ∧ f a = .error e := by
  cases x with
  | ok a => simp
  | error e' => simp

@[simp] theorem pure_eq_ok {α : Type} (x : α) : (pure x : Except CmdError α) = .ok x := rfl

/-! ## Completions -/

/-- Every command is its rule's outcome, finished. -/
theorem exec_eq_finish (i : Instr) (s : State) : exec i s = .next (s.finish (outcomeOf i s)) := by
  cases i <;> rfl

@[simp] theorem finish_ok (s : State) (st : Staged) : s.finish (.ok st) = (s.stage st).completeOk := rfl
@[simp] theorem finish_error (s : State) (e : CmdError) : s.finish (.error e) = s.completeError e := rfl

/-- A successful completion has the shape of R102. -/
theorem completeOk_completedWith (s : State) (st : Staged) :
    CompletedWith s (s.stage st).completeOk st.res :=
  ⟨rfl, rfl, rfl, rfl, rfl, rfl, rfl, rfl, ⟨rfl, rfl, rfl, rfl⟩,
    ⟨rfl, rfl, rfl, rfl, rfl, rfl, rfl, rfl, rfl, rfl⟩⟩

/-- An error completion has the shape of R103. -/
theorem completeError_raisedError (s : State) (e : CmdError) :
    RaisedError s (s.completeError e) e.kind e.info :=
  ⟨rfl, rfl, rfl, rfl, rfl, rfl, rfl, rfl, rfl, rfl, ⟨rfl, rfl, rfl, rfl⟩,
    ⟨rfl, rfl, rfl, rfl, rfl, rfl, rfl, rfl, rfl, rfl⟩⟩

/-- A command whose rule raises `e` ends in the error completion of `e`. -/
theorem exec_of_error {i : Instr} {s : State} {e : CmdError} (h : outcomeOf i s = .error e) :
    ∃ t, exec i s = .next t ∧ RaisedError s t e.kind e.info :=
  ⟨s.completeError e, by rw [exec_eq_finish, h]; rfl, completeError_raisedError s e⟩

/-- A command whose rule stages results only completes with them. -/
theorem exec_of_results {i : Instr} {s : State} {st : Staged} (h : outcomeOf i s = .ok st)
    (hw : st.writes = []) (hs : st.scan = Option.none) :
    ∃ t, exec i s = .next t ∧ CompletedOnly s t st.res := by
  refine ⟨(s.stage st).completeOk, by rw [exec_eq_finish, h]; rfl, completeOk_completedWith s st, ?_, ?_⟩
  · intro a; simp [State.bufByte, hw, applyWrites]
  · simp [hs]

/-- BUF after a successful completion: the bytes outside every staged write read as before. -/
theorem bufByte_completeOk_outside {s : State} {st : Staged} {a : Nat}
    (h : ∀ w ∈ st.writes, Outside a w.1 w.2.length) :
    (s.stage st).completeOk.bufByte a = s.bufByte a :=
  byteAt_applyWrites_outside (fun w hw => h w hw)

/-! ## One step -/

/-- What one step can do: nothing is due and the host takes its turn; or the command in flight is due,
and is cancelled, or ends as a malformed word, or runs. -/
theorem step_cases (s : State) :
    (s.due = false ∧ step s = hostTurn s) ∨
    (s.due = true ∧ s.cancels = true ∧ step s = .next (s.completeError cancelledError)) ∨
    (s.due = true ∧ s.cancels = false ∧ (∃ e, decode s.cmd = .error e) ∧
      step s = .next (s.completeError malformedWord)) ∨
    (s.due = true ∧ s.cancels = false ∧ ∃ i, decode s.cmd = .ok i ∧
      step s = .next (s.finish (outcomeOf i s))) := by
  cases hd : s.due
  · exact .inl ⟨rfl, by simp [step, hd]⟩
  cases hc : s.cancels
  · cases he : decode s.cmd with
    | error e => exact .inr (.inr (.inl ⟨rfl, rfl, ⟨e, rfl⟩, by
        simp [step, hd, completionStep, hc, runLatched, he, endWithError]⟩))
    | ok i => exact .inr (.inr (.inr ⟨rfl, rfl, i, rfl, by
        simp [step, hd, completionStep, hc, runLatched, he, exec_eq_finish]⟩))
  · exact .inr (.inl ⟨rfl, rfl, by simp [step, hd, completionStep, hc, endWithError]⟩)

/-! ## Host accesses -/

/-- The register aperture is the first 0x1000 bytes of the window. -/
theorem targetOf_reg {p : Params} {off r : Nat} :
    targetOf p off = some (.reg r) ↔ off < apertureSize ∧ r = off := by
  unfold targetOf
  split
  · rename_i h; simp [h, eq_comm]
  · rename_i h
    split <;> simp [h]

/-- The BUF aperture is the BUF_SIZE bytes from BUF_OFFSET on. -/
theorem targetOf_buf {p : Params} {off a : Nat} :
    targetOf p off = some (.buf a) ↔
      ¬ off < apertureSize ∧ off = p.bufOffset + a ∧ a < p.bufSize := by
  unfold targetOf
  split
  · rename_i h; simp [h]
  · rename_i h
    split
    · rename_i h2; simp only [Option.some.injEq, Target.buf.injEq]; constructor
      · intro e; subst e; exact ⟨h, by omega, by omega⟩
      · rintro ⟨_, e, _⟩; omega
    · rename_i h2; simp only [reduceCtorEq, false_iff]; rintro ⟨_, e, h3⟩; exact h2 ⟨by omega, by omega⟩

/-- An access reaches a register exactly when it is an aligned 32-bit access of the aperture. -/
theorem busCheck_reg {p : Params} {w : Width} {off r : Nat} :
    busCheck p w off = .hit (.reg r) ↔ off < apertureSize ∧ r = off ∧ w = .w32 ∧ off % 4 = 0 := by
  unfold busCheck
  cases ht : targetOf p off with
  | none =>
    simp only [reduceCtorEq, false_iff]
    rintro ⟨h, -⟩
    have := targetOf_reg (p := p) (r := off) |>.mpr ⟨h, rfl⟩
    simp [this] at ht
  | some tg =>
    cases tg with
    | reg k =>
      obtain ⟨h1, rfl⟩ := targetOf_reg.mp ht
      by_cases hw : w = .w32 <;> by_cases hm : k % 4 = 0 <;> simp [hw, hm, h1, eq_comm]
    | buf a =>
      have h1 := (targetOf_buf.mp ht).1
      by_cases hm : off % w.bytes = 0 <;> simp [hm, h1]

/-- An access reaches BUF exactly when it lies in the BUF aperture and is naturally aligned. -/
theorem busCheck_buf {p : Params} {w : Width} {off a : Nat} :
    busCheck p w off = .hit (.buf a) ↔
      ¬ off < apertureSize ∧ off = p.bufOffset + a ∧ a < p.bufSize ∧ off % w.bytes = 0 := by
  unfold busCheck
  cases ht : targetOf p off with
  | none =>
    simp only [reduceCtorEq, false_iff]
    rintro ⟨h, h2, h3, -⟩
    have := targetOf_buf (p := p) (a := a) |>.mpr ⟨h, h2, h3⟩
    simp [this] at ht
  | some tg =>
    cases tg with
    | reg k =>
      obtain ⟨h1, rfl⟩ := targetOf_reg.mp ht
      by_cases hw : w = .w32 <;> by_cases hm : k % 4 = 0 <;> simp [hw, hm, h1]
    | buf b =>
      obtain ⟨h1, h2, h3⟩ := targetOf_buf.mp ht
      subst h2
      by_cases hm : (p.bufOffset + b) % w.bytes = 0
      · have hb : b = a → a < p.bufSize := fun e => e ▸ h3
        simpa [hm, h1] using hb
      · simp only [ne_eq, hm, not_false_eq_true, ite_true, reduceCtorEq, false_iff]
        rintro ⟨-, -, -, h⟩
        exact h

/-- What a host access can do when it does not stop the run. -/
theorem hostStep_next {s t : State} {op : HostOp} (h : hostStep s op = .next t) :
    (∃ v, t = s.returned v) ∨
    (∃ r v, r % 4 = 0 ∧ r < apertureSize ∧ t = s.regWrite r v) ∨
    (∃ a w v, a < s.params.bufSize ∧ (s.params.bufOffset + a) % Width.bytes w = 0 ∧
      t = s.bufWrite a (Width.bytes w) v) ∨
    t = s.powerOnReset := by
  cases op with
  | powerOn => simp only [hostStep, Host.Outcome.next.injEq] at h; exact .inr (.inr (.inr h.symm))
  | read w off =>
    left
    simp only [hostStep, hostRead] at h
    cases hb : busCheck s.params w off with
    | hit tg =>
      rw [hb] at h
      cases tg <;> simp only [Host.Outcome.next.injEq] at h <;> exact ⟨_, h.symm⟩
    | noTarget => simp [hb] at h
    | badWidth => simp [hb] at h
    | misaligned => simp [hb] at h
  | write w off v =>
    right
    simp only [hostStep, hostWrite] at h
    cases hb : busCheck s.params w off with
    | noTarget => simp [hb] at h
    | badWidth => simp [hb] at h
    | misaligned => simp [hb] at h
    | hit tg =>
      rw [hb] at h
      cases tg with
      | reg r =>
        obtain ⟨h1, rfl, -, h3⟩ := busCheck_reg.mp hb
        simp only [Host.Outcome.next.injEq] at h
        exact .inl ⟨r, v, h3, h1, h.symm⟩
      | buf a =>
        obtain ⟨-, h2, h3, h4⟩ := busCheck_buf.mp hb
        simp only [Host.Outcome.next.injEq] at h
        exact .inr (.inl ⟨a, w, v, h3, h2 ▸ h4, h.symm⟩)

/-- What a host turn can do: the engine waits, or the host's next access takes place. -/
theorem hostTurn_next {s t : State} (h : hostTurn s = .next t) :
    (s.host = [] ∧ t = s.tick) ∨
    (∃ op rest, s.host = op :: rest ∧ hostStep (s.advanceHost rest) op = .next t) := by
  unfold hostTurn at h
  cases hh : s.host with
  | nil => rw [hh] at h; simp only [Host.Outcome.next.injEq] at h; exact .inl ⟨rfl, h.symm⟩
  | cons op rest => rw [hh] at h; exact .inr ⟨op, rest, rfl, h⟩

/-- What a register write can do (R20-R35, R294). -/
theorem regWrite_cases (s : State) (off : Nat) (v : Word) :
    s.regWrite off v = s ∨ s.regWrite off v = s.writeCtrl v ∨ s.regWrite off v = s.writeStatus v ∨
    s.regWrite off v = s.writeErracc v ∨ s.regWrite off v = s.writeCmd v ∨
    (∃ k, s.regWrite off v = s.writeArg k v) ∨ (∃ k, s.regWrite off v = s.writeMask k v) := by
  unfold State.regWrite
  split_ifs
  · exact .inr (.inl rfl)
  · exact .inr (.inr (.inl rfl))
  · exact .inr (.inr (.inr (.inl rfl)))
  · exact .inr (.inr (.inr (.inr (.inl rfl))))
  · exact .inr (.inr (.inr (.inr (.inr (.inl ⟨_, rfl⟩)))))
  · exact .inr (.inr (.inr (.inr (.inr (.inr ⟨_, rfl⟩)))))
  · exact .inl rfl

end Sys2Proof.Machine
end

