-- ==== Sys2Proof/Laws/Operands.lean ====
section
/-! SUPPORT. What each operand check of R82 answers, said once. -/

namespace Sys2Proof.Machine

open Sys2Proof

/-- The check of type `ver` answers `v` exactly when the argument names `v` legally. -/
theorem opVer_eq_ok {s : State} {i : Fin 8} {v : Version} :
    s.opVer i = .ok v ↔ VersionArg s i v := by
  unfold State.opVer VersionArg
  by_cases h : (s.ARG i).extractLsb' 8 24 = 0#24
  · cases hv : Version.ofByte? (lowByte (s.ARG i)) <;> simp [h]
  · simp [h]

/-- The reserved bits of a version argument are checked first. -/
theorem opVer_reserved {s : State} {i : Fin 8} (h : (s.ARG i).extractLsb' 8 24 ≠ 0#24) :
    s.opVer i = .error (usageError i) := by simp [State.opVer, h]

/-- An unknown version is reported with its byte. -/
theorem opVer_unknown {s : State} {i : Fin 8} (h : (s.ARG i).extractLsb' 8 24 = 0#24)
    (hv : Version.ofByte? (lowByte (s.ARG i)) = none) :
    s.opVer i = .error (unknownVersionError (lowByte (s.ARG i))) := by simp [State.opVer, h, hv]

/-- The check of type `pver` answers `v` exactly when the argument names the parity version `v`. -/
theorem opPver_eq_ok {s : State} {i : Fin 8} {v : Version} :
    s.opPver i = .ok v ↔ VersionArg s i v ∧ v.isParity = true := by
  unfold State.opPver
  rw [bind_eq_ok]
  constructor
  · rintro ⟨w, h1, h2⟩
    rw [bind_eq_ok] at h2
    obtain ⟨_, h3, h4⟩ := h2
    rw [raiseIf_eq_ok] at h3
    simp only [pure_eq_ok, Except.ok.injEq] at h4
    subst h4
    exact ⟨opVer_eq_ok.mp h1, by simpa using h3⟩
  · rintro ⟨h1, h2⟩
    exact ⟨v, opVer_eq_ok.mpr h1, by simp [h2]⟩

/-- The check of type `xver` answers `v` exactly when the argument names `v` legally. -/
theorem opXver_eq_ok {s : State} {i : Fin 8} {v : Version} :
    s.opXver i = .ok v ↔ VersionArg s i v := by
  unfold State.opXver VersionArg
  by_cases h : (s.ARG i).extractLsb' 8 24 = 0#24
  · cases hv : Version.ofByte? (lowByte (s.ARG i)) <;> simp [h]
  · simp [h]

theorem geomD_toNat (w : Word) : geomD w = w.toNat % 256 := by
  simp [geomD, BitVec.extractLsb'_toNat]

theorem geomP_toNat (w : Word) : geomP w = w.toNat / 256 % 256 := by
  simp [geomP, BitVec.extractLsb'_toNat, Nat.shiftRight_eq_div_pow]

theorem high16_eq_zero (w : Word) : w.extractLsb' 16 16 = 0#16 ↔ w.toNat < 65536 := by
  rw [← BitVec.toNat_inj, BitVec.extractLsb'_toNat, Nat.shiftRight_eq_div_pow]
  have := w.isLt
  simp only [BitVec.toNat_ofNat, Nat.zero_mod]
  omega

theorem shardCountOk_iff (x : Nat) : shardCountOk x = true ↔ 1 ≤ x ∧ x ≤ 128 := by
  simp [shardCountOk]

/-- The check of type `geom` answers (D, P) exactly when the argument packs them legally. -/
theorem opGeom_eq_ok {s : State} {i : Fin 8} {D P : Nat} :
    s.opGeom i = .ok (D, P) ↔ GeometryArg s i D P := by
  have hlt := (s.ARG i).isLt
  unfold State.opGeom GeometryArg
  dsimp only
  split
  · rename_i h
    rw [high16_eq_zero, shardCountOk_iff, shardCountOk_iff, geomD_toNat, geomP_toNat] at h
    simp only [Except.ok.injEq, Prod.mk.injEq, geomD_toNat, geomP_toNat]
    omega
  · rename_i h
    rw [high16_eq_zero, shardCountOk_iff, shardCountOk_iff, geomD_toNat, geomP_toNat] at h
    simp only [reduceCtorEq, false_iff]
    omega

/-- The check of type `geom` answers either a legal pair or Usage(i). -/
theorem opGeom_cases (s : State) (i : Fin 8) :
    (∃ D P, s.opGeom i = .ok (D, P)) ∨ s.opGeom i = .error (usageError i) := by
  unfold State.opGeom
  dsimp only
  split
  · exact .inl ⟨_, _, rfl⟩
  · exact .inr rfl

/-- The check of type `vgeom` answers P exactly when the argument packs (1, P) legally. -/
theorem opVgeom_eq_ok {s : State} {i : Fin 8} {P : Nat} :
    s.opVgeom i = .ok P ↔ GeometryArg s i 1 P := by
  have hlt := (s.ARG i).isLt
  unfold State.opVgeom GeometryArg
  dsimp only
  split
  · rename_i h
    rw [high16_eq_zero, shardCountOk_iff, geomD_toNat, geomP_toNat] at h
    simp only [Except.ok.injEq, geomP_toNat]
    omega
  · rename_i h
    rw [high16_eq_zero, shardCountOk_iff, geomD_toNat, geomP_toNat] at h
    simp only [reduceCtorEq, false_iff]
    omega

/-- The range check passes exactly on a region in range. -/
theorem checkRange_eq_ok {s : State} {a n : Nat} {u : Unit} :
    s.checkRange a n = .ok u ↔ s.inRange a n = true := by
  simp [State.checkRange, raiseIf_eq_ok]

/-- The range check fails with IO(addr). -/
theorem checkRange_eq_error {s : State} {a n : Nat} {e : CmdError} :
    s.checkRange a n = .error e ↔ s.inRange a n = false ∧ ioError a = e := by
  simp [State.checkRange, raiseIf_eq_error]

/-- In range: empty, or ending at or before BUF_SIZE (R65). -/
theorem inRange_iff {s : State} {a n : Nat} :
    s.inRange a n = true ↔ n = 0 ∨ a + n ≤ s.params.bufSize := by
  simp [State.inRange]

/-- The checks that the RS commands share pass exactly when the stride is at least L and the whole span
is in range. -/
theorem checkShards_eq_ok {s : State} {L n : Nat} {u : Unit} :
    s.checkShards L n = .ok u ↔
      L ≤ s.opNat 1 ∧ s.inRange (s.opNat 0) ((n - 1) * s.opNat 1 + L) = true := by
  unfold State.checkShards
  rw [bind_eq_ok]
  simp only [raiseIf_eq_ok, checkRange_eq_ok, decide_eq_false_iff_not, Nat.not_lt,
    exists_const]

/-- The checks of RS_ENCODE and RS_RECON, all passed. -/
theorem rsOperands_eq_ok {s : State} {L D P : Nat} :
    rsOperands s = .ok (L, D, P) ↔
      ∃ v, VersionArg s 2 v ∧ v.isParity = true ∧ L = v.payloadLen ∧ GeometryArg s 3 D P ∧
        L ≤ s.opNat 1 ∧ s.inRange (s.opNat 0) ((D + P - 1) * s.opNat 1 + L) = true := by
  unfold rsOperands
  simp only [bind_eq_ok, opPver_eq_ok, checkShards_eq_ok, Prod.exists, opGeom_eq_ok, pure_eq_ok,
    Except.ok.injEq, Prod.mk.injEq]
  constructor
  · rintro ⟨v, ⟨h1, h2⟩, D', P', h3, _, ⟨h4, h5⟩, rfl, rfl, rfl⟩
    exact ⟨v, h1, h2, rfl, h3, h4, h5⟩
  · rintro ⟨v, h1, h2, rfl, h3, h4, h5⟩
    exact ⟨v, ⟨h1, h2⟩, D, P, h3, ⟨⟩, ⟨h4, h5⟩, rfl, rfl, rfl⟩

/-! ## Versions -/

/-- The version byte names its version. -/
@[simp] theorem ofByte?_byte (v : Version) : Version.ofByte? v.byte = some v := by cases v <;> rfl

/-- Only the version's own byte names it. -/
theorem ofByte?_eq_some {b : Byte} {v : Version} (h : Version.ofByte? b = some v) : b = v.byte := by
  revert h v; revert b; decide

/-- Every block has a 16-byte header, and block sizes are multiples of 128. -/
theorem blockSize_facts (v : Version) :
    128 ≤ v.blockSize ∧ v.blockSize ≤ 4096 ∧ v.blockSize % 128 = 0 ∧
      v.payloadLen + 16 = v.blockSize := by
  cases v <;> decide

/-- Alignments are at least 128 and at most 4096. -/
theorem alignBytes_facts (a : Align) : 128 ≤ a.bytes ∧ a.bytes ≤ 4096 := by cases a <;> decide

end Sys2Proof.Machine
end

