-- ==== Sys2Proof/Laws/Commands.lean ====
section
/-! SUPPORT. What the rule of each command can answer, once: the errors that a check can raise, and what a
command stages when it succeeds, by an inversion lemma for each command that stages a write or the scanner
registers. -/

namespace Sys2Proof.Machine

open Sys2Proof

/-! ## Errors -/

/-- Every error that `x` can raise is one that a command raises of itself (60_exceptions.md R261): not
HashMismatch (R267) and not Cancelled (R270). -/
def RaisesOwn {α : Type} (x : Except CmdError α) : Prop :=
  ∀ e, x = .error e → e.kind ≠ .hashMismatch ∧ e.kind ≠ .cancelled

theorem RaisesOwn.ok {α : Type} (a : α) : RaisesOwn (.ok a : Except CmdError α) := fun _ h => by
  cases h

theorem RaisesOwn.error {α : Type} {e : CmdError} (h1 : e.kind ≠ .hashMismatch)
    (h2 : e.kind ≠ .cancelled) : RaisesOwn (.error e : Except CmdError α) := fun _ h => by
  cases h; exact ⟨h1, h2⟩

theorem RaisesOwn.bind {α β : Type} {x : Except CmdError α} {f : α → Except CmdError β}
    (hx : RaisesOwn x) (hf : ∀ a, RaisesOwn (f a)) : RaisesOwn (x >>= f) := by
  intro e h
  rcases bind_eq_error.mp h with h | ⟨a, -, h⟩
  · exact hx e h
  · exact hf a e h

theorem RaisesOwn.map {α β : Type} {x : Except CmdError α} (f : α → β) (hx : RaisesOwn x) :
    RaisesOwn (x.map f) := by
  cases x with
  | ok a => exact RaisesOwn.ok _
  | error e => exact fun e' h => by cases h; exact hx e rfl

theorem RaisesOwn.raiseIf {c : Bool} {e : CmdError} (h1 : e.kind ≠ .hashMismatch)
    (h2 : e.kind ≠ .cancelled) : RaisesOwn (Machine.raiseIf c e) := fun _ h => by
  obtain ⟨-, rfl⟩ := raiseIf_eq_error.mp h; exact ⟨h1, h2⟩

theorem opVer_raises (s : State) (i : Fin 8) : RaisesOwn (s.opVer i) := by
  unfold State.opVer
  split
  · exact .error (by simp [usageError]) (by simp [usageError])
  · split
    · exact .error (by simp [unknownVersionError]) (by simp [unknownVersionError])
    · exact .ok _

theorem opXver_raises (s : State) (i : Fin 8) : RaisesOwn (s.opXver i) := by
  unfold State.opXver
  split
  · exact .error (by simp [usageError]) (by simp [usageError])
  · split
    · exact .error (by simp [usageError]) (by simp [usageError])
    · exact .ok _

theorem opPver_raises (s : State) (i : Fin 8) : RaisesOwn (s.opPver i) :=
  (opVer_raises s i).bind fun _ => RaisesOwn.bind
    (.raiseIf (by simp [usageError]) (by simp [usageError])) fun _ => .ok _

theorem opGeom_raises (s : State) (i : Fin 8) : RaisesOwn (s.opGeom i) := by
  rcases opGeom_cases s i with ⟨D, P, h⟩ | h <;> rw [h]
  · exact .ok _
  · exact .error (by simp [usageError]) (by simp [usageError])

theorem opVgeom_raises (s : State) (i : Fin 8) : RaisesOwn (s.opVgeom i) := by
  unfold State.opVgeom; dsimp only
  split
  · exact .ok _
  · exact .error (by simp [usageError]) (by simp [usageError])

theorem opBurst_raises (s : State) (i : Fin 8) (v : Version) : RaisesOwn (s.opBurst i v) := by
  unfold State.opBurst; dsimp only
  split_ifs <;> first | exact .ok _ | exact .error (by simp [usageError]) (by simp [usageError])

theorem opInit16_raises (s : State) (i : Fin 8) : RaisesOwn (s.opInit16 i) := by
  unfold State.opInit16
  split <;> first | exact .ok _ | exact .error (by simp [usageError]) (by simp [usageError])

theorem opByte_raises (s : State) (i : Fin 8) : RaisesOwn (s.opByte i) := by
  unfold State.opByte
  split <;> first | exact .ok _ | exact .error (by simp [usageError]) (by simp [usageError])

theorem opTag_raises (s : State) (i : Fin 8) : RaisesOwn (s.opTag i) := by
  unfold State.opTag
  split <;> first | exact .ok _ | exact .error (by simp [usageError]) (by simp [usageError])

theorem opTlen_raises (s : State) (i : Fin 8) : RaisesOwn (s.opTlen i) := by
  unfold State.opTlen; dsimp only
  split <;> first | exact .ok _ | exact .error (by simp [usageError]) (by simp [usageError])

theorem opAlign_raises (s : State) (i : Fin 8) : RaisesOwn (s.opAlign i) := by
  unfold State.opAlign
  split <;> first | exact .ok _ | exact .error (by simp [usageError]) (by simp [usageError])

theorem checkRange_raises (s : State) (a n : Nat) : RaisesOwn (s.checkRange a n) :=
  .raiseIf (by simp [ioError]) (by simp [ioError])

theorem checkRecord_raises (t : Tag) (len : Nat) (val : List Byte) (seen : List Tag) (c : Nat) :
    RaisesOwn (checkRecord t len val seen c) := by
  have h : ∀ b : Bool, RaisesOwn (raiseIf b (malformedError c)) := fun b =>
    .raiseIf (by simp [malformedError]) (by simp [malformedError])
  exact (h _).bind fun _ => (h _).bind fun _ => (h _).bind fun _ => h _

theorem parseTlvFrom_raises (pl : List Byte) (L fuel : Nat) :
    ∀ (c : Nat) (seen : List Tag), RaisesOwn (parseTlvFrom fuel pl L c seen) := by
  induction fuel with
  | zero => intro c seen; exact .ok _
  | succ n ih =>
    intro c seen
    unfold parseTlvFrom
    dsimp only
    split
    · exact .ok _
    split
    · exact .ok _
    split
    · exact .error (by simp [malformedError]) (by simp [malformedError])
    refine (checkRecord_raises _ _ _ _ _).bind fun _ => ?_
    split
    · exact .ok _
    · exact (ih _ _).bind fun _ => .ok _

theorem parseLeadingFrom_raises (pl : List Byte) (lim fuel : Nat) :
    ∀ (c : Nat) (seen : List Tag), RaisesOwn (parseLeadingFrom fuel pl lim c seen) := by
  induction fuel with
  | zero => intro c seen; exact .ok _
  | succ n ih =>
    intro c seen
    unfold parseLeadingFrom
    dsimp only
    have he : RaisesOwn (.error (malformedError c) : Except CmdError (List Tag)) :=
      .error (by simp [malformedError]) (by simp [malformedError])
    split
    · split
      · exact he
      · exact .ok _
    split
    · exact he
    split
    · exact he
    exact (checkRecord_raises _ _ _ _ _).bind fun _ => ih _ _

theorem varintFrom_raises (b : List Byte) (n start fuel : Nat) :
    ∀ k value, RaisesOwn (varintFrom b n start fuel k value) := by
  have he : RaisesOwn (.error (malformedError start) : Except CmdError (Nat × Nat)) :=
    .error (by simp [malformedError]) (by simp [malformedError])
  induction fuel with
  | zero => intro k value; exact he
  | succ m ih =>
    intro k value
    unfold varintFrom
    dsimp only
    split
    · exact he
    split
    · exact ih _ _
    · exact .ok _

theorem rsOperands_raises (s : State) : RaisesOwn (rsOperands s) :=
  (opPver_raises s 2).bind fun _ => (opGeom_raises s 3).bind fun _ =>
    RaisesOwn.bind (RaisesOwn.bind (.raiseIf (by simp [usageError]) (by simp [usageError]))
      fun _ => checkRange_raises s _ _) fun _ => .ok _

/-! ## What a command stages -/

/-- BLK_SEAL stages one write, of the 16 header bytes (R136). -/
theorem cmdBlkSeal_ok {s : State} {st : Staged} (h : cmdBlkSeal s = .ok st) :
    ∃ v c, VersionArg s 1 v ∧ s.inRange (s.opNat 0) v.blockSize = true ∧
      st.writes = [(s.opNat 0, headerBytes v c (s.ARG 2) (s.ARG 3))] ∧ st.scan = none := by
  unfold cmdBlkSeal at h
  simp only [bind_eq_ok, pure_eq_ok, Except.ok.injEq, checkRange_eq_ok, opVer_eq_ok] at h
  obtain ⟨v, hv, -, hr, rfl⟩ := h
  exact ⟨v, _, hv, hr, rfl, rfl⟩

/-- TLV_PARSE stages the directory entries of at most ARG3 records, and no more than there are (R170). -/
theorem cmdTlvParse_ok {s : State} {st : Staged} (h : cmdTlvParse s = .ok st) :
    ∃ v recs stop, VersionArg s 1 v ∧ s.inRange (s.opNat 0) v.payloadLen = true ∧
      s.inRange (s.opNat 2) (8 * s.opNat 3) = true ∧
      parseTlv (s.memRead (s.opNat 0) v.payloadLen) v.payloadLen = .ok (recs, stop) ∧
      st.writes = dirWrites (s.opNat 2) (recs.take (s.opNat 3)) ∧ st.scan = none := by
  unfold cmdTlvParse at h
  simp only [bind_eq_ok, pure_eq_ok, Except.ok.injEq, checkRange_eq_ok, opVer_eq_ok] at h
  obtain ⟨v, hv, -, hr, -, hd, ⟨recs, stop⟩, hp, rfl⟩ := h
  exact ⟨v, recs, stop, hv, hr, hd, hp, rfl, rfl⟩

/-- TLV_APPEND stages one write, of the record at the cursor (R172). -/
theorem cmdTlvAppend_ok {s : State} {st : Staged} (h : cmdTlvAppend s = .ok st) :
    ∃ v t len, VersionArg s 1 v ∧ s.opTlen 4 = .ok len ∧
      s.inRange (s.opNat 0) v.payloadLen = true ∧ s.opNat 3 + 4 + len ≤ v.payloadLen ∧
      st.writes = [(s.opNat 0 + s.opNat 3, recordBytes t (s.memRead (s.opNat 5) len))] ∧
      st.scan = none := by
  unfold cmdTlvAppend at h
  simp only [bind_eq_ok, pure_eq_ok, Except.ok.injEq, checkRange_eq_ok, opVer_eq_ok, raiseIf_eq_ok,
    decide_eq_false_iff_not, Nat.not_lt] at h
  obtain ⟨v, hv, t, -, len, hl, -, hr, -, -, -, hf, seen, -, -, -, rfl⟩ := h
  exact ⟨v, t, len, hv, hl, hr, hf, rfl, rfl⟩

/-- TLV_PAD stages one write, of the bytes from the cursor to the end of the payload (R173). -/
theorem cmdTlvPad_ok {s : State} {st : Staged} (h : cmdTlvPad s = .ok st) :
    ∃ v, VersionArg s 1 v ∧ s.opNat 3 ≤ v.payloadLen ∧
      s.inRange (s.opNat 0) v.payloadLen = true ∧
      st.writes = [(s.opNat 0 + s.opNat 3, padBytes (v.payloadLen - s.opNat 3))] ∧
      st.scan = none := by
  unfold cmdTlvPad at h
  simp only [bind_eq_ok, pure_eq_ok, Except.ok.injEq, checkRange_eq_ok, opVer_eq_ok, raiseIf_eq_ok,
    decide_eq_false_iff_not, Nat.not_lt] at h
  obtain ⟨v, hv, -, hc, -, hr, rfl⟩ := h
  exact ⟨v, hv, hc, hr, rfl, rfl⟩

/-- RS_ENCODE stages one write for each parity shard (R208). -/
theorem cmdRsEncode_ok {s : State} {st : Staged} (h : cmdRsEncode s = .ok st) :
    ∃ L D P, rsOperands s = .ok (L, D, P) ∧
      st.writes = (List.range P).map (fun j => (s.shardAddr (D + j),
        parityShard (encMatrix D P) D L j ((List.range D).map (s.shard L)))) ∧ st.scan = none := by
  unfold cmdRsEncode at h
  rw [bind_eq_ok] at h
  obtain ⟨⟨L, D, P⟩, ho, h⟩ := h
  simp only [pure_eq_ok, Except.ok.injEq] at h
  subst h
  exact ⟨L, D, P, ho, rfl, rfl⟩

/-- RS_RECON stages one write for each missing shard, when at least D are present (R209). -/
theorem cmdRsRecon_ok {s : State} {st : Staged} (h : cmdRsRecon s = .ok st) :
    ∃ L D P, rsOperands s = .ok (L, D, P) ∧ D ≤ (s.presentShards (D + P)).length ∧
      st.writes = (s.missingShards (D + P)).map (fun m => (s.shardAddr m,
        reconShard (encMatrix D P) D L
          (reconData (encMatrix D P) D L (s.shard L) (s.presentShards (D + P))) m)) ∧
      st.scan = none := by
  unfold cmdRsRecon at h
  rw [bind_eq_ok] at h
  obtain ⟨⟨L, D, P⟩, ho, h⟩ := h
  simp only [bind_eq_ok, pure_eq_ok, Except.ok.injEq, raiseIf_eq_ok, decide_eq_false_iff_not,
    Nat.not_lt] at h
  obtain ⟨-, hk, rfl⟩ := h
  exact ⟨L, D, P, ho, hk, rfl, rfl⟩

/-- RS_VOTE stages one write of the winner's payload for each missing copy (R210). -/
theorem cmdRsVote_ok {s : State} {st : Staged} (h : cmdRsVote s = .ok st) :
    ∃ v P, VersionArg s 2 v ∧ v.isParity = true ∧ GeometryArg s 3 1 P ∧
      s.checkShards v.payloadLen (1 + P) = .ok () ∧
      st.writes = (s.missingShards (1 + P)).map (fun m => (s.shardAddr m,
        s.shard v.payloadLen (voteWinner (s.shard v.payloadLen) (s.presentShards (1 + P))))) ∧
      st.scan = none := by
  unfold cmdRsVote at h
  simp only [bind_eq_ok, pure_eq_ok, Except.ok.injEq, opPver_eq_ok, opVgeom_eq_ok] at h
  obtain ⟨v, ⟨hv, hp⟩, P, hg, ⟨⟩, hc, -, -, rfl⟩ := h
  exact ⟨v, P, hv, hp, hg, hc, rfl, rfl⟩

/-- SCAN_NEXT stages no write (R246). -/
theorem cmdScanNext_ok (s : State) : ∃ st, cmdScanNext s = .ok st ∧ st.writes = [] := by
  unfold cmdScanNext
  dsimp only
  split
  · exact ⟨_, rfl, rfl⟩
  · split
    · exact ⟨_, rfl, rfl⟩
    · exact ⟨_, rfl, rfl⟩

/-- SCAN_INIT stages no write, and the registers of a scan that has no reference and is not exhausted
(R245). -/
theorem cmdScanInit_ok {s : State} {flags : BitVec 8} {st : Staged}
    (h : cmdScanInit flags s = .ok st) :
    ∃ al pv, s.opAlign 4 = .ok al ∧ s.inRange (s.opNat 0) (s.opNat 1) = true ∧ st.writes = [] ∧
      let from_ := clampTo (s.opSoff 2) (s.opNat 1)
      let to_ := if flags.getLsbD 0 then clampTo (s.opSoff 3) (s.opNat 1) else s.opNat 1
      st.scan = some
        { base := s.ARG 0, len := s.ARG 1, from_ := BitVec.ofNat 32 from_,
          to_ := BitVec.ofNat 32 to_, pos := BitVec.ofNat 32 (alignUp from_ al.bytes), align := al,
          strict := flags.getLsbD 1, toSet := flags.getLsbD 0, pv := pv,
          uid := if flags.getLsbD 3 then some (s.ARG 6) else none, ref := none, exhausted := false,
          errs := 0 } := by
  unfold cmdScanInit at h
  simp only [bind_eq_ok, pure_eq_ok, Except.ok.injEq, checkRange_eq_ok] at h
  obtain ⟨-, -, al, ha, pv, -, -, hr, rfl⟩ := h
  exact ⟨al, pv, ha, hr, rfl, rfl⟩

/-- The commands other than the seven of 20_memory.md R60 stage no write. -/
theorem outcomeOf_writes_nil {i : Instr} {s : State} {st : Staged} (h : outcomeOf i s = .ok st)
    (hi : i ∉ [.blkSeal, .tlvParse, .tlvAppend, .tlvPad, .rsEncode, .rsRecon, .rsVote]) :
    st.writes = [] := by
  cases i
  case scanNext =>
    obtain ⟨st', h', hw⟩ := cmdScanNext_ok s
    rw [show outcomeOf .scanNext s = cmdScanNext s from rfl, h'] at h
    cases h; exact hw
  case scanInit f =>
    obtain ⟨-, -, -, -, hw, -⟩ := cmdScanInit_ok (flags := f) h
    exact hw
  case nop => cases h; rfl
  case crc16 =>
    simp only [outcomeOf, cmdCrc16, bind_eq_ok, pure_eq_ok, Except.ok.injEq] at h
    obtain ⟨_, -, -, -, rfl⟩ := h; rfl
  case blkCheck f =>
    simp only [outcomeOf, cmdBlkCheck, bind_eq_ok] at h
    obtain ⟨-, -, pv, -, -, -, h⟩ := h
    split at h <;> simp only [Except.ok.injEq, reduceCtorEq] at h
    subst h; rfl
  case blkKind =>
    simp only [outcomeOf, cmdBlkKind, bind_eq_ok, pure_eq_ok, Except.ok.injEq] at h
    obtain ⟨_, -, _, -, rfl⟩ := h; rfl
  case layoutPos =>
    simp only [outcomeOf, cmdLayoutPos, bind_eq_ok, pure_eq_ok] at h
    obtain ⟨⟨g, b⟩, -, h⟩ := h
    cases g with
    | none => cases h; rfl
    | some g =>
      simp only at h
      split at h
      · cases h; rfl
      · simp only [bind_eq_ok, Except.ok.injEq] at h; obtain ⟨-, -, rfl⟩ := h; rfl
  case layoutSeq =>
    simp only [outcomeOf, cmdLayoutSeq, bind_eq_ok, pure_eq_ok] at h
    obtain ⟨⟨g, b⟩, -, h⟩ := h
    cases g with
    | none => cases h; rfl
    | some g =>
      simp only at h
      split at h
      · cases h; rfl
      · simp only [bind_eq_ok, Except.ok.injEq] at h; obtain ⟨-, -, rfl⟩ := h; rfl
  case tlvFind =>
    simp only [outcomeOf, cmdTlvFind, bind_eq_ok, pure_eq_ok, Except.ok.injEq] at h
    obtain ⟨_, -, _, -, -, -, _, -, rfl⟩ := h; rfl
  case mhParse =>
    simp only [outcomeOf, cmdMhParse, bind_eq_ok, pure_eq_ok, Except.ok.injEq] at h
    obtain ⟨_, -, -, -, _, -, _, -, -, -, rfl⟩ := h; rfl
  case gfMul =>
    simp only [outcomeOf, cmdGfMul, bind_eq_ok, pure_eq_ok, Except.ok.injEq] at h
    obtain ⟨_, -, _, -, rfl⟩ := h; rfl
  case gfInv =>
    simp only [outcomeOf, cmdGfInv, bind_eq_ok, pure_eq_ok, Except.ok.injEq] at h
    obtain ⟨_, -, -, -, rfl⟩ := h; rfl
  case rsCoef =>
    simp only [outcomeOf, cmdRsCoef, bind_eq_ok, pure_eq_ok, Except.ok.injEq] at h
    obtain ⟨_, -, -, -, -, -, rfl⟩ := h; rfl
  case scanProbe => cases h; rfl
  all_goals simp at hi

/-- Only SCAN_INIT and SCAN_NEXT stage scanner registers (R101). -/
theorem outcomeOf_scan_none {i : Instr} {s : State} {st : Staged} (h : outcomeOf i s = .ok st)
    (h1 : ∀ f, i ≠ .scanInit f) (h2 : i ≠ .scanNext) : st.scan = none := by
  cases i
  case scanNext => exact absurd rfl h2
  case scanInit f => exact absurd rfl (h1 f)
  case nop => cases h; rfl
  case crc16 =>
    simp only [outcomeOf, cmdCrc16, bind_eq_ok, pure_eq_ok, Except.ok.injEq] at h
    obtain ⟨_, -, -, -, rfl⟩ := h; rfl
  case blkSeal => obtain ⟨v, c, -, -, -, hs⟩ := cmdBlkSeal_ok h; exact hs
  case blkCheck f =>
    simp only [outcomeOf, cmdBlkCheck, bind_eq_ok] at h
    obtain ⟨-, -, pv, -, -, -, h⟩ := h
    split at h <;> simp only [Except.ok.injEq, reduceCtorEq] at h
    subst h; rfl
  case blkKind =>
    simp only [outcomeOf, cmdBlkKind, bind_eq_ok, pure_eq_ok, Except.ok.injEq] at h
    obtain ⟨_, -, _, -, rfl⟩ := h; rfl
  case layoutPos =>
    simp only [outcomeOf, cmdLayoutPos, bind_eq_ok, pure_eq_ok] at h
    obtain ⟨⟨g, b⟩, -, h⟩ := h
    cases g with
    | none => cases h; rfl
    | some g =>
      simp only at h
      split at h
      · cases h; rfl
      · simp only [bind_eq_ok, Except.ok.injEq] at h; obtain ⟨-, -, rfl⟩ := h; rfl
  case layoutSeq =>
    simp only [outcomeOf, cmdLayoutSeq, bind_eq_ok, pure_eq_ok] at h
    obtain ⟨⟨g, b⟩, -, h⟩ := h
    cases g with
    | none => cases h; rfl
    | some g =>
      simp only at h
      split at h
      · cases h; rfl
      · simp only [bind_eq_ok, Except.ok.injEq] at h; obtain ⟨-, -, rfl⟩ := h; rfl
  case tlvParse => obtain ⟨v, recs, stop, -, -, -, -, -, hs⟩ := cmdTlvParse_ok h; exact hs
  case tlvFind =>
    simp only [outcomeOf, cmdTlvFind, bind_eq_ok, pure_eq_ok, Except.ok.injEq] at h
    obtain ⟨_, -, _, -, -, -, _, -, rfl⟩ := h; rfl
  case tlvAppend => obtain ⟨v, t, len, -, -, -, -, -, hs⟩ := cmdTlvAppend_ok h; exact hs
  case tlvPad => obtain ⟨v, -, -, -, -, hs⟩ := cmdTlvPad_ok h; exact hs
  case mhParse =>
    simp only [outcomeOf, cmdMhParse, bind_eq_ok, pure_eq_ok, Except.ok.injEq] at h
    obtain ⟨_, -, -, -, _, -, _, -, -, -, rfl⟩ := h; rfl
  case gfMul =>
    simp only [outcomeOf, cmdGfMul, bind_eq_ok, pure_eq_ok, Except.ok.injEq] at h
    obtain ⟨_, -, _, -, rfl⟩ := h; rfl
  case gfInv =>
    simp only [outcomeOf, cmdGfInv, bind_eq_ok, pure_eq_ok, Except.ok.injEq] at h
    obtain ⟨_, -, -, -, rfl⟩ := h; rfl
  case rsCoef =>
    simp only [outcomeOf, cmdRsCoef, bind_eq_ok, pure_eq_ok, Except.ok.injEq] at h
    obtain ⟨_, -, -, -, -, -, rfl⟩ := h; rfl
  case rsEncode => obtain ⟨L, D, P, -, -, hs⟩ := cmdRsEncode_ok h; exact hs
  case rsRecon => obtain ⟨L, D, P, -, -, -, hs⟩ := cmdRsRecon_ok h; exact hs
  case rsVote => obtain ⟨v, P, -, -, -, -, -, hs⟩ := cmdRsVote_ok h; exact hs
  case scanProbe => cases h; rfl

/-! ## Errors of every command -/

/-- No command raises HashMismatch or Cancelled of itself (R267, R270). -/
theorem outcomeOf_raises (i : Instr) (s : State) : RaisesOwn (outcomeOf i s) := by
  have hu : ∀ (c : Bool) (j : Fin 8), RaisesOwn (raiseIf c (usageError j)) := fun c j =>
    .raiseIf (by simp [usageError]) (by simp [usageError])
  have hm : ∀ (c : Bool) (n : Nat), RaisesOwn (raiseIf c (malformedError n)) := fun c n =>
    .raiseIf (by simp [malformedError]) (by simp [malformedError])
  have hk : ∀ (c : Bool) (n : Nat), RaisesOwn (raiseIf c (insufficientError n)) := fun c n =>
    .raiseIf (by simp [insufficientError]) (by simp [insufficientError])
  have hw : ∀ c : Bool, RaisesOwn (raiseIf c malformedWord) := fun c =>
    .raiseIf (by simp [malformedWord]) (by simp [malformedWord])
  have hg : ∀ v : Version, RaisesOwn (parityGeom s v) := fun v => by
    unfold parityGeom
    split
    · exact (opGeom_raises s 2).map _
    · exact .ok _
  have hl : RaisesOwn (layoutOperands s) := (opVer_raises s 1).bind fun v =>
    (hg v).bind fun _ => (opBurst_raises s 3 v).bind fun _ => .ok _
  cases i
  case nop => exact .ok _
  case crc16 =>
    exact (opInit16_raises s 2).bind fun _ => (checkRange_raises s _ _).bind fun _ => .ok _
  case blkSeal =>
    exact (opVer_raises s 1).bind fun _ => (checkRange_raises s _ _).bind fun _ => .ok _
  case blkCheck f =>
    refine (hw _).bind fun _ => RaisesOwn.bind ?_ fun _ => (checkRange_raises s _ _).bind fun _ => ?_
    · unfold blkCheckVersion
      split
      · exact (opXver_raises s 2).map _
      · exact .ok _
    · split
      · exact .ok _
      · exact .error (by simp [unknownVersionError]) (by simp [unknownVersionError])
      · exact .error (by simp) (by simp)
      · exact .error (by simp) (by simp)
  case blkKind => exact (opVer_raises s 1).bind fun v => (hg v).bind fun _ => .ok _
  case layoutPos =>
    refine hl.bind fun x => ?_
    obtain ⟨g, b⟩ := x
    cases g with
    | none => exact .ok _
    | some g =>
      dsimp only
      split
      · exact .ok _
      · exact (hu _ _).bind fun _ => .ok _
  case layoutSeq =>
    refine hl.bind fun x => ?_
    obtain ⟨g, b⟩ := x
    cases g with
    | none => exact .ok _
    | some g =>
      dsimp only
      split
      · exact .ok _
      · exact (hu _ _).bind fun _ => .ok _
  case tlvParse =>
    exact (opVer_raises s 1).bind fun _ => (checkRange_raises s _ _).bind fun _ =>
      (checkRange_raises s _ _).bind fun _ => (parseTlvFrom_raises _ _ _ _ _).bind fun _ => .ok _
  case tlvFind =>
    exact (opVer_raises s 1).bind fun _ => (opTag_raises s 2).bind fun _ =>
      (checkRange_raises s _ _).bind fun _ => (parseTlvFrom_raises _ _ _ _ _).bind fun _ => .ok _
  case tlvAppend =>
    exact (opVer_raises s 1).bind fun _ =>
      RaisesOwn.bind ((opTag_raises s 2).bind fun _ => (hu _ _).bind fun _ => .ok _) fun _ =>
      (opTlen_raises s 4).bind fun _ => (checkRange_raises s _ _).bind fun _ =>
      (checkRange_raises s _ _).bind fun _ => (hm _ _).bind fun _ =>
      (parseLeadingFrom_raises _ _ _ _ _).bind fun _ =>
      (checkRecord_raises _ _ _ _ _).bind fun _ => .ok _
  case tlvPad =>
    exact (opVer_raises s 1).bind fun _ => (hu _ _).bind fun _ =>
      (checkRange_raises s _ _).bind fun _ => .ok _
  case mhParse =>
    exact (opTlen_raises s 1).bind fun _ => (checkRange_raises s _ _).bind fun _ =>
      (varintFrom_raises _ _ _ _ _ _).bind fun _ => (varintFrom_raises _ _ _ _ _ _).bind fun _ =>
      (hm _ _).bind fun _ => .ok _
  case gfMul => exact (opByte_raises s 0).bind fun _ => (opByte_raises s 1).bind fun _ => .ok _
  case gfInv => exact (opByte_raises s 0).bind fun _ => (hu _ _).bind fun _ => .ok _
  case rsCoef =>
    exact (opGeom_raises s 0).bind fun _ => (hu _ _).bind fun _ => (hu _ _).bind fun _ => .ok _
  case rsEncode => exact (rsOperands_raises s).bind fun _ => .ok _
  case rsRecon => exact (rsOperands_raises s).bind fun _ => (hk _ _).bind fun _ => .ok _
  case rsVote =>
    exact (opPver_raises s 2).bind fun _ => (opVgeom_raises s 3).bind fun _ =>
      RaisesOwn.bind ((hu _ _).bind fun _ => checkRange_raises s _ _) fun _ =>
      (hk _ _).bind fun _ => .ok _
  case scanInit f =>
    refine (hw _).bind fun _ => (opAlign_raises s 4).bind fun _ => RaisesOwn.bind ?_ fun _ =>
      (checkRange_raises s _ _).bind fun _ => .ok _
    unfold scanInitVersion
    split
    · exact (opXver_raises s 5).map _
    · exact .ok _
  case scanNext =>
    obtain ⟨st, h, -⟩ := cmdScanNext_ok s
    rw [show outcomeOf .scanNext s = cmdScanNext s from rfl, h]
    exact .ok _
  case scanProbe => exact .ok _

end Sys2Proof.Machine
end

