-- ==== Sys2Proof/Laws/Lengths.lean ====
section
/-! SUPPORT. The number of bytes of every byte sequence that a command stages, and the uniqueness of what an
argument names. -/

namespace Sys2Proof.Machine

open Sys2Proof

/-! ## What an argument names is unique -/

/-- An argument packs at most one geometry. -/
theorem geometryArg_unique {s : State} {i : Fin 8} {D P D' P' : Nat} (h : GeometryArg s i D P)
    (h' : GeometryArg s i D' P') : D = D' ∧ P = P' := by
  unfold GeometryArg at *; omega

/-- An argument names at most one version. -/
theorem versionArg_unique {s : State} {i : Fin 8} {v v' : Version} (h : VersionArg s i v)
    (h' : VersionArg s i v') : v = v' := by
  simpa using h.2.symm.trans h'.2

/-- The operands of an RS command are the ones that its arguments name. -/
theorem rsOperands_unique {s : State} {L D P D' P' : Nat} {v : Version}
    (h : rsOperands s = .ok (L, D, P)) (hv : VersionArg s 2 v) (hg : GeometryArg s 3 D' P') :
    L = v.payloadLen ∧ D = D' ∧ P = P' := by
  obtain ⟨v', h1, -, h3, h4, -⟩ := rsOperands_eq_ok.mp h
  obtain rfl := versionArg_unique h1 hv
  exact ⟨h3, geometryArg_unique h4 hg⟩

/-! ## Lengths -/

@[simp] theorem bytesBE_length (v k : Nat) : (bytesBE v k).length = k := by simp [bytesBE]

@[simp] theorem zeros_length (n : Nat) : (zeros n).length = n := by simp [zeros]

@[simp] theorem tagBytes_length (t : Tag) : (tagBytes t).length = 3 := by simp [tagBytes]

@[simp] theorem headerBytes_length (v : Version) (c : BitVec 16) (uid sq : Word) :
    (headerBytes v c uid sq).length = 16 := by
  simp [headerBytes, magic]

@[simp] theorem memRead_length (s : State) (a n : Nat) : (s.memRead a n).length = n := by
  simp [State.memRead]

@[simp] theorem shard_length (s : State) (L i : Nat) : (s.shard L i).length = L := by
  simp [State.shard]

@[simp] theorem recordBytes_length (t : Tag) (val : List Byte) :
    (recordBytes t val).length = 4 + val.length := by
  simp [recordBytes]; omega

@[simp] theorem padBytes_length (R : Nat) : (padBytes R).length = R := by
  unfold padBytes
  split
  · simp; omega
  · simp

@[simp] theorem dirEntry_length (r : TlvRec) : (dirEntry r).length = 8 := by simp [dirEntry]

/-- Every directory write has 8 bytes and lies in the directory (R168). -/
theorem dirWrites_region {dir : Nat} {rs : List TlvRec} :
    ∀ w ∈ dirWrites dir rs, dir ≤ w.1 ∧ w.2.length = 8 ∧ w.1 + 8 ≤ dir + 8 * rs.length := by
  induction rs generalizing dir with
  | nil => simp [dirWrites]
  | cons r rs ih =>
    intro w hw
    rw [dirWrites, List.mem_cons] at hw
    rcases hw with rfl | hw
    · exact ⟨le_refl _, dirEntry_length r, by simp⟩
    · have := ih w hw
      simp only [List.length_cons]
      omega

@[simp] theorem gfScale_length (x : Byte) (v : List Byte) : (gfScale x v).length = v.length := by
  simp [gfScale]

@[simp] theorem gfAdd_length (u v : List Byte) : (gfAdd u v).length = min u.length v.length := by
  simp [gfAdd]

/-- A combination of rows of length `len` has that length. -/
theorem gfCombine_length {len : Nat} (xs : List Byte) {vs : GfMatrix}
    (h : ∀ v ∈ vs, v.length = len) : (gfCombine len xs vs).length = len := by
  induction xs generalizing vs with
  | nil => simp [gfCombine]
  | cons x xs ih =>
    cases vs with
    | nil => simp [gfCombine]
    | cons v vs =>
      simp [gfCombine, ih (fun w hw => h w (List.mem_cons_of_mem _ hw)), h v List.mem_cons_self]

/-- A parity shard has the length of the data shards (R200). -/
theorem parityShard_length {M : GfMatrix} {D L j : Nat} {data : List (List Byte)}
    (h : ∀ d ∈ data, d.length = L) : (parityShard M D L j data).length = L :=
  gfCombine_length _ h

/-- Reconstruct gives data shards of the length of the shards it is given (R201). -/
theorem reconData_lengths {M : GfMatrix} {D L : Nat} {sh : Nat → List Byte} {present : List Nat}
    (h : ∀ i, (sh i).length = L) :
    (reconData M D L sh present).length = D ∧
      ∀ d ∈ reconData M D L sh present, d.length = L := by
  refine ⟨by simp [reconData], ?_⟩
  intro d hd
  obtain ⟨i, -, rfl⟩ := List.mem_map.mp hd
  split
  · exact h i
  · refine gfCombine_length _ fun v hv => ?_
    obtain ⟨j, -, rfl⟩ := List.mem_map.mp hv
    exact h j

/-- A rebuilt shard has the length of the data shards (R201). -/
theorem reconShard_length {M : GfMatrix} {D L m : Nat} {data : List (List Byte)}
    (hl : data.length = D) (h : ∀ d ∈ data, d.length = L) :
    (reconShard M D L data m).length = L := by
  unfold reconShard
  split
  · rename_i hm
    rw [List.getD_eq_getElem _ _ (by omega)]
    exact h _ (List.getElem_mem _)
  · exact parityShard_length h

/-! ## Slices and byte lists -/

/-- A slice of the bytes read is the bytes read from the slice's start on. -/
theorem slice_memRead (s : State) (a n : Nat) {i j : Nat} (h : i ≤ j) (hj : j ≤ n) :
    slice (s.memRead a n) i j = s.memRead (a + i) (j - i) := by
  apply List.ext_getElem?
  intro k
  simp only [slice, State.memRead, List.getElem?_take, List.getElem?_drop, bytesAt_getElem?]
  by_cases hk : k < j - i
  · simp [hk, show i + k < n by omega, Nat.add_assoc]
  · simp [hk]

/-- Reading m + n bytes is reading m bytes and then n. -/
theorem memRead_add (s : State) (a m n : Nat) :
    s.memRead a (m + n) = s.memRead a m ++ s.memRead (a + m) n := by
  apply List.ext_getElem?
  intro k
  simp only [State.memRead, List.getElem?_append, bytesAt_length, bytesAt_getElem?]
  by_cases hk : k < m
  · simp [hk, show k < m + n by omega]
  · by_cases hn : k < m + n
    · simp [hk, hn, show k - m < n by omega, show a + m + (k - m) = a + k by omega]
    · simp [hk, hn, show ¬ k - m < n by omega]

/-- The two big-endian bytes of a 16-bit value (R62). -/
theorem bytesBE_two (c : BitVec 16) :
    bytesBE c.toNat 2 = [c.extractLsb' 8 8, c.extractLsb' 0 8] := by
  simp only [bytesBE, List.range_succ, List.range_zero, List.nil_append, List.cons_append,
    List.map_cons, List.map_nil, List.cons.injEq, and_true]
  refine ⟨?_, ?_⟩ <;> apply BitVec.eq_of_toNat_eq <;>
    simp [BitVec.extractLsb'_toNat, Nat.shiftRight_eq_div_pow]

/-- The four big-endian bytes of a 32-bit value (R62). -/
theorem bytesBE_four (v : Word) :
    bytesBE v.toNat 4 =
      [v.extractLsb' 24 8, v.extractLsb' 16 8, v.extractLsb' 8 8, v.extractLsb' 0 8] := by
  simp only [bytesBE, List.range_succ, List.range_zero, List.nil_append, List.cons_append,
    List.map_cons, List.map_nil, List.cons.injEq, and_true]
  refine ⟨?_, ?_, ?_, ?_⟩ <;> apply BitVec.eq_of_toNat_eq <;>
    simp [BitVec.extractLsb'_toNat, Nat.shiftRight_eq_div_pow]

end Sys2Proof.Machine
end

