-- ==== Sys2Proof/Laws/Gf.lean ====
section
/-! SUPPORT. The shapes of the matrices of the Reed-Solomon coder (43_reed_solomon.md R193-R195): elimination
keeps the number of rows and their length, so the encoding matrix has D + P rows of D elements; and one
element of a combination of rows. -/

namespace Sys2Proof.Machine

open Sys2Proof

/-- Taking out the pivot row takes out one row (R195). -/
theorem pickPivot_shape {c : Nat} {rows : GfMatrix} {p : List Byte} {others : GfMatrix}
    (h : pickPivot c rows = some (p, others)) :
    rows.length = others.length + 1 ∧ p ∈ rows ∧ (∀ q ∈ others, q ∈ rows) ∧
      p.getD c 0#8 ≠ 0#8 := by
  induction rows generalizing p others with
  | nil => simp [pickPivot] at h
  | cons row rows ih =>
    rw [pickPivot] at h
    split at h
    · cases hp : pickPivot c rows with
      | none => simp [hp] at h
      | some x =>
        obtain ⟨p', o'⟩ := x
        simp only [hp, Option.map_some, Option.some.injEq, Prod.mk.injEq] at h
        obtain ⟨rfl, rfl⟩ := h
        obtain ⟨h1, h2, h3, h4⟩ := ih hp
        refine ⟨by simp [h1], List.mem_cons_of_mem _ h2, ?_, h4⟩
        intro q hq
        rcases List.mem_cons.mp hq with rfl | hq
        · exact List.mem_cons_self
        · exact List.mem_cons_of_mem _ (h3 q hq)
    · rename_i hne
      simp only [Option.some.injEq, Prod.mk.injEq] at h
      obtain ⟨rfl, rfl⟩ := h
      exact ⟨by simp, List.mem_cons_self, fun q hq => List.mem_cons_of_mem _ hq, hne⟩

theorem clearColumn_length {w c : Nat} {pivot row : List Byte} (hp : pivot.length = w)
    (hr : row.length = w) : (clearColumn c pivot row).length = w := by
  simp [clearColumn, hp, hr]

/-- Elimination keeps the number of rows and their length (R195). -/
theorem gaussJordan_shape {w : Nat} (n : Nat) :
    ∀ (c : Nat) (top rest : GfMatrix), (∀ r ∈ top, r.length = w) → (∀ r ∈ rest, r.length = w) →
      (gaussJordan n c top rest).length = top.length + rest.length ∧
        ∀ r ∈ gaussJordan n c top rest, r.length = w := by
  induction n with
  | zero =>
    intro c top rest h1 h2
    refine ⟨by simp [gaussJordan], fun r hr => ?_⟩
    rcases List.mem_append.mp hr with hr | hr
    · exact h1 r hr
    · exact h2 r hr
  | succ n ih =>
    intro c top rest h1 h2
    rw [gaussJordan]
    cases hp : pickPivot c rest with
    | none => exact ih (c + 1) top rest h1 h2
    | some x =>
      obtain ⟨p, others⟩ := x
      obtain ⟨g1, g2, g3, -⟩ := pickPivot_shape hp
      have hpl : (gfScale (ginv (p.getD c 0#8)) p).length = w := by simp [h2 p g2]
      obtain ⟨k1, k2⟩ := ih (c + 1)
        (top.map (clearColumn c (gfScale (ginv (p.getD c 0#8)) p)) ++
          [gfScale (ginv (p.getD c 0#8)) p])
        (others.map (clearColumn c (gfScale (ginv (p.getD c 0#8)) p)))
        (by
          intro r hr
          rcases List.mem_append.mp hr with hr | hr
          · obtain ⟨q, hq, rfl⟩ := List.mem_map.mp hr
            exact clearColumn_length hpl (h1 q hq)
          · rw [List.mem_singleton.mp hr]; exact hpl)
        (by
          intro r hr
          obtain ⟨q, hq, rfl⟩ := List.mem_map.mp hr
          exact clearColumn_length hpl (h2 q (g3 q hq)))
      refine ⟨?_, k2⟩
      rw [k1]
      simp [g1]
      omega

@[simp] theorem gfUnit_length (n c : Nat) : (gfUnit n c).length = n := by simp [gfUnit]

/-- The inverse of a matrix of `n` rows of `n` elements has that shape (R195). -/
theorem gfInverse_shape {n : Nat} {X : GfMatrix} (h1 : X.length = n)
    (h2 : ∀ r ∈ X, r.length = n) :
    (gfInverse n X).length = n ∧ ∀ r ∈ gfInverse n X, r.length = n := by
  obtain ⟨k1, k2⟩ := gaussJordan_shape (w := 2 * n) n 0 []
    (List.zipWith (fun row u => row ++ u) X (gfIdentity n)) (by simp) (by
      intro r hr
      obtain ⟨i, hi, rfl⟩ := List.mem_iff_getElem.mp hr
      have hX := h2 (X[i]'(by simp at hi; omega)) (List.getElem_mem _)
      simp [gfIdentity, hX]
      omega)
  constructor
  · rw [gfInverse, List.length_map, k1]
    simp [h1, gfIdentity]
  · intro r hr
    obtain ⟨q, hq, rfl⟩ := List.mem_map.mp hr
    simp [k2 q hq]
    omega

/-- V has `n` rows of D elements (R193). -/
theorem vandermonde_shape (n D : Nat) :
    (vandermonde n D).length = n ∧ ∀ r ∈ vandermonde n D, r.length = D := by
  refine ⟨by simp [vandermonde], fun r hr => ?_⟩
  obtain ⟨i, -, rfl⟩ := List.mem_map.mp hr
  simp [vandermondeRow]

/-- M has D + P rows of D elements (R194). -/
theorem encMatrix_shape (D P : Nat) :
    (encMatrix D P).length = D + P ∧ ∀ r ∈ encMatrix D P, r.length = D := by
  obtain ⟨-, h2⟩ := gfInverse_shape (vandermonde_shape D D).1 (vandermonde_shape D D).2
  refine ⟨by simp [encMatrix, gfMatMul, (vandermonde_shape _ _).1], fun r hr => ?_⟩
  obtain ⟨q, -, rfl⟩ := List.mem_map.mp hr
  exact gfCombine_length q h2

/-- One element of a combination of rows: the combination of the elements (R199). -/
theorem gfCombine_element {len x : Nat} (hx : x < len) :
    ∀ (xs : List Byte) (vs : GfMatrix), (∀ v ∈ vs, v.length = len) →
      (gfCombine len xs vs).getD x 0#8 =
        (List.zipWith (fun a v => gmul a (v.getD x 0#8)) xs vs).foldr (fun a b => a ^^^ b) 0#8 := by
  intro xs
  induction xs with
  | nil => intro vs _; simp [gfCombine, zeros, hx]
  | cons a xs ih =>
    intro vs h
    cases vs with
    | nil => simp [gfCombine, zeros, hx]
    | cons v vs =>
      have hv := h v List.mem_cons_self
      have hr := ih vs (fun w hw => h w (List.mem_cons_of_mem _ hw))
      have hl := gfCombine_length xs (fun w hw => h w (List.mem_cons_of_mem _ hw))
      rw [List.getD_eq_getElem _ _ (by omega)] at hr
      simp only [gfCombine, List.zipWith_cons_cons, List.foldr_cons, ← hr]
      rw [List.getD_eq_getElem _ _ (by simp [hv, hl, hx])]
      simp [gfAdd, gfScale, hv, hx]

end Sys2Proof.Machine
end

