-- ==== Sys2Proof/Laws/PerInstr.lean ====
section
/-! SUPPORT. A statement about the encoding of every command, one lemma per constructor of Instr. -/

namespace Sys2Proof.Laws.EncodingFits

open Sys2Proof

/-- The word of a well-formed command has RSVD = 0 (30_encoding.md R86), the command's opcode and FLAGS in
their fields (R80), and matches exactly one row of the opcode table (R90). -/
def Statement (i : Instr) : Prop :=
  i.wellFormed = true →
    rsvdField (encode i) = 0#16 ∧ opcodeField (encode i) = opcodeOf i ∧
    flagsField (encode i) = i.flags ∧ (opcodeRows.filter (rowMatches (encode i))).length = 1

theorem nop : Statement .nop := by unfold Statement; decide

theorem crc16 : Statement .crc16 := by unfold Statement; decide

theorem blkSeal : Statement .blkSeal := by unfold Statement; decide

theorem blkCheck (flags : BitVec 8) : Statement (.blkCheck flags) := by
  unfold Statement; revert flags; decide

theorem blkKind : Statement .blkKind := by unfold Statement; decide

theorem layoutPos : Statement .layoutPos := by unfold Statement; decide

theorem layoutSeq : Statement .layoutSeq := by unfold Statement; decide

theorem tlvParse : Statement .tlvParse := by unfold Statement; decide

theorem tlvFind : Statement .tlvFind := by unfold Statement; decide

theorem tlvAppend : Statement .tlvAppend := by unfold Statement; decide

theorem tlvPad : Statement .tlvPad := by unfold Statement; decide

theorem mhParse : Statement .mhParse := by unfold Statement; decide

theorem gfMul : Statement .gfMul := by unfold Statement; decide

theorem gfInv : Statement .gfInv := by unfold Statement; decide

theorem rsCoef : Statement .rsCoef := by unfold Statement; decide

theorem rsEncode : Statement .rsEncode := by unfold Statement; decide

theorem rsRecon : Statement .rsRecon := by unfold Statement; decide

theorem rsVote : Statement .rsVote := by unfold Statement; decide

theorem scanInit (flags : BitVec 8) : Statement (.scanInit flags) := by
  unfold Statement; revert flags; decide

theorem scanNext : Statement .scanNext := by unfold Statement; decide

theorem scanProbe : Statement .scanProbe := by unfold Statement; decide

end Sys2Proof.Laws.EncodingFits
end

