-- ==== Sys2Proof/Laws/Scanner.lean ====
section
/-! SUPPORT. The candidate loop of SCAN_NEXT (44_scanner.md R246): every step is at least 128, so the fuel
that cmdScanNext gives it is enough, and what the loop answers. -/

namespace Sys2Proof.Machine

open Sys2Proof

/-- The scanner's step is a block size or an alignment, between 128 and 4096 (R235). -/
theorem scanStep_facts (c : Scan) : 128 ≤ c.step ∧ c.step ≤ 4096 := by
  unfold Scan.step
  split
  · rename_i r _
    exact ⟨(blockSize_facts r.ver).1, (blockSize_facts r.ver).2.1⟩
  · exact alignBytes_facts c.align

/-- An accepted block ends at or before the limit, and its magic and version byte are read there (R126). -/
theorem verdict_accept {get : Nat → Nat → List Byte} {p lim : Nat} {pv : Option Version}
    {uf : Option Word} {ref : Option (Version × Word)} {v : Version}
    (h : verdict get p lim pv uf ref = .accept v) :
    p + v.blockSize ≤ lim ∧ get p 3 = magic ∧ Version.ofByte? ((get (p + 3) 1).headD 0#8) = some v := by
  unfold verdict at h
  split at h
  · simp at h
  · rename_i hm
    dsimp only at h
    split at h
    · simp at h
    · rename_i w hw
      split_ifs at h with h1 h2 h3 h4 h5
      cases h
      exact ⟨by omega, by by_contra hc; exact hm (.inr hc), hw⟩

/-- The number of the first `m` candidates from `p` on that SCAN_ERRS counts (R238). -/
def countedBefore (s : State) (p m : Nat) : Nat :=
  ((List.range m).filter (fun k => (s.scanVerdict (p + k * s.scan.step)).counted)).length

theorem countedBefore_succ (s : State) (p m : Nat) :
    countedBefore s p (m + 1) =
      (if (s.scanVerdict p).counted then 1 else 0) + countedBefore s (p + s.scan.step) m := by
  have e : ∀ k, p + s.scan.step + k * s.scan.step = p + (k + 1) * s.scan.step := fun k => by ring
  unfold countedBefore
  rw [List.range_succ_eq_map, List.filter_cons]
  simp only [Nat.zero_mul, Nat.add_zero, List.filter_map, Function.comp_def, Nat.succ_eq_add_one, e]
  split <;> simp [Nat.add_comm]

/-- With enough fuel the loop ends at the m-th candidate from `p` on, for some m: no earlier candidate is
accepted, and it is accepted, or it is the first at or after SCAN_TO; SCAN_ERRS counts the rejected ones
(R246). -/
theorem scanLoop_spec (s : State) (fuel : Nat) :
    ∀ (p : Nat) (errs : Word), s.scan.to_.toNat - p ≤ fuel →
      ∃ m, (scanLoop s fuel p errs).at_ = p + m * s.scan.step ∧
        (∀ k, k < m → p + k * s.scan.step < s.scan.to_.toNat ∧
          ∀ w, s.scanVerdict (p + k * s.scan.step) ≠ .accept w) ∧
        (scanLoop s fuel p errs).errs = errs + BitVec.ofNat 32 (countedBefore s p m) ∧
        (∀ v, (scanLoop s fuel p errs).found = some v →
          p + m * s.scan.step < s.scan.to_.toNat ∧
          s.scanVerdict (p + m * s.scan.step) = .accept v) ∧
        ((scanLoop s fuel p errs).found = none → s.scan.to_.toNat ≤ p + m * s.scan.step) := by
  have hst := (scanStep_facts s.scan).1
  induction fuel with
  | zero =>
    intro p errs h
    exact ⟨0, by simp [scanLoop], by simp, by simp [scanLoop, countedBefore], by simp [scanLoop],
      fun _ => by omega⟩
  | succ n ih =>
    intro p errs h
    by_cases hp : p < s.scan.to_.toNat
    · cases hv : s.scanVerdict p with
      | accept v =>
        have e : scanLoop s (n + 1) p errs = { found := some v, at_ := p, errs := errs } := by
          simp [scanLoop, hp, hv]
        rw [e]
        refine ⟨0, by simp, by simp, by simp [countedBefore], ?_, by simp⟩
        intro w hw
        cases hw
        exact ⟨by omega, by simpa using hv⟩
      | _ =>
        all_goals
          have e : scanLoop s (n + 1) p errs = scanLoop s n (p + s.scan.step)
              (errs + BitVec.ofNat 32 (if (s.scanVerdict p).counted then 1 else 0)) := by
            simp [scanLoop, hp, hv, Verdict.counted]
          rw [e]
          obtain ⟨m, h1, h2, h3, h4, h5⟩ := ih (p + s.scan.step)
            (errs + BitVec.ofNat 32 (if (s.scanVerdict p).counted then 1 else 0)) (by omega)
          have em : p + s.scan.step + m * s.scan.step = p + (m + 1) * s.scan.step := by ring
          rw [em] at h1 h4 h5
          refine ⟨m + 1, h1, ?_, ?_, h4, h5⟩
          · intro k hk
            cases k with
            | zero => simp [hp, hv]
            | succ k =>
              have := h2 k (by omega)
              rwa [show p + s.scan.step + k * s.scan.step = p + (k + 1) * s.scan.step by ring] at this
          · rw [h3, countedBefore_succ, BitVec.ofNat_add, BitVec.add_assoc]
    · have e : scanLoop s (n + 1) p errs = { found := none, at_ := p, errs := errs } := by
        simp [scanLoop, hp]
      rw [e]
      exact ⟨0, by simp, by simp, by simp [countedBefore], by simp, fun _ => by omega⟩

end Sys2Proof.Machine
end

