-- ==== Sys2Proof/Laws/Tlv.lean ====
section
/-! SUPPORT. What the TLV parse does (42_metadata_tlv.md R164, R165): what a record check answers, what
parsing does at one record and at its stop, the parse of a sequence of admissible records, and where a parse
or ParsePrefix (R172) fails behind such a sequence. -/

namespace Sys2Proof.Machine

open Sys2Proof

/-- The three bytes of a tag read back as the tag (R161). -/
theorem tagOfBytes_tagBytes (t : Tag) : tagOfBytes (tagBytes t) = t := by
  have e : tagBytes t = [t.extractLsb' 16 8, t.extractLsb' 8 8, t.extractLsb' 0 8] := by
    simp only [tagBytes, bytesBE, List.range_succ, List.range_zero, List.nil_append,
      List.cons_append, List.map_cons, List.map_nil, List.cons.injEq, and_true]
    refine ⟨?_, ?_, ?_⟩ <;> apply BitVec.eq_of_toNat_eq <;>
      simp [BitVec.extractLsb'_toNat, Nat.shiftRight_eq_div_pow]
  rw [e]
  apply BitVec.eq_of_toNat_eq
  have := t.isLt
  simp [tagOfBytes, beNat, BitVec.extractLsb'_toNat, Nat.shiftRight_eq_div_pow]
  omega

theorem tlvBytes_append (rs qs : List (Tag × List Byte)) :
    tlvBytes (rs ++ qs) = tlvBytes rs ++ tlvBytes qs := by
  induction rs with
  | nil => rfl
  | cons r rs ih => simp [tlvBytes, ih]

/-- The slice of a middle part. -/
theorem slice_middle {a b c : List Byte} {i j : Nat} (hi : a.length = i) (hj : i + b.length = j) :
    slice (a ++ (b ++ c)) i j = b := by
  subst hi hj; simp [slice]

/-- The byte after a leading part. -/
theorem getD_middle {a : List Byte} {x : Byte} {c : List Byte} {i : Nat} (hi : a.length = i) :
    (a ++ (x :: c)).getD i 0#8 = x := by
  subst hi; simp

/-- The fixed-length checks pass for an admissible record (R165). -/
theorem recordOk_lengths {r : Tag × List Byte} (h : RecordOk r) :
    (decide (r.1 = tagFSZ ∨ r.1 = tagFDT ∨ r.1 = tagSDT) && decide (r.2.length ≠ 8)) = false ∧
    (decide (r.1 = tagPID) && decide (r.2.length ≠ 2)) = false ∧
    (decide (r.1 = tagPID) && !pidOk r.2) = false := by
  obtain ⟨-, -, h3, h4⟩ := h
  refine ⟨?_, ?_, ?_⟩
  · by_cases hf : r.1 = tagFSZ ∨ r.1 = tagFDT ∨ r.1 = tagSDT
    · simp [h3 hf]
    · simp [hf]
  · by_cases hp : r.1 = tagPID
    · simp [(h4 hp).1]
    · simp [hp]
  · by_cases hp : r.1 = tagPID
    · simp [(h4 hp).2]
    · simp [hp]

/-- An admissible record with a new tag passes the record check (R165). -/
theorem checkRecord_new {r : Tag × List Byte} (h : RecordOk r) {seen : List Tag}
    (hs : r.1 ∉ seen) (c : Nat) : checkRecord r.1 r.2.length r.2 seen c = .ok () := by
  obtain ⟨e1, e2, e4⟩ := recordOk_lengths h
  have e3 : seen.contains r.1 = false := by simpa using hs
  unfold checkRecord
  rw [e1, e2, e3, e4]; rfl

/-- An admissible record with a tag seen before is MetadataMalformed at its offset (R165). -/
theorem checkRecord_repeated {r : Tag × List Byte} (h : RecordOk r) {seen : List Tag}
    (hs : r.1 ∈ seen) (c : Nat) :
    checkRecord r.1 r.2.length r.2 seen c = .error (malformedError c) := by
  obtain ⟨e1, e2, -⟩ := recordOk_lengths h
  have e3 : seen.contains r.1 = true := by simpa using hs
  unfold checkRecord
  rw [e1, e2, e3]; rfl

/-- What the fields of a record are where it stands between `before` and `rest` (R161). -/
theorem record_fields (before : List Byte) (r : Tag × List Byte) (rest : List Byte)
    (hl : r.2.length ≤ 255) :
    let pl := before ++ (recordBytes r.1 r.2 ++ rest)
    tagOfBytes (slice pl before.length (before.length + 3)) = r.1 ∧
    (pl.getD (before.length + 3) 0#8).toNat = r.2.length ∧
    slice pl (before.length + 4) (before.length + 4 + r.2.length) = r.2 := by
  refine ⟨?_, ?_, ?_⟩
  · have e : recordBytes r.1 r.2 ++ rest =
        tagBytes r.1 ++ ([BitVec.ofNat 8 r.2.length] ++ r.2 ++ rest) := by simp [recordBytes]
    rw [e, slice_middle rfl (by simp), tagOfBytes_tagBytes]
  · have e : before ++ (recordBytes r.1 r.2 ++ rest) =
        (before ++ tagBytes r.1) ++ (BitVec.ofNat 8 r.2.length :: (r.2 ++ rest)) := by
      simp [recordBytes]
    rw [e, getD_middle (by simp)]
    simp
    omega
  · have e : before ++ (recordBytes r.1 r.2 ++ rest) =
        (before ++ tagBytes r.1 ++ [BitVec.ofNat 8 r.2.length]) ++ (r.2 ++ rest) := by
      simp [recordBytes]
    rw [e, slice_middle (by simp) (by simp)]

/-- One record of a parse (R164): it is checked, and parsing goes on after it unless it is PAD. -/
theorem parseTlvFrom_record (fuel : Nat) (before : List Byte) (r : Tag × List Byte)
    (rest : List Byte) (L : Nat) (seen : List Tag)
    (hL : (before ++ (recordBytes r.1 r.2 ++ rest)).length = L) (h0 : r.1 ≠ 0#24)
    (hl : r.2.length ≤ 255) :
    let pl := before ++ (recordBytes r.1 r.2 ++ rest)
    let c := before.length
    let e : TlvRec := { tag := r.1, len := r.2.length, off := c + 4, rc := c }
    parseTlvFrom (fuel + 1) pl L c seen =
      checkRecord r.1 r.2.length r.2 seen c >>= fun _ =>
        if r.1 = tagPAD then .ok ([e], c + 4 + r.2.length)
        else parseTlvFrom fuel pl L (c + 4 + r.2.length) (r.1 :: seen) >>= fun x =>
          .ok (e :: x.1, x.2) := by
  obtain ⟨e1, e2, e3⟩ := record_fields before r rest hl
  simp only [List.length_append, recordBytes_length] at hL
  dsimp only at e1 e2 e3 ⊢
  rw [parseTlvFrom, if_neg (by omega)]
  simp only [e1, e2, e3]
  rw [if_neg h0, if_neg (by omega)]
  rfl

/-- Parsing stops where fewer than 4 bytes remain, or at 00 00 00 (R164). -/
theorem parseTlvFrom_stop (fuel : Nat) (pl : List Byte) (L c : Nat) (seen : List Tag)
    (h : L - c < 4 ∨ slice pl c (c + 3) = [0#8, 0#8, 0#8]) :
    parseTlvFrom (fuel + 1) pl L c seen = .ok ([], c) := by
  rw [parseTlvFrom]
  split
  · rfl
  · rw [h.resolve_left ‹_›]; rfl

/-- A parse of admissible records with new tags, PAD only as the last, followed by a tail at which parsing
stops, reports exactly them (R164). -/
theorem parseTlvFrom_records (L : Nat) (tail : List Byte) (rs : List (Tag × List Byte)) :
    ∀ (before : List Byte) (fuel : Nat) (seen : List Tag),
      (before ++ (tlvBytes rs ++ tail)).length = L → L ≤ before.length + fuel →
      RecordsOk rs → (∀ r ∈ rs, r.1 ∉ seen) → StopsAfter rs tail →
      parseTlvFrom fuel (before ++ (tlvBytes rs ++ tail)) L before.length seen =
        .ok (tlvRecsAt before.length rs, before.length + (tlvBytes rs).length) := by
  induction rs with
  | nil =>
    intro before fuel seen hL hf _ _ hst
    cases fuel with
    | zero => rfl
    | succ n =>
      rw [parseTlvFrom_stop]
      · rfl
      · rcases hst with ⟨r, h, _⟩ | h | h
        · simp at h
        · left; simp [tlvBytes] at hL; omega
        · right
          have e : tail = [0#8, 0#8, 0#8] ++ tail.drop 3 := by rw [← h]; simp
          rw [tlvBytes, List.nil_append, e, slice_middle rfl (by simp)]
  | cons r rs ih =>
    intro before fuel seen hL hf hok hns hst
    obtain ⟨hok, hnd, hpad⟩ := hok
    have hr := hok r List.mem_cons_self
    simp only [tlvBytes, List.append_assoc] at hL ⊢
    cases fuel with
    | zero => simp at hL; omega
    | succ n =>
      have hstep := parseTlvFrom_record n before r _ L seen hL hr.1 hr.2.1
      dsimp only at hstep
      rw [hstep, checkRecord_new hr (hns r List.mem_cons_self)]
      simp only [ok_bind]
      by_cases hp : r.1 = tagPAD
      · rw [if_pos hp]
        have : rs = [] := by
          cases rs with
          | nil => rfl
          | cons q qs => exact absurd hp (hpad r (by simp))
        subst this
        simp [tlvRecsAt, tlvBytes]
        omega
      · rw [if_neg hp]
        simp only [List.map_cons, List.nodup_cons] at hnd
        have hrest := ih (before ++ recordBytes r.1 r.2) n (r.1 :: seen)
          (by simpa [List.append_assoc] using hL) (by simp at hf ⊢; omega)
          ⟨fun q hq => hok q (List.mem_cons_of_mem _ hq), hnd.2, fun q hq => hpad q (by
            cases rs with
            | nil => simp at hq
            | cons a as => exact List.mem_cons_of_mem _ hq)⟩
          (fun q hq hm => by
            rcases List.mem_cons.mp hm with hm | hm
            · exact hnd.1 (hm ▸ List.mem_map_of_mem hq)
            · exact hns q (List.mem_cons_of_mem _ hq) hm)
          (by
            rcases hst with ⟨q, h1, h2⟩ | h
            · cases rs with
              | nil => simp at h1; exact absurd h2 (h1 ▸ hp)
              | cons a as => exact .inl ⟨q, by simpa using h1, h2⟩
            · exact .inr h)
        simp only [List.append_assoc, List.length_append, recordBytes_length] at hrest
        rw [show before.length + 4 + r.2.length = before.length + (4 + r.2.length) by omega, hrest]
        simp only [ok_bind, tlvRecsAt, List.length_append, recordBytes_length]
        rw [show before.length + 4 + r.2.length = before.length + (4 + r.2.length) by omega,
          Nat.add_assoc before.length]

/-- What the fields of a record head are where it stands between `before` and `rest` (R161). -/
theorem head_fields (before : List Byte) (t : Tag) (len : Nat) (rest after : List Byte) (hl : len ≤ 255) :
    let pl := before ++ (tagBytes t ++ [BitVec.ofNat 8 len] ++ rest ++ after)
    tagOfBytes (slice pl before.length (before.length + 3)) = t ∧
    (pl.getD (before.length + 3) 0#8).toNat = len ∧
    (len ≤ rest.length →
      slice pl (before.length + 4) (before.length + 4 + len) = rest.take len) := by
  have hb : (BitVec.ofNat 8 len).toNat = len := by simp; omega
  have e : before ++ (tagBytes t ++ [BitVec.ofNat 8 len] ++ rest ++ after) =
      before ++ tagBytes t ++ (BitVec.ofNat 8 len :: (rest ++ after)) := by simp
  have e' : before ++ (tagBytes t ++ [BitVec.ofNat 8 len] ++ rest ++ after) =
      before ++ (tagBytes t ++ ([BitVec.ofNat 8 len] ++ rest ++ after)) := by simp
  refine ⟨?_, ?_, fun h => ?_⟩
  · rw [e', slice_middle rfl (by simp), tagOfBytes_tagBytes]
  · rw [e, getD_middle (by simp), hb]
  · have e'' : before ++ (tagBytes t ++ [BitVec.ofNat 8 len] ++ rest ++ after) =
        (before ++ tagBytes t ++ [BitVec.ofNat 8 len]) ++ (rest.take len ++ (rest.drop len ++ after)) := by
      rw [← List.append_assoc (rest.take len), List.take_append_drop]; simp
    rw [e'', slice_middle (by simp) (by simp; omega)]

/-- A record that R165 refuses fails its check at its own offset. -/
theorem checkRecord_refused {t : Tag} {len : Nat} {val : List Byte} {seen : List Tag}
    (h : ((t = tagFSZ ∨ t = tagFDT ∨ t = tagSDT) ∧ len ≠ 8) ∨
      (t = tagPID ∧ (len ≠ 2 ∨ pidOk val = false)) ∨ t ∈ seen) (c : Nat) :
    checkRecord t len val seen c = .error (malformedError c) := by
  unfold checkRecord
  by_cases h1 : (decide (t = tagFSZ ∨ t = tagFDT ∨ t = tagSDT) && decide (len ≠ 8)) = true
  · rw [h1]; rfl
  by_cases h2 : (decide (t = tagPID) && decide (len ≠ 2)) = true
  · rw [Bool.eq_false_iff.mpr h1, h2]; rfl
  by_cases h3 : seen.contains t = true
  · rw [Bool.eq_false_iff.mpr h1, Bool.eq_false_iff.mpr h2, h3]; rfl
  have h4 : (decide (t = tagPID) && !pidOk val) = true := by
    simp only [Bool.and_eq_true, decide_eq_true_eq, not_and, List.contains_iff_mem] at h1 h2 h3
    rcases h with h | ⟨hp, h | h⟩ | h
    · exact absurd h.2 (h1 h.1)
    · exact absurd h (h2 hp)
    · simp [hp, h]
    · exact absurd h h3
  rw [Bool.eq_false_iff.mpr h1, Bool.eq_false_iff.mpr h2, Bool.eq_false_iff.mpr h3, h4]; rfl

/-- A parse that comes to a refused record is MetadataMalformed at its offset (R164). -/
theorem parseTlvFrom_refused {seen : List Tag} {tail : List Byte} (h : RefusedRecord seen tail)
    (fuel : Nat) (before : List Byte) (L : Nat) (hL : (before ++ tail).length = L) :
    parseTlvFrom (fuel + 1) (before ++ tail) L before.length seen =
      .error (malformedError before.length) := by
  obtain ⟨t, len, rest, h0, hl, rfl, h⟩ := h
  obtain ⟨e1, e2, e3⟩ := head_fields before t len rest [] hl
  simp only [List.append_nil] at e1 e2 e3
  simp only [List.length_append, List.length_singleton, tagBytes_length] at hL
  rw [parseTlvFrom, if_neg (by omega)]
  simp only [e1, e2]
  rw [if_neg h0]
  split
  · rfl
  · rename_i hfit
    have hlen : len ≤ rest.length := by omega
    rw [e3 hlen, checkRecord_refused (h.resolve_left (by omega))]
    rfl

/-- A record that is refused after some tags is refused after more of them. -/
theorem refusedRecord_mono {a b : List Tag} {tail : List Byte} (h : RefusedRecord a tail)
    (hs : ∀ t ∈ a, t ∈ b) : RefusedRecord b tail := by
  obtain ⟨t, len, rest, h0, hl, e, h⟩ := h
  refine ⟨t, len, rest, h0, hl, e, ?_⟩
  rcases h with h | h | h | h
  · exact .inl h
  · exact .inr (.inl h)
  · exact .inr (.inr (.inl h))
  · exact .inr (.inr (.inr (hs _ h)))

/-- A parse that comes to a refused record behind admissible ones is MetadataMalformed at its offset
(R164). -/
theorem parseTlvFrom_fault (L : Nat) (tail : List Byte) (rs : List (Tag × List Byte)) :
    ∀ (before : List Byte) (fuel : Nat) (seen : List Tag),
      (before ++ (tlvBytes rs ++ tail)).length = L → L ≤ before.length + fuel →
      (∀ r ∈ rs, RecordOk r ∧ r.1 ∉ seen ∧ r.1 ≠ tagPAD) → (rs.map Prod.fst).Nodup →
      RefusedRecord (rs.map Prod.fst ++ seen) tail →
      parseTlvFrom fuel (before ++ (tlvBytes rs ++ tail)) L before.length seen =
        .error (malformedError (before.length + (tlvBytes rs).length)) := by
  induction rs with
  | nil =>
    intro before fuel seen hL hf _ _ hr
    have ht : 4 ≤ tail.length := by
      obtain ⟨t, len, rest, -, -, rfl, -⟩ := hr
      simp only [List.length_append, tagBytes_length, List.length_singleton]; omega
    simp only [tlvBytes, List.nil_append, List.map_nil, List.length_append] at hL hr ⊢
    obtain ⟨n, rfl⟩ : ∃ n, fuel = n + 1 := ⟨fuel - 1, by omega⟩
    exact parseTlvFrom_refused hr n before L (by simpa using hL)
  | cons r rs ih =>
    intro before fuel seen hL hf hok hnd hr
    obtain ⟨h1, h2, h3⟩ := hok r List.mem_cons_self
    simp only [tlvBytes, List.append_assoc, List.map_cons, List.nodup_cons] at hL hnd ⊢
    cases fuel with
    | zero => simp at hL; omega
    | succ n =>
      have hstep := parseTlvFrom_record n before r _ L seen hL h1.1 h1.2.1
      dsimp only at hstep
      rw [hstep, checkRecord_new h1 h2]
      simp only [ok_bind, if_neg h3]
      have hrest := ih (before ++ recordBytes r.1 r.2) n (r.1 :: seen)
        (by simpa [List.append_assoc] using hL) (by simp at hf ⊢; omega)
        (fun q hq => by
          obtain ⟨q1, q2, q3⟩ := hok q (List.mem_cons_of_mem _ hq)
          refine ⟨q1, fun hm => ?_, q3⟩
          rcases List.mem_cons.mp hm with hm | hm
          · exact hnd.1 (hm ▸ List.mem_map_of_mem hq)
          · exact q2 hm)
        hnd.2 (refusedRecord_mono hr (by simp; grind))
      simp only [List.append_assoc, List.length_append, recordBytes_length] at hrest
      rw [show before.length + 4 + r.2.length = before.length + (4 + r.2.length) by omega, hrest]
      simp only [List.length_append, recordBytes_length, Nat.add_assoc]
      rfl

/-- ParsePrefix of admissible records without PAD, none seen before, whose end is the limit: their tags
are then seen (R172). -/
theorem parseLeadingFrom_records (lim : Nat) (rest : List Byte) (rs : List (Tag × List Byte)) :
    ∀ (before : List Byte) (fuel : Nat) (seen : List Tag),
      before.length + (tlvBytes rs).length = lim → lim < before.length + fuel →
      (∀ r ∈ rs, RecordOk r ∧ r.1 ∉ seen ∧ r.1 ≠ tagPAD) → (rs.map Prod.fst).Nodup →
      ∃ tags, parseLeadingFrom fuel (before ++ (tlvBytes rs ++ rest)) lim before.length seen = .ok tags ∧
        ∀ t, t ∈ tags ↔ t ∈ rs.map Prod.fst ∨ t ∈ seen := by
  induction rs with
  | nil =>
    intro before fuel seen hL hf _ _
    obtain ⟨n, rfl⟩ : ∃ n, fuel = n + 1 := ⟨fuel - 1, by omega⟩
    refine ⟨seen, ?_, by simp⟩
    simp only [tlvBytes, List.length_nil, Nat.add_zero] at hL
    rw [parseLeadingFrom, if_pos (by omega), if_neg (by omega)]
  | cons r rs ih =>
    intro before fuel seen hL hf hok hnd
    obtain ⟨h1, h2, h3⟩ := hok r List.mem_cons_self
    simp only [tlvBytes, List.append_assoc, List.map_cons, List.nodup_cons, List.length_append,
      recordBytes_length] at hL hnd ⊢
    obtain ⟨n, rfl⟩ : ∃ n, fuel = n + 1 := ⟨fuel - 1, by omega⟩
    obtain ⟨e1, e2, e3⟩ := record_fields before r (tlvBytes rs ++ rest) h1.2.1
    obtain ⟨tags, ht, hm⟩ := ih (before ++ recordBytes r.1 r.2) n (r.1 :: seen)
      (by simp only [List.length_append, recordBytes_length]; omega)
      (by simp only [List.length_append, recordBytes_length]; omega)
      (fun q hq => by
        obtain ⟨q1, q2, q3⟩ := hok q (List.mem_cons_of_mem _ hq)
        refine ⟨q1, fun hm => ?_, q3⟩
        rcases List.mem_cons.mp hm with hm | hm
        · exact hnd.1 (hm ▸ List.mem_map_of_mem hq)
        · exact q2 hm)
      hnd.2
    refine ⟨tags, ?_, fun t => by rw [hm]; simp only [List.mem_cons]; tauto⟩
    rw [parseLeadingFrom, if_neg (by omega)]
    dsimp only at e1 e2 e3 ⊢
    rw [e1, e2, e3, if_neg (by simp [h1.1, h3]), if_neg (by omega), checkRecord_new h1 h2]
    simp only [ok_bind]
    simp only [List.append_assoc, List.length_append, recordBytes_length] at ht
    rw [show before.length + 4 + r.2.length = before.length + (4 + r.2.length) by omega, ht]

/-- ParsePrefix of admissible records, then bytes up to the limit that are no whole record without PAD, is
MetadataMalformed where those begin (R172). -/
theorem parseLeadingFrom_fault (lim : Nat) (tail rest : List Byte) (rs : List (Tag × List Byte)) :
    ∀ (before : List Byte) (fuel : Nat) (seen : List Tag),
      before.length + (tlvBytes rs ++ tail).length = lim → lim < before.length + fuel →
      (∀ r ∈ rs, RecordOk r ∧ r.1 ∉ seen ∧ r.1 ≠ tagPAD) → (rs.map Prod.fst).Nodup →
      ((1 ≤ tail.length ∧ tail.length ≤ 3) ∨
        (4 ≤ tail.length ∧ (tail.take 3 = [0#8, 0#8, 0#8] ∨ tail.take 3 = tagBytes tagPAD)) ∨
        RefusedRecord (rs.map Prod.fst ++ seen) tail) →
      parseLeadingFrom fuel (before ++ (tlvBytes rs ++ (tail ++ rest))) lim before.length seen =
        .error (malformedError (before.length + (tlvBytes rs).length)) := by
  induction rs with
  | nil =>
    intro before fuel seen hL hf _ _ hr
    obtain ⟨n, rfl⟩ : ∃ n, fuel = n + 1 := ⟨fuel - 1, by omega⟩
    simp only [tlvBytes, List.nil_append, List.map_nil, List.length_nil, Nat.add_zero] at hL hr ⊢
    rw [parseLeadingFrom]
    rcases hr with hr | ⟨h4, hr⟩ | ⟨t, len, val, h0, hl, rfl, hr⟩
    · rw [if_pos (by omega), if_pos (by omega)]
    · have e : slice (before ++ (tail ++ rest)) before.length (before.length + 3) = tail.take 3 := by
        rw [show tail ++ rest = tail.take 3 ++ (tail.drop 3 ++ rest) by
          rw [← List.append_assoc, List.take_append_drop]]
        exact slice_middle rfl (by simp; omega)
      rw [if_neg (by omega), e]
      dsimp only
      rw [if_pos]
      rcases hr with hr | hr
      · left; rw [hr]; decide
      · right; rw [hr, tagOfBytes_tagBytes]
    · obtain ⟨e1, e2, e3⟩ := head_fields before t len val rest hl
      simp only [List.length_append, tagBytes_length, List.length_singleton] at hL
      rw [if_neg (by omega)]
      simp only [e1, e2]
      split
      · rfl
      · split
        · rfl
        · have hlen : len ≤ val.length := by omega
          rw [e3 hlen, checkRecord_refused (hr.resolve_left (by omega))]
          rfl
  | cons r rs ih =>
    intro before fuel seen hL hf hok hnd hr
    obtain ⟨h1, h2, h3⟩ := hok r List.mem_cons_self
    simp only [tlvBytes, List.append_assoc, List.map_cons, List.nodup_cons, List.length_append,
      recordBytes_length] at hL hnd ⊢
    obtain ⟨n, rfl⟩ : ∃ n, fuel = n + 1 := ⟨fuel - 1, by omega⟩
    obtain ⟨e1, e2, e3⟩ := record_fields before r (tlvBytes rs ++ (tail ++ rest)) h1.2.1
    have hrest := ih (before ++ recordBytes r.1 r.2) n (r.1 :: seen)
      (by simp only [List.length_append, recordBytes_length]; omega)
      (by simp only [List.length_append, recordBytes_length]; omega)
      (fun q hq => by
        obtain ⟨q1, q2, q3⟩ := hok q (List.mem_cons_of_mem _ hq)
        refine ⟨q1, fun hm => ?_, q3⟩
        rcases List.mem_cons.mp hm with hm | hm
        · exact hnd.1 (hm ▸ List.mem_map_of_mem hq)
        · exact q2 hm)
      hnd.2 (hr.imp_right (Or.imp_right fun h => refusedRecord_mono h (by simp; grind)))
    rw [parseLeadingFrom, if_neg (by omega)]
    dsimp only at e1 e2 e3 ⊢
    rw [e1, e2, e3, if_neg (by simp [h1.1, h3]), if_neg (by omega), checkRecord_new h1 h2]
    simp only [ok_bind]
    simp only [List.append_assoc, List.length_append, recordBytes_length] at hrest
    rw [show before.length + 4 + r.2.length = before.length + (4 + r.2.length) by omega, hrest]
    rw [Nat.add_assoc]

end Sys2Proof.Machine
end

