-- ==== Sys2Proof/Tests/Slice0.lean ====
section
/-! SUPPORT. The author's own tests: the well-formedness smoke test, one word of every command written out
from the opcode map of 30_encoding.md R83, small vectors of 95_test_vectors.md, one step of the machine, and
for every obligation with hypotheses a witness that meets them. -/

namespace Sys2Proof.Tests

open Sys2Proof Sys2Proof.Machine

-- Hundreds of small kernel evaluations: one after another, not a thread for each.
set_option Elab.async false

/-! ## Helpers -/

/-- Eight argument registers, the missing ones 0. -/
def args (l : List Word) : Vector Word 8 := Vector.ofFn (fun i => l.getD i.val 0#32)

/-- A command in flight, due, with latched arguments `l` and the memory `m`. -/
def st (l : List Word) (m : Memory) : State :=
  { State.reset with busy := true, arg := args l, latchArg := args l, buf := m, snap := m }

/-- Bytes given as numbers. -/
def bytes (l : List Nat) : List Byte := l.map (BitVec.ofNat 8)

/-- The results of a successful completion: the first `n` RES registers. -/
def ok (n : Nat) (o : Host.Outcome State Fault Refusal) : Option (List Word) :=
  match o with
  | .next t => if t.err then none else some (t.res.toList.take n)
  | .fault _ => none
  | .refused _ => none

/-- The error code and ERRINFO of an error completion. -/
def err (o : Host.Outcome State Fault Refusal) : Option (BitVec 8 × Word) :=
  match o with
  | .next t => if t.err then some (t.errcode, t.errinfo) else none
  | .fault _ => none
  | .refused _ => none

/-- The n bytes of BUF from `a` on after a step. -/
def bufAfter (a n : Nat) (o : Host.Outcome State Fault Refusal) : Option (List Byte) :=
  match o with
  | .next t => some (t.bufBytes a n)
  | .fault _ => none
  | .refused _ => none

/-! ## Well-formedness: an ill-formed term for each check -/

theorem test_blkCheck_flag_2_refused : (Instr.blkCheck 4#8).wellFormed = false := by decide
theorem test_scanInit_flag_4_refused : (Instr.scanInit 0x10#8).wellFormed = false := by decide
theorem test_flags_accepted :
    (Instr.blkCheck 3#8).wellFormed = true ∧ (Instr.scanInit 15#8).wellFormed = true := by decide

/-! ## Words of 30_encoding.md R83 -/

theorem test_decode_nop : decode 0x00000000#32 = .ok .nop := by decide
theorem test_decode_crc16 : decode 0x00000010#32 = .ok .crc16 := by decide
theorem test_decode_blkSeal : decode 0x00000011#32 = .ok .blkSeal := by decide
theorem test_decode_blkCheck : decode 0x00000112#32 = .ok (.blkCheck 1#8) := by decide
theorem test_decode_blkKind : decode 0x00000013#32 = .ok .blkKind := by decide
theorem test_decode_layoutPos : decode 0x00000014#32 = .ok .layoutPos := by decide
theorem test_decode_layoutSeq : decode 0x00000015#32 = .ok .layoutSeq := by decide
theorem test_decode_tlvParse : decode 0x00000020#32 = .ok .tlvParse := by decide
theorem test_decode_tlvFind : decode 0x00000021#32 = .ok .tlvFind := by decide
theorem test_decode_tlvAppend : decode 0x00000022#32 = .ok .tlvAppend := by decide
theorem test_decode_tlvPad : decode 0x00000023#32 = .ok .tlvPad := by decide
theorem test_decode_mhParse : decode 0x00000024#32 = .ok .mhParse := by decide
theorem test_decode_gfMul : decode 0x00000030#32 = .ok .gfMul := by decide
theorem test_decode_gfInv : decode 0x00000031#32 = .ok .gfInv := by decide
theorem test_decode_rsCoef : decode 0x00000032#32 = .ok .rsCoef := by decide
theorem test_decode_rsEncode : decode 0x00000033#32 = .ok .rsEncode := by decide
theorem test_decode_rsRecon : decode 0x00000034#32 = .ok .rsRecon := by decide
theorem test_decode_rsVote : decode 0x00000035#32 = .ok .rsVote := by decide
theorem test_decode_scanInit : decode 0x00000A40#32 = .ok (.scanInit 10#8) := by decide
theorem test_decode_scanNext : decode 0x00000041#32 = .ok .scanNext := by decide
theorem test_decode_scanProbe : decode 0x00000042#32 = .ok .scanProbe := by decide

/-- Vectors V3 to V6 of 95_test_vectors.md 2.1: a reserved opcode, RSVD, FLAGS of NOP and BLK_CHECK. -/
theorem test_decode_malformed :
    decode 0x000000FF#32 = .error .reservedOpcode ∧ decode 0x00010000#32 = .error .rsvdNonzero ∧
    decode 0x00000100#32 = .error .undefinedFlags ∧ decode 0x00000412#32 = .error .undefinedFlags := by
  decide

theorem test_table_word : decodeTableWord 32 0x312 = some (.blkCheck 3#8) ∧
    decodeTableWord 32 0xFF = none := by decide

/-! ## Vectors of 95_test_vectors.md section 2 -/

theorem test_nop : ok 8 (exec .nop (st [] [])) = some (List.replicate 8 0#32) := by decide +kernel

/-- "123456789" at offset 0. -/
def digits : Memory := cellsFrom 0 (bytes [0x31, 0x32, 0x33, 0x34, 0x35, 0x36, 0x37, 0x38, 0x39])

theorem test_crc16_check_value : ok 1 (exec .crc16 (st [0, 9, 0] digits)) = some [0x31C3#32] := by
  decide +kernel
theorem test_crc16_no_wrap :
    err (exec .crc16 (st [0xFFFFFFFF#32, 2, 0] [])) = some (1#8, 0xFFFFFFFF#32) := by decide +kernel

/-- The block that BLK_SEAL 0x1000, 2, 0x01020304, 1 seals on a zero payload. -/
def sealed : List Byte :=
  bytes [0x53, 0x42, 0x78, 0x02, 0x65, 0xED, 0x01, 0x02, 0x03, 0x04, 0, 0, 0, 1, 0, 0] ++ zeros 112

theorem test_blkSeal : let o := exec .blkSeal (st [0x1000, 2, 0x01020304#32, 1]
      (cellsFrom 0x1000 (zeros 128)))
    ok 2 o = some [0x65ED#32, 0x80#32] ∧ bufAfter 0x1000 128 o = some sealed := by decide +kernel
theorem test_blkSeal_unknown_version :
    err (exec .blkSeal (st [0x1000, 4, 0, 0] [])) = some (3#8, 4#32) := by decide +kernel

theorem test_blkCheck_accepts : ok 5 (exec (.blkCheck 3#8)
    (st [0x1000, 128, 2, 0x01020304#32] (cellsFrom 0x1000 sealed))) =
      some [2#32, 0x01020304#32, 1#32, 0x80#32, 0x65ED#32] := by decide +kernel
theorem test_blkCheck_bit_flip : err (exec (.blkCheck 0#8)
    (st [0x1000, 128] (Memory.store (cellsFrom 0x1000 sealed) 0x1064 [1#8]))) =
      some (2#8, 5#32) := by decide +kernel

theorem test_blkKind_parity :
    ok 4 (exec .blkKind (st [24, 17, 0x020A#32] [])) = some [2#32, 1#32, 1#32, NONE] := by
  decide +kernel
theorem test_blkKind_checks_geometry_of_seq_0 :
    err (exec .blkKind (st [0, 17, 0] [])) = some (8#8, 2#32) := by decide +kernel

theorem test_layoutPos : ok 2 (exec .layoutPos (st [12, 17, 0x020A#32, 10] [])) =
    some [113#32, NONE] := by decide +kernel
theorem test_layoutPos_too_large :
    err (exec .layoutPos (st [0xFFFFFFFF#32, 17, 0x8080#32, 1000] [])) = some (8#8, 0#32) := by
  decide +kernel

theorem test_layoutSeq : ok 2 (exec .layoutSeq (st [8, 17, 0x020A#32, 10] [])) =
    some [61#32, NONE] := by decide +kernel
theorem test_layoutSeq_large : ok 2 (exec .layoutSeq (st [0xFFFFFFFF#32, 17, 0x8080#32, 1000] [])) =
    some [0xFFFFCE38#32, NONE] := by decide +kernel

/-- A v2 payload with an unknown tag of length 0 and FSZ = 5. -/
def payload : List Byte :=
  bytes [0x58, 0x59, 0x5A, 0, 0x46, 0x53, 0x5A, 8, 0, 0, 0, 0, 0, 0, 0, 5] ++ zeros 96

theorem test_tlvParse : let o := exec .tlvParse (st [0, 2, 0x100, 4] (cellsFrom 0 payload))
    ok 6 o = some [2#32, 0x104#32, 0#32, 0x10#32, 0#32, 5#32] ∧
    bufAfter 0x108 8 o = some (bytes [0x46, 0x53, 0x5A, 8, 0, 0, 0, 8]) := by decide +kernel
theorem test_tlvParse_overrun : err (exec .tlvParse (st [0, 2, 0x100, 4]
    (cellsFrom 0 (bytes [0x46, 0x4E, 0x4D, 0x70] ++ zeros 108)))) = some (4#8, 0#32) := by decide +kernel

theorem test_tlvFind : ok 4 (exec .tlvFind (st [0, 2, 0x46535A#32] (cellsFrom 0 payload))) =
    some [1#32, 8#32, 8#32, 4#32] := by decide +kernel

/-- An empty v18 payload at 0x1010 and "a.txt" at 0x8020. -/
def appendMemory : Memory :=
  cellsFrom 0x1010 (zeros 112) ++ cellsFrom 0x8020 (bytes [0x61, 0x2E, 0x74, 0x78, 0x74])

theorem test_tlvAppend :
    let o := exec .tlvAppend (st [0x1010, 18, 0x464E4D#32, 0, 5, 0x8020] appendMemory)
    ok 1 o = some [9#32] ∧
    bufAfter 0x1010 9 o = some (bytes [0x46, 0x4E, 0x4D, 5, 0x61, 0x2E, 0x74, 0x78, 0x74]) := by
  decide +kernel
theorem test_tlvAppend_pad_tag : err (exec .tlvAppend
    (st [0x1010, 18, 0x504144#32, 0, 5, 0x8020] appendMemory)) = some (8#8, 2#32) := by decide +kernel

theorem test_tlvPad : let o := exec .tlvPad (st [0, 2, 0, 108] [])
    ok 2 o = some [0x70#32, 0#32] ∧ bufAfter 108 4 o = some (bytes [0x50, 0x41, 0x44, 0]) := by
  decide +kernel
theorem test_tlvPad_short : let o := exec .tlvPad (st [0, 2, 0, 109] [])
    ok 2 o = some [0x70#32, NONE] ∧ bufAfter 109 3 o = some (zeros 3) := by decide +kernel

theorem test_mhParse : ok 5 (exec .mhParse
    (st [0, 68] (cellsFrom 0 (bytes [0xA0, 0xE4, 0x02, 0x40] ++ zeros 64)))) =
      some [0xB220#32, 0x40#32, 4#32, 0#32, 0#32] := by decide +kernel
theorem test_mhParse_long_digest : err (exec .mhParse
    (st [0, 34] (cellsFrom 0 (bytes [0x12, 0x21] ++ zeros 32)))) = some (4#8, 1#32) := by decide +kernel

theorem test_gfMul : ok 1 (exec .gfMul (st [0x53, 0xCA] [])) = some [0x8F#32] := by decide +kernel
theorem test_gfInv : ok 1 (exec .gfInv (st [0x53] [])) = some [0x8C#32] := by decide +kernel
theorem test_gfInv_zero : err (exec .gfInv (st [0] [])) = some (8#8, 0#32) := by decide +kernel
theorem test_rsCoef : ok 1 (exec .rsCoef (st [0x0505, 8, 1] [])) = some [0x7D#32] := by decide +kernel

/-- Shards of 112 bytes packed from offset 0, each given by its first bytes. -/
def shards (l : List (List Nat)) : Memory :=
  cellsFrom 0 ((l.map (fun b => bytes b ++ zeros (112 - b.length))).flatten)

theorem test_rsEncode :
    let o := exec .rsEncode (st [0, 112, 18, 0x0102] (shards [[1, 2, 3], [0x10, 0x20, 0x30]]))
    ok 2 o = some [3#32, 0x70#32] ∧ bufAfter 224 4 o = some (bytes [0x23, 0x46, 0x65, 0]) := by
  decide +kernel
theorem test_rsEncode_stride : err (exec .rsEncode (st [0, 111, 18, 0x0102] [])) =
    some (8#8, 1#32) := by decide +kernel

/-- The group 11 AA, 22 BB, 33 CC with its parity, shards 0 and 3 overwritten, and the mask 0x16. -/
def damaged : State :=
  { st [0, 112, 18, 0x0203] (shards [[0x5A], [0x22, 0xBB], [0x33, 0xCC], [0x5A], [0x58, 0x6B]]) with
    rsMask := args [0x16#32] }

theorem test_rsRecon : let o := exec .rsRecon damaged
    ok 2 o = some [2#32, 0x70#32] ∧ bufAfter 0 3 o = some (bytes [0x11, 0xAA, 0]) ∧
    bufAfter 336 3 o = some (bytes [0, 0xDD, 0]) := by decide +kernel
theorem test_rsRecon_too_few : err (exec .rsRecon (st [0, 112, 18, 0x0203] [])) =
    some (5#8, 0#32) := by decide +kernel

/-- Copies A and B present, copy 2 missing. -/
def ballots : State :=
  { st [0, 112, 18, 0x0201] (shards [[0x41, 0x41], [0x42, 0x42]]) with rsMask := args [3#32] }

theorem test_rsVote_tie : let o := exec .rsVote ballots
    ok 4 o = some [0#32, 1#32, 1#32, 1#32] ∧ bufAfter 224 3 o = some (bytes [0x41, 0x41, 0]) := by
  decide +kernel

theorem test_scanInit : ok 3 (exec (.scanInit 0#8) (st [0x40000, 1280, 129] [])) =
    some [0x81#32, 0x500#32, 0x100#32] := by decide +kernel
theorem test_scanInit_negative_to : ok 3 (exec (.scanInit 1#8)
    (st [0x40000, 1280, 0, 0xFFFFFFFF#32] [])) = some [0#32, 0#32, 0#32] := by decide +kernel

/-- The first 256 bytes of the stream of 95_test_vectors.md 2.5, at BUF offset 0, and a scan of them. -/
def streamBytes : List Byte :=
  zeros 128 ++ bytes [0x53, 0x42, 0x78, 2, 0xD4, 0x2E, 0x11, 0x11, 0x11, 0x11, 0, 0, 0, 0, 0, 0] ++
    List.replicate 112 0x30#8

def scanning : State :=
  { st [128] (cellsFrom 0 streamBytes) with scan := { Scan.reset with len := 256, to_ := 256 } }

theorem test_scanNext : ok 6 (exec .scanNext scanning) =
    some [1#32, 128#32, 2#32, 0x11111111#32, 0#32, 0x80#32] := by decide +kernel
theorem test_scanNext_after_reset : ok 1 (exec .scanNext State.reset) = some [0#32] := by decide +kernel
theorem test_scanProbe : ok 5 (exec .scanProbe scanning) =
    some [0#32, 2#32, 0x11111111#32, 0#32, 0x80#32] := by decide +kernel

/-! ## Steps -/

/-- Vector V3: the step after reset that runs a reserved opcode ends in Usage(0x100). -/
theorem test_step_reserved :
    err (step (State.reset.withFetchWord 32 0xFF)) = some (8#8, 0x100#32) := by decide +kernel

/-- The host's write of CMD from reset is accepted (R100). -/
theorem test_step_cmd_write :
    (match step { State.reset with host := [.write .w32 0x010 0x10#32] } with
      | .next t => t.busy && t.cmd == 0x10#32 && t.host == []
      | .fault _ => false
      | .refused _ => false) = true := by decide +kernel

/-- 20_memory.md R62: after a 32-bit write of 0x5342_7802 at 0x1000, a 16-bit read of 0x1002 is 0x7802. -/
theorem test_bus_lanes :
    (match hostWrite State.reset .w32 0x1001000 0x53427802#32 with
      | .next t => t.bufRead 0x1002 2 == 0x7802#32 && t.bufRead 0x1003 1 == 2#32
      | .fault _ => false
      | .refused _ => false) = true := by decide +kernel

/-! ## Witnesses: for every obligation with hypotheses, states and operands that meet them, for each of
its clauses and at the ends of their ranges -/

/-- A command in flight with the command word `w`. -/
def flying (w : Word) : State := { st [] [] with cmd := w }

/-- A command answers a next state. -/
def Runs (i : Instr) (s : State) : Prop := ∃ t, exec i s = .next t

theorem witness_DecodeInvertsEncode : (Instr.scanInit 15#8).wellFormed = true ∧
    decode 0x00000F40#32 = .ok (.scanInit 15#8) := by decide +kernel

theorem witness_DecodeFollowsTheOpcodeTable : rsvdField 0x80000000#32 ≠ 0#16 ∧
    (rsvdField 0xFF#32 = 0#16 ∧ lookupOpcode (opcodeField 0xFF#32) (flagsField 0xFF#32) = none) ∧
    (∀ i, decode (flying 0xFF#32).cmd ≠ .ok i) ∧
    (rsvdField 0x412#32 = 0#16 ∧
      lookupOpcode (opcodeField 0x412#32) (flagsField 0x412#32) = some (.blkCheck 4#8)) :=
  ⟨by decide, by decide, fun i h => by
    rw [show decode (flying 0xFF#32).cmd = .error .reservedOpcode by decide] at h
    simp at h, by decide⟩

theorem witness_StepRunsTheLatchedCommand :
    (flying 0x10#32).busy = true ∧ (flying 0x10#32).delay = 0 ∧ (flying 0x10#32).abortReq = false ∧
    decode (flying 0x10#32).cmd = .ok .crc16 ∧
    decodeTableWord 32 0xF40 = some (.scanInit 15#8) ∧
    (State.reset.busy = false ∧ State.reset.host = []) ∧
    (let s := { flying 0#32 with delay := 1, host := [.read .w32 0x008, .powerOn] };
      s.busy = true ∧ s.delay ≠ 0 ∧ s.host = .read .w32 0x008 :: [.powerOn]) := by decide +kernel

theorem witness_MalformedWordsEndInUsage :
    (∀ w, (flying w).busy = true ∧ (flying w).delay = 0 ∧ (flying w).abortReq = false) ∧
    rsvdField (flying 0x00010000#32).cmd ≠ 0#16 ∧
    (opcodeField (flying 0x43#32).cmd).toNat ∉ [0x00, 0x10, 0x11, 0x12, 0x13, 0x14, 0x15, 0x20, 0x21,
      0x22, 0x23, 0x24, 0x30, 0x31, 0x32, 0x33, 0x34, 0x35, 0x40, 0x41, 0x42] ∧
    (opcodeField (flying 0x100#32).cmd ≠ 0x12#8 ∧ opcodeField (flying 0x100#32).cmd ≠ 0x40#8 ∧
      flagsField (flying 0x100#32).cmd ≠ 0#8) ∧
    (opcodeField (flying 0x412#32).cmd = 0x12#8 ∧ 4 ≤ (flagsField (flying 0x412#32).cmd).toNat) ∧
    (opcodeField (flying 0x1040#32).cmd = 0x40#8 ∧
      16 ≤ (flagsField (flying 0x1040#32).cmd).toNat) :=
  ⟨fun _ => ⟨rfl, rfl, rfl⟩, by decide +kernel, by decide +kernel, by decide +kernel, by decide +kernel,
    by decide +kernel⟩

theorem witness_AbortEndsInOneOfTwoWays : (3#32).getLsbD 2 = false ∧ State.reset.busy = false ∧
    { flying 0#32 with abortReq := true }.busy = true ∧
    { flying 0#32 with abortReq := true }.delay = 0 ∧
    { flying 0#32 with abortReq := true }.abortReq = true := by decide +kernel

theorem witness_CmdWriteIsAcceptedOrDropped :
    State.reset.busy = false ∧ (flying 0#32).busy = true ∧
    (match step { flying 0#32 with delay := 1, host := [.write .w32 0x010 0#32] } with
      | .next t => t.busy && t.werr
      | .fault _ => false
      | .refused _ => false) = true := by decide +kernel

theorem witness_AcceptedCommandCompletes :
    { flying 0#32 with delay := 3 }.busy = true ∧ { flying 0#32 with delay := 3 }.host = [] := by decide +kernel

/-- A state that agrees with `st [0]` on the inputs of a command, and on little else. -/
def otherState : State :=
  { st [0] [] with werr := true, erracc := 4#32, cmdcnt := 9#32, arg := args [1], res := args [7],
                   buf := [(3, 5#8)], abortReq := true }

theorem witness_OutcomeDependsOnInputsOnly :
    otherState.params = (st [0] []).params ∧ otherState.powerOns = (st [0] []).powerOns ∧
    otherState.latchArg = (st [0] []).latchArg ∧ otherState.snap = (st [0] []).snap ∧
    otherState.rsMask = (st [0] []).rsMask ∧ otherState.scan = (st [0] []).scan ∧
    Runs .gfInv (st [0] []) ∧ Runs .gfInv otherState :=
  ⟨rfl, rfl, rfl, rfl, rfl, rfl, ⟨_, rfl⟩, ⟨_, rfl⟩⟩

theorem witness_ErraccAccumulates : Runs .gfInv (st [0] []) ∧
    ((flying 0xFF#32).busy = true ∧ (flying 0xFF#32).delay = 0 ∧ ∃ t, step (flying 0xFF#32) = .next t) ∧
    (0 < 32 ∧ 31 < 32) ∧ ((0 = 0 ∨ 10 ≤ 0) ∧ (10 = 0 ∨ 10 ≤ 10)) :=
  ⟨⟨_, rfl⟩, ⟨rfl, rfl, _, rfl⟩, by decide +kernel, by decide +kernel⟩

theorem witness_OnlyScanCommandsMoveTheScanner :
    Runs .scanProbe scanning ∧ (∀ f, Instr.scanProbe ≠ .scanInit f) ∧ Instr.scanProbe ≠ .scanNext ∧
    (∃ t, hostStep (st [] []) (.write .w32 0x004 3#32) = .next t) ∧
    HostOp.write .w32 0x004 3#32 ≠ .powerOn ∧
    (∀ v, HostOp.write .w32 0x004 3#32 = .write .w32 0x004 v → v.getLsbD 2 = false) :=
  ⟨⟨_, rfl⟩, by simp, by simp, ⟨_, rfl⟩, by simp, by
    intro v h
    injection h with _ _ hv
    subst hv
    decide +kernel⟩

theorem witness_CommandFrame : Runs .gfInv (st [0] []) ∧
    Instr.gfInv ∉ [.blkSeal, .tlvParse, .tlvAppend, .tlvPad, .rsEncode, .rsRecon, .rsVote] ∧
    err (exec .gfInv (st [0] [])) = some (8#8, 0#32) :=
  ⟨⟨_, rfl⟩, by decide +kernel, by decide +kernel⟩

theorem witness_WritersStayInTheirRegions :
    (Runs .blkSeal (st [0x1000, 2] []) ∧ Outside 0x0FFF ((st [0x1000, 2] []).opNat 0) 16 ∧
      Outside 0x1010 ((st [0x1000, 2] []).opNat 0) 16) ∧
    (Runs .tlvParse (st [0, 2, 0x100, 4] []) ∧ Outside 0x120 0x100 (8 * 4)) ∧
    (Runs .tlvAppend (st [0x1010, 18, 0x464E4D#32, 0, 5, 0x8020] appendMemory) ∧
      Outside 0x1019 (0x1010 + 0) (4 + 5)) ∧
    (Runs .tlvPad (st [0, 2, 0, 108] []) ∧ VersionArg (st [0, 2, 0, 108] []) 1 .v2 ∧
      Outside 112 (0 + 108) (Version.v2.payloadLen - 108)) ∧
    (∀ i ∈ [Instr.rsEncode, .rsRecon], Runs i (st [0, 112, 18, 0x0101] [])) ∧
    VersionArg (st [0, 112, 18, 0x0101] []) 2 .v18 ∧
    GeometryArg (st [0, 112, 18, 0x0101] []) 3 1 1 ∧
    (∀ j, j < 1 → Outside 111 ((st [0, 112, 18, 0x0101] []).shardAddr (1 + j)) 112) ∧
    Runs .rsVote ballots ∧ VersionArg ballots 2 .v18 ∧ GeometryArg ballots 3 1 2 ∧
    (∀ i, i < 1 + 2 → ballots.mask i = false → Outside 223 (ballots.shardAddr i) 112) := by
  refine ⟨⟨⟨_, rfl⟩, .inl (by decide +kernel), .inr (by decide +kernel)⟩, ⟨⟨_, rfl⟩,
    .inr (by decide +kernel)⟩,
    ⟨⟨_, rfl⟩, .inr (by decide +kernel)⟩, ⟨⟨_, rfl⟩, ⟨by decide +kernel, by decide +kernel⟩,
      .inr (by decide +kernel)⟩,
    ?_, ⟨by decide +kernel, by decide +kernel⟩, ⟨by decide +kernel, by decide +kernel⟩, ?_, ⟨_, rfl⟩,
    ⟨by decide +kernel, by decide +kernel⟩,
    ⟨by decide +kernel, by decide +kernel⟩, ?_⟩
  · intro i hi
    fin_cases hi <;> exact ⟨_, rfl⟩
  · unfold Outside; decide +kernel
  · unfold Outside; decide +kernel

theorem witness_InterruptFollowsDoneAndEnable : Runs .nop (st [] []) ∧ (2#32).getLsbD 1 = true ∧
    (2#32).getLsbD 0 = false ∧ State.reset.busy = false ∧ (st [] []).busy = true ∧
    (st [] []).delay = 0 ∧ ∃ t, step (st [] []) = .next t :=
  ⟨⟨_, rfl⟩, by decide +kernel, by decide +kernel, rfl, rfl, rfl, _, rfl⟩

theorem witness_HostAccessesTakePlaceWhenLegal : State.reset.params.Valid ∧
    (∃ t, hostRead State.reset .w32 0xFFC = .next t) ∧
    (∃ t, hostWrite State.reset .w8 0x11FFFFF 1#32 = .next t) ∧
    hostRead State.reset .w32 0x1000 = .refused .busNoTarget ∧
    hostRead State.reset .w32 0x1200000 = .refused .busNoTarget ∧
    hostRead State.reset .w16 0 = .refused .busWidth ∧
    hostRead State.reset .w32 0x1000002 = .refused .busMisaligned :=
  ⟨by decide +kernel, ⟨_, rfl⟩, ⟨_, rfl⟩, rfl, rfl, rfl, rfl⟩

theorem witness_BufLanesAreBigEndian : State.reset.params.Valid ∧
    (∀ w : Width, 0 % w.bytes = 0 ∧ 0 < State.reset.params.bufSize) ∧
    (0x1FFFFC % Width.w32.bytes = 0 ∧ 0x1FFFFE % Width.w16.bytes = 0 ∧
      0x1FFFFF % Width.w8.bytes = 0 ∧ 0x1FFFFF < State.reset.params.bufSize) ∧
    (Outside 0x1FFFFB 0x1FFFFC Width.w32.bytes ∧ Outside 4 0 Width.w32.bytes) :=
  ⟨by decide +kernel, fun w => by cases w <;> decide +kernel, by decide +kernel,
    .inl (by decide +kernel), .inr (by decide +kernel)⟩

theorem witness_CtrlAndStatusActByTheirBits :
    (4#32).getLsbD 2 = true ∧ (0xFFFFFFFB#32).getLsbD 2 = false := by decide +kernel

theorem witness_BusyDroppedWrites : (st [] []).busy = true ∧
    (∀ off ∈ [0x010, 0x020, 0x03C, 0x060, 0x07C], off % 4 = 0 ∧
      (off = 0x010 ∨ (0x020 ≤ off ∧ off < 0x040) ∨ (0x060 ≤ off ∧ off < 0x080))) ∧
    State.reset.busy = false ∧
    (∀ off ∈ [0x000, 0x014, 0x01C, 0x040, 0x05C, 0x080, 0xFFC], off % 4 = 0 ∧ off < 0x1000 ∧
      (off = 0x000 ∨ (0x014 ≤ off ∧ off < 0x020) ∨ (0x040 ≤ off ∧ off < 0x060) ∨ 0x080 ≤ off)) := by
  decide +kernel

/-- A scan that holds a filter version, a filter UID and a reference. -/
def referenced : State :=
  { scanning with scan := { scanning.scan with pv := some .v2, uid := some 0x11111111#32,
                                               ref := some ⟨128, .v2, 0x11111111#32⟩, pos := 256 } }

theorem witness_RegisterMapReads : (0 < 0x1000 ∧ 0 % 4 = 0) ∧ (0xFFC < 0x1000 ∧ 0xFFC % 4 = 0) ∧
    referenced.scan.ref = some ⟨128, .v2, 0x11111111#32⟩ ∧ State.reset.scan.ref = none ∧
    referenced.scan.pv = some .v2 ∧ State.reset.scan.pv = none ∧ 0x0A8 ≤ 0x0A8 := by decide +kernel

theorem witness_PowerOnResetValues : (0 < 0x1000 ∧ 0 % 4 = 0) ∧ (0xFFC < 0x1000 ∧ 0xFFC % 4 = 0) := by
  decide +kernel

theorem witness_SoftResetKeepsBuf : (7#32).getLsbD 2 = true ∧ (0xFFC : Nat) ≠ 0x01C := by decide +kernel

theorem witness_HostWritesCommuteWithCompletion :
    (∀ r ∈ writeRegions .tlvPad (st [0, 2, 0, 108] []), meets 112 4 r = false ∧ meets 104 4 r = false) ∧
    Runs .tlvPad (st [0, 2, 0, 108] []) :=
  ⟨by decide +kernel, _, rfl⟩

/-- A NOP accepted right after reset and due. -/
def firstNop : State := State.reset.withFetchWord 32 0

theorem witness_EveryStepKeepsStatusCoherent :
    StatusCoherent firstNop ∧ ∃ t, step firstNop = .next t :=
  ⟨⟨by decide +kernel, by decide +kernel, by decide +kernel, by decide +kernel⟩, _, rfl⟩

theorem witness_EveryStepKeepsHiddenDiscipline :
    HiddenDiscipline firstNop ∧ ∃ t, step firstNop = .next t :=
  ⟨⟨fun h => absurd h (by decide +kernel), fun _ => rfl, rfl⟩, _, rfl⟩

theorem witness_EveryStepKeepsMemoryWellFormed :
    (flying 0#32).params.Valid ∧ MemoryWellFormed { flying 0#32 with buf := digits } ∧
    ∃ t, step { flying 0#32 with buf := digits } = .next t :=
  ⟨by decide +kernel, ⟨by decide +kernel, by decide +kernel, by decide +kernel, by decide +kernel⟩, _, rfl⟩

theorem witness_EveryStepKeepsScanWindow : referenced.params.Valid ∧
    ScanWindow { referenced with cmd := 0x41#32 } ∧
    ∃ t, step { referenced with cmd := 0x41#32 } = .next t := by
  refine ⟨by decide +kernel, ⟨by decide +kernel, by decide +kernel, by decide +kernel, ?_, ?_,
    by decide +kernel⟩, _, rfl⟩
  · intro r h
    obtain rfl : r = ⟨128, .v2, 0x11111111#32⟩ := by simpa [referenced] using h.symm
    decide +kernel
  · intro h
    simp [referenced] at h

theorem witness_NopClearsResults : (flying 0x100#32).busy = true ∧ (flying 0x100#32).delay = 0 ∧
    (flying 0x100#32).abortReq = false ∧ opcodeField (flying 0x100#32).cmd = 0#8 ∧
    (flying 0x100#32).cmd ≠ 0#32 := by decide +kernel

theorem witness_Crc16OfARegion :
    ((st [0, 9, 0x10000#32] []).ARG 2).extractLsb' 16 16 ≠ 0#16 ∧
    ((st [0, 9, 0xFFFF#32] []).ARG 2).extractLsb' 16 16 = 0#16 ∧
    ((st [1, 0x200000#32, 0] []).opNat 1 ≠ 0 ∧
      (st [1, 0x200000#32, 0] []).params.bufSize <
        (st [1, 0x200000#32, 0] []).opNat 0 + (st [1, 0x200000#32, 0] []).opNat 1) ∧
    (st [0, 0x200000#32, 0] []).opNat 0 + (st [0, 0x200000#32, 0] []).opNat 1 ≤
      (st [0, 0x200000#32, 0] []).params.bufSize ∧
    (st [0xFFFFFFFF#32, 0, 0] []).opNat 1 = 0 := by decide +kernel

theorem witness_CrcDetectsOneByteErrors : (0#8 : Byte) ≠ 0x80#8 := by decide +kernel

theorem witness_SealStampsTheHeader :
    ((st [0, 0x102] []).ARG 1).extractLsb' 8 24 ≠ 0#24 ∧
    (((st [0, 4] []).ARG 1).extractLsb' 8 24 = 0#24 ∧
      Version.ofByte? (lowByte ((st [0, 4] []).ARG 1)) = none) ∧
    (VersionArg (st [0x1FFF81#32, 2] []) 1 .v2 ∧
      (st [0x1FFF81#32, 2] []).params.bufSize < 0x1FFF81 + Version.v2.blockSize) ∧
    (VersionArg (st [0x1FFF80#32, 2] []) 1 .v2 ∧
      0x1FFF80 + Version.v2.blockSize ≤ (st [0x1FFF80#32, 2] []).params.bufSize) :=
  ⟨by decide +kernel, by decide +kernel, ⟨⟨by decide +kernel, by decide +kernel⟩, by decide +kernel⟩,
    ⟨⟨by decide +kernel, by decide +kernel⟩, by decide +kernel⟩⟩

/-- BLK_CHECK of `blk` at 0x1000, of which `avail` bytes are there, with version 2 and UID 0x01020304. -/
def checking (avail : Word) (blk : List Byte) : State :=
  st [0x1000, avail, 2, 0x01020304#32] (cellsFrom 0x1000 blk)

theorem witness_CheckAcceptsAValidBlock : (3#8 : BitVec 8).toNat < 4 ∧
    ((3#8).getLsbD 0 = true → VersionArg (checking 128 sealed) 2 .v2) ∧
    Version.v2.blockSize ≤ (checking 128 sealed).opNat 1 ∧
    (checking 128 sealed).opNat 0 + (checking 128 sealed).opNat 1 ≤
      (checking 128 sealed).params.bufSize ∧
    slice ((checking 128 sealed).memRead 0x1000 128) 0 4 = [0x53#8, 0x42#8, 0x78#8, Version.v2.byte] ∧
    be16 (slice ((checking 128 sealed).memRead 0x1000 128) 4 6) =
      crcBlock ((checking 128 sealed).memRead 0x1000 128) .v2 ∧
    ((3#8).getLsbD 1 = true →
      be32 (slice ((checking 128 sealed).memRead 0x1000 128) 6 10) = (checking 128 sealed).ARG 3) :=
  ⟨by decide +kernel, fun _ => ⟨by decide +kernel, by decide +kernel⟩, by decide +kernel,
    by decide +kernel, by decide +kernel,
    by decide +kernel, by decide +kernel⟩

theorem witness_CheckReportsTheFirstFailure :
    (4 ≤ (4#8 : BitVec 8).toNat ∧ (3#8 : BitVec 8).toNat < 4) ∧
    ((3#8).getLsbD 0 = true ∧ ∀ v, ¬ VersionArg (st [0x1000, 128, 4] []) 2 v) ∧
    ((checking 128 sealed).opNat 1 ≠ 0 ∧ (st [0x1FFF81#32, 128, 2] []).params.bufSize <
      (st [0x1FFF81#32, 128, 2] []).opNat 0 + (st [0x1FFF81#32, 128, 2] []).opNat 1) ∧
    (st [0xFFFFFFFF#32, 0, 2] []).opNat 1 = 0 ∧
    ((3#8).getLsbD 0 = true → VersionArg (checking 128 sealed) 2 .v2) ∧
    (checking 3 sealed).opNat 1 < 4 ∧
    (checking 128 (zeros 128)).memRead 0x1000 3 ≠ [0x53#8, 0x42#8, 0x78#8] ∧
    (4 ≤ (checking 128 sealed).opNat 1 ∧
      (checking 128 sealed).memRead 0x1000 3 = [0x53#8, 0x42#8, 0x78#8] ∧
      (checking 128 sealed).memRead 0x1003 1 = [2#8] ∧ Version.ofByte? 2#8 = some .v2) ∧
    ((checking 128 (bytes [0x53, 0x42, 0x78, 4])).memRead 0x1003 1 = [4#8] ∧
      Version.ofByte? 4#8 = none) ∧
    Version.v2 ≠ .v18 ∧ (checking 127 sealed).opNat 1 < Version.v2.blockSize ∧
    be16 ((checking 128 (bytes [0x53, 0x42, 0x78, 2] ++ zeros 124)).memRead 0x1004 2) ≠
      crcBlock ((checking 128 (bytes [0x53, 0x42, 0x78, 2] ++ zeros 124)).memRead 0x1000 128) .v2 ∧
    (be16 ((checking 128 sealed).memRead 0x1004 2) =
        crcBlock ((checking 128 sealed).memRead 0x1000 128) .v2 ∧
      be32 ((checking 128 sealed).memRead 0x1006 4) ≠ 0x01020305#32) := by
  refine ⟨by decide +kernel, ⟨by decide +kernel, fun v h => ?_⟩, by decide +kernel, by decide +kernel,
    fun _ => ⟨by decide +kernel, by decide +kernel⟩, ?_⟩
  · have e : Version.ofByte? (lowByte ((st [0x1000, 128, 4] []).ARG 2)) = none := by decide +kernel
    have hv := h.2
    rw [e] at hv
    simp at hv
  · decide +kernel

/-- The state in which BLK_SEAL seals a zero payload at 0x1000, and the check that comes after it. -/
def sealing : State := st [0x1000, 2, 0x01020304#32, 1] (cellsFrom 0x1000 (zeros 128))

theorem witness_SealedBlockIsAccepted : VersionArg sealing 1 .v2 ∧
    sealing.opNat 0 + Version.v2.blockSize ≤ sealing.params.bufSize ∧ sealing.snap = sealing.buf ∧
    ∃ t u : State, exec .blkSeal sealing = .next t ∧ u.snap = t.buf ∧ u.powerOns = t.powerOns ∧
      u.params = t.params ∧ u.ARG 0 = sealing.ARG 0 ∧ Version.v2.blockSize ≤ u.opNat 1 ∧
      u.opNat 0 + u.opNat 1 ≤ u.params.bufSize :=
  ⟨⟨by decide +kernel, by decide +kernel⟩, by decide +kernel, rfl, _,
    { sealing with latchArg := args [0x1000, 128],
                   snap := (sealing.finish (cmdBlkSeal sealing)).buf },
    rfl, rfl, rfl, rfl, rfl, by decide +kernel, by decide +kernel⟩

/-- Operands of BLK_KIND, LAYOUT_POS and LAYOUT_SEQ: version 17 with D = 10, P = 2 and burst 10. -/
def placed (x : Word) : State := st [x, 17, 0x020A#32, 10] []

theorem witness_placed (x : Word) : VersionArg (placed x) 1 .v17 ∧ GeometryArg (placed x) 2 10 2 ∧
    (placed x).opNat 3 ≤ 1000 := by
  simp [VersionArg, GeometryArg, State.opNat, State.ARG, placed, st, args, lowByte, Version.ofByte?]

/-- A version with a reserved bit, an unknown version, a geometry without data shards, a burst too large. -/
theorem witness_checks : ((st [0, 0x102] []).ARG 1).extractLsb' 8 24 ≠ 0#24 ∧
    (((st [0, 4] []).ARG 1).extractLsb' 8 24 = 0#24 ∧
      Version.ofByte? (lowByte ((st [0, 4] []).ARG 1)) = none) ∧
    (VersionArg (st [0, 17, 0] []) 1 .v17 ∧ ∀ D P, ¬ GeometryArg (st [0, 17, 0] []) 2 D P) ∧
    (VersionArg (st [0, 17, 0x020A#32, 1001] []) 1 .v17 ∧
      (∃ D P, GeometryArg (st [0, 17, 0x020A#32, 1001] []) 2 D P) ∧
      1000 < (st [0, 17, 0x020A#32, 1001] []).opNat 3) ∧
    (VersionArg (st [0, 1, 0, 1] []) 1 .v1 ∧ Version.v1.isParity = false ∧
      (st [0, 1, 0, 1] []).ARG 3 ≠ 0#32) := by
  refine ⟨by decide +kernel, by decide +kernel, ⟨⟨by decide +kernel, by decide +kernel⟩, ?_⟩,
    ⟨⟨by decide +kernel, by decide +kernel⟩, ⟨10, 2, by decide +kernel, by decide +kernel⟩,
      by decide +kernel⟩, ⟨by decide +kernel, by decide +kernel⟩, rfl, by decide +kernel⟩
  rintro D P ⟨h, _, _, _, _⟩
  have : (0 : Nat) = D + 256 * P := h
  omega

theorem witness_KindOfASequenceNumber :
    (VersionArg (st [5, 1] []) 1 .v1 ∧ Version.v1.isParity = false) ∧
    (VersionArg (placed 24) 1 .v17 ∧ Version.v17.isParity = true ∧ GeometryArg (placed 24) 2 10 2) ∧
    (placed 0).ARG 0 = 0#32 ∧ ((placed 22).opNat 0 = 1 + 1 * (10 + 2) + 9 ∧ 9 < 10) ∧
    ((placed 24).opNat 0 = 1 + 1 * (10 + 2) + 10 + 1 ∧ 1 < 2) :=
  ⟨⟨⟨by decide +kernel, by decide +kernel⟩, rfl⟩, ⟨(witness_placed 24).1, rfl, (witness_placed 24).2.1⟩,
    rfl,
    by decide +kernel, by decide +kernel⟩

theorem witness_LayoutPosFollowsTheInterleave :
    (VersionArg (st [5, 1] []) 1 .v1 ∧ Version.v1.isParity = false ∧ (st [5, 1] []).ARG 3 = 0#32) ∧
    (VersionArg (placed 12) 1 .v17 ∧ Version.v17.isParity = true ∧ GeometryArg (placed 12) 2 10 2 ∧
      (placed 12).opNat 3 ≤ 1000) ∧
    (placed 0).ARG 0 = 0#32 ∧
    ((st [7, 17, 0x020A#32, 0] []).ARG 0 ≠ 0#32 ∧ (st [7, 17, 0x020A#32, 0] []).opNat 3 = 0) ∧
    (0 < (placed 12).opNat 3 ∧ 11 < 10 + 2 ∧
      (placed 12).opNat 0 = 1 + 0 * ((10 + 2) * (placed 12).opNat 3) + 0 * (10 + 2) + 11) :=
  ⟨⟨⟨by decide +kernel, by decide +kernel⟩, rfl, rfl⟩, ⟨(witness_placed 12).1, rfl,
    (witness_placed 12).2⟩, rfl,
    by decide +kernel, by decide +kernel⟩

theorem witness_LayoutSeqInvertsTheInterleave :
    (VersionArg (st [5, 1] []) 1 .v1 ∧ Version.v1.isParity = false ∧ (st [5, 1] []).ARG 3 = 0#32) ∧
    (VersionArg (placed 113) 1 .v17 ∧ Version.v17.isParity = true ∧ GeometryArg (placed 113) 2 10 2 ∧
      (placed 113).opNat 3 ≤ 1000) ∧
    (placed 2).opNat 0 ≤ 2 ∧
    (2 < (st [3, 17, 0x020A#32, 0] []).opNat 0 ∧ (st [3, 17, 0x020A#32, 0] []).opNat 3 = 0) ∧
    (0 < (placed 113).opNat 3 ∧ 11 < 10 + 2 ∧ (placed 113).opNat 0 =
      1 + 2 + 0 * ((10 + 2) * (placed 113).opNat 3) + 11 * (placed 113).opNat 3 + 0) :=
  ⟨⟨⟨by decide +kernel, by decide +kernel⟩, rfl, rfl⟩, ⟨(witness_placed 113).1, rfl,
    (witness_placed 113).2⟩,
    by decide +kernel, by decide +kernel, by decide +kernel⟩

theorem witness_PhysAndSeqAreInverse : 1 ≤ 128 + 128 ∧ 1 ≤ 1 ∧ 1 + 128 ≤ 129 := by decide +kernel

theorem witness_BurstsSpreadOverGroups : 1 ≤ 10 ∧ 1 ≤ 2 ∧ 1 ≤ 1000 ∧ 0 < 11 ∧ 11 < 10 + 2 := by decide +kernel

/-- The records of `payload`. -/
def records : List (Tag × List Byte) :=
  [(0x58595A#24, []), (tagFSZ, bytes [0, 0, 0, 0, 0, 0, 0, 5])]

theorem records_ok : RecordsOk records ∧ StopsAfter records (zeros 96) := by
  refine ⟨⟨?_, by decide +kernel, ?_⟩, .inr (.inr (by decide +kernel))⟩
  · intro r hr
    simp only [records, List.mem_cons, List.not_mem_nil, or_false] at hr
    rcases hr with rfl | rfl <;> exact ⟨by decide +kernel, by decide +kernel, by decide +kernel,
      by decide +kernel⟩
  · decide +kernel

/-- A TLV command on `payload` at offset 0, with further operands. -/
def parsing (l : List Word) : State := st ([0, 2] ++ l) (cellsFrom 0 payload)

/-- One record, then four ways in which R164 and R165 refuse the next: it does not fit, a wrong fixed
length, a repeated tag, a PID out of range. -/
def leadingRecord : List (Tag × List Byte) := [(0x58595A#24, [])]
def refusedTails : List (List Byte) :=
  [tagBytes tagFNM ++ [105#8] ++ zeros 104, tagBytes tagFSZ ++ [7#8] ++ zeros 104,
    tagBytes 0x58595A#24 ++ [0#8] ++ zeros 104, tagBytes tagPID ++ [2#8] ++ bytes [0, 1] ++ zeros 102]

theorem leadingRecord_ok : RecordsOk leadingRecord ∧ ∀ q ∈ leadingRecord, q.1 ≠ tagPAD := by
  refine ⟨⟨fun r hr => ?_, by decide +kernel, by decide +kernel⟩, by decide +kernel⟩
  obtain rfl : r = (0x58595A#24, []) := by simpa [leadingRecord] using hr
  exact ⟨by decide +kernel, by decide +kernel, by decide +kernel, by decide +kernel⟩

theorem refusedTails_fault : ∀ tail ∈ refusedTails, FaultAfter leadingRecord tail := by
  intro tail ht
  simp only [refusedTails, List.mem_cons, List.not_mem_nil, or_false] at ht
  refine ⟨leadingRecord_ok.2, ?_⟩
  rcases ht with rfl | rfl | rfl | rfl
  · exact ⟨tagFNM, 105, zeros 104, by decide, by decide, rfl, .inl (by decide)⟩
  · exact ⟨tagFSZ, 7, zeros 104, by decide, by decide, rfl, .inr (.inl (by decide))⟩
  · exact ⟨0x58595A#24, 0, zeros 104, by decide, by decide, rfl, .inr (.inr (.inr (by decide)))⟩
  · exact ⟨tagPID, 2, bytes [0, 1] ++ zeros 102, by decide, by decide, by decide +kernel,
      .inr (.inr (.inl (by decide +kernel)))⟩

/-- A TLV command on a payload that begins with one record and then has `tail`. -/
def faulty (l : List Word) (tail : List Byte) : State :=
  st ([0, 2] ++ l) (cellsFrom 0 (tlvBytes leadingRecord ++ tail))

theorem faulty_payload : ∀ l ∈ [[0x100#32, 4#32], [0x504944#32, 0#32]], ∀ tail ∈ refusedTails,
    (faulty l tail).memRead ((faulty l tail).opNat 0) Version.v2.payloadLen =
      tlvBytes leadingRecord ++ tail := by decide +kernel

theorem witness_ParseListsTheRecords : VersionArg (parsing [0x100, 4]) 1 .v2 ∧
    (VersionArg (st [0x1FFF91#32, 2] []) 1 .v2 ∧ (st [0x1FFF91#32, 2] []).params.bufSize <
      (st [0x1FFF91#32, 2] []).opNat 0 + Version.v2.payloadLen) ∧
    (VersionArg (parsing [0x1FFFF9#32, 1]) 1 .v2 ∧ (parsing [0x1FFFF9#32, 1]).opNat 3 ≠ 0 ∧
      (parsing [0x1FFFF9#32, 1]).params.bufSize <
        (parsing [0x1FFFF9#32, 1]).opNat 2 + 8 * (parsing [0x1FFFF9#32, 1]).opNat 3) ∧
    (parsing [0x100, 4]).opNat 0 + Version.v2.payloadLen ≤ (parsing [0x100, 4]).params.bufSize ∧
    (parsing [0xFFFFFFFF#32, 0]).opNat 3 = 0 ∧
    (parsing [0x100, 4]).opNat 2 + 8 * (parsing [0x100, 4]).opNat 3 ≤
      (parsing [0x100, 4]).params.bufSize ∧
    (∀ tail ∈ refusedTails, FaultAfter leadingRecord tail ∧
      (faulty [0x100, 4] tail).memRead ((faulty [0x100, 4] tail).opNat 0) Version.v2.payloadLen =
        tlvBytes leadingRecord ++ tail) ∧ RecordsOk leadingRecord ∧
    (parsing [0x100, 4]).memRead 0 112 = tlvBytes records ++ zeros 96 ∧
    RecordsOk records ∧ StopsAfter records (zeros 96) ∧ (∀ b : Nat, b < min 2 4 → b < 2) :=
  ⟨⟨by decide +kernel, by decide +kernel⟩, ⟨⟨by decide +kernel, by decide +kernel⟩, by decide +kernel⟩,
    ⟨⟨by decide +kernel, by decide +kernel⟩, by decide +kernel⟩, by decide +kernel, by decide +kernel,
    by decide +kernel,
    fun tail ht => ⟨refusedTails_fault tail ht, faulty_payload _ (by simp) tail ht⟩, leadingRecord_ok.1,
    by decide +kernel, records_ok.1, records_ok.2, by omega⟩

theorem witness_FindLocatesTheRecord : VersionArg (parsing [0x46535A#32]) 1 .v2 ∧
    ((parsing [0x0146535A#32]).ARG 2).extractLsb' 24 8 ≠ 0#8 ∧
    ((parsing [0x46535A#32]).ARG 2).extractLsb' 24 8 = 0#8 ∧
    (VersionArg (st [0x1FFF91#32, 2] []) 1 .v2 ∧ (st [0x1FFF91#32, 2] []).params.bufSize <
      (st [0x1FFF91#32, 2] []).opNat 0 + Version.v2.payloadLen) ∧
    (parsing [0x46535A#32]).opNat 0 + Version.v2.payloadLen ≤ (parsing [0x46535A#32]).params.bufSize ∧
    (parsing [0x46535A#32]).memRead 0 112 = tlvBytes records ++ zeros 96 ∧ RecordsOk records ∧
    StopsAfter records (zeros 96) ∧
    records = [(0x58595A#24, [])] ++
      (((parsing [0x46535A#32]).ARG 2).extractLsb' 0 24, bytes [0, 0, 0, 0, 0, 0, 0, 5]) :: [] ∧
    (∀ r ∈ records, r.1 ≠ ((parsing [0x504944#32]).ARG 2).extractLsb' 0 24) ∧
    (∀ tail ∈ refusedTails, FaultAfter leadingRecord tail ∧
      (faulty [0x504944#32, 0] tail).memRead ((faulty [0x504944#32, 0] tail).opNat 0)
        Version.v2.payloadLen = tlvBytes leadingRecord ++ tail) ∧ RecordsOk leadingRecord :=
  ⟨⟨by decide +kernel, by decide +kernel⟩, by decide +kernel, by decide +kernel,
    ⟨⟨by decide +kernel, by decide +kernel⟩, by decide +kernel⟩, by decide +kernel, by decide +kernel,
    records_ok.1, records_ok.2, by decide +kernel, by decide +kernel,
    fun tail ht => ⟨refusedTails_fault tail ht, faulty_payload _ (by simp) tail ht⟩, leadingRecord_ok.1⟩

/-- TLV_APPEND of a value of 5 bytes at 0x8020 with tag `t` at the cursor `cur` behind `records`. -/
def appending (t cur : Word) : State :=
  st [0, 2, t, cur, 5, 0x8020] (cellsFrom 0 payload ++ cellsFrom 0x8020 (bytes [97, 46, 116, 120, 116]))

/-- Ends of a prefix that are no whole records: 1 byte, 3 bytes, a terminator, a PAD record, a record that
does not fit before the cursor. -/
def badEnds : List (List Byte) :=
  [[0x46#8], bytes [0x46, 0x4E, 0x4D], zeros 4, recordBytes tagPAD [], tagBytes tagFNM ++ [1#8] ++ []]

theorem badEnds_fault : ∀ tail ∈ badEnds, LeadingFaultAfter leadingRecord tail := by
  intro tail ht
  simp only [badEnds, List.mem_cons, List.not_mem_nil, or_false] at ht
  refine ⟨leadingRecord_ok.2, ?_⟩
  rcases ht with rfl | rfl | rfl | rfl | rfl
  · exact .inl (by decide)
  · exact .inl (by decide)
  · exact .inr (.inl (by decide))
  · exact .inr (.inl (by decide))
  · exact .inr (.inr ⟨tagFNM, 1, [], by decide, by decide, rfl, .inl (by decide)⟩)

/-- TLV_APPEND of an empty FNM record at a cursor behind one record and `tail`. -/
def behind (tail : List Byte) : State :=
  st [0, 2, 0x464E4D#32, BitVec.ofNat 32 (4 + tail.length)]
    (cellsFrom 0 (tlvBytes leadingRecord ++ tail ++ zeros (108 - tail.length)))

theorem behind_payload : ∀ tail ∈ badEnds,
    (behind tail).memRead ((behind tail).opNat 0) Version.v2.payloadLen =
      tlvBytes leadingRecord ++ tail ++ zeros (108 - tail.length) ∧
    (tlvBytes leadingRecord ++ tail).length = (behind tail).opNat 3 ∧
    (behind tail).opNat 3 + 4 + (behind tail).opNat 4 ≤ Version.v2.payloadLen ∧
    (behind tail).opNat 4 = 0 := by decide +kernel

/-- Operands that TLV_APPEND turns away: a tag with a reserved bit, PAD, 00 00 00; a length above 255; a
payload and a value out of range. -/
theorem witness_append_operands :
    (((st [0, 2, 0x01464E4D#32] []).ARG 2).extractLsb' 24 8 ≠ 0#8 ∧
      ((st [0, 2, 0x504144#32] []).ARG 2).extractLsb' 0 24 = tagPAD ∧
      ((st [0, 2, 0] []).ARG 2).extractLsb' 0 24 = 0#24) ∧
    255 < (st [0, 2, 0x464E4D#32, 0, 256, 0] []).opNat 4 ∧
    ¬ (st [0x1FFF91#32, 2, 0x464E4D#32] []).opNat 0 + Version.v2.payloadLen ≤
      (st [0x1FFF91#32, 2, 0x464E4D#32] []).params.bufSize ∧
    ¬ ((st [0, 2, 0x464E4D#32, 0, 5, 0x1FFFFC#32] []).opNat 4 = 0 ∨
      (st [0, 2, 0x464E4D#32, 0, 5, 0x1FFFFC#32] []).opNat 5 + 5 ≤
        (st [0, 2, 0x464E4D#32, 0, 5, 0x1FFFFC#32] []).params.bufSize) := by decide +kernel

theorem witness_AppendAddsOneRecord : VersionArg (appending 0x464E4D#32 16) 1 .v2 ∧
    ((appending 0x464E4D#32 16).ARG 2).extractLsb' 24 8 = 0#8 ∧ tagFNM ≠ tagPAD ∧ tagFNM ≠ 0#24 ∧
    (appending 0x464E4D#32 16).opNat 4 ≤ 255 ∧
    (appending 0x464E4D#32 16).opNat 0 + Version.v2.payloadLen ≤
      (appending 0x464E4D#32 16).params.bufSize ∧
    (appending 0x464E4D#32 16).opNat 5 + (appending 0x464E4D#32 16).opNat 4 ≤
      (appending 0x464E4D#32 16).params.bufSize ∧
    Version.v2.payloadLen < (appending 0x464E4D#32 104).opNat 3 + 4 + 5 ∧
    (∀ tail ∈ badEnds, LeadingFaultAfter leadingRecord tail) ∧ RecordsOk leadingRecord ∧
    (appending 0x464E4D#32 16).memRead 0 112 = tlvBytes records ++ [] ++ zeros 96 ∧
    (tlvBytes records ++ []).length = (appending 0x464E4D#32 16).opNat 3 ∧ RecordsOk records ∧
    (∀ r ∈ records, r.1 ≠ tagPAD) ∧
    (appending 0x464E4D#32 16).opNat 3 + 4 + 5 ≤ Version.v2.payloadLen ∧
    (∃ r ∈ records, r.1 = ((appending 0x58595A#32 16).ARG 2).extractLsb' 0 24) ∧
    (∀ r ∈ records, r.1 ≠ ((appending 0x464E4D#32 16).ARG 2).extractLsb' 0 24) ∧
    ¬ RecordOk (((appending 0x464454#32 16).ARG 2).extractLsb' 0 24,
      (appending 0x464454#32 16).memRead 0x8020 5) ∧
    RecordOk (tagFNM, (appending 0x464E4D#32 16).memRead 0x8020 5) :=
  ⟨⟨by decide +kernel, by decide +kernel⟩, by decide +kernel, by decide +kernel, by decide +kernel,
    by decide +kernel, by decide +kernel, by decide +kernel, by decide +kernel, badEnds_fault,
    leadingRecord_ok.1, by decide +kernel, by decide +kernel, records_ok.1, by decide +kernel,
    by decide +kernel, by decide +kernel, by decide +kernel,
    fun h => absurd (h.2.2.1 (by decide +kernel)) (by decide +kernel),
    ⟨by decide +kernel, by decide +kernel, by decide +kernel, by decide +kernel⟩⟩

theorem witness_PadFillsThePayload : VersionArg (parsing [0, 112]) 1 .v2 ∧
    Version.v2.payloadLen < (parsing [0, 113]).opNat 3 ∧
    ((st [0x1FFF91#32, 2, 0, 112] []).opNat 3 ≤ Version.v2.payloadLen ∧
      (st [0x1FFF91#32, 2, 0, 112] []).params.bufSize <
        (st [0x1FFF91#32, 2, 0, 112] []).opNat 0 + Version.v2.payloadLen) ∧
    ((parsing [0, 112]).opNat 3 ≤ Version.v2.payloadLen ∧
      (parsing [0, 112]).opNat 0 + Version.v2.payloadLen ≤ (parsing [0, 112]).params.bufSize) ∧
    (4 ≤ Version.v2.payloadLen - 108 ∧ ¬ 4 ≤ Version.v2.payloadLen - 109) :=
  ⟨⟨by decide +kernel, by decide +kernel⟩, by decide +kernel, by decide +kernel, by decide +kernel,
    by decide +kernel⟩

theorem witness_PaddedPayloadParses : RecordsOk records ∧ (∀ r ∈ records, r.1 ≠ tagPAD) ∧
    (tlvBytes records).length ≤ 16 ∧ 4 ≤ 20 - (tlvBytes records).length ∧
    ¬ 4 ≤ 19 - (tlvBytes records).length :=
  ⟨records_ok.1, by decide +kernel, by decide +kernel, by decide +kernel, by decide +kernel⟩

/-- MH_PARSE of the bytes `b`. -/
def framing (b : List Byte) : State := st [0, BitVec.ofNat 32 b.length] (cellsFrom 0 b)

/-- A varint that needs a fifth byte, and varints that run past the value, as the first and as the second;
a value out of range. -/
theorem witness_varints : (st [0x200000#32, 1] []).opNat 1 ≠ 0 ∧
    (st [0x200000#32, 1] []).params.bufSize <
      (st [0x200000#32, 1] []).opNat 0 + (st [0x200000#32, 1] []).opNat 1 ∧
    Unfinished (bytes [0x80, 0x80, 0x80, 0x80]) [0#8] ∧ Unfinished (bytes [0x80, 0x80, 0x80]) [] ∧
    Unfinished [] [] ∧ IsVarint (bytes [0x12]) ∧
    (∀ ys ∈ [bytes [0x80, 0x80, 0x80, 0x80] ++ [0#8], bytes [0x80, 0x80, 0x80], []],
      (framing ys).memRead ((framing ys).opNat 0) ((framing ys).opNat 1) = ys ∧
      (framing (0x12#8 :: ys)).memRead ((framing (0x12#8 :: ys)).opNat 0)
        ((framing (0x12#8 :: ys)).opNat 1) = bytes [0x12] ++ ys) :=
  ⟨by decide +kernel, by decide +kernel, ⟨by decide +kernel, .inl rfl⟩,
    ⟨by decide +kernel, .inr ⟨by decide +kernel, rfl⟩⟩, ⟨by decide +kernel, .inr ⟨by decide +kernel, rfl⟩⟩,
    ⟨by decide +kernel, by decide +kernel, by decide +kernel⟩, by decide +kernel⟩

theorem witness_MultihashParses : 255 < (st [0, 256] []).opNat 1 ∧ (framing []).opNat 1 = 0 ∧
    (let s := framing (bytes [0xA0, 0xE4, 0x02, 1, 9, 7]);
      s.opNat 1 ≤ 255 ∧ s.opNat 0 + s.opNat 1 ≤ s.params.bufSize ∧
      s.memRead (s.opNat 0) (s.opNat 1) =
        bytes [0xA0, 0xE4, 0x02] ++ bytes [1] ++ bytes [9] ++ bytes [7]) ∧
    IsVarint (bytes [0xA0, 0xE4, 0x02]) ∧ IsVarint (bytes [0x80, 0x80, 0x80, 0]) ∧
    IsVarint (bytes [1]) ∧ (bytes [9]).length = varintValue (bytes [1]) ∧
    (let s := framing (bytes [0x12, 1]);
      s.memRead (s.opNat 0) (s.opNat 1) = bytes [0x12] ++ bytes [1] ++ []) ∧
    IsVarint (bytes [0x12]) ∧ ([] : List Byte).length < varintValue (bytes [1]) := by
  refine ⟨by decide +kernel, by decide +kernel, by decide +kernel, ?_, ?_, ?_, by decide +kernel,
    by decide +kernel, ?_,
    by decide +kernel⟩ <;> exact ⟨by decide +kernel, by decide +kernel, by decide +kernel⟩

theorem witness_GfMulIsTheFieldProduct : 255 < (st [256, 0] []).opNat 0 ∧
    ((st [255, 256] []).opNat 0 ≤ 255 ∧ 255 < (st [255, 256] []).opNat 1) ∧
    ((st [255, 0] []).ARG 0 = (255#8).setWidth 32 ∧ (st [255, 0] []).ARG 1 = (0#8).setWidth 32) := by
  decide +kernel

theorem witness_GfInvCommand : (st [0] []).opNat 0 = 0 ∧ 255 < (st [256] []).opNat 0 ∧
    ((255#8 : Byte) ≠ 0#8 ∧ (st [255] []).ARG 0 = (255#8).setWidth 32) := by decide +kernel

theorem witness_RsCoefCommand : (∀ D P, ¬ GeometryArg (st [0x0081, 0, 0] []) 0 D P) ∧
    GeometryArg (st [0x0101, 1, 0] []) 0 1 1 ∧
    (1 + 1 ≤ (st [0x0101, 2, 0] []).opNat 1 ∧ ¬ 1 + 1 ≤ (st [0x0101, 1, 0] []).opNat 1) ∧
    (1 ≤ (st [0x0101, 1, 1] []).opNat 2 ∧ (st [0x0101, 1, 0] []).opNat 2 < 1) ∧
    ((st [0x0101, 1, 0] []).opNat 1 < 1 + 1 ∧ (st [0x0101, 1, 0] []).opNat 2 = 0) := by
  refine ⟨?_, ⟨by decide +kernel, by decide +kernel⟩, by decide +kernel, by decide +kernel,
    by decide +kernel⟩
  rintro D P ⟨h, _, _, _, _⟩
  have : (129 : Nat) = D + 256 * P := h
  omega

theorem witness_EncodingMatrixIsSystematic : (1 ≤ 128 ∧ 128 ≤ 128 ∧ 127 < 128) ∧ 255 < 128 + 128 := by
  decide +kernel

/-- RS operands at `base`: stride 112, version 18, D = 2 and P = 1, with the shards present that `m`
says. -/
def grouped (base : Word) (m : Word) : State :=
  { st [base, 112, 18, 0x0102] (shards [[1, 2, 3], [0x10, 0x20, 0x30], [0x23, 0x46, 0x65]]) with
    rsMask := args [m] }

theorem witness_grouped (base m : Word) : VersionArg (grouped base m) 2 .v18 ∧
    Version.v18.isParity = true ∧ GeometryArg (grouped base m) 3 2 1 ∧
    Version.v18.payloadLen ≤ (grouped base m).opNat 1 := by
  simp [VersionArg, GeometryArg, State.opNat, State.ARG, grouped, st, args, lowByte, Version.ofByte?,
    Version.isParity, Version.payloadLen, Version.blockSize]

theorem witness_EncodeWritesTheParity : VersionArg (grouped 0x1FFEB0#32 0) 2 .v18 ∧
    GeometryArg (grouped 0x1FFEB0#32 0) 3 2 1 ∧
    Version.v18.payloadLen ≤ (grouped 0x1FFEB0#32 0).opNat 1 ∧
    (grouped 0x1FFEB0#32 0).opNat 0 +
      ((2 + 1 - 1) * (grouped 0x1FFEB0#32 0).opNat 1 + Version.v18.payloadLen) ≤
      (grouped 0x1FFEB0#32 0).params.bufSize ∧
    (0 < 1 ∧ 111 < Version.v18.payloadLen) ∧
    (∀ j, j < 1 → Outside 0 ((grouped 0x1FFEB0#32 0).shardAddr (2 + j)) Version.v18.payloadLen) := by
  refine ⟨(witness_grouped _ _).1, (witness_grouped _ _).2.2.1, by decide +kernel, by decide +kernel,
    by decide +kernel, ?_⟩
  unfold Outside
  decide +kernel

theorem witness_RsChecksInOrder :
    (VersionArg (st [0, 112, 18, 0x0102] []) 2 .v18 ∧
      ∀ D P, GeometryArg (st [0, 112, 18, 0x0102] []) 3 D P → Instr.rsVote = .rsVote ∧ D ≠ 1) ∧
    ((st [0, 112, 0x100, 0x0102] []).ARG 2).extractLsb' 8 24 ≠ 0#24 ∧
    (((st [0, 112, 4, 0x0102] []).ARG 2).extractLsb' 8 24 = 0#24 ∧
      Version.ofByte? (lowByte ((st [0, 112, 4, 0x0102] []).ARG 2)) = none) ∧
    (VersionArg (st [0, 112, 2, 0x0102] []) 2 .v2 ∧ Version.v2.isParity = false) ∧
    (VersionArg (st [0, 111, 18, 0x0101] []) 2 .v18 ∧ GeometryArg (st [0, 111, 18, 0x0101] []) 3 1 1 ∧
      (Instr.rsVote = .rsVote → 1 = 1) ∧ (st [0, 111, 18, 0x0101] []).opNat 1 < 112) ∧
    (Version.v18.payloadLen ≤ (grouped 0x1FFEB1#32 0).opNat 1 ∧
      (grouped 0x1FFEB1#32 0).params.bufSize < (grouped 0x1FFEB1#32 0).opNat 0 +
        ((2 + 1 - 1) * (grouped 0x1FFEB1#32 0).opNat 1 + Version.v18.payloadLen)) :=
  ⟨⟨⟨by decide +kernel, by decide +kernel⟩, fun D P h => ⟨rfl, fun h1 => by
      have : (258 : Nat) = D + 256 * P := h.1
      omega⟩⟩, by decide +kernel, by decide +kernel, ⟨⟨by decide +kernel, by decide +kernel⟩, rfl⟩,
    ⟨⟨by decide +kernel, by decide +kernel⟩, ⟨by decide +kernel, by decide +kernel⟩, fun _ => rfl,
      by decide +kernel⟩, by decide +kernel⟩

theorem witness_ReconRebuildsMissingShards :
    VersionArg (grouped 0 3#32) 2 .v18 ∧ GeometryArg (grouped 0 3#32) 3 2 1 ∧
    (grouped 0 3#32).opNat 0 + ((2 + 1 - 1) * (grouped 0 3#32).opNat 1 + Version.v18.payloadLen) ≤
      (grouped 0 3#32).params.bufSize ∧
    ((List.range (2 + 1)).filter (grouped 0 4#32).mask).length < 2 ∧
    2 ≤ ((List.range (2 + 1)).filter (grouped 0 3#32).mask).length ∧
    (∀ c, c < 2 → (grouped 0 3#32).mask c = true) ∧ (grouped 0 3#32).mask (2 + 0) = false :=
  ⟨(witness_grouped _ _).1, (witness_grouped _ _).2.2.1, by decide +kernel, by decide +kernel,
    by decide +kernel, by decide +kernel,
    by decide +kernel⟩

/-- The data bytes of the group of `grouped`. -/
def groupData (c x : Nat) : Byte :=
  ([[1#8, 2#8, 3#8], [0x10#8, 0x20#8, 0x30#8]].getD c []).getD x 0#8

theorem witness_ReconRestoresACodeword :
    VersionArg (grouped 0 6#32) 2 .v18 ∧ GeometryArg (grouped 0 6#32) 3 2 1 ∧
    2 ≤ ((List.range (2 + 1)).filter (grouped 0 6#32).mask).length ∧
    (grouped 0 6#32).mask 0 = false ∧
    (∀ i ∈ ((List.range (2 + 1)).filter (grouped 0 6#32).mask).take 2,
      ∀ x, x < Version.v18.payloadLen → (grouped 0 6#32).shardByte i x =
        if i < 2 then groupData i x else parityColumn 2 1 (i - 2) (fun c => groupData c x)) := by
  refine ⟨(witness_grouped _ _).1, (witness_grouped _ _).2.2.1, by decide +kernel, by decide +kernel, ?_⟩
  decide +kernel

theorem witness_VoteRepairsFromTheMajority : VersionArg ballots 2 .v18 ∧ GeometryArg ballots 3 1 2 ∧
    Version.v18.isParity = true ∧ Version.v18.payloadLen ≤ ballots.opNat 1 ∧
    ballots.opNat 0 + (2 * ballots.opNat 1 + Version.v18.payloadLen) ≤ ballots.params.bufSize ∧
    (List.range (1 + 2)).filter ballots.mask ≠ [] ∧
    (List.range (1 + 2)).filter { ballots with rsMask := args [] }.mask = [] ∧
    ballots.mask 2 = false :=
  ⟨⟨by decide +kernel, by decide +kernel⟩, ⟨by decide +kernel, by decide +kernel⟩, rfl, by decide +kernel,
    by decide +kernel, by decide +kernel, by decide +kernel,
    by decide +kernel⟩

/-- SCAN_INIT on the whole BUF with alignment code `al` and filter version 2. -/
def opening (len al : Word) : State := st [0, len, 0xFFFFFFFF#32, 0x7FFFFFFF#32, al, 2, 9] []

theorem witness_ScanInitOpensAScan : 16 ≤ (16#8 : BitVec 8).toNat ∧ (15#8 : BitVec 8).toNat < 16 ∧
    2 < (opening 0 3).opNat 4 ∧ ((st [0, 0, 0, 0, 2, 0] []).opNat 4 ≤ 2 ∧
      ∀ v, ¬ VersionArg (st [0, 0, 0, 0, 2, 0] []) 5 v) ∧ (opening 0 2).ARG 4 = Align.a4096.code ∧
    ((15#8).getLsbD 2 = true → ∃ v, VersionArg (opening 0 2) 5 v) ∧
    ((opening 0x200001#32 2).opNat 1 ≠ 0 ∧ (opening 0x200001#32 2).params.bufSize <
      (opening 0x200001#32 2).opNat 0 + (opening 0x200001#32 2).opNat 1) ∧
    (opening 0 2).opNat 1 = 0 ∧
    ((opening 0x200000#32 2).opNat 0 + (opening 0x200000#32 2).opNat 1 ≤
      (opening 0x200000#32 2).params.bufSize) ∧ (opening 0 2).params.Valid :=
  ⟨by decide +kernel, by decide +kernel, by decide +kernel,
    ⟨by decide +kernel, fun v h => by
      have e : Version.ofByte? (lowByte ((st [0, 0, 0, 0, 2, 0] []).ARG 5)) = none := by decide +kernel
      have hv := h.2
      rw [e] at hv
      simp at hv⟩,
    by decide +kernel, fun _ => ⟨.v2, by decide +kernel, by decide +kernel⟩, by decide +kernel,
    by decide +kernel, by decide +kernel, by decide +kernel⟩

theorem scanning_verdicts : scanning.scanVerdict 0 = .noMagic ∧ scanning.scanVerdict 128 = .accept .v2 := by
  decide +kernel

theorem witness_ScanNextYieldsTheFirstAccepted : scanning.scan.exhausted = false ∧
    scanning.scan.pos.toNat + 1 * scanning.scan.step < scanning.scan.to_.toNat ∧
    scanning.scanVerdict (scanning.scan.pos.toNat + 1 * scanning.scan.step) = .accept .v2 ∧
    (∀ k, k < 1 → ∀ w,
      scanning.scanVerdict (scanning.scan.pos.toNat + k * scanning.scan.step) ≠ .accept w) := by
  refine ⟨rfl, by decide +kernel, scanning_verdicts.2, ?_⟩
  intro k hk w
  obtain rfl : k = 0 := by omega
  rw [show scanning.scan.pos.toNat + 0 * scanning.scan.step = 0 from rfl, scanning_verdicts.1]
  simp

/-- The scan of the first, zero block of the stream only. -/
def fruitless : State := { scanning with scan := { scanning.scan with to_ := 128 } }

theorem witness_ScanNextExhausts :
    { scanning with scan := { scanning.scan with exhausted := true } }.scan.exhausted = true ∧
    fruitless.scan.exhausted = false ∧
    fruitless.scan.to_.toNat ≤ fruitless.scan.pos.toNat + 1 * fruitless.scan.step ∧
    (∀ k, k < 1 → fruitless.scan.pos.toNat + k * fruitless.scan.step < fruitless.scan.to_.toNat ∧
      ∀ w, fruitless.scanVerdict (fruitless.scan.pos.toNat + k * fruitless.scan.step) ≠ .accept w) := by
  refine ⟨rfl, rfl, by decide +kernel, ?_⟩
  intro k hk
  obtain rfl : k = 0 := by omega
  have h : fruitless.scanVerdict 0 = .noMagic := by decide +kernel
  refine ⟨by decide +kernel, fun w => ?_⟩
  rw [show fruitless.scan.pos.toNat + 0 * fruitless.scan.step = 0 from rfl, h]
  simp

/-- `scanning` with the byte `x` at stream offset `a`, the limit `lim` and other filters. -/
def rescanned (a : Nat) (x : Byte) (lim : Word) (pv : Option Version) (uid : Option Word)
    (ref : Option ScanRef) : State :=
  { scanning with
    snap := Memory.store scanning.snap a [x],
    scan := { scanning.scan with to_ := lim, pv := pv, uid := uid, ref := ref, strict := true } }

theorem witness_ScanVerdictAcceptsValidBlocks :
    -- 2: no room for a header below SCAN_TO, and no magic
    ((rescanned 0 0 131 none none none).scan.to_.toNat < 128 + 4 ∧
      scanning.streamRead 0 3 ≠ [0x53#8, 0x42#8, 0x78#8]) ∧
    (128 + 4 ≤ scanning.scan.to_.toNat ∧ scanning.streamRead 128 3 = [0x53#8, 0x42#8, 0x78#8] ∧
      scanning.streamRead (128 + 3) 1 = [2#8] ∧ Version.ofByte? 2#8 = some .v2) ∧
    -- 3: an unknown version
    ((rescanned 131 4 256 none none none).streamRead 128 3 = [0x53#8, 0x42#8, 0x78#8] ∧
      (rescanned 131 4 256 none none none).streamRead 131 1 = [4#8] ∧ Version.ofByte? 4#8 = none) ∧
    -- 6: another version than the filter's
    ((rescanned 0 0 256 (some .v1) none none).scan.pv = some .v1 ∧ Version.v2 ≠ .v1) ∧
    -- 4: a block past SCAN_TO
    (rescanned 0 0 255 none none none).scan.to_.toNat < 128 + Version.v2.blockSize ∧
    -- 5: a wrong CRC
    be16 ((rescanned 200 0 256 none none none).streamRead (128 + 4) 2) ≠
      crcBlock ((rescanned 200 0 256 none none none).streamRead 128 128) .v2 ∧
    -- 7: another UID than the filter's, than the reference's; another version than the reference's
    (128 + Version.v2.blockSize ≤ scanning.scan.to_.toNat ∧
      be16 (scanning.streamRead (128 + 4) 2) = crcBlock (scanning.streamRead 128 128) .v2 ∧
      be32 (scanning.streamRead (128 + 6) 4) = 0x11111111#32) ∧
    (rescanned 0 0 256 none (some 9) none).scan.uid = some 9 ∧
    (rescanned 0 0 256 none none (some ⟨0, .v2, 9⟩)).scan.ref = some ⟨0, .v2, 9⟩ ∧
    (rescanned 0 0 256 none none (some ⟨0, .v1, 0x11111111#32⟩)).scan.ref =
      some ⟨0, .v1, 0x11111111#32⟩ ∧
    -- in each of these the header is there, and in those of 7 the block and its CRC too
    (∀ s ∈ [rescanned 0 0 256 (some .v1) none none, rescanned 0 0 255 none none none,
        rescanned 200 0 256 none none none], 128 + 4 ≤ s.scan.to_.toNat ∧
      s.streamRead 128 3 = [0x53#8, 0x42#8, 0x78#8] ∧ s.streamRead (128 + 3) 1 = [2#8]) ∧
    (∀ s ∈ [rescanned 0 0 256 none (some 9) none, rescanned 0 0 256 none none (some ⟨0, .v2, 9⟩),
        rescanned 0 0 256 none none (some ⟨0, .v1, 0x11111111#32⟩)],
      s.streamRead 128 3 = [0x53#8, 0x42#8, 0x78#8] ∧ s.streamRead (128 + 3) 1 = [2#8] ∧
      128 + Version.v2.blockSize ≤ s.scan.to_.toNat ∧ s.scan.pv = none ∧ s.scan.strict = true ∧
      be16 (s.streamRead (128 + 4) 2) = crcBlock (s.streamRead 128 128) .v2 ∧
      be32 (s.streamRead (128 + 6) 4) = 0x11111111#32) := by
  decide +kernel

theorem witness_ScanProbeClassifies :
    ¬ (scanning.scan.from_.toNat ≤ 256 ∧ 256 < scanning.scan.to_.toNat) ∧
    (scanning.scan.from_.toNat ≤ 255 ∧ 255 < scanning.scan.to_.toNat) ∧
    ¬ (scanning.scan.align.bytes ∣ 255) ∧ scanning.scan.ref = none ∧
    (scanning.scan.align.bytes ∣ 0 ∧ scanning.scanVerdict 0 = .noMagic) ∧
    (scanning.scan.align.bytes ∣ 128 ∧ scanning.scanVerdict 128 ≠ .noMagic ∧
      scanning.streamRead (128 + 3) 1 = [2#8] ∧ 128 + 16 ≤ scanning.scan.to_.toNat) ∧
    (let s := { scanning with scan := { scanning.scan with to_ := 143 } };
      s.scanVerdict 128 ≠ .noMagic ∧ s.scan.to_.toNat < 128 + 16) := by
  decide +kernel

end Sys2Proof.Tests
end

/-! PROOFS. One step of the machine (00_scope.md R5): when a command is due, when an abort can cancel it,
and the two turns of a step, the engine's and the host's. -/

namespace Sys2Proof.Machine

open Sys2Proof

section

variable {s : State}

/-! ## Whose turn it is -/

/-- A command is due exactly when one is in flight with no delay left (R300). -/
theorem State.due_eq_true : s.due = true ↔ s.busy = true ∧ s.delay = 0 := by
  simp [State.due]

/-- No command is due exactly when none is in flight or its delay is not yet over (R300). -/
theorem State.due_eq_false : s.due = false ↔ s.busy = false ∨ s.delay ≠ 0 := by
  simp [State.due, imp_iff_not_or]

/-- Where no abort is requested, none is honoured (R107). -/
theorem State.cancels_eq_false_of_abortReq (h : s.abortReq = false) : s.cancels = false := by
  simp [State.cancels, h]

/-- A command accepted with no delay left is due. -/
@[simp] theorem State.acceptDue_due (s : State) (w : Word) : (s.acceptDue w).due = true := rfl

/-! ## The engine's turn -/

/-- A step in which a due command is not cancelled runs the command of the latched word (R101). -/
theorem step_eq_exec {i : Instr} (hdue : s.due = true) (hcancel : s.cancels = false)
    (hdec : decode s.cmd = .ok i) : step s = exec i s := by
  simp [step, hdue, completionStep, hcancel, runLatched, hdec]

/-- A word keeps the low 32 bits of a number. -/
theorem ofNat_mod_two_pow_32 (w : Nat) : BitVec.ofNat 32 (w % 2 ^ 32) = BitVec.ofNat 32 w :=
  BitVec.eq_of_toNat_eq (by simp)

/-- The word that withFetchWord places is accepted whole: a command word has 32 bits (R81). -/
theorem State.withFetchWord_32 (s : State) (w : Nat) :
    s.withFetchWord 32 w = s.acceptDue (BitVec.ofNat 32 w) := by
  rw [State.withFetchWord, ofNat_mod_two_pow_32]

/-- The table's decoder reads a 32-bit word as the engine's decoder does. -/
theorem decodeTableWord_32 {w : Nat} {i : Instr} :
    decodeTableWord 32 w = some i ↔ decode (BitVec.ofNat 32 w) = .ok i := by
  rw [decodeTableWord, ofNat_mod_two_pow_32]
  cases decode (BitVec.ofNat 32 w) <;> simp

/-- The step after a word is accepted with no delay left runs that word's command. -/
theorem step_acceptDue {w : Word} {i : Instr} (hdec : decode w = .ok i) :
    step (s.acceptDue w) = exec i (s.acceptDue w) :=
  step_eq_exec (State.acceptDue_due s w)
    (State.cancels_eq_false_of_abortReq (State.acceptDue_abortReq s w)) hdec

/-! ## The host's turn -/

/-- A step with no command due is the host's turn (R5). -/
theorem step_eq_hostTurn (hdue : s.due = false) : step s = hostTurn s := by
  simp [step, hdue]

/-- A host with no access left lets one step of the delay pass (R282). -/
theorem hostTurn_of_nil (h : s.host = []) : hostTurn s = .next s.tick := by
  simp [hostTurn, h]

/-- A host with an access left makes it, while one step of the delay passes (R5). -/
theorem hostTurn_of_cons {op : HostOp} {rest : List HostOp} (h : s.host = op :: rest) :
    hostTurn s = hostStep (s.advanceHost rest) op := by
  simp [hostTurn, h]

end

/-! ## The statement -/

/-- Settles O4: a due command without an abort request is the engine's turn, the word of withFetchWord is
such a command, and a step with no command due is the host's turn. -/
theorem stepRunsTheLatchedCommand : Obligations.StepRunsTheLatchedCommand := by
  refine ⟨fun s i hbusy hdelay habort hdec => ?_, fun s w i hdec => ?_, fun s hidle => ?_⟩
  · exact step_eq_exec (State.due_eq_true.mpr ⟨hbusy, hdelay⟩)
      (State.cancels_eq_false_of_abortReq habort) hdec
  · rw [State.withFetchWord_32]
    exact step_acceptDue (decodeTableWord_32.mp hdec)
  · rw [step_eq_hostTurn (State.due_eq_false.mpr hidle)]
    exact ⟨hostTurn_of_nil, fun _ _ => hostTurn_of_cons⟩

end Sys2Proof.Machine

/-! PROOFS. What every step keeps (00_scope.md R5): the operations that a step is made of, said once, and the
invariants of STATUS, of the hidden state and of the memories, each kept by every operation. -/

namespace Sys2Proof.Machine

open Sys2Proof

/-! ## The operations of a step -/

/-- A completion step ends the command in flight either in an error other than HashMismatch (R267) or with
what its rule staged (R101-R103, R107). -/
theorem step_of_due {s t : State} (hdue : s.due = true) (h : step s = .next t) :
    (∃ e, e.kind ≠ .hashMismatch ∧ t = s.completeError e) ∨
      ∃ i st, outcomeOf i s = .ok st ∧ t = (s.stage st).completeOk := by
  rcases step_cases s with ⟨hnot, -⟩ | ⟨-, -, hstep⟩ | ⟨-, -, -, hstep⟩ | ⟨-, -, i, -, hstep⟩
  · simp [hdue] at hnot
  · exact .inl ⟨cancelledError, by simp [cancelledError], by simpa [hstep] using h.symm⟩
  · exact .inl ⟨malformedWord, by simp [malformedWord], by simpa [hstep] using h.symm⟩
  · cases hout : outcomeOf i s with
    | error e => exact .inl ⟨e, (outcomeOf_raises i s e hout).1, by simpa [hstep, hout] using h.symm⟩
    | ok st => exact .inr ⟨i, st, hout, by simpa [hstep, hout] using h.symm⟩

/-- Every operation that a step is made of keeps `P`: the two completions, the waiting engine, the host's
accesses, and the resets. -/
structure KeptByOperations (P : State → Prop) : Prop where
  tick (s : State) : P s → P s.tick
  advanceHost (s : State) (rest : List HostOp) : P s → P (s.advanceHost rest)
  returned (s : State) (v : Word) : P s → P (s.returned v)
  /-- A write of CTRL with SRST = 0 (R22). -/
  ctrlBits (s : State) (ie abort : Bool) :
    P s → P { s with ie := ie, abortReq := s.abortReq || (s.busy && abort) }
  writeStatus (s : State) (v : Word) : P s → P (s.writeStatus v)
  writeErracc (s : State) (v : Word) : P s → P (s.writeErracc v)
  dropWrite (s : State) : P s → P s.dropWrite
  accept (s : State) (w : Word) : s.busy = false → P s → P (s.accept w)
  /-- A write of an ARG register while idle (R29). -/
  storeArg (s : State) (k : Nat) (v : Word) :
    s.busy = false → P s → P { s with arg := fileSet s.arg k v }
  /-- A write of an RS_MASK register while idle (R31). -/
  storeMask (s : State) (k : Nat) (v : Word) :
    s.busy = false → P s → P { s with rsMask := fileSet s.rsMask k v }
  bufWrite (s : State) (w : Width) (a : Nat) (v : Word) : a < s.params.bufSize →
    (s.params.bufOffset + a) % w.bytes = 0 → P s → P (s.bufWrite a w.bytes v)
  softReset (s : State) : P s → P s.softReset
  powerOnReset (s : State) : P s → P s.powerOnReset
  completeError (s : State) (e : CmdError) : e.kind ≠ .hashMismatch → P s → P (s.completeError e)
  completeOk (s : State) (i : Instr) (st : Staged) :
    outcomeOf i s = .ok st → P s → P (s.stage st).completeOk

namespace KeptByOperations

variable {P : State → Prop} (hP : KeptByOperations P) {s t : State}

include hP

/-- What every operation keeps, a register write keeps. -/
theorem regWrite (off : Nat) (v : Word) (hs : P s) : P (s.regWrite off v) := by
  have idleOrDropped : ∀ u : State, (s.busy = false → P u) → P (if s.busy then s.dropWrite else u) := by
    intro u hu
    split
    · exact hP.dropWrite s hs
    · next hidle => exact hu (Bool.eq_false_iff.mpr hidle)
  rcases regWrite_cases s off v with h | h | h | h | h | ⟨k, h⟩ | ⟨k, h⟩ <;> rw [h]
  · exact hs
  · unfold State.writeCtrl
    split
    · exact hP.softReset s hs
    · exact hP.ctrlBits s _ _ hs
  · exact hP.writeStatus s v hs
  · exact hP.writeErracc s v hs
  · exact idleOrDropped _ fun hidle => hP.accept s v hidle hs
  · exact idleOrDropped _ fun hidle => hP.storeArg s k v hidle hs
  · exact idleOrDropped _ fun hidle => hP.storeMask s k v hidle hs

/-- What every operation keeps, a host access that takes place keeps. -/
theorem hostStep {op : HostOp} (hs : P s) (h : Machine.hostStep s op = .next t) : P t := by
  rcases hostStep_next h with ⟨v, rfl⟩ | ⟨r, v, -, -, rfl⟩ | ⟨a, w, v, ha, halign, rfl⟩ | rfl
  · exact hP.returned s v hs
  · exact hP.regWrite r v hs
  · exact hP.bufWrite s w a v ha halign hs
  · exact hP.powerOnReset s hs

/-- What every operation keeps, every step keeps. -/
theorem step (hs : P s) (h : Machine.step s = .next t) : P t := by
  cases hdue : s.due with
  | true =>
    rcases step_of_due hdue h with ⟨e, he, rfl⟩ | ⟨i, st, hout, rfl⟩
    · exact hP.completeError s e he hs
    · exact hP.completeOk s i st hout hs
  | false =>
    rw [step_eq_hostTurn hdue] at h
    rcases hostTurn_next h with ⟨-, rfl⟩ | ⟨op, rest, -, hop⟩
    · exact hP.tick s hs
    · exact hP.hostStep (hP.advanceHost s rest hs) hop

end KeptByOperations

/-! ## STATUS and ERRACC -/

/-- The code of an error that a command can raise is one of R261's, not 0 and not 6 (R267). -/
theorem ErrKind.code_range {k : ErrKind} (hk : k ≠ .hashMismatch) :
    k.code ≠ 0 ∧ k.code.toNat ≤ 9 ∧ k.code ≠ 6 := by
  revert hk; cases k <;> decide

/-- The bit of an error that a command can raise is neither reserved in ERRACC nor bit 6 (R24, R267). -/
theorem ErrKind.code_bit_disjoint {k : ErrKind} (hk : k ≠ .hashMismatch) :
    (1#32 <<< k.code.toNat) &&& 0xFFFFFC41#32 = 0 := by
  revert hk; cases k <;> decide

/-- Setting an error's bit sets no bit of ERRACC that must stay 0. -/
theorem erraccSet_keeps_clear {e : Word} {k : ErrKind} (hk : k ≠ .hashMismatch)
    (he : e &&& 0xFFFFFC41#32 = 0) : erraccSet e k &&& 0xFFFFFC41#32 = 0 := by
  rw [erraccSet, BitVec.and_comm, BitVec.and_or_distrib_left, BitVec.and_comm _ e, he,
    BitVec.and_comm, ErrKind.code_bit_disjoint hk]
  rfl

/-- A write of ERRACC sets no bit (R24). -/
theorem erraccW1C_keeps_clear {e m : Word} (v : Word) (he : e &&& m = 0) :
    erraccW1C e v &&& m = 0 := by
  rw [erraccW1C, BitVec.and_assoc, BitVec.and_comm (~~~v), ← BitVec.and_assoc, he]
  exact BitVec.zero_and

/-- A coherent ERRACC has no reserved bit and not bit 6 (R24, R267). -/
theorem StatusCoherent.erracc_clear {s : State} (h : StatusCoherent s) :
    s.erracc &&& 0xFFFFFC41#32 = 0 := h.2.2.2

/-- STATUS and ERRACC are coherent where no error is reported. -/
theorem statusCoherent_of_no_error {s : State} (hdone : s.busy = true → s.done = false)
    (herr : s.err = false) (hcode : s.errcode = 0) (hacc : s.erracc &&& 0xFFFFFC41#32 = 0) :
    StatusCoherent s :=
  ⟨fun hbusy => ⟨hdone hbusy, herr, hcode⟩, by simp [herr, hcode], by simp [hcode], hacc⟩

/-- STATUS and ERRACC are coherent after an error completion (R103). -/
theorem statusCoherent_completeError {s : State} {e : CmdError} (he : e.kind ≠ .hashMismatch)
    (hacc : s.erracc &&& 0xFFFFFC41#32 = 0) : StatusCoherent (s.completeError e) := by
  obtain ⟨hne, hle, hsix⟩ := ErrKind.code_range he
  exact ⟨by simp, by simpa using hne, ⟨hle, hsix⟩, erraccSet_keeps_clear he hacc⟩

/-- Every operation keeps STATUS and ERRACC coherent (R23, R24). -/
theorem statusCoherent_kept : KeptByOperations StatusCoherent where
  tick _ h := h
  advanceHost _ _ h := h
  returned _ _ h := h
  ctrlBits _ _ _ h := h
  writeStatus s v h := by
    obtain ⟨hbusy, herr, hcode, hacc⟩ := h
    exact ⟨fun hb => ⟨by simp [(hbusy hb).1], (hbusy hb).2⟩, herr, hcode, hacc⟩
  writeErracc s v h := by
    obtain ⟨hbusy, herr, hcode, hacc⟩ := h
    exact ⟨hbusy, herr, hcode, erraccW1C_keeps_clear v hacc⟩
  dropWrite _ h := h
  accept _ _ _ h := statusCoherent_of_no_error (fun _ => rfl) rfl rfl h.erracc_clear
  storeArg _ _ _ _ h := h
  storeMask _ _ _ _ h := h
  bufWrite _ _ _ _ _ _ h := h
  softReset _ _ := statusCoherent_of_no_error (by simp) rfl rfl (by simp)
  powerOnReset _ _ := statusCoherent_of_no_error (by simp) rfl rfl (by simp)
  completeError _ _ he h := statusCoherent_completeError he h.erracc_clear
  completeOk _ _ _ _ h := statusCoherent_of_no_error (by simp) rfl rfl h.erracc_clear

/-- Settles O25: every operation of a step keeps STATUS and ERRACC coherent. -/
theorem everyStepKeepsStatusCoherent : Obligations.EveryStepKeepsStatusCoherent :=
  fun _ _ hs h => statusCoherent_kept.step hs h

/-! ## The hidden state -/

/-- An idle engine with its hidden state cleared is disciplined. -/
theorem hiddenDiscipline_of_idle {s : State} (hbusy : s.busy = false) (hclear : HiddenClear s)
    (hdelay : s.delay = 0) : HiddenDiscipline s :=
  ⟨fun _ => ⟨hclear, hdelay⟩, by simp [hbusy], hclear.2.2.1⟩

/-- Every operation keeps the hidden state disciplined (R37). -/
theorem hiddenDiscipline_kept : KeptByOperations HiddenDiscipline where
  tick s h := by
    obtain ⟨hidle, hbusy, hstaged⟩ := h
    exact ⟨fun hb => ⟨(hidle hb).1, by simp [(hidle hb).2]⟩, hbusy, hstaged⟩
  advanceHost s rest h := by
    obtain ⟨hidle, hbusy, hstaged⟩ := h
    exact ⟨fun hb => ⟨(hidle hb).1, by simp [(hidle hb).2]⟩, hbusy, hstaged⟩
  returned _ _ h := h
  ctrlBits s ie abort h := by
    obtain ⟨hidle, hbusy, hstaged⟩ := h
    refine ⟨fun hb => ?_, hbusy, hstaged⟩
    obtain ⟨⟨hlatch, hsnap, hst, habort⟩, hdelay⟩ := hidle hb
    have hb : s.busy = false := hb
    exact ⟨⟨hlatch, hsnap, hst, by simp [habort, hb]⟩, hdelay⟩
  writeStatus _ _ h := h
  writeErracc _ _ h := h
  dropWrite _ h := h
  accept _ _ _ _ := ⟨by simp, fun _ => rfl, rfl⟩
  storeArg s k v hb h := by
    obtain ⟨hidle, -, hstaged⟩ := h
    exact ⟨hidle, by simp [hb], hstaged⟩
  storeMask _ _ _ _ h := h
  bufWrite _ _ _ _ _ _ h := h
  softReset _ _ := hiddenDiscipline_of_idle rfl ⟨rfl, rfl, rfl, rfl⟩ rfl
  powerOnReset _ _ := hiddenDiscipline_of_idle rfl ⟨rfl, rfl, rfl, rfl⟩ rfl
  completeError _ _ _ _ := hiddenDiscipline_of_idle rfl ⟨rfl, rfl, rfl, rfl⟩ rfl
  completeOk _ _ _ _ _ := hiddenDiscipline_of_idle rfl ⟨rfl, rfl, rfl, rfl⟩ rfl

/-- Settles O26: every operation of a step keeps the hidden state disciplined. -/
theorem everyStepKeepsHiddenDiscipline : Obligations.EveryStepKeepsHiddenDiscipline :=
  fun _ _ hs h => hiddenDiscipline_kept.step hs h

/-! ## Every staged write is in range -/

/-- A region inside a region in range is in range (R65). -/
theorem State.inRange_of_subset {s : State} {a n b k : Nat} (h : s.inRange a n = true) (hlo : a ≤ b)
    (hhi : b + k ≤ a + n) : s.inRange b k = true := by
  rw [inRange_iff] at h ⊢
  omega

/-- Each shard lies in the span that the commands of R208 check. -/
theorem State.inRange_shard {s : State} {L n m : Nat} (hm : m < n)
    (h : s.inRange (s.opNat 0) ((n - 1) * s.opNat 1 + L) = true) :
    s.inRange (s.shardAddr m) L = true := by
  have hmul : m * s.opNat 1 ≤ (n - 1) * s.opNat 1 := Nat.mul_le_mul_right _ (by omega)
  exact s.inRange_of_subset h (Nat.le_add_right _ _) (by rw [State.shardAddr]; omega)

/-- The missing shards are among the n shards. -/
theorem State.lt_of_mem_missingShards {s : State} {n m : Nat} (h : m ∈ s.missingShards n) : m < n :=
  List.mem_range.mp (List.mem_filter.mp h).1

/-- RS_ENCODE stages its parity shards in range (R208). -/
theorem cmdRsEncode_writes_inRange {s : State} {st : Staged} (h : cmdRsEncode s = .ok st) :
    ∀ w ∈ st.writes, s.inRange w.1 w.2.length = true := by
  obtain ⟨L, D, P, hops, hw, -⟩ := cmdRsEncode_ok h
  obtain ⟨v, -, -, -, -, -, hspan⟩ := rsOperands_eq_ok.mp hops
  rw [hw]
  intro w hmem
  obtain ⟨j, hj, rfl⟩ := List.mem_map.mp hmem
  have hj := List.mem_range.mp hj
  rw [parityShard_length (L := L) (by simp)]
  exact State.inRange_shard (by omega) hspan

/-- RS_RECON stages the missing shards in range (R209). -/
theorem cmdRsRecon_writes_inRange {s : State} {st : Staged} (h : cmdRsRecon s = .ok st) :
    ∀ w ∈ st.writes, s.inRange w.1 w.2.length = true := by
  obtain ⟨L, D, P, hops, -, hw, -⟩ := cmdRsRecon_ok h
  obtain ⟨v, -, -, -, -, -, hspan⟩ := rsOperands_eq_ok.mp hops
  obtain ⟨hnum, hlen⟩ := reconData_lengths (M := encMatrix D P) (D := D) (L := L)
    (present := s.presentShards (D + P)) (shard_length s L)
  rw [hw]
  intro w hmem
  obtain ⟨m, hm, rfl⟩ := List.mem_map.mp hmem
  rw [reconShard_length hnum hlen]
  exact State.inRange_shard (State.lt_of_mem_missingShards hm) hspan

/-- RS_VOTE stages the missing copies in range (R210). -/
theorem cmdRsVote_writes_inRange {s : State} {st : Staged} (h : cmdRsVote s = .ok st) :
    ∀ w ∈ st.writes, s.inRange w.1 w.2.length = true := by
  obtain ⟨v, P, -, -, -, hchecks, hw, -⟩ := cmdRsVote_ok h
  rw [hw]
  intro w hmem
  obtain ⟨m, hm, rfl⟩ := List.mem_map.mp hmem
  rw [shard_length]
  exact State.inRange_shard (State.lt_of_mem_missingShards hm) (checkShards_eq_ok.mp hchecks).2

/-- TLV_PARSE stages its directory entries in range (R168, R170). -/
theorem cmdTlvParse_writes_inRange {s : State} {st : Staged} (h : cmdTlvParse s = .ok st) :
    ∀ w ∈ st.writes, s.inRange w.1 w.2.length = true := by
  obtain ⟨v, recs, stop, -, -, hdir, -, hw, -⟩ := cmdTlvParse_ok h
  rw [hw]
  intro w hmem
  obtain ⟨hlo, hlen, hhi⟩ := dirWrites_region w hmem
  have htake : (recs.take (s.opNat 3)).length ≤ s.opNat 3 := by simp
  exact s.inRange_of_subset hdir hlo (by omega)

/-- Whatever a command stages for BUF is in range: its rule has checked the region (R65). -/
theorem outcomeOf_writes_inRange {i : Instr} {s : State} {st : Staged} (h : outcomeOf i s = .ok st) :
    ∀ w ∈ st.writes, s.inRange w.1 w.2.length = true := by
  by_cases hi : i ∈ [.blkSeal, .tlvParse, .tlvAppend, .tlvPad, .rsEncode, .rsRecon, .rsVote]
  · simp only [List.mem_cons, List.not_mem_nil, or_false] at hi
    rcases hi with rfl | rfl | rfl | rfl | rfl | rfl | rfl
    · obtain ⟨v, c, -, hr, hw, -⟩ := cmdBlkSeal_ok h
      have hsize := (blockSize_facts v).1
      simp only [hw, List.forall_mem_singleton, headerBytes_length]
      exact s.inRange_of_subset hr (le_refl _) (by omega)
    · exact cmdTlvParse_writes_inRange h
    · obtain ⟨v, t, len, -, -, hr, hfit, hw, -⟩ := cmdTlvAppend_ok h
      simp only [hw, List.forall_mem_singleton, recordBytes_length, memRead_length]
      exact s.inRange_of_subset hr (by omega) (by omega)
    · obtain ⟨v, -, hcur, hr, hw, -⟩ := cmdTlvPad_ok h
      simp only [hw, List.forall_mem_singleton, padBytes_length]
      exact s.inRange_of_subset hr (by omega) (by omega)
    · exact cmdRsEncode_writes_inRange h
    · exact cmdRsRecon_writes_inRange h
    · exact cmdRsVote_writes_inRange h
  · simp [outcomeOf_writes_nil h hi]

/-! ## BUF and SNAP -/

/-- A naturally aligned access that starts in BUF ends in BUF: BUF_OFFSET and BUF_SIZE are multiples of
4096 (R8, R63). -/
theorem access_end_le_bufSize {p : Params} (hp : p.Valid) {w : Width} {a : Nat} (ha : a < p.bufSize)
    (halign : (p.bufOffset + a) % w.bytes = 0) : a + w.bytes ≤ p.bufSize := by
  obtain ⟨hsize, -, -, hoff, -⟩ := hp
  cases w <;> simp only [Width.bytes] at halign ⊢ <;> omega

/-- A store inside BUF keeps BUF canonical and inside BUF_SIZE. -/
theorem memoryWellFormed_store {s : State} (h : MemoryWellFormed s) {a : Nat} {bs : List Byte}
    (hend : a + bs.length ≤ s.params.bufSize) :
    MemoryWellFormed { s with buf := Memory.store s.buf a bs } := by
  obtain ⟨hbuf, hsnap, hbufLim, hsnapLim⟩ := h
  exact ⟨Memory.store_wf hbuf a bs, hsnap, Memory.store_bound hbufLim (.inr hend), hsnapLim⟩

/-- The staged writes of a command keep BUF canonical and inside BUF_SIZE; the snapshot goes. -/
theorem memoryWellFormed_completeOk {s : State} (h : MemoryWellFormed s) {i : Instr} {st : Staged}
    (hout : outcomeOf i s = .ok st) : MemoryWellFormed (s.stage st).completeOk := by
  obtain ⟨hbuf, -, hbufLim, -⟩ := h
  have hfit : ∀ w ∈ st.writes, w.2 = [] ∨ w.1 + w.2.length ≤ s.params.bufSize := fun w hw => by
    simpa [inRange_iff] using outcomeOf_writes_inRange hout w hw
  exact ⟨applyWrites_wf hbuf _, rfl, applyWrites_bound hbufLim hfit, by simp⟩

/-- The machine's memories are well formed under the parameters `p`. -/
def MemoryFits (p : Params) (s : State) : Prop := s.params = p ∧ MemoryWellFormed s

/-- Every operation keeps the parameters, and BUF and SNAP canonical and inside BUF_SIZE (R39, R60). -/
theorem memoryFits_kept {p : Params} (hp : p.Valid) : KeptByOperations (MemoryFits p) where
  tick _ h := h
  advanceHost _ _ h := h
  returned _ _ h := h
  ctrlBits _ _ _ h := h
  writeStatus _ _ h := h
  writeErracc _ _ h := h
  dropWrite _ h := h
  accept s w _ h := by
    obtain ⟨hparams, hbuf, -, hlim, -⟩ := h
    exact ⟨hparams, hbuf, hbuf, hlim, hlim⟩
  storeArg _ _ _ _ h := h
  storeMask _ _ _ _ h := h
  bufWrite s w a v ha halign h := by
    obtain ⟨rfl, hwf⟩ := h
    exact ⟨rfl, memoryWellFormed_store hwf (by simpa using access_end_le_bufSize hp ha halign)⟩
  softReset s h := by
    obtain ⟨hparams, hbuf, -, hlim, -⟩ := h
    exact ⟨hparams, hbuf, rfl, hlim, by simp⟩
  powerOnReset _ h := ⟨h.1, rfl, rfl, by simp, by simp⟩
  completeError s e _ h := by
    obtain ⟨hparams, hbuf, -, hlim, -⟩ := h
    exact ⟨hparams, hbuf, rfl, hlim, by simp⟩
  completeOk _ _ _ hout h := ⟨h.1, memoryWellFormed_completeOk h.2 hout⟩

/-- Settles O27: every operation of a step keeps the parameters and the memories well formed. -/
theorem everyStepKeepsMemoryWellFormed : Obligations.EveryStepKeepsMemoryWellFormed :=
  fun _ _ hp hs h => (memoryFits_kept hp).step ⟨rfl, hs⟩ h

end Sys2Proof.Machine

/-! PROOFS. The registers as the host reads and writes them (10_state.md R20-R40): the bits of STATUS, CTRL,
ERRACC and SCAN_CFG, the register at each offset, and the registers after a power-on. -/

namespace Sys2Proof.Machine

open Sys2Proof

/-! ## Accesses of the register aperture -/

/-- An aligned 32-bit read of the aperture returns the register at its offset (R63, R67). -/
theorem hostRead_reg (s : State) {off : Nat} (hlt : off < 0x1000) (halign : off % 4 = 0) :
    hostRead s .w32 off = .next (s.returned (s.regRead off)) := by
  simp [hostRead, busCheck_reg.mpr ⟨hlt, rfl, rfl, halign⟩]

/-- An aligned 32-bit write of the aperture writes the register at its offset (R63). -/
theorem hostWrite_reg (s : State) {off : Nat} (v : Word) (hlt : off < 0x1000) (halign : off % 4 = 0) :
    hostWrite s .w32 off v = .next (s.regWrite off v) := by
  simp [hostWrite, busCheck_reg.mpr ⟨hlt, rfl, rfl, halign⟩]

/-- A write of CTRL with SRST = 1 is a soft reset (R22). -/
theorem State.writeCtrl_of_srst (s : State) {v : Word} (h : v.getLsbD 2 = true) :
    s.writeCtrl v = s.softReset := if_pos h

/-- A write of CTRL with SRST = 0 sets IE and may request an abort (R22, R107). -/
theorem State.writeCtrl_of_not_srst (s : State) {v : Word} (h : v.getLsbD 2 = false) :
    s.writeCtrl v =
      { s with ie := v.getLsbD 0, abortReq := s.abortReq || (s.busy && v.getLsbD 1) } :=
  if_neg (by rw [h]; exact Bool.false_ne_true)

/-- A CMD write leaves ERRACC alone, accepted or dropped (R24, R25). -/
@[simp] theorem State.writeCmd_erracc (s : State) (w : Word) : (s.writeCmd w).erracc = s.erracc := by
  unfold State.writeCmd
  split
  · rfl
  · rfl

/-! ## Bits of STATUS, CTRL and ERRACC -/

/-- A flag at bit `n` is that bit and no other. -/
theorem flagBit_getLsbD (b : Bool) {n : Nat} (hn : n < 32) (k : Nat) :
    (flagBit b n).getLsbD k = (decide (k = n) && b) := by
  cases b with
  | false => simp [flagBit]
  | true =>
    by_cases hk : k = n
    · subst hk; simp [flagBit, hn]
    · by_cases hlt : k < n
      · simp [flagBit, hk, hlt]
      · simp [flagBit, hk, hlt, show k - n ≠ 0 by omega]

/-- A byte field at bit `n` of a register is that byte from bit `n` on. -/
theorem byteField_getLsbD (b : Byte) {n : Nat} (hn : n ≤ 24) (k : Nat) :
    (b.setWidth 32 <<< n).getLsbD k = (decide (n ≤ k) && b.getLsbD (k - n)) := by
  rw [BitVec.getLsbD_shiftLeft, BitVec.getLsbD_setWidth]
  by_cases hlo : n ≤ k
  · by_cases hhi : k < n + 8
    · simp [hlo, show k < 32 by omega, show k - n < 32 by omega]
    · simp [BitVec.getLsbD_of_ge b (k - n) (by omega)]
  · simp [hlo, show k < n by omega]

/-- CTRL reads IE in bit 0 and 0 elsewhere (R22). -/
theorem State.ctrlWord_getLsbD (s : State) (k : Nat) :
    s.ctrlWord.getLsbD k = (decide (k = 0) && s.ie) :=
  flagBit_getLsbD s.ie (by decide) k

/-- STATUS reads its flags in bits 0 to 3 and ERRCODE in bits [15:8] (R23). -/
theorem State.statusWord_getLsbD (s : State) (k : Nat) :
    s.statusWord.getLsbD k =
      if k = 0 then s.busy else if k = 1 then s.done else if k = 2 then s.err
      else if k = 3 then s.werr else (decide (8 ≤ k) && s.errcode.getLsbD (k - 8)) := by
  simp only [State.statusWord, BitVec.getLsbD_or, flagBit_getLsbD, byteField_getLsbD, Nat.reduceLT,
    Nat.reduceLeDiff]
  split_ifs <;> simp [*]

/-- ERRACC reads its bits 1 to 9 and 0 elsewhere (R24). -/
theorem State.erraccWord_getLsbD (s : State) (k : Nat) :
    s.erraccWord.getLsbD k = (decide (1 ≤ k) && decide (k ≤ 9) && s.erracc.getLsbD k) := by
  have hbits : ∀ j < 32, erraccBits.getLsbD j = (decide (1 ≤ j) && decide (j ≤ 9)) := by decide
  rw [State.erraccWord, BitVec.getLsbD_and, Bool.and_comm]
  by_cases hk : k < 32
  · rw [hbits k hk]
  · simp [BitVec.getLsbD_of_ge s.erracc k (by omega)]

/-! ## Fields of SCAN_CFG -/

/-- ALIGN is two bits wide (R33). -/
theorem Align.code_getLsbD_of_ge (a : Align) {k : Nat} (hk : 2 ≤ k) : a.code.getLsbD k = false := by
  have hcode : a.code.toNat < 2 ^ 2 := by cases a <;> decide
  exact Nat.testBit_eq_false_of_lt (hcode.trans_le (Nat.pow_le_pow_right (by decide) hk))

/-- SCAN_CFG.PV, 0 when PV_SET = 0 (R33). -/
def Scan.pvByte (c : Scan) : Byte := (c.pv.map Version.byte).getD 0#8

/-- SCAN_CFG.REF_VER, 0 when REF_VALID = 0 (R33). -/
def Scan.refVerByte (c : Scan) : Byte := (c.ref.map (fun r => r.ver.byte)).getD 0#8

/-- Bit `k` of SCAN_CFG, as R33 places the fields. -/
theorem Scan.cfgWord_getLsbD (c : Scan) (k : Nat) :
    c.cfgWord.getLsbD k =
      (c.align.code.getLsbD k || (decide (k = 2) && c.strict) || (decide (k = 3) && c.pv.isSome) ||
        (decide (k = 4) && c.uid.isSome) || (decide (k = 5) && c.toSet) ||
        (decide (8 ≤ k) && c.pvByte.getLsbD (k - 8)) || (decide (k = 16) && c.refValid) ||
        (decide (k = 17) && c.exhausted) || (decide (24 ≤ k) && c.refVerByte.getLsbD (k - 24))) := by
  simp only [Scan.cfgWord, BitVec.getLsbD_or, flagBit_getLsbD, byteField_getLsbD, Nat.reduceLT,
    Nat.reduceLeDiff, Scan.pvByte, Scan.refVerByte]

section

variable (c : Scan)

/-- SCAN_CFG.ALIGN (R33). -/
theorem Scan.cfgWord_align : c.cfgWord.extractLsb' 0 2 = c.align.code.setWidth 2 :=
  BitVec.eq_of_getLsbD_eq fun i hi => by
    have hlow : ∀ n, 2 ≤ n → i ≠ n := by omega
    simp [Scan.cfgWord_getLsbD, hi, hlow, show ¬ 8 ≤ i by omega, show ¬ 24 ≤ i by omega]

/-- SCAN_CFG.PV (R33). -/
theorem Scan.cfgWord_pv : c.cfgWord.extractLsb' 8 8 = c.pvByte :=
  BitVec.eq_of_getLsbD_eq fun i hi => by
    simp [Scan.cfgWord_getLsbD, hi, c.align.code_getLsbD_of_ge (show 2 ≤ 8 + i by omega),
      show ∀ n, n < 8 → 8 + i ≠ n by omega, show 8 + i ≠ 16 by omega, show 8 + i ≠ 17 by omega,
      show ¬ 24 ≤ 8 + i by omega]

/-- SCAN_CFG.REF_VER (R33). -/
theorem Scan.cfgWord_refVer : c.cfgWord.extractLsb' 24 8 = c.refVerByte :=
  BitVec.eq_of_getLsbD_eq fun i hi => by
    simp [Scan.cfgWord_getLsbD, hi, c.align.code_getLsbD_of_ge (show 2 ≤ 24 + i by omega),
      show ∀ n, n < 24 → 24 + i ≠ n by omega, c.pvByte.getLsbD_of_ge (24 + i - 8) (by omega)]

/-- The bits of SCAN_CFG in [7:6] and [23:18] are 0. -/
theorem Scan.cfgWord_getLsbD_reserved {k : Nat} (hk : 6 ≤ k ∧ k < 8 ∨ 18 ≤ k ∧ k < 24) :
    c.cfgWord.getLsbD k = false := by
  have hpv : (decide (8 ≤ k) && c.pvByte.getLsbD (k - 8)) = false := by
    rcases hk with hk | hk
    · simp [show ¬ 8 ≤ k by omega]
    · simp [c.pvByte.getLsbD_of_ge (k - 8) (by omega)]
  rw [Scan.cfgWord_getLsbD, hpv, c.align.code_getLsbD_of_ge (by omega)]
  simp [show k ≠ 2 by omega, show k ≠ 3 by omega, show k ≠ 4 by omega, show k ≠ 5 by omega,
    show k ≠ 16 by omega, show k ≠ 17 by omega, show ¬ 24 ≤ k by omega]

/-- SCAN_CFG[7:6] and SCAN_CFG[23:18] are reserved and read 0 (R33). -/
theorem Scan.cfgWord_reserved :
    c.cfgWord.extractLsb' 6 2 = 0 ∧ c.cfgWord.extractLsb' 18 6 = 0 :=
  ⟨BitVec.eq_of_getLsbD_eq fun i hi => by
      simp [hi, c.cfgWord_getLsbD_reserved (k := 6 + i) (by omega)],
    BitVec.eq_of_getLsbD_eq fun i hi => by
      simp [hi, c.cfgWord_getLsbD_reserved (k := 18 + i) (by omega)]⟩

/-- The flags of SCAN_CFG stand at their bits (R33): STRICT 2, PV_SET 3, UID_SET 4, TO_SET 5, REF_VALID 16,
EXHAUSTED 17. -/
theorem Scan.cfgWord_flags :
    c.cfgWord.getLsbD 2 = c.strict ∧ c.cfgWord.getLsbD 3 = c.pv.isSome ∧
    c.cfgWord.getLsbD 4 = c.uid.isSome ∧ c.cfgWord.getLsbD 5 = c.toSet ∧
    c.cfgWord.getLsbD 16 = c.refValid ∧ c.cfgWord.getLsbD 17 = c.exhausted := by
  have halign : ∀ k, 2 ≤ k → c.align.code.getLsbD k = false := fun k => c.align.code_getLsbD_of_ge
  have hpv : ∀ k, 8 ≤ k → c.pvByte.getLsbD k = false := c.pvByte.getLsbD_of_ge
  simp only [Scan.cfgWord_getLsbD, halign, hpv, Nat.reduceLeDiff, Nat.reduceSub]
  simp

end

/-! ## The register at each offset -/

section

variable (s : State)

/-- The registers of the ARG, RES and RS_MASK files stand at their offsets (R29-R31). -/
theorem State.regRead_files (k : Fin 8) :
    s.regRead (0x020 + 4 * k.val) = s.arg[k] ∧ s.regRead (0x040 + 4 * k.val) = s.res[k] ∧
      s.regRead (0x060 + 4 * k.val) = s.rsMask[k] := by
  fin_cases k <;> exact ⟨rfl, rfl, rfl⟩

/-- The offsets past the scanner registers are reserved and read 0 (R35). -/
theorem State.regRead_reserved {off : Nat} (h : 0x0A8 ≤ off) : s.regRead off = 0 := by
  have hne : ∀ n, n < 0x0A8 → off ≠ n := by omega
  have hge : ∀ n, n ≤ 0x0A8 → ¬ off < n := by omega
  simp [State.regRead, hne, hge]

/-- The registers of a scan that holds the reference `r` (R33, R34). -/
theorem State.regRead_of_ref {r : ScanRef} (h : s.scan.ref = some r) :
    s.regRead 0x098 = r.off ∧ s.regRead 0x09C = r.uid ∧
      (s.regRead 0x094).extractLsb' 24 8 = r.ver.byte ∧ (s.regRead 0x094).getLsbD 16 = true := by
  obtain ⟨-, -, -, -, hvalid, -⟩ := s.scan.cfgWord_flags
  refine ⟨?_, ?_, s.scan.cfgWord_refVer.trans ?_, hvalid.trans ?_⟩
  · exact (show s.scan.refOffWord = r.off by simp [Scan.refOffWord, h])
  · exact (show s.scan.refUidWord = r.uid by simp [Scan.refUidWord, h])
  · simp [Scan.refVerByte, h]
  · simp [Scan.refValid, h]

/-- The registers of a scan that holds no reference (R33, R34). -/
theorem State.regRead_of_no_ref (h : s.scan.ref = none) :
    s.regRead 0x098 = 0 ∧ s.regRead 0x09C = 0 ∧
      (s.regRead 0x094).extractLsb' 24 8 = 0 ∧ (s.regRead 0x094).getLsbD 16 = false := by
  obtain ⟨-, -, -, -, hvalid, -⟩ := s.scan.cfgWord_flags
  refine ⟨?_, ?_, s.scan.cfgWord_refVer.trans ?_, hvalid.trans ?_⟩
  · exact (show s.scan.refOffWord = 0 by simp [Scan.refOffWord, h])
  · exact (show s.scan.refUidWord = 0 by simp [Scan.refUidWord, h])
  · simp [Scan.refVerByte, h]
  · simp [Scan.refValid, h]

/-- SCAN_CFG of a scan with the filter version `v` (R33). -/
theorem State.regRead_of_pv {v : Version} (h : s.scan.pv = some v) :
    (s.regRead 0x094).extractLsb' 8 8 = v.byte ∧ (s.regRead 0x094).getLsbD 3 = true := by
  obtain ⟨-, hset, -⟩ := s.scan.cfgWord_flags
  exact ⟨s.scan.cfgWord_pv.trans (by simp [Scan.pvByte, h]), hset.trans (by simp [h])⟩

/-- SCAN_CFG of a scan without a filter version (R33). -/
theorem State.regRead_of_no_pv (h : s.scan.pv = none) :
    (s.regRead 0x094).extractLsb' 8 8 = 0 ∧ (s.regRead 0x094).getLsbD 3 = false := by
  obtain ⟨-, hset, -⟩ := s.scan.cfgWord_flags
  exact ⟨s.scan.cfgWord_pv.trans (by simp [Scan.pvByte, h]), hset.trans (by simp [h])⟩

end

/-- Settles O20: each register stands at its offset, and the fields of CTRL, STATUS, ERRACC and SCAN_CFG at
their bits. -/
theorem registerMapReads : Obligations.RegisterMapReads := by
  intro s
  obtain ⟨hstrict, -, huid, hto, -, hexhausted⟩ := s.scan.cfgWord_flags
  obtain ⟨hreserved6, hreserved18⟩ := s.scan.cfgWord_reserved
  exact ⟨fun _ => hostRead_reg s, s.ctrlWord_getLsbD, s.statusWord_getLsbD, s.erraccWord_getLsbD,
    rfl, rfl, rfl, rfl, rfl, s.regRead_files, rfl, rfl, rfl, rfl, rfl, rfl,
    fun _ => s.regRead_of_ref, s.regRead_of_no_ref, fun _ => s.regRead_of_pv, s.regRead_of_no_pv,
    s.scan.cfgWord_align, hstrict, huid, hto, hexhausted, hreserved6, hreserved18, rfl,
    fun _ => s.regRead_reserved⟩

/-- Settles O18: CTRL and STATUS are written and read by their bits. -/
theorem ctrlAndStatusActByTheirBits : Obligations.CtrlAndStatusActByTheirBits := by
  intro s v
  have hctrl : hostWrite s .w32 0x004 v = .next (s.writeCtrl v) :=
    hostWrite_reg s v (by decide) (by decide)
  have hstatus : hostWrite s .w32 0x008 v = .next (s.writeStatus v) :=
    hostWrite_reg s v (by decide) (by decide)
  refine ⟨fun hsrst => ?_, fun hsrst => ?_, s.ctrlWord_getLsbD, hstatus, s.statusWord_getLsbD⟩
  · rw [hctrl, s.writeCtrl_of_srst hsrst]
  · rw [hctrl, s.writeCtrl_of_not_srst hsrst]

/-! ## ERRACC over completions -/

/-- An error's completion sets the bit of its code (R24). -/
theorem erraccSet_getLsbD (e : Word) (k : ErrKind) (j : Nat) :
    (erraccSet e k).getLsbD j = (e.getLsbD j || decide (k.code.toNat = j)) := by
  have hcode : k.code.toNat < 32 := by cases k <;> decide
  have hbit := flagBit_getLsbD true hcode j
  rw [Bool.and_true, decide_eq_decide.mpr eq_comm] at hbit
  rw [erraccSet, BitVec.getLsbD_or]
  exact congrArg (e.getLsbD j || ·) hbit

/-- A write of ERRACC clears the bits written as 1 (R24). -/
theorem erraccW1C_getLsbD (e v : Word) (j : Nat) :
    (erraccW1C e v).getLsbD j = (e.getLsbD j && !v.getLsbD j) := by
  rw [erraccW1C, BitVec.getLsbD_and, BitVec.getLsbD_not]
  by_cases hj : j < 32
  · simp [hj]
  · simp [BitVec.getLsbD_of_ge e j (by omega)]

/-- ERRACC after a completion: the bit of the error code is set, where it ends in an error, and no other. -/
theorem erracc_finish_getLsbD (s : State) (r : Except CmdError Staged) (j : Nat) :
    (s.finish r).erracc.getLsbD j =
      (s.erracc.getLsbD j || ((s.finish r).err && decide ((s.finish r).errcode.toNat = j))) := by
  cases r with
  | ok st => simp
  | error e => exact erraccSet_getLsbD s.erracc e.kind j

/-- The completion step sets the bit of its error code in ERRACC and no other, and never bit 6 (R24, R267). -/
theorem erracc_step_of_due {s t : State} (hdue : s.due = true) (h : step s = .next t) :
    t.erracc.getLsbD 6 = s.erracc.getLsbD 6 ∧
      ∀ j, t.erracc.getLsbD j = (s.erracc.getLsbD j || (t.err && decide (t.errcode.toNat = j))) := by
  rcases step_of_due hdue h with ⟨e, he, rfl⟩ | ⟨i, st, -, rfl⟩
  · obtain ⟨-, -, hne⟩ := ErrKind.code_range he
    have hsix : e.kind.code.toNat ≠ 6 := fun hcode => hne (BitVec.eq_of_toNat_eq hcode)
    refine ⟨?_, erracc_finish_getLsbD s (.error e)⟩
    rw [State.completeError_erracc, erraccSet_getLsbD, decide_eq_false hsix, Bool.or_false]
  · exact ⟨rfl, erracc_finish_getLsbD s (.ok st)⟩

/-- Settles O11: a completion sets the bit of its error code, a CMD write none, and an ERRACC write clears the
bits written as 1. -/
theorem erraccAccumulates : Obligations.ErraccAccumulates := by
  refine ⟨fun i s t h k _ => ?_, fun s t hbusy hdelay h => ?_, fun s w => s.writeCmd_erracc w,
    fun s v => ?_, fun s k hk => ?_⟩
  · rw [exec_eq_finish, Host.Outcome.next.injEq] at h
    subst h
    exact erracc_finish_getLsbD s _ k
  · obtain ⟨hsix, hbits⟩ := erracc_step_of_due (State.due_eq_true.mpr ⟨hbusy, hdelay⟩) h
    exact ⟨hsix, fun k _ => hbits k⟩
  · exact ⟨s.writeErracc v, hostWrite_reg s v (by decide) (by decide), erraccW1C_getLsbD s.erracc v⟩
  · refine (s.erraccWord_getLsbD k).trans ?_
    rcases hk with rfl | hk
    · rfl
    · simp [show ¬ k ≤ 9 by omega]

/-! ## Reset values -/

/-- A register file of zeros reads 0. -/
@[simp] theorem fileGet_replicate_zero (k : Nat) : fileGet (Vector.replicate 8 0#32) k = 0#32 := by
  by_cases hk : k < 8
  · simp [fileGet, hk]
  · simp [fileGet, hk]

/-- Every register reads its reset value of R20 after reset (R40). -/
theorem State.regRead_reset (off : Nat) : State.reset.regRead off =
    if off = 0x000 then 0x53427801#32 else if off = 0x01C then 0x00200000#32 else 0#32 := by
  by_cases hid : off = 0x000
  · subst hid; rfl
  by_cases hsize : off = 0x01C
  · subst hsize; rfl
  have hflags : State.reset.ctrlWord = 0#32 ∧ State.reset.statusWord = 0#32 ∧
      State.reset.erraccWord = 0#32 ∧ State.reset.scan.cfgWord = 0#32 := by decide
  obtain ⟨hctrl, hstatus, herracc, hcfg⟩ := hflags
  simp only [State.regRead, if_neg hid, if_neg hsize, hctrl, hstatus, herracc, hcfg]
  simp [State.reset, Scan.reset, Scan.refOffWord, Scan.refUidWord, Scan.uidWord]

/-- No register but BUFSZ reads a parameter (R28). -/
theorem State.regRead_params (s : State) (p : Params) {off : Nat} (h : off ≠ 0x01C) :
    State.regRead { s with params := p } off = s.regRead off := by
  simp only [State.regRead, if_neg h]
  rfl

/-- Every register but BUFSZ reads its reset value after a power-on (R290). -/
theorem State.regRead_powerOnReset (s : State) {off : Nat} (h : off ≠ 0x01C) :
    s.powerOnReset.regRead off = State.reset.regRead off :=
  State.reset.regRead_params s.params h

/-- Settles O21: the registers, IRQ, the hidden state and BUF after reset and after a power-on. -/
theorem powerOnResetValues : Obligations.PowerOnResetValues :=
  ⟨fun off _ _ => State.regRead_reset off, rfl, ⟨rfl, rfl, rfl, rfl⟩, rfl, fun s =>
    ⟨s.powerOnReset, rfl, fun _ => s.regRead_powerOnReset, rfl, rfl, ⟨rfl, rfl, rfl, rfl⟩, rfl, rfl,
      fun _ => rfl⟩⟩

end Sys2Proof.Machine

/-! PROOFS. The frame of a command's completion (20_memory.md R60, 40_control.md R102, R103), and a host write of
BUF while a command is in flight (R66, R68). -/

namespace Sys2Proof.Machine

open Sys2Proof

/-! ## What a completion leaves alone -/

/-- No completion changes the host's side of the state (R102, R103). -/
theorem sameHostSide_finish (s : State) (r : Except CmdError Staged) : SameHostSide s (s.finish r) := by
  cases r with
  | ok st => exact ⟨rfl, rfl, rfl, rfl, rfl, rfl, rfl, rfl, rfl, rfl⟩
  | error e => exact ⟨rfl, rfl, rfl, rfl, rfl, rfl, rfl, rfl, rfl, rfl⟩

/-- A completion in which nothing is staged for BUF leaves every byte as it reads. -/
theorem sameBuf_finish {s : State} {r : Except CmdError Staged}
    (h : ∀ st, r = .ok st → st.writes = []) : SameBuf s (s.finish r) := by
  intro a
  cases r with
  | ok st => exact bufByte_completeOk_outside (by simp [h st rfl])
  | error e => rfl

/-- A completion that reports an error is an error completion (R102, R103). -/
theorem eq_error_of_finish_err {s : State} {r : Except CmdError Staged} (h : (s.finish r).err = true) :
    ∃ e, r = .error e := by
  cases r with
  | ok st => simp at h
  | error e => exact ⟨e, rfl⟩

/-- Settles O13: a command's completion keeps the host's side; BUF changes only by what is staged, and an error
completion applies nothing that was staged. -/
theorem commandFrame : Obligations.CommandFrame := by
  intro i s t h
  rw [exec_eq_finish, Host.Outcome.next.injEq] at h
  subst h
  refine ⟨sameHostSide_finish s _, fun hi => sameBuf_finish fun _ hst => outcomeOf_writes_nil hst hi,
    fun herr => ?_⟩
  obtain ⟨e, he⟩ := eq_error_of_finish_err herr
  rw [he]
  exact ⟨fun _ => rfl, rfl, rfl⟩

/-! ## What a command reads -/

/-- The inputs of a command (R101): LATCH_ARG, SNAP, RS_MASK, the scanner registers, the parameters and the
power-on that names the free bytes; every other field at its reset value. -/
def State.inputs (s : State) : State :=
  { State.reset with params := s.params, powerOns := s.powerOns, latchArg := s.latchArg, snap := s.snap,
                     rsMask := s.rsMask, scan := s.scan }

/-- The candidate loop of SCAN_NEXT reads the inputs only. -/
theorem scanLoop_inputs (s : State) (fuel p : Nat) (errs : Word) :
    scanLoop s.inputs fuel p errs = scanLoop s fuel p errs := by
  induction fuel generalizing p errs with
  | zero => rfl
  | succ fuel ih =>
    simp only [scanLoop, ih]
    rfl

/-- The rule of a command reads its inputs only (R101, R108). -/
theorem outcomeOf_inputs (i : Instr) (s : State) : outcomeOf i s.inputs = outcomeOf i s := by
  cases i
  case scanNext =>
    simp only [outcomeOf, cmdScanNext, scanLoop_inputs]
    rfl
  all_goals rfl

/-- A host write of BUF is none of a command's inputs: the command reads its snapshot (R296). -/
theorem State.inputs_bufWrite (s : State) (a n : Nat) (v : Word) : (s.bufWrite a n v).inputs = s.inputs := rfl

/-- A host write of BUF does not change the outcome of the command in flight. -/
theorem outcomeOf_bufWrite (i : Instr) (s : State) (a n : Nat) (v : Word) :
    outcomeOf i (s.bufWrite a n v) = outcomeOf i s := by
  rw [← outcomeOf_inputs, State.inputs_bufWrite, outcomeOf_inputs]

/-! ## Staged writes and a host write in either order -/

/-- What a byte reads as after a store depends on the memory at that byte alone. -/
theorem byteAt_store_congr {epoch : Nat} {m m' : Memory} {x : Nat} (h : byteAt epoch m x = byteAt epoch m' x)
    (a : Nat) (bs : List Byte) :
    byteAt epoch (Memory.store m a bs) x = byteAt epoch (Memory.store m' a bs) x := by
  by_cases hx : x < a ∨ a + bs.length ≤ x
  · rw [byteAt_store_outside hx, byteAt_store_outside hx, h]
  · rw [byteAt_store_inside (by omega) (by omega), byteAt_store_inside (by omega) (by omega)]

/-- What a byte reads as after staged writes depends on the memory at that byte alone. -/
theorem byteAt_applyWrites_congr {epoch : Nat} {m m' : Memory} {x : Nat}
    (h : byteAt epoch m x = byteAt epoch m' x) (ws : List (Nat × List Byte)) :
    byteAt epoch (applyWrites m ws) x = byteAt epoch (applyWrites m' ws) x := by
  induction ws generalizing m m' with
  | nil => exact h
  | cons w ws ih => exact ih (byteAt_store_congr h w.1 w.2)

/-- Staged writes and a store that none of them meets reach the same bytes in either order. -/
theorem byteAt_applyWrites_store_comm {epoch : Nat} {m : Memory} {ws : List (Nat × List Byte)} {a : Nat}
    {bs : List Byte} (h : ∀ w ∈ ws, a + bs.length ≤ w.1 ∨ w.1 + w.2.length ≤ a) (x : Nat) :
    byteAt epoch (applyWrites (Memory.store m a bs) ws) x =
      byteAt epoch (Memory.store (applyWrites m ws) a bs) x := by
  by_cases hx : x < a ∨ a + bs.length ≤ x
  · rw [byteAt_store_outside hx]
    exact byteAt_applyWrites_congr (byteAt_store_outside hx) ws
  · have hws : ∀ w ∈ ws, x < w.1 ∨ w.1 + w.2.length ≤ x := fun w hw => by
      have := h w hw
      omega
    rw [byteAt_applyWrites_outside hws]
    exact byteAt_store_congr (byteAt_applyWrites_outside hws).symm a bs

/-- Bytes that meet none of the regions a command writes meet none of its staged writes. -/
theorem staged_apart_of_not_meets {i : Instr} {s : State} {st : Staged} {a n : Nat}
    (hst : outcomeOf i s = .ok st) (h : ∀ r ∈ writeRegions i s, meets a n r = false) :
    ∀ w ∈ st.writes, a + n ≤ w.1 ∨ w.1 + w.2.length ≤ a := by
  intro w hw
  have hmem : (w.1, w.2.length) ∈ writeRegions i s := by
    simpa only [writeRegions, hst] using List.mem_map_of_mem hw
  have hmeets := h _ hmem
  simp only [meets, Bool.and_eq_false_iff, decide_eq_false_iff_not, Nat.not_lt] at hmeets
  exact hmeets.symm

/-- Settles O23: the host's write leaves the command's outcome alone, and the staged writes, which it does not
meet, commute with it. -/
theorem hostWritesCommuteWithCompletion : Obligations.HostWritesCommuteWithCompletion := by
  intro i s t a n v hapart h
  rw [exec_eq_finish, Host.Outcome.next.injEq] at h
  subst h
  refine ⟨(s.bufWrite a n v).finish (outcomeOf i s), by rw [exec_eq_finish, outcomeOf_bufWrite], ?_⟩
  cases hout : outcomeOf i s with
  | error e => exact ⟨fun _ => rfl, rfl, rfl, rfl, rfl, rfl⟩
  | ok st =>
    have hst := staged_apart_of_not_meets hout hapart
    exact ⟨byteAt_applyWrites_store_comm (by simpa using hst), rfl, rfl, rfl, rfl, rfl⟩

end Sys2Proof.Machine

/-! PROOFS. Host accesses (20_memory.md R61-R63, R67): which take place and which are refused, and the big-endian
lanes of BUF. -/

namespace Sys2Proof.Machine

open Sys2Proof

/-! ## Which accesses take place -/

/-- The accesses of R63: an aligned 32-bit access of the register aperture, or a naturally aligned access of the
BUF aperture. -/
def LegalAccess (p : Params) (w : Width) (off : Nat) : Prop :=
  (off < 0x1000 ∧ w = .w32 ∧ off % 4 = 0) ∨
    (p.bufOffset ≤ off ∧ off < p.bufOffset + p.bufSize ∧ off % w.bytes = 0)

/-- The bus check passes exactly the legal accesses; the apertures are disjoint by R8. -/
theorem busCheck_hit_iff {p : Params} (hp : p.Valid) {w : Width} {off : Nat} :
    (∃ tg, busCheck p w off = .hit tg) ↔ LegalAccess p w off := by
  obtain ⟨-, -, -, -, hoff⟩ := hp
  constructor
  · rintro ⟨r | a, h⟩
    · obtain ⟨hlt, -, hw, halign⟩ := busCheck_reg.mp h
      exact .inl ⟨hlt, hw, halign⟩
    · obtain ⟨-, rfl, ha, halign⟩ := busCheck_buf.mp h
      exact .inr ⟨by omega, by omega, halign⟩
  · rintro (⟨hlt, hw, halign⟩ | ⟨hlo, hhi, halign⟩)
    · exact ⟨.reg off, busCheck_reg.mpr ⟨hlt, rfl, hw, halign⟩⟩
    · exact ⟨.buf (off - p.bufOffset), busCheck_buf.mpr
        ⟨by simp only [apertureSize]; omega, by omega, by omega, halign⟩⟩

/-- An offset has no target exactly outside both apertures (R61). -/
theorem targetOf_eq_none_iff {p : Params} {off : Nat} :
    targetOf p off = none ↔ 0x1000 ≤ off ∧ (off < p.bufOffset ∨ p.bufOffset + p.bufSize ≤ off) := by
  unfold targetOf apertureSize
  split_ifs <;> simp <;> omega

/-- The bus check answers so exactly where an offset has no target. -/
theorem busCheck_noTarget_iff {p : Params} {w : Width} {off : Nat} :
    busCheck p w off = .noTarget ↔ targetOf p off = none := by
  unfold busCheck
  cases targetOf p off with
  | none => simp
  | some tg =>
    cases tg with
    | reg r => simp only [reduceCtorEq, iff_false]; split_ifs <;> simp
    | buf a => simp only [reduceCtorEq, iff_false]; split_ifs <;> simp

/-! ## What an access does -/

/-- What a read of a target returns (R62, R67). -/
def State.targetRead (s : State) (w : Width) : Target → Word
  | .reg r => s.regRead r
  | .buf a => s.bufRead a w.bytes

/-- The state after a write of a target (R62, R67). -/
def State.targetWrite (s : State) (w : Width) (v : Word) : Target → State
  | .reg r => s.regWrite r v
  | .buf a => s.bufWrite a w.bytes v

/-- The outcome of an access by its bus check: the access takes place and leads to `f` of its target, or it is
refused (R63). -/
def BusCheck.outcome (f : Target → State) : BusCheck → Host.Outcome State Fault Refusal
  | .hit tg => .next (f tg)
  | .noTarget => .refused .busNoTarget
  | .badWidth => .refused .busWidth
  | .misaligned => .refused .busMisaligned

section

variable {f : Target → State} {c : BusCheck} {s t : State} {w : Width} {off : Nat} {v : Word}

/-- A host read returns the value of the target that its bus check hits. -/
theorem hostRead_eq_outcome (s : State) (w : Width) (off : Nat) :
    hostRead s w off = (busCheck s.params w off).outcome (fun tg => s.returned (s.targetRead w tg)) := by
  unfold hostRead
  rcases busCheck s.params w off with (_ | _) | _ | _ | _ <;> rfl

/-- A host write writes the target that its bus check hits. -/
theorem hostWrite_eq_outcome (s : State) (w : Width) (off : Nat) (v : Word) :
    hostWrite s w off v = (busCheck s.params w off).outcome (s.targetWrite w v) := by
  unfold hostWrite
  rcases busCheck s.params w off with (_ | _) | _ | _ | _ <;> rfl

/-- An access takes place exactly where its bus check hits a target. -/
theorem BusCheck.outcome_next_iff : c.outcome f = .next t ↔ ∃ tg, c = .hit tg ∧ f tg = t := by
  cases c <;> simp [BusCheck.outcome]

/-- An access is refused for want of a target exactly where its bus check finds none. -/
theorem BusCheck.outcome_noTarget_iff : c.outcome f = .refused .busNoTarget ↔ c = .noTarget := by
  cases c <;> simp [BusCheck.outcome]

/-- Whatever an access does to its target, it takes place exactly when it is legal (R63). -/
theorem BusCheck.outcome_takes_place_iff {p : Params} (hp : p.Valid) :
    (∃ t, (busCheck p w off).outcome f = .next t) ↔ LegalAccess p w off := by
  rw [← busCheck_hit_iff hp]
  simp [BusCheck.outcome_next_iff]

/-- Whatever an access does to its target, it has none exactly outside both apertures (R61). -/
theorem BusCheck.outcome_refused_iff {p : Params} :
    (busCheck p w off).outcome f = .refused .busNoTarget ↔
      0x1000 ≤ off ∧ (off < p.bufOffset ∨ p.bufOffset + p.bufSize ≤ off) :=
  outcome_noTarget_iff.trans (busCheck_noTarget_iff.trans targetOf_eq_none_iff)

/-- No target reads the value that the bus returned. -/
theorem State.targetRead_returned (s : State) (w : Width) (v : Word) (tg : Target) :
    (s.returned v).targetRead w tg = s.targetRead w tg := by
  cases tg with
  | reg r => rfl
  | buf a => rfl

/-- A host read changes the returned value only, and the same read returns it again (R67). -/
theorem hostRead_idempotent (h : hostRead s w off = .next t) :
    t = s.returned t.busData ∧ hostRead t w off = .next t := by
  rw [hostRead_eq_outcome] at h ⊢
  obtain ⟨tg, htg, rfl⟩ := BusCheck.outcome_next_iff.mp h
  exact ⟨rfl, BusCheck.outcome_next_iff.mpr ⟨tg, htg, by rw [State.targetRead_returned]; rfl⟩⟩

end

/-- Settles O16: the bus check passes the legal accesses, and a read that passes it only returns a value. -/
theorem hostAccessesTakePlaceWhenLegal : Obligations.HostAccessesTakePlaceWhenLegal := by
  intro s w off v hp legal
  refine ⟨?_, ?_, ?_, ?_, fun _ => hostRead_idempotent⟩
  · rw [hostRead_eq_outcome]
    exact BusCheck.outcome_takes_place_iff hp
  · rw [hostWrite_eq_outcome]
    exact BusCheck.outcome_takes_place_iff hp
  · rw [hostWrite_eq_outcome]
    exact BusCheck.outcome_refused_iff
  · rw [hostRead_eq_outcome, hostWrite_eq_outcome]
    exact BusCheck.outcome_refused_iff.trans BusCheck.outcome_refused_iff.symm

/-! ## The lanes of BUF -/

/-- Appending a byte below a value is R12's big-endian step. -/
theorem toNat_append_byte {n : Nat} (x : BitVec n) (b : Byte) : (x ++ b).toNat = x.toNat * 256 + b.toNat := by
  rw [BitVec.toNat_append, ← Nat.shiftLeft_add_eq_or_of_lt b.isLt, Nat.shiftLeft_eq]

/-- One byte in the low lane (R62). -/
theorem be32_one (b : Byte) : be32 [b] = 0#24 ++ b := by
  apply BitVec.eq_of_toNat_eq
  rw [toNat_append_byte]
  simp [be32, beNat]
  omega

/-- Two bytes in the low lanes, the first more significant (R62). -/
theorem be32_two (b c : Byte) : be32 [b, c] = 0#16 ++ (b ++ c) := by
  apply BitVec.eq_of_toNat_eq
  simp [be32, beNat, BitVec.toNat_append 0#16, toNat_append_byte]
  omega

/-- Four bytes, the first most significant (R62). -/
theorem be32_four (b c d e : Byte) : be32 [b, c, d, e] = b ++ c ++ d ++ e := by
  apply BitVec.eq_of_toNat_eq
  simp [be32, beNat, toNat_append_byte]
  omega

/-- A byte of the big-endian encoding of a value is a slice of its bits (R12, R62). -/
theorem bytesBE_getD {n : Nat} (v : BitVec n) {k i : Nat} (hi : i < k) :
    (bytesBE v.toNat k).getD i 0#8 = v.extractLsb' (8 * (k - 1 - i)) 8 := by
  apply BitVec.eq_of_toNat_eq
  simp [bytesBE, hi, BitVec.extractLsb'_toNat, Nat.shiftRight_eq_div_pow, Nat.pow_mul]

/-- A byte inside a host write of BUF reads as its lane of the value written (R62). -/
theorem State.bufByte_bufWrite_inside (s : State) (a : Nat) {n i : Nat} (v : Word) (hi : i < n) :
    (s.bufWrite a n v).bufByte (a + i) = v.extractLsb' (8 * (n - 1 - i)) 8 := by
  rw [← bytesBE_getD v hi, State.bufByte, State.bufWrite_buf,
    byteAt_store_inside (by omega) (by simp; omega), Nat.add_sub_cancel_left]

/-- A byte outside a host write of BUF reads as before. -/
theorem State.bufByte_bufWrite_outside (s : State) {a n x : Nat} (v : Word) (h : Outside x a n) :
    (s.bufWrite a n v).bufByte x = s.bufByte x :=
  byteAt_store_outside (by simpa [Outside] using h)

/-- A naturally aligned access of BUF hits the byte at its BUF offset: BUF_OFFSET is aligned by R8. -/
theorem busCheck_buf_of_aligned {p : Params} (hp : p.Valid) {w : Width} {a : Nat} (halign : a % w.bytes = 0)
    (ha : a < p.bufSize) : busCheck p w (p.bufOffset + a) = .hit (.buf a) := by
  obtain ⟨-, -, -, hoff, hlo⟩ := hp
  refine busCheck_buf.mpr ⟨by simp only [apertureSize]; omega, rfl, ha, ?_⟩
  cases w <;> simp only [Width.bytes] at halign ⊢ <;> omega

/-- Settles O17: reads join the bytes of BUF in big-endian order, and writes store the slices of the value so. -/
theorem bufLanesAreBigEndian : Obligations.BufLanesAreBigEndian := by
  refine ⟨fun s a => ⟨be32_four _ _ _ _, be32_two _ _, be32_one _⟩,
    fun s w a hp halign ha => ?_, fun s w a v hp halign ha => ⟨s.bufWrite a w.bytes v, ?_, rfl,
      fun x => s.bufByte_bufWrite_outside v, ?_⟩⟩
  · rw [hostRead_eq_outcome, busCheck_buf_of_aligned hp halign ha]
    rfl
  · rw [hostWrite_eq_outcome, busCheck_buf_of_aligned hp halign ha]
    rfl
  · have lane : ∀ i, i < w.bytes →
        (s.bufWrite a w.bytes v).bufByte (a + i) = v.extractLsb' (8 * (w.bytes - 1 - i)) 8 :=
      fun i => s.bufByte_bufWrite_inside a v
    cases w with
    | w8 => exact lane 0 (by decide)
    | w16 => exact ⟨lane 0 (by decide), lane 1 (by decide)⟩
    | w32 => exact ⟨lane 0 (by decide), lane 1 (by decide), lane 2 (by decide), lane 3 (by decide)⟩

end Sys2Proof.Machine

/-! PROOFS. The command word (30_encoding.md R80-R86, R90): its three fields, the opcode map and its inverse,
the words that decode, and the rows of the opcode table. -/

namespace Sys2Proof

section

variable {w v : Word} {i : Instr} {f op : BitVec 8}

/-! ## The fields of a command word (R80) -/

/-- The command word with the given RSVD, FLAGS and OPCODE fields. -/
def commandWord (r : BitVec 16) (f op : BitVec 8) : Word := r ++ (f ++ op)

/-- The word of a command has RSVD 0 and the command's FLAGS and opcode. -/
theorem encode_eq_commandWord (i : Instr) : encode i = commandWord 0#16 i.flags (opcodeOf i) := rfl

@[simp] theorem rsvdField_commandWord (r : BitVec 16) (f op : BitVec 8) :
    rsvdField (commandWord r f op) = r :=
  BitVec.extractLsb'_append_eq_left

@[simp] theorem flagsField_commandWord (r : BitVec 16) (f op : BitVec 8) :
    flagsField (commandWord r f op) = f := by
  rw [flagsField, commandWord, BitVec.extractLsb'_append_eq_of_add_le (by decide),
    BitVec.extractLsb'_append_eq_left]

@[simp] theorem opcodeField_commandWord (r : BitVec 16) (f op : BitVec 8) :
    opcodeField (commandWord r f op) = op := by
  rw [opcodeField, commandWord, BitVec.extractLsb'_append_eq_of_add_le (by decide),
    BitVec.extractLsb'_append_eq_right]

@[simp] theorem rsvdField_and (w v : Word) : rsvdField (w &&& v) = rsvdField w &&& rsvdField v :=
  BitVec.extractLsb'_and

@[simp] theorem flagsField_and (w v : Word) : flagsField (w &&& v) = flagsField w &&& flagsField v :=
  BitVec.extractLsb'_and

@[simp] theorem opcodeField_and (w v : Word) : opcodeField (w &&& v) = opcodeField w &&& opcodeField v :=
  BitVec.extractLsb'_and

/-- A command word is its three fields, RSVD in the high half. -/
theorem commandWord_fields (w : Word) : commandWord (rsvdField w) (flagsField w) (opcodeField w) = w := by
  rw [commandWord, flagsField, opcodeField,
    BitVec.extractLsb'_append_extractLsb'_eq_extractLsb' (by decide), rsvdField,
    BitVec.extractLsb'_append_extractLsb'_eq_extractLsb' (by decide)]
  exact BitVec.extractLsb'_eq_self

/-- Two command words with the same fields are the same word. -/
theorem word_eq_iff_fields_eq : w = v ↔
    rsvdField w = rsvdField v ∧ flagsField w = flagsField v ∧ opcodeField w = opcodeField v := by
  refine ⟨fun h => h ▸ ⟨rfl, rfl, rfl⟩, fun ⟨hr, hf, ho⟩ => ?_⟩
  rw [← commandWord_fields w, hr, hf, ho, commandWord_fields]

/-- A word is the word of a command exactly when its fields are. -/
theorem encode_eq_iff : encode i = w ↔
    rsvdField w = 0#16 ∧ flagsField w = i.flags ∧ opcodeField w = opcodeOf i := by
  rw [eq_comm, word_eq_iff_fields_eq, encode_eq_commandWord, rsvdField_commandWord,
    flagsField_commandWord, opcodeField_commandWord]

/-! ## The opcode map and its inverse (R83, R85) -/

/-- The command with its FLAGS field set to `f`, where it has one. -/
def Instr.withFlags (i : Instr) (f : BitVec 8) : Instr :=
  match i with
  | .blkCheck _ => .blkCheck f
  | .scanInit _ => .scanInit f
  | j => j

@[simp] theorem Instr.definedFlags_withFlags (i : Instr) (f : BitVec 8) :
    (i.withFlags f).definedFlags = i.definedFlags := by
  cases i <;> rfl

/-- The opcode of a command selects it, with the FLAGS field of the word. -/
theorem lookupOpcode_opcodeOf (i : Instr) (f : BitVec 8) :
    lookupOpcode (opcodeOf i) f = some (i.withFlags f) := by
  cases i <;> rfl

/-- An opcode selects a command exactly when it is the command's opcode, and FLAGS goes into the command. -/
theorem lookupOpcode_eq_some : lookupOpcode op f = some i ↔ opcodeOf i = op ∧ i.withFlags f = i := by
  constructor
  · intro h
    unfold lookupOpcode at h
    split at h <;> rename_i hop <;> cases h
    all_goals exact ⟨(BitVec.eq_of_toNat_eq hop).symm, rfl⟩
  · rintro ⟨rfl, hf⟩
    rw [lookupOpcode_opcodeOf, hf]

/-- The opcode of every command is in the opcode map. -/
theorem opcodeOf_mem_opcodes (i : Instr) : (opcodeOf i).toNat ∈ [0x00, 0x10, 0x11, 0x12, 0x13, 0x14, 0x15,
    0x20, 0x21, 0x22, 0x23, 0x24, 0x30, 0x31, 0x32, 0x33, 0x34, 0x35, 0x40, 0x41, 0x42] := by
  cases i <;> exact List.mem_of_elem_eq_true rfl

/-- Only BLK_CHECK and SCAN_INIT define FLAGS bits (R85). -/
theorem Instr.definedFlags_eq (i : Instr) :
    i.definedFlags = if opcodeOf i = 0x12#8 then 0x03#8 else if opcodeOf i = 0x40#8 then 0x0F#8 else 0#8 := by
  cases i <;> rfl

theorem Instr.wellFormed_iff : i.wellFormed = true ↔ i.flags &&& ~~~ i.definedFlags = 0#8 := by
  simp [Instr.wellFormed]

/-- The FLAGS field of a well-formed command is at most the bits that the command defines. -/
theorem Instr.flags_le_definedFlags (h : i.wellFormed = true) : i.flags.toNat ≤ i.definedFlags.toNat := by
  have hand : i.flags &&& i.definedFlags = i.flags := by
    have hsplit : i.flags &&& i.definedFlags ||| i.flags &&& ~~~ i.definedFlags = i.flags := by
      rw [← BitVec.and_or_distrib_left, BitVec.or_not_self, BitVec.and_allOnes]
    simpa [Instr.wellFormed_iff.mp h] using hsplit
  calc i.flags.toNat = (i.flags &&& i.definedFlags).toNat := by rw [hand]
    _ ≤ i.definedFlags.toNat := by rw [BitVec.toNat_and]; exact Nat.and_le_right

/-- A FLAGS field that goes into a command and sets only defined bits is the FLAGS field of a well-formed
command: a command without FLAGS has FLAGS 0. -/
theorem Instr.withFlags_eq_self_and_defined_iff :
    i.withFlags f = i ∧ f &&& ~~~ i.definedFlags = 0#8 ↔ f = i.flags ∧ i.wellFormed = true := by
  rw [Instr.wellFormed_iff]
  cases i with
  | blkCheck g =>
    simp only [withFlags, Instr.blkCheck.injEq, definedFlags, flags]
    exact and_congr_right fun h => by rw [h]
  | scanInit g =>
    simp only [withFlags, Instr.scanInit.injEq, definedFlags, flags]
    exact and_congr_right fun h => by rw [h]
  | _ =>
    have hfree : f &&& ~~~ 0#8 = f := BitVec.and_allOnes
    simp only [withFlags, definedFlags, flags, hfree, BitVec.zero_and, true_and, and_true]

/-! ## The words that decode (R84-R86, R90) -/

/-- The procedure of R90 checks RSVD first. -/
theorem decode_of_rsvd_ne_zero (h : rsvdField w ≠ 0#16) : decode w = .error .rsvdNonzero := by
  simp [decode, h]

/-- With RSVD 0 the procedure of R90 looks the opcode up next. -/
theorem decode_of_reserved (hr : rsvdField w = 0#16)
    (hl : lookupOpcode (opcodeField w) (flagsField w) = none) : decode w = .error .reservedOpcode := by
  simp [decode, hr, hl]

/-- With RSVD 0 and a known opcode the procedure of R90 checks the FLAGS bits. -/
theorem decode_of_lookup (hr : rsvdField w = 0#16)
    (hl : lookupOpcode (opcodeField w) (flagsField w) = some i) :
    decode w = if flagsField w &&& ~~~ i.definedFlags = 0#8 then .ok i else .error .undefinedFlags := by
  simp [decode, hr, hl]

/-- A word decodes exactly when it passes the three checks of R90. -/
theorem decode_eq_ok : decode w = .ok i ↔ rsvdField w = 0#16 ∧
    lookupOpcode (opcodeField w) (flagsField w) = some i ∧ flagsField w &&& ~~~ i.definedFlags = 0#8 := by
  by_cases hr : rsvdField w = 0#16
  · cases hl : lookupOpcode (opcodeField w) (flagsField w) with
    | none => simp [decode_of_reserved hr hl]
    | some j =>
      rw [decode_of_lookup hr hl]
      simp only [hr, true_and, Option.some.injEq]
      constructor
      · intro h
        split at h <;> cases h
        exact ⟨rfl, ‹_›⟩
      · rintro ⟨rfl, hf⟩
        exact if_pos hf
  · simp [decode_of_rsvd_ne_zero hr, hr]

/-- A word decodes to a command exactly when the command is well-formed and the word is its word. -/
theorem decode_eq_ok_iff_encode : decode w = .ok i ↔ i.wellFormed = true ∧ encode i = w := by
  rw [decode_eq_ok, lookupOpcode_eq_some, encode_eq_iff, and_assoc,
    Instr.withFlags_eq_self_and_defined_iff]
  tauto

/-- The word of a well-formed command decodes to it. -/
theorem decode_encode (h : i.wellFormed = true) : decode (encode i) = .ok i :=
  decode_eq_ok_iff_encode.mpr ⟨h, rfl⟩

/-! ## The rows of the opcode table (R90) -/

/-- The row of a command: RSVD, OPCODE and the undefined FLAGS bits are fixed, the defined ones are free. -/
def Instr.row (i : Instr) : Word × Word :=
  (commandWord 0#16 0#8 (opcodeOf i), commandWord (BitVec.allOnes 16) (~~~ i.definedFlags) (BitVec.allOnes 8))

/-- A word matches the row of a command exactly when it has RSVD 0, sets no undefined FLAGS bit and has the
command's opcode. -/
theorem rowMatches_row : rowMatches w i.row = true ↔
    rsvdField w = 0#16 ∧ flagsField w &&& ~~~ i.definedFlags = 0#8 ∧ opcodeField w = opcodeOf i := by
  simp only [rowMatches, Instr.row, beq_iff_eq, word_eq_iff_fields_eq, rsvdField_and, flagsField_and,
    opcodeField_and, rsvdField_commandWord, flagsField_commandWord, opcodeField_commandWord,
    BitVec.and_allOnes]

@[simp] theorem Instr.row_withFlags (i : Instr) (f : BitVec 8) : (i.withFlags f).row = i.row := by
  cases i <;> rfl

/-- The commands of R83 in the table's order, with FLAGS 0. -/
def commands : List Instr :=
  [.nop, .crc16, .blkSeal, .blkCheck 0#8, .blkKind, .layoutPos, .layoutSeq, .tlvParse, .tlvFind, .tlvAppend,
    .tlvPad, .mhParse, .gfMul, .gfInv, .rsCoef, .rsEncode, .rsRecon, .rsVote, .scanInit 0#8, .scanNext,
    .scanProbe]

theorem withFlags_zero_mem_commands (i : Instr) : i.withFlags 0#8 ∈ commands := by
  cases i <;> simp [Instr.withFlags, commands]

/-- The table lists the row of every command, in the order of R83. -/
theorem opcodeRows_eq_map_row : opcodeRows = commands.map Instr.row := by decide

/-- The rows of the table are the rows of the commands. -/
theorem mem_opcodeRows {row : Word × Word} : row ∈ opcodeRows ↔ ∃ i : Instr, i.row = row := by
  rw [opcodeRows_eq_map_row, List.mem_map]
  constructor
  · rintro ⟨i, -, hrow⟩
    exact ⟨i, hrow⟩
  · rintro ⟨i, hrow⟩
    exact ⟨i.withFlags 0#8, withFlags_zero_mem_commands i, by rw [Instr.row_withFlags, hrow]⟩

/-- The rows of the table have distinct opcodes. -/
theorem opcodeRows_opcodes_nodup : (opcodeRows.map fun row => opcodeField row.1).Nodup := by decide

/-- A word has the opcode of every row that it matches. -/
theorem opcodeField_of_rowMatches {row : Word × Word} (h : row ∈ opcodeRows)
    (hm : rowMatches w row = true) : opcodeField row.1 = opcodeField w := by
  obtain ⟨i, rfl⟩ := mem_opcodeRows.mp h
  obtain ⟨-, -, hop⟩ := rowMatches_row.mp hm
  rw [hop, Instr.row, opcodeField_commandWord]

/-- At most one row of the table matches any word: the rows that match all have the word's opcode. -/
theorem length_matching_rows_le_one (w : Word) : (opcodeRows.filter (rowMatches w)).length ≤ 1 := by
  have hsame : (opcodeRows.filter (rowMatches w)).map (fun row => opcodeField row.1) =
      List.replicate (opcodeRows.filter (rowMatches w)).length (opcodeField w) :=
    List.map_eq_replicate_iff.mpr fun _ h =>
      opcodeField_of_rowMatches (List.mem_filter.mp h).1 (List.mem_filter.mp h).2
  have hdistinct : ((opcodeRows.filter (rowMatches w)).map fun row => opcodeField row.1).Nodup :=
    opcodeRows_opcodes_nodup.sublist (List.filter_sublist.map _)
  rw [hsame] at hdistinct
  exact List.nodup_replicate.mp hdistinct

/-- A word decodes exactly when a row of the table matches it. -/
theorem decodes_iff_matches_row (w : Word) :
    (∃ i, decode w = .ok i) ↔ ∃ row ∈ opcodeRows, rowMatches w row = true := by
  constructor
  · rintro ⟨i, hdec⟩
    obtain ⟨hr, hl, hf⟩ := decode_eq_ok.mp hdec
    obtain ⟨hop, -⟩ := lookupOpcode_eq_some.mp hl
    exact ⟨i.row, mem_opcodeRows.mpr ⟨i, rfl⟩, rowMatches_row.mpr ⟨hr, hf, hop.symm⟩⟩
  · rintro ⟨row, hmem, hmatch⟩
    obtain ⟨i, rfl⟩ := mem_opcodeRows.mp hmem
    obtain ⟨hr, hf, hop⟩ := rowMatches_row.mp hmatch
    exact ⟨i.withFlags (flagsField w), decode_eq_ok.mpr
      ⟨hr, hop ▸ lookupOpcode_opcodeOf i _, by rwa [Instr.definedFlags_withFlags]⟩⟩

end

/-! ## Statements about the decoder -/

/-- Settles O2: the words that decode to a command are exactly the word of that command, if it is
well-formed. -/
theorem decodeInvertsEncode : Obligations.DecodeInvertsEncode :=
  ⟨fun _ => decode_encode, fun _ _ => decode_eq_ok_iff_encode.mp⟩

/-- Settles O1: each word is the word of its command. -/
theorem wordsOfEveryFamilyDecode : Obligations.WordsOfEveryFamilyDecode :=
  ⟨decode_encode (i := .nop) rfl, decode_encode (i := .crc16) rfl, decode_encode (i := .blkCheck 3#8) rfl,
    decode_encode (i := .tlvAppend) rfl, decode_encode (i := .rsRecon) rfl,
    decode_encode (i := .scanInit 2#8) rfl, decode_encode (i := .scanProbe) rfl⟩

end Sys2Proof

namespace Sys2Proof.Machine

open Sys2Proof

section

variable {s : State}

/-! ## Malformed words (R84-R86) -/

/-- A latched word that decodes to no command ends in Usage(0x100). -/
theorem runLatched_of_malformed (h : ∀ i, decode s.cmd ≠ .ok i) :
    ∃ t, runLatched s = .next t ∧ RaisedError s t .usage 0x100#32 := by
  refine ⟨s.completeError malformedWord, ?_, completeError_raisedError s malformedWord⟩
  cases hdec : decode s.cmd with
  | error e => simp [runLatched, hdec, endWithError]
  | ok i => exact absurd hdec (h i)

/-- A step in which a due command is not cancelled runs the latched word (R101). -/
theorem step_eq_runLatched (hdue : s.due = true) (hcancel : s.cancels = false) : step s = runLatched s := by
  simp [step, hdue, completionStep, hcancel]

end

/-- Settles O3: the procedure of R90 in its order, its rows, and the completion of a word that it refuses. -/
theorem decodeFollowsTheOpcodeTable : Obligations.DecodeFollowsTheOpcodeTable :=
  ⟨fun _ => decode_of_rsvd_ne_zero, fun _ => decode_of_reserved, fun _ _ => decode_of_lookup,
    decodes_iff_matches_row, length_matching_rows_le_one, by decide, by decide, by decide, by decide,
    fun _ => runLatched_of_malformed⟩

/-- Settles O5: each malformed form contradicts a field of the only word that could decode. -/
theorem malformedWordsEndInUsage : Obligations.MalformedWordsEndInUsage := by
  intro s hbusy hdelay habort hbad
  rw [step_eq_runLatched (State.due_eq_true.mpr ⟨hbusy, hdelay⟩)
    (State.cancels_eq_false_of_abortReq habort)]
  refine runLatched_of_malformed fun i hdec => ?_
  obtain ⟨hwf, henc⟩ := decode_eq_ok_iff_encode.mp hdec
  obtain ⟨hr, hf, hop⟩ := encode_eq_iff.mp henc
  have hle := Instr.flags_le_definedFlags hwf
  rw [Instr.definedFlags_eq, ← hf, ← hop] at hle
  rcases hbad with hrsvd | hreserved | ⟨hno12, hno40, hflags⟩ | ⟨h12, hflags⟩ | ⟨h40, hflags⟩
  · exact hrsvd hr
  · rw [hop] at hreserved
    exact hreserved (opcodeOf_mem_opcodes i)
  · rw [if_neg hno12, if_neg hno40] at hle
    exact hflags (BitVec.eq_of_toNat_eq (Nat.le_zero.mp hle))
  · rw [if_pos h12] at hle
    exact absurd (hflags.trans hle) (by decide)
  · rw [if_neg (by rw [h40]; decide), if_pos h40] at hle
    exact absurd (hflags.trans hle) (by decide)

end Sys2Proof.Machine

/-! PROOFS. The life of a command (40_control.md R100-R108): what acceptance shows, how a command ends, what an
abort request can change, and what the outcome depends on. -/

namespace Sys2Proof.Machine

open Sys2Proof

/-! ## How a command ends (R101-R103) -/

/-- A completion ends in R102's shape where the rule stages effects, and in R103's where it raises an error. -/
theorem finish_completed_or_raised (s : State) (r : Except CmdError Staged) :
    (∃ st, r = .ok st ∧ CompletedWith s (s.finish r) st.res) ∨
      ∃ e, r = .error e ∧ RaisedError s (s.finish r) e.kind e.info := by
  cases r with
  | ok st => exact .inl ⟨st, rfl, completeOk_completedWith s st⟩
  | error e => exact .inr ⟨e, rfl, completeError_raisedError s e⟩

/-- Settles O9: a command is its rule's outcome, finished, and no rule raises HashMismatch or Cancelled. -/
theorem everyCommandCompletes : Obligations.EveryCommandCompletes := by
  intro i s
  refine ⟨s.finish (outcomeOf i s), exec_eq_finish i s, ?_⟩
  rcases finish_completed_or_raised s (outcomeOf i s) with ⟨st, -, hok⟩ | ⟨e, he, herr⟩
  · exact .inl ⟨st.res, hok⟩
  · exact .inr ⟨e.kind, e.info, herr, outcomeOf_raises i s e he⟩

/-! ## NOP (R106) -/

/-- A successful completion leaves the defined results in RES (R102). -/
theorem CompletedWith.res_eq {s t : State} {rs : List Word} (h : CompletedWith s t rs) : t.res = resFile rs := by
  obtain ⟨-, -, -, -, -, -, hres, -⟩ := h
  exact hres

/-- A register file in which no result was defined is all 0 (R30, R89). -/
theorem resFile_nil : resFile [] = Vector.replicate 8 0#32 :=
  Vector.ext fun i hi => by simp [resFile]

/-- A word other than 0 with NOP's opcode sets a bit of RSVD or of FLAGS (R80). -/
theorem rsvd_or_flags_ne_zero {w : Word} (hop : opcodeField w = 0#8) (hw : w ≠ 0#32) :
    rsvdField w ≠ 0#16 ∨ flagsField w ≠ 0#8 := by
  by_contra hzero
  obtain ⟨hr, hf⟩ := not_or.mp hzero
  exact hw (word_eq_iff_fields_eq.mpr ⟨not_ne_iff.mp hr, not_ne_iff.mp hf, hop⟩)

/-- Settles O29: NOP stages nothing, and a further bit in its word is malformed (O5). -/
theorem nopClearsResults : Obligations.NopClearsResults := by
  refine ⟨decode_encode (i := .nop) rfl, fun s => ⟨?_, fun hbusy hdelay habort hop hcmd => ?_⟩⟩
  · obtain ⟨t, hexec, hdone, hbuf, hscan⟩ := exec_of_results (i := .nop) (s := s) rfl rfl rfl
    exact ⟨t, hexec, ⟨hdone, hbuf, hscan⟩, hdone.res_eq.trans resFile_nil⟩
  · refine malformedWordsEndInUsage s hbusy hdelay habort ?_
    rcases rsvd_or_flags_ne_zero hop hcmd with hrsvd | hflags
    · exact .inl hrsvd
    · exact .inr (.inr (.inl ⟨by rw [hop]; decide, by rw [hop]; decide, hflags⟩))

/-! ## Abort (R107) -/

/-- A write of CTRL with SRST = 0 while idle requests no abort (R107). -/
theorem State.writeCtrl_of_idle (s : State) {v : Word} (hsrst : v.getLsbD 2 = false)
    (hidle : s.busy = false) : s.writeCtrl v = { s with ie := v.getLsbD 0 } := by
  rw [s.writeCtrl_of_not_srst hsrst, hidle, Bool.false_and, Bool.or_false]

/-- A completion clears ABORT_REQ, so it ends alike with and without a request (R37). -/
theorem finish_abortReq (s : State) (b : Bool) (r : Except CmdError Staged) :
    State.finish { s with abortReq := b } r = s.finish r := by
  cases r with
  | ok st => rfl
  | error e => rfl

/-- ABORT_REQ is none of a command's inputs. -/
theorem outcomeOf_abortReq (i : Instr) (s : State) (b : Bool) :
    outcomeOf i { s with abortReq := b } = outcomeOf i s :=
  (outcomeOf_inputs i { s with abortReq := b }).symm.trans (outcomeOf_inputs i s)

/-- A latched word that is not cancelled ends alike with and without an abort request (R107). -/
theorem runLatched_abortReq (s : State) (b : Bool) : runLatched { s with abortReq := b } = runLatched s := by
  cases hdec : decode s.cmd with
  | error e => simp only [runLatched, hdec]; rfl
  | ok i => simp only [runLatched, hdec, exec_eq_finish, outcomeOf_abortReq, finish_abortReq]

/-- The completion step of a command whose abort is honoured ends in Cancelled(0) (R107, R270). -/
theorem step_of_cancels {s : State} (hdue : s.due = true) (hcancel : s.cancels = true) :
    ∃ t, step s = .next t ∧ RaisedError s t .cancelled 0#32 :=
  ⟨s.completeError cancelledError, by simp [step, hdue, completionStep, hcancel, endWithError],
    completeError_raisedError s cancelledError⟩

/-- Settles O6: CTRL.ABORT counts while busy only, and the engine either honours the request or runs the latched
word, to which the request makes no difference. -/
theorem abortEndsInOneOfTwoWays : Obligations.AbortEndsInOneOfTwoWays := by
  refine ⟨fun s v hsrst => ?_, fun s hbusy hdelay _ => ?_⟩
  · refine ⟨?_, ?_, ?_, s.writeCtrl_of_idle hsrst⟩ <;> rw [s.writeCtrl_of_not_srst hsrst]
  · have hdue := State.due_eq_true.mpr ⟨hbusy, hdelay⟩
    cases hcancel : s.cancels with
    | true => exact .inl (step_of_cancels hdue hcancel)
    | false =>
      refine .inr ?_
      calc step s = runLatched s := step_eq_runLatched hdue hcancel
        _ = runLatched { s with abortReq := false } := (runLatched_abortReq s false).symm
        _ = step { s with abortReq := false } :=
          (step_eq_runLatched (s := { s with abortReq := false }) hdue
            (State.cancels_eq_false_of_abortReq rfl)).symm

/-! ## Acceptance, and what shows until completion (R100, R295) -/

/-- What R295 lists reads in `t` as in `s`: RES, ERRINFO, ERR, ERRCODE and the scanner registers. -/
def ShowsAlike (s t : State) : Prop :=
  t.res = s.res ∧ t.errinfo = s.errinfo ∧ t.err = s.err ∧ t.errcode = s.errcode ∧ t.scan = s.scan

/-- No register write that leaves the command in flight changes what R295 lists. -/
theorem showsAlike_regWrite {s : State} (hbusy : s.busy = true) {off : Nat} {v : Word}
    (hkept : (s.regWrite off v).busy = true) : ShowsAlike s (s.regWrite off v) := by
  have dropped : ∀ u : State, ShowsAlike s (if s.busy then s.dropWrite else u) := fun u => by
    rw [if_pos hbusy]
    exact ⟨rfl, rfl, rfl, rfl, rfl⟩
  rcases regWrite_cases s off v with h | h | h | h | h | ⟨k, h⟩ | ⟨k, h⟩ <;> rw [h] at hkept ⊢
  · exact ⟨rfl, rfl, rfl, rfl, rfl⟩
  · cases hsrst : v.getLsbD 2 with
    | true => simp [s.writeCtrl_of_srst hsrst] at hkept
    | false =>
      rw [s.writeCtrl_of_not_srst hsrst]
      exact ⟨rfl, rfl, rfl, rfl, rfl⟩
  · exact ⟨rfl, rfl, rfl, rfl, rfl⟩
  · exact ⟨rfl, rfl, rfl, rfl, rfl⟩
  · exact dropped _
  · exact dropped _
  · exact dropped _

/-- No host access that leaves the command in flight changes what R295 lists. -/
theorem showsAlike_hostStep {s t : State} {op : HostOp} (hbusy : s.busy = true)
    (h : hostStep s op = .next t) (hkept : t.busy = true) : ShowsAlike s t := by
  rcases hostStep_next h with ⟨v, rfl⟩ | ⟨r, v, -, -, rfl⟩ | ⟨a, w, v, -, -, rfl⟩ | rfl
  · exact ⟨rfl, rfl, rfl, rfl, rfl⟩
  · exact showsAlike_regWrite hbusy hkept
  · exact ⟨rfl, rfl, rfl, rfl, rfl⟩
  · simp at hkept

/-- The step of a due command leaves the engine idle (R102, R103). -/
theorem busy_of_step_of_due {s t : State} (hdue : s.due = true) (h : step s = .next t) : t.busy = false := by
  rcases step_of_due hdue h with ⟨e, -, rfl⟩ | ⟨i, st, -, rfl⟩ <;> rfl

/-- No step that leaves the command in flight changes what R295 lists. -/
theorem showsAlike_step {s t : State} (hbusy : s.busy = true) (h : step s = .next t)
    (hkept : t.busy = true) : ShowsAlike s t := by
  cases hdue : s.due with
  | true => simp [busy_of_step_of_due hdue h] at hkept
  | false =>
    rw [step_eq_hostTurn hdue] at h
    rcases hostTurn_next h with ⟨-, rfl⟩ | ⟨op, rest, -, hop⟩
    · exact ⟨rfl, rfl, rfl, rfl, rfl⟩
    · exact showsAlike_hostStep (s := s.advanceHost rest) hbusy hop hkept

/-- A write of CMD while idle is accepted (R25, R100). -/
theorem State.writeCmd_of_idle (s : State) (w : Word) (h : s.busy = false) : s.writeCmd w = s.accept w :=
  if_neg (by rw [h]; exact Bool.false_ne_true)

/-- A write of CMD while busy is dropped (R25, R294). -/
theorem State.writeCmd_of_busy (s : State) (w : Word) (h : s.busy = true) : s.writeCmd w = s.dropWrite :=
  if_pos h

/-- A host write of CMD reaches the CMD register (R25, R63). -/
theorem hostWrite_cmd (s : State) (w : Word) : hostWrite s .w32 0x010 w = .next (s.writeCmd w) :=
  hostWrite_reg s w (by decide) (by decide)

/-- Settles O7: acceptance writes the fields R100 names, a busy engine drops the write, and no staged value shows
before the completion. -/
theorem cmdWriteIsAcceptedOrDropped : Obligations.CmdWriteIsAcceptedOrDropped := by
  refine ⟨fun s w hidle => ⟨s.accept w, ?_, ?_⟩, fun s w hbusy => ?_, fun s t => showsAlike_step⟩
  · rw [hostWrite_cmd, s.writeCmd_of_idle w hidle]
  · exact ⟨rfl, rfl, rfl, rfl, rfl, rfl, rfl, rfl, rfl, rfl, rfl, rfl, rfl, rfl, rfl, rfl, rfl, rfl, rfl, rfl⟩
  · rw [hostWrite_cmd, s.writeCmd_of_busy w hbusy]
    rfl

/-! ## The outcome and the inputs (R101, R108) -/

/-- States with the same inputs give a command the same outcome. -/
theorem outcomeOf_congr_inputs {r s : State} (h : r.inputs = s.inputs) (i : Instr) :
    outcomeOf i r = outcomeOf i s := by
  rw [← outcomeOf_inputs i r, h, outcomeOf_inputs]

/-- A byte inside a store reads as stored, whatever the memory held. -/
theorem byteAt_store_inside_eq {epoch : Nat} {m m' : Memory} {a x : Nat} {bs : List Byte}
    (h : ¬ Outside x a bs.length) :
    byteAt epoch (Memory.store m a bs) x = byteAt epoch (Memory.store m' a bs) x := by
  obtain ⟨hlo, hhi⟩ := not_or.mp h
  rw [byteAt_store_inside (by omega) (by omega), byteAt_store_inside (by omega) (by omega)]

/-- A byte that some staged write covers reads as staged, whatever the memory held. -/
theorem byteAt_applyWrites_covered {epoch : Nat} {x : Nat} {ws : List (Nat × List Byte)}
    (h : ∃ w ∈ ws, ¬ Outside x w.1 w.2.length) (m m' : Memory) :
    byteAt epoch (applyWrites m ws) x = byteAt epoch (applyWrites m' ws) x := by
  induction ws generalizing m m' with
  | nil => simp at h
  | cons w ws ih =>
    obtain ⟨v, hv, hin⟩ := h
    rcases List.mem_cons.mp hv with rfl | hv
    · exact byteAt_applyWrites_congr (byteAt_store_inside_eq hin) ws
    · exact ih ⟨v, hv, hin⟩ _ _

/-- After the same staged effects a byte of BUF is the same in both states, or each state keeps its own. -/
theorem bufByte_completeOk_same_or_kept {r s : State} (hon : r.powerOns = s.powerOns) (st : Staged) (a : Nat) :
    (r.stage st).completeOk.bufByte a = (s.stage st).completeOk.bufByte a ∨
      ((s.stage st).completeOk.bufByte a = s.bufByte a ∧ (r.stage st).completeOk.bufByte a = r.bufByte a) := by
  by_cases hcov : ∃ w ∈ st.writes, ¬ Outside a w.1 w.2.length
  · left
    simpa [State.bufByte, hon] using byteAt_applyWrites_covered hcov r.buf s.buf
  · right
    have hout : ∀ w ∈ st.writes, Outside a w.1 w.2.length := by simpa using hcov
    exact ⟨bufByte_completeOk_outside hout, bufByte_completeOk_outside hout⟩

/-- Settles O10: the outcome is the rule's on the inputs, and a completion applies it alike to both states. -/
theorem outcomeDependsOnInputsOnly : Obligations.OutcomeDependsOnInputsOnly := by
  intro i s r t u hparams hon hlatch hsnap hmask hscan hs hr
  have hinputs : r.inputs = s.inputs := by
    simp only [State.inputs, hparams, hon, hlatch, hsnap, hmask, hscan]
  rw [exec_eq_finish, Host.Outcome.next.injEq] at hs hr
  rw [outcomeOf_congr_inputs hinputs] at hr
  subst hs hr
  cases outcomeOf i s with
  | error e => exact ⟨rfl, rfl, rfl, hscan, by simp⟩
  | ok st =>
    exact ⟨rfl, rfl, rfl, congrArg st.scan.getD hscan, fun _ =>
      ⟨rfl, bufByte_completeOk_same_or_kept hon st⟩⟩

end Sys2Proof.Machine

/-! PROOFS. The container layout (41_block_codec.md R131, R132): the interleave permutation at the blocks of a
super-group, its inverse, and the spacing of the blocks of one group. -/

namespace Sys2Proof.Machine

open Sys2Proof

/-! ## Two-digit indices in a super-group -/

/-- A pair of digits below `b` and `a` is an index below `a * b`. -/
theorem digits_lt {a b y z : Nat} (hy : y < b) (hz : z < a) : y * a + z < a * b :=
  calc y * a + z < y * a + a := by omega
    _ = (y + 1) * a := (Nat.succ_mul y a).symm
    _ ≤ b * a := Nat.mul_le_mul_right a hy
    _ = a * b := Nat.mul_comm b a

/-- The quotient and the two digits of a number can be read off. -/
theorem digits_divMod {a b q y z : Nat} (hy : y < b) (hz : z < a) :
    (q * (a * b) + y * a + z) / (a * b) = q ∧ (q * (a * b) + y * a + z) % (a * b) = y * a + z ∧
      (y * a + z) / a = y ∧ (y * a + z) % a = z := by
  have hlt := digits_lt hy hz
  obtain ⟨hq, hr⟩ : (q * (a * b) + y * a + z) / (a * b) = q ∧
      (q * (a * b) + y * a + z) % (a * b) = y * a + z :=
    (Nat.div_mod_unique (by omega)).mpr ⟨by ring, hlt⟩
  obtain ⟨hdiv, hmod⟩ : (y * a + z) / a = y ∧ (y * a + z) % a = z :=
    (Nat.div_mod_unique (by omega)).mpr ⟨by ring, hz⟩
  exact ⟨hq, hr, hdiv, hmod⟩

/-- Every number has a quotient and two digits. -/
theorem exists_digits {a b : Nat} (ha : 0 < a) (hb : 0 < b) (x : Nat) :
    ∃ q y z, y < b ∧ z < a ∧ x = q * (a * b) + y * a + z := by
  refine ⟨x / (a * b), x % (a * b) / a, x % (a * b) % a, ?_, Nat.mod_lt _ ha, ?_⟩
  · exact Nat.div_lt_of_lt_mul (Nat.mod_lt _ (Nat.mul_pos ha hb))
  · rw [Nat.add_assoc, Nat.div_add_mod', Nat.div_add_mod']

/-! ## The permutation and its inverse (R131) -/

section

variable {D P B q g j : Nat}

/-- Block j of local group g of super-group q lies at local offset j·B + g (R131). -/
theorem phys_of_local (hg : g < B) (hj : j < D + P) :
    phys D P B (1 + q * ((D + P) * B) + g * (D + P) + j) =
      1 + P + q * ((D + P) * B) + j * B + g := by
  obtain ⟨hq, hr, hdiv, hmod⟩ := digits_divMod (q := q) hg hj
  have hi : 1 + q * ((D + P) * B) + g * (D + P) + j - 1 =
      q * ((D + P) * B) + g * (D + P) + j := by omega
  rw [phys, if_neg (by omega)]
  simp only [if_neg (show B ≠ 0 by omega), hi, hq, hr, hdiv, hmod]

/-- Local offset j·B + g of super-group q holds block j of local group g (R131). -/
theorem seqAt_of_local (hg : g < B) (hj : j < D + P) :
    seqAt D P B (1 + P + q * ((D + P) * B) + j * B + g) =
      1 + q * ((D + P) * B) + g * (D + P) + j := by
  obtain ⟨hq, hr, hdiv, hmod⟩ := digits_divMod (q := q) hj hg
  rw [Nat.mul_comm B] at hq hr
  have ht : 1 + P + q * ((D + P) * B) + j * B + g - (1 + P) = q * ((D + P) * B) + j * B + g := by
    omega
  rw [seqAt, if_neg (by omega)]
  simp only [if_neg (show B ≠ 0 by omega), ht, hq, hr, hdiv, hmod]

/-- Without interleave the blocks follow the metadata blocks in sequence (R131). -/
theorem phys_of_no_burst {s : Nat} (hs : 1 ≤ s) : phys D P 0 s = P + s := by
  rw [phys, if_neg (by omega)]
  simp only [if_true]
  omega

/-- Without interleave the sequence numbers follow in the order of the blocks (R131). -/
theorem seqAt_of_no_burst {p : Nat} (hp : P < p) : seqAt D P 0 p = p - P := by
  rw [seqAt, if_neg (by omega)]
  simp only [if_true]
  omega

/-- A sequence number from 1 on is a block of a local group of a super-group. -/
theorem exists_local_of_seq (hn : 1 ≤ D + P) (hB : 1 ≤ B) {s : Nat} (hs : 1 ≤ s) :
    ∃ q g j, g < B ∧ j < D + P ∧ s = 1 + q * ((D + P) * B) + g * (D + P) + j := by
  obtain ⟨q, g, j, hg, hj, h⟩ := exists_digits hn hB (s - 1)
  exact ⟨q, g, j, hg, hj, by omega⟩

/-- A physical index from 1 + P on is a local offset of a super-group. -/
theorem exists_local_of_phys (hn : 1 ≤ D + P) (hB : 1 ≤ B) {p : Nat} (hp : 1 + P ≤ p) :
    ∃ q g j, g < B ∧ j < D + P ∧ p = 1 + P + q * ((D + P) * B) + j * B + g := by
  obtain ⟨q, j, g, hj, hg, h⟩ := exists_digits hB hn (p - (1 + P))
  rw [Nat.mul_comm B] at h
  exact ⟨q, g, j, hg, hj, by omega⟩

/-- From sequence number 1 on, Seq undoes Phys. -/
theorem seqAt_phys (hn : 1 ≤ D + P) {s : Nat} (hs : 1 ≤ s) :
    1 + P ≤ phys D P B s ∧ seqAt D P B (phys D P B s) = s := by
  rcases Nat.eq_zero_or_pos B with rfl | hB
  · rw [phys_of_no_burst hs, seqAt_of_no_burst (by omega)]
    omega
  · obtain ⟨q, g, j, hg, hj, rfl⟩ := exists_local_of_seq hn hB hs
    rw [phys_of_local hg hj, seqAt_of_local hg hj]
    omega

/-- Behind the metadata blocks, Phys undoes Seq. -/
theorem phys_seqAt (hn : 1 ≤ D + P) {p : Nat} (hp : 1 + P ≤ p) :
    1 ≤ seqAt D P B p ∧ phys D P B (seqAt D P B p) = p := by
  rcases Nat.eq_zero_or_pos B with rfl | hB
  · rw [seqAt_of_no_burst (by omega), phys_of_no_burst (by omega)]
    omega
  · obtain ⟨q, g, j, hg, hj, rfl⟩ := exists_local_of_phys hn hB hp
    rw [seqAt_of_local hg hj, phys_of_local hg hj]
    omega

/-- A burst parameter of 1 interleaves nothing (R131). -/
theorem phys_one_eq_phys_zero (hn : 1 ≤ D + P) (s : Nat) : phys D P 1 s = phys D P 0 s := by
  rcases Nat.eq_zero_or_pos s with rfl | hs
  · rfl
  · rw [phys_of_no_burst hs]
    obtain ⟨q, g, j, hg, hj, rfl⟩ := exists_local_of_seq hn (le_refl 1) hs
    obtain rfl : g = 0 := by omega
    rw [phys_of_local hg hj]
    omega

/-! ## Bursts (R132) -/

/-- The blocks of a group lie B apart. -/
theorem exists_base_phys_of_group (hB : 1 ≤ B) (G : Nat) :
    ∃ base, ∀ j, j < D + P → phys D P B (1 + G * (D + P) + j) = base + j * B := by
  refine ⟨1 + P + G / B * ((D + P) * B) + G % B, fun j hj => ?_⟩
  have hG : G * (D + P) = G / B * ((D + P) * B) + G % B * (D + P) := by
    conv_lhs => rw [← Nat.div_add_mod' G B]
    ring
  rw [hG, ← Nat.add_assoc, phys_of_local (Nat.mod_lt _ hB) hj]
  omega

end

/-- Of numbers that lie `B` apart, a window of `B * P` numbers holds at most `P`: no two of them lie in the same
run of `B`. -/
theorem length_filter_window_le {f : Nat → Nat} {n B P : Nat} (hB : 1 ≤ B)
    (hspace : ∀ j k, j < k → k < n → f j + B ≤ f k) (x : Nat) :
    ((List.range n).filter (fun j => decide (x ≤ f j) && decide (f j < x + B * P))).length ≤ P := by
  set l := (List.range n).filter (fun j => decide (x ≤ f j) && decide (f j < x + B * P)) with hl
  have hmem : ∀ j ∈ l, j < n ∧ x ≤ f j ∧ f j < x + B * P := by simp [hl]
  have hrun : ∀ j k, j < k → k ∈ l → x ≤ f j → (f j - x) / B < (f k - x) / B := by
    intro j k hjk hk hj
    have hstep := hspace j k hjk (hmem k hk).1
    calc (f j - x) / B < (f j - x) / B + 1 := Nat.lt_succ_self _
      _ = (f j - x + B) / B := (Nat.add_div_right _ hB).symm
      _ ≤ (f k - x) / B := Nat.div_le_div_right (by omega)
  have hnodup : (l.map fun j => (f j - x) / B).Nodup := by
    refine List.Nodup.map_on (fun j hj k hk heq => ?_) (List.nodup_range.filter _)
    rcases Nat.lt_trichotomy j k with h | h | h
    · exact absurd heq (hrun j k h hk (hmem j hj).2.1).ne
    · exact h
    · exact absurd heq (hrun k j h hj (hmem k hk).2.1).ne'
  have hsub : (l.map fun j => (f j - x) / B) ⊆ List.range P := by
    intro r hr
    obtain ⟨j, hj, rfl⟩ := List.mem_map.mp hr
    obtain ⟨-, hlo, hhi⟩ := hmem j hj
    exact List.mem_range.mpr (Nat.div_lt_of_lt_mul (by omega))
  simpa using (hnodup.subperm hsub).length_le

/-! ## Statements about the layout -/

/-- Settles O39: the permutation and its inverse agree at every block of every super-group. -/
theorem physAndSeqAreInverse : Obligations.PhysAndSeqAreInverse :=
  fun _ _ _ hn => ⟨fun _ => seqAt_phys hn, fun _ => phys_seqAt hn, phys_one_eq_phys_zero hn⟩

/-- Settles O40: the blocks of a group lie B apart, so a burst of B·P holds at most P of them. -/
theorem burstsSpreadOverGroups : Obligations.BurstsSpreadOverGroups := by
  intro D P B _ _ hB g place
  obtain ⟨base, hbase⟩ := exists_base_phys_of_group (D := D) (P := P) hB g
  have hspace : ∀ j k, j < k → k < D + P → place j + B ≤ place k := by
    intro j k hjk hk
    have hmul : (j + 1) * B ≤ k * B := Nat.mul_le_mul_right B hjk
    rw [Nat.succ_mul] at hmul
    simp only [place, hbase j (by omega), hbase k hk]
    omega
  exact ⟨hspace, length_filter_window_le hB hspace⟩

end Sys2Proof.Machine

/-! PROOFS. The CRC of the block codec (41_block_codec.md R123-R125): its shifts can be undone, so the CRC tells
initial values and bytes apart, and a sequence followed by its own CRC leaves 0. -/

namespace Sys2Proof.Machine

open Sys2Proof

/-! ## The shifts of the register (R124) -/

/-- One shift of the register. -/
theorem crcShift_one (c : BitVec 16) :
    crcShift 1 c = (c <<< 1) ^^^ (if c.msb then 0x1021#16 else 0#16) := by
  cases h : c.msb <;> simp [crcShift, h]

/-- n + 1 shifts are one shift and then n. -/
theorem crcShift_succ (n : Nat) (c : BitVec 16) : crcShift (n + 1) c = crcShift n (crcShift 1 c) := by
  cases h : c.msb <;> simp [crcShift, h]

/-- A register value is its top bit and what a shift by one keeps. -/
theorem eq_of_msb_eq_of_shiftLeft_one_eq {c d : BitVec 16} (hmsb : c.msb = d.msb)
    (hshift : c <<< 1 = d <<< 1) : c = d := by
  apply BitVec.eq_of_getLsbD_eq
  intro i hi
  rcases Nat.lt_or_ge i 15 with hlt | hge
  · have hbit := congrArg (fun x => x.getLsbD (i + 1)) hshift
    simpa [show i + 1 < 16 by omega, BitVec.getLsbD_eq_getElem hi] using hbit
  · obtain rfl : i = 15 := by omega
    simpa [BitVec.msb_eq_getLsbD_last] using hmsb

/-- A shift can be undone: the polynomial is odd, so the lowest bit tells which bit fell out. -/
theorem crcShift_one_injective : Function.Injective (crcShift 1) := by
  intro c d h
  rw [crcShift_one, crcShift_one] at h
  have hmsb : c.msb = d.msb := by
    have hlow := congrArg (fun x => x.getLsbD 0) h
    cases hc : c.msb <;> cases hd : d.msb <;> simp [hc, hd] at hlow ⊢
  rw [hmsb] at h
  exact eq_of_msb_eq_of_shiftLeft_one_eq hmsb (BitVec.xor_left_inj _ |>.mp h)

/-- Any number of shifts can be undone. -/
theorem crcShift_injective (n : Nat) : Function.Injective (crcShift n) := by
  induction n with
  | zero => exact fun _ _ h => h
  | succ n ih =>
    intro c d h
    rw [crcShift_succ, crcShift_succ n d] at h
    exact crcShift_one_injective (ih h)

/-- While zeros fall out, the register only moves up. -/
theorem crcShift_of_lt {n : Nat} {c : BitVec 16} (h : c.toNat * 2 ^ n < 2 ^ 16) :
    crcShift n c = c <<< n := by
  induction n generalizing c with
  | zero => simp [crcShift]
  | succ n ih =>
    have hdouble : c.toNat * 2 * 2 ^ n < 2 ^ 16 := by
      rwa [Nat.mul_assoc, ← Nat.pow_succ']
    have hlt : c.toNat * 2 < 2 ^ 16 :=
      Nat.lt_of_le_of_lt (Nat.le_mul_of_pos_right _ (Nat.two_pow_pos n)) hdouble
    have hmsb : c.msb = false := by
      rw [BitVec.msb_eq_decide]
      exact decide_eq_false (by omega)
    have hnat : (c <<< 1).toNat = c.toNat * 2 := by
      rw [BitVec.toNat_shiftLeft, Nat.shiftLeft_eq, Nat.pow_one, Nat.mod_eq_of_lt hlt]
    rw [crcShift, if_neg (by simp [hmsb]), ih (by rwa [hnat]), ← BitVec.shiftLeft_add, Nat.add_comm]

/-! ## Bytes through the register (R124) -/

/-- After a given byte, the register tells what it held before. -/
theorem crcByte_injective_left (b : Byte) : Function.Injective (fun c => crcByte c b) :=
  fun _ _ h => (BitVec.xor_left_inj _).mp (crcShift_injective 8 h)

/-- After a byte, the register tells the byte, if it held a given value before. -/
theorem crcByte_injective_right (c : BitVec 16) : Function.Injective (crcByte c) := by
  intro b d h
  have hshift := (BitVec.xor_right_inj _).mp (crcShift_injective 8 h)
  apply BitVec.eq_of_getLsbD_eq
  intro i hi
  have hbit := congrArg (fun x => x.getLsbD (i + 8)) hshift
  simpa [show i + 8 < 16 by omega, show i < 16 by omega] using hbit

@[simp] theorem crc16_nil (c : BitVec 16) : crc16 [] c = c := rfl

theorem crc16_cons (b : Byte) (bs : List Byte) (c : BitVec 16) :
    crc16 (b :: bs) c = crc16 bs (crcByte c b) := rfl

theorem crc16_append (xs ys : List Byte) (c : BitVec 16) :
    crc16 (xs ++ ys) c = crc16 ys (crc16 xs c) := List.foldl_append

/-- A sequence of bytes tells initial values apart. -/
theorem crc16_injective (bs : List Byte) : Function.Injective (crc16 bs) := by
  induction bs with
  | nil => exact fun _ _ h => h
  | cons b bs ih => exact fun _ _ h => crcByte_injective_left b (ih h)

/-- Sequences that differ in one byte have different CRCs (R125). -/
theorem crc16_ne_of_one_byte_ne (before after : List Byte) {b b' : Byte} (c : BitVec 16) (h : b ≠ b') :
    crc16 (before ++ b :: after) c ≠ crc16 (before ++ b' :: after) c := by
  rw [crc16_append, crc16_append, crc16_cons, crc16_cons]
  exact fun heq => h (crcByte_injective_right _ (crc16_injective after heq))

/-- The register's own high byte leaves its low byte in the high half. -/
theorem crcByte_high (c : BitVec 16) :
    crcByte c (c.extractLsb' 8 8) = (c.extractLsb' 0 8).setWidth 16 <<< 8 := by
  have hlow : c ^^^ ((c.extractLsb' 8 8).setWidth 16 <<< 8) = (c.extractLsb' 0 8).setWidth 16 := by
    apply BitVec.eq_of_getLsbD_eq
    intro i hi
    rcases Nat.lt_or_ge i 8 with hlt | hge
    · simp [hi, hlt]
    · simp [hi, Nat.not_lt.mpr hge, show i - 8 < 8 by omega, Nat.add_sub_cancel' hge]
  rw [crcByte, hlow, crcShift_of_lt]
  have := (c.extractLsb' 0 8).isLt
  rw [BitVec.toNat_setWidth]
  omega

/-- The register's own two bytes, most significant first, leave 0. -/
theorem crc16_own_bytes (c : BitVec 16) : crc16 [c.extractLsb' 8 8, c.extractLsb' 0 8] c = 0#16 := by
  rw [crc16_cons, crcByte_high, crc16_cons, crc16_nil, crcByte, BitVec.xor_self,
    crcShift_of_lt (by simp)]
  rfl

/-- Settles O31: the check values evaluate, the shifts of the register can be undone, and its own two bytes clear it. -/
theorem crcDetectsOneByteErrors : Obligations.CrcDetectsOneByteErrors := by
  refine ⟨⟨by decide, by decide, ⟨by decide, by decide⟩, crc16_nil⟩, fun before after b b' c =>
    crc16_ne_of_one_byte_ne before after c, fun bs c => ?_⟩
  rw [crc16_append]
  exact crc16_own_bytes _

end Sys2Proof.Machine

/-! PROOFS. The operand checks of the block codec's commands (30_encoding.md R82, 20_memory.md R65), each with the
error that it raises, and CRC16 (41_block_codec.md R135). -/

namespace Sys2Proof.Machine

open Sys2Proof

section

variable {s : State} {i : Instr} {k : Fin 8}

/-! ## Arguments -/

theorem opNat_eq_zero : s.opNat k = 0 ↔ s.ARG k = 0#32 := by
  rw [State.opNat, ← BitVec.toNat_inj]
  rfl

@[simp] theorem ofNat_opNat : BitVec.ofNat 32 (s.opNat k) = s.ARG k := by simp [State.opNat]

/-- An argument whose reserved bits are 0 is the field below them. -/
theorem setWidth_extractLsb'_of_high_zero {w : Word} {n : Nat} (hn : n ≤ 32)
    (h : w.extractLsb' n (32 - n) = 0#(32 - n)) : (w.extractLsb' 0 n).setWidth 32 = w := by
  apply BitVec.eq_of_getLsbD_eq
  intro j hj
  rcases Nat.lt_or_ge j n with hlt | hge
  · simp [hj, hlt]
  · have hbit := congrArg (fun x => x.getLsbD (j - n)) h
    simp only [BitVec.getLsbD_extractLsb', Nat.add_sub_cancel' hge, show j - n < 32 - n by omega,
      decide_true, Bool.true_and, BitVec.getLsbD_zero] at hbit
    simp [Nat.not_lt.mpr hge, hbit]

/-! ## Outcomes -/

/-- A rule that stages the results `rs` and nothing else completes with them. -/
theorem exec_of_ok {rs : List Word} (h : outcomeOf i s = .ok { Staged.none with res := rs }) :
    ∃ t, exec i s = .next t ∧ CompletedOnly s t rs :=
  exec_of_results (st := { Staged.none with res := rs }) h rfl rfl

/-- A rule that raises Usage(k) fails so. -/
theorem fails_usage (h : outcomeOf i s = .error (usageError k)) :
    Fails i s .usage (BitVec.ofNat 32 k.val) := exec_of_error h

/-- A rule that raises IO at the address in argument k fails with that argument. -/
theorem fails_io (h : outcomeOf i s = .error (ioError (s.opNat k))) : Fails i s .io (s.ARG k) := by
  rw [← ofNat_opNat]
  exact exec_of_error h

/-- A region that is not empty and ends past BUF_SIZE is IO at its address (R65). -/
theorem checkRange_eq_ioError {a n : Nat} (hn : n ≠ 0) (h : s.params.bufSize < a + n) :
    s.checkRange a n = .error (ioError a) := by
  refine checkRange_eq_error.mpr ⟨Bool.eq_false_iff.mpr fun hr => ?_, rfl⟩
  have := inRange_iff.mp hr
  omega

/-- A region that is empty or ends at or before BUF_SIZE passes (R65). -/
theorem checkRange_passes {a n : Nat} (h : n = 0 ∨ a + n ≤ s.params.bufSize) : s.checkRange a n = .ok () :=
  checkRange_eq_ok.mpr (inRange_iff.mpr h)

/-- A command whose rule starts with the check of type `ver` fails as that check does (R82). -/
theorem checksVersion_of_opVer (h : ∀ e, s.opVer k = .error e → outcomeOf i s = .error e) :
    ChecksVersion i s k := by
  refine ⟨fun hres => fails_usage (h _ (opVer_reserved hres)), fun hres hver => ?_⟩
  have hbyte : (lowByte (s.ARG k)).setWidth 32 = s.ARG k :=
    setWidth_extractLsb'_of_high_zero (by omega) hres
  rw [← hbyte]
  exact exec_of_error (h _ (opVer_unknown hres hver))

/-! ## CRC16 (R135) -/

/-- A CRC initial value is 16 bits. -/
theorem opInit16_passes (h : (s.ARG k).extractLsb' 16 16 = 0#16) :
    s.opInit16 k = .ok ((s.ARG k).extractLsb' 0 16) := by simp [State.opInit16, h]

/-- A CRC initial value above 16 bits is Usage(k). -/
theorem opInit16_refuses (h : (s.ARG k).extractLsb' 16 16 ≠ 0#16) :
    s.opInit16 k = .error (usageError k) := by simp [State.opInit16, h]

/-- CRC16 on a region in range has the CRC of the region as its result. -/
theorem exec_crc16_of_region (hinit : (s.ARG 2).extractLsb' 16 16 = 0#16)
    (hrange : s.opNat 1 = 0 ∨ s.opNat 0 + s.opNat 1 ≤ s.params.bufSize) :
    ∃ t, exec .crc16 s = .next t ∧ CompletedOnly s t
      [(crc16 (s.memRead (s.opNat 0) (s.opNat 1)) ((s.ARG 2).extractLsb' 0 16)).setWidth 32] := by
  refine exec_of_ok ?_
  simp only [outcomeOf, cmdCrc16, opInit16_passes hinit, checkRange_passes hrange, ok_bind, pure_eq_ok]

end

/-- Settles O30: the two checks of CRC16 in their order, and the CRC of no byte is the initial value. -/
theorem crc16OfARegion : Obligations.Crc16OfARegion := by
  refine ⟨decode_encode (i := .crc16) rfl, fun s => ⟨fun hinit => ?_, fun hinit hrange => ?_,
    fun hinit hrange => exec_crc16_of_region hinit hrange, fun hinit hempty => ?_⟩⟩
  · exact fails_usage (k := 2) (by simp only [outcomeOf, cmdCrc16, opInit16_refuses hinit, error_bind])
  · exact fails_io (by simp only [outcomeOf, cmdCrc16, opInit16_passes hinit,
      checkRange_eq_ioError hrange.1 hrange.2, ok_bind, error_bind])
  · have hexec := exec_crc16_of_region hinit (.inl hempty)
    have hres : ((s.ARG 2).extractLsb' 0 16).setWidth 32 = s.ARG 2 :=
      setWidth_extractLsb'_of_high_zero (by omega) hinit
    rwa [hempty, show s.memRead (s.opNat 0) 0 = [] from rfl, crc16_nil, hres] at hexec

end Sys2Proof.Machine

/-! PROOFS. BLK_SEAL and BLK_CHECK (41_block_codec.md R125, R126, R136, R137): the header that a seal stamps, the
verdict of a block clause by clause, and the check of a sealed block. -/

namespace Sys2Proof.Machine

open Sys2Proof

/-! ## The header (R121) -/

/-- The 16 header bytes, each field most significant byte first (R121). -/
theorem headerBytes_eq (v : Version) (c : BitVec 16) (uid sq : Word) :
    headerBytes v c uid sq =
      [0x53#8, 0x42#8, 0x78#8, v.byte, c.extractLsb' 8 8, c.extractLsb' 0 8,
        uid.extractLsb' 24 8, uid.extractLsb' 16 8, uid.extractLsb' 8 8, uid.extractLsb' 0 8,
        sq.extractLsb' 24 8, sq.extractLsb' 16 8, sq.extractLsb' 8 8, sq.extractLsb' 0 8, 0#8, 0#8] := by
  rw [headerBytes, bytesBE_two, bytesBE_four, bytesBE_four]
  rfl

/-- The two bytes of a 16-bit value read back as that value. -/
theorem be16_bytes (c : BitVec 16) : be16 [c.extractLsb' 8 8, c.extractLsb' 0 8] = c := by
  apply BitVec.eq_of_toNat_eq
  simp [be16, beNat, BitVec.extractLsb'_toNat, Nat.shiftRight_eq_div_pow]
  omega

/-- The four bytes of a 32-bit value read back as that value. -/
theorem be32_bytes (w : Word) :
    be32 [w.extractLsb' 24 8, w.extractLsb' 16 8, w.extractLsb' 8 8, w.extractLsb' 0 8] = w := by
  apply BitVec.eq_of_toNat_eq
  simp [be32, beNat, BitVec.extractLsb'_toNat, Nat.shiftRight_eq_div_pow]
  omega

section

variable (v : Version) (c : BitVec 16) (uid sq : Word) (payload : List Byte)

theorem slice_header_magic_version : slice (headerBytes v c uid sq ++ payload) 0 4 =
    [0x53#8, 0x42#8, 0x78#8, v.byte] := by
  rw [headerBytes_eq]
  rfl

theorem be16_slice_header_crc : be16 (slice (headerBytes v c uid sq ++ payload) 4 6) = c := by
  rw [headerBytes_eq]
  exact be16_bytes c

theorem be32_slice_header_uid : be32 (slice (headerBytes v c uid sq ++ payload) 6 10) = uid := by
  rw [headerBytes_eq]
  exact be32_bytes uid

theorem be32_slice_header_seq : be32 (slice (headerBytes v c uid sq ++ payload) 10 14) = sq := by
  rw [headerBytes_eq]
  exact be32_bytes sq

/-- The CRC of a block with a stamped header is the CRC that BLK_SEAL computes: its own field counts as zero
(R123, R136). -/
theorem crcBlock_header (hlen : payload.length = v.payloadLen) :
    crcBlock (headerBytes v c uid sq ++ payload) v = sealCrc v uid sq payload := by
  have hsize := (blockSize_facts v).2.2.2
  have hrest : slice (headerBytes v c uid sq ++ payload) 6 v.blockSize =
      (headerBytes v c uid sq).drop 6 ++ payload := by
    rw [slice, List.drop_append_of_le_length (by simp), List.take_of_length_le (by simp; omega)]
  rw [crcBlock, sealCrc, hrest, slice_header_magic_version, headerBytes_eq, headerBytes_eq]
  rfl

end

/-! ## BLK_SEAL (R136) -/

section

variable {s : State} {v : Version}

/-- The CRC that BLK_SEAL computes with version `v`. -/
def State.sealedCrc (s : State) (v : Version) : BitVec 16 :=
  sealCrc v (s.ARG 2) (s.ARG 3) (s.memRead (s.opNat 0 + 16) v.payloadLen)

/-- The header that BLK_SEAL stamps with version `v`. -/
def State.sealedHeader (s : State) (v : Version) : List Byte :=
  headerBytes v (s.sealedCrc v) (s.ARG 2) (s.ARG 3)

@[simp] theorem State.sealedHeader_length : (s.sealedHeader v).length = 16 := headerBytes_length _ _ _ _

/-- What BLK_SEAL stages with version `v`. -/
def State.sealStaged (s : State) (v : Version) : Staged :=
  { Staged.none with res := [(s.sealedCrc v).setWidth 32, BitVec.ofNat 32 v.blockSize],
                     writes := [(s.opNat 0, s.sealedHeader v)] }

/-- BLK_SEAL on a legal version and a block in range stages the header (R136). -/
theorem outcomeOf_blkSeal (hv : VersionArg s 1 v) (hr : s.opNat 0 + v.blockSize ≤ s.params.bufSize) :
    outcomeOf .blkSeal s = .ok (s.sealStaged v) := by
  obtain ⟨hmin, -, -, hsize⟩ := blockSize_facts v
  have hpayload : slice (s.memRead (s.opNat 0) v.blockSize) 16 v.blockSize =
      s.memRead (s.opNat 0 + 16) v.payloadLen := slice_memRead s _ _ (by omega) (le_refl _)
  simp only [outcomeOf, cmdBlkSeal, opVer_eq_ok.mpr hv, checkRange_passes (.inr hr), ok_bind, pure_eq_ok,
    hpayload]
  rfl

/-- BLK_SEAL on a legal version and a block in range completes with the header stamped (R136). -/
theorem exec_blkSeal (hv : VersionArg s 1 v) (hr : s.opNat 0 + v.blockSize ≤ s.params.bufSize) :
    exec .blkSeal s = .next (s.stage (s.sealStaged v)).completeOk := by
  rw [exec_eq_finish, outcomeOf_blkSeal hv hr, finish_ok]

/-- The 16 bytes at the block's address are the stamped header. -/
theorem bufBytes_of_sealed :
    (s.stage (s.sealStaged v)).completeOk.bufBytes (s.opNat 0) 16 = s.sealedHeader v := by
  have hread := bytesAt_store_same s.powerOns s.buf (s.opNat 0) (s.sealedHeader v)
  rwa [State.sealedHeader_length] at hread

/-- A command that reads the sealed BUF reads the header, then the payload that was sealed. -/
theorem memRead_of_sealed {u : State} (hsnap : s.snap = s.buf)
    (hu : u.snap = (s.stage (s.sealStaged v)).completeOk.buf)
    (hon : u.powerOns = (s.stage (s.sealStaged v)).completeOk.powerOns) :
    u.memRead (s.opNat 0) v.blockSize =
      s.sealedHeader v ++ s.memRead (s.opNat 0 + 16) v.payloadLen := by
  have hsize : 16 + v.payloadLen = v.blockSize := by
    have := (blockSize_facts v).2.2.2
    omega
  have hbuf : u.snap = Memory.store s.buf (s.opNat 0) (s.sealedHeader v) := hu
  have hhead : u.memRead (s.opNat 0) 16 = s.sealedHeader v := by
    rw [State.memRead, hu, hon]
    exact bufBytes_of_sealed
  have hpayload : u.memRead (s.opNat 0 + 16) v.payloadLen = s.memRead (s.opNat 0 + 16) v.payloadLen := by
    rw [State.memRead, State.memRead, hbuf, hon, hsnap, bytesAt_store_outside _ _ _ _ _ _ (by simp)]
    rfl
  rw [← hsize, memRead_add, hhead, hpayload]

end

/-- Settles O32: the checks of BLK_SEAL in their order, and the one write that it stages. -/
theorem sealStampsTheHeader : Obligations.SealStampsTheHeader := by
  refine ⟨decode_encode (i := .blkSeal) rfl, fun s => ?_⟩
  have hversion : ChecksVersion .blkSeal s 1 := checksVersion_of_opVer fun e he => by
    simp only [outcomeOf, cmdBlkSeal, he, error_bind]
  refine ⟨hversion.1, hversion.2, fun v hv hr => ?_, fun v hv hr => ?_⟩
  · have hpos := (blockSize_facts v).1
    exact fails_io (by simp only [outcomeOf, cmdBlkSeal, opVer_eq_ok.mpr hv,
      checkRange_eq_ioError (by omega) hr, ok_bind, error_bind])
  · intro payload head c
    have hhead : ∀ x, head x = headerBytes v x (s.ARG 2) (s.ARG 3) := fun x => (headerBytes_eq _ _ _ _).symm
    have hc : c = s.sealedCrc v := by
      simp only [c, hhead]
      rfl
    rw [hhead, hc]
    exact ⟨_, exec_blkSeal hv hr, completeOk_completedWith s (s.sealStaged v),
      ⟨fun a ha => bufByte_completeOk_outside (by simpa [State.sealStaged] using ha), rfl⟩,
      bufBytes_of_sealed⟩

/-! ## The verdict, clause by clause (R126) -/

section

/-- A filter takes a value that is none other than the one it names. -/
theorem any_ne_eq_false {α : Type} [DecidableEq α] {o : Option α} {x : α} :
    o.any (fun y => decide (x ≠ y)) = false ↔ ∀ y ∈ o, x = y := by
  cases o <;> simp

variable {get : Nat → Nat → List Byte} {p lim : Nat} {pv : Option Version} {uf : Option Word}
  {ref : Option (Version × Word)} {v : Version}

/-- At `p` begins a block with the magic and the version byte of `v`. -/
def KnownHeader (get : Nat → Nat → List Byte) (p lim : Nat) (v : Version) : Prop :=
  p + 4 ≤ lim ∧ get p 3 = magic ∧ get (p + 3) 1 = [v.byte]

theorem verdict_eq_noMagic (h : lim < p + 4 ∨ get p 3 ≠ magic) : verdict get p lim pv uf ref = .noMagic :=
  if_pos h

theorem verdict_eq_unknownVersion {b : Byte} (hlen : p + 4 ≤ lim) (hmagic : get p 3 = magic)
    (hbyte : get (p + 3) 1 = [b]) (hb : Version.ofByte? b = none) :
    verdict get p lim pv uf ref = .unknownVersion b := by
  rw [verdict, if_neg (by simp [hmagic, Nat.not_lt.mpr hlen])]
  simp [hbyte, hb]

/-- Behind a known header the verdict goes through the version filter, the room for the block, the CRC, the UID
filter and the reference. -/
theorem verdict_of_known (h : KnownHeader get p lim v) :
    verdict get p lim pv uf ref =
      if pv.any (fun w => decide (v ≠ w)) then .versionFiltered v
      else if lim < p + v.blockSize then .truncated v
      else if be16 (slice (get p v.blockSize) 4 6) ≠ crcBlock (get p v.blockSize) v then .crcMismatch v
      else if uf.any (fun u => decide (be32 (slice (get p v.blockSize) 6 10) ≠ u)) then .uidFiltered v
      else if ref.any (fun r =>
        decide (v ≠ r.1) || decide (be32 (slice (get p v.blockSize) 6 10) ≠ r.2)) then .uidFiltered v
      else .accept v := by
  obtain ⟨hlen, hmagic, hbyte⟩ := h
  rw [verdict, if_neg (by simp [hmagic, Nat.not_lt.mpr hlen])]
  simp only [hbyte, List.headD_cons, ofByte?_byte]

theorem verdict_eq_versionFiltered {w : Version} (h : KnownHeader get p lim v) (hne : v ≠ w) :
    verdict get p lim (some w) uf ref = .versionFiltered v := by
  rw [verdict_of_known h, if_pos (by simpa using hne)]

/-- What the version filter takes goes on to the room for the block. -/
theorem verdict_eq_truncated (h : KnownHeader get p lim v) (hpv : ∀ w ∈ pv, v = w)
    (hshort : lim < p + v.blockSize) : verdict get p lim pv uf ref = .truncated v := by
  rw [verdict_of_known h, any_ne_eq_false.mpr hpv, if_neg Bool.false_ne_true, if_pos hshort]

/-- A block for which there is room goes on to the CRC. -/
theorem verdict_eq_crcMismatch (h : KnownHeader get p lim v) (hpv : ∀ w ∈ pv, v = w)
    (hroom : p + v.blockSize ≤ lim)
    (hcrc : be16 (slice (get p v.blockSize) 4 6) ≠ crcBlock (get p v.blockSize) v) :
    verdict get p lim pv uf ref = .crcMismatch v := by
  rw [verdict_of_known h, any_ne_eq_false.mpr hpv, if_neg Bool.false_ne_true,
    if_neg (Nat.not_lt.mpr hroom), if_pos hcrc]

/-- A block that passes the CRC goes on to the UID filter. -/
theorem verdict_eq_uidFiltered {u : Word} (h : KnownHeader get p lim v) (hpv : ∀ w ∈ pv, v = w)
    (hroom : p + v.blockSize ≤ lim)
    (hcrc : be16 (slice (get p v.blockSize) 4 6) = crcBlock (get p v.blockSize) v)
    (hne : be32 (slice (get p v.blockSize) 6 10) ≠ u) :
    verdict get p lim pv (some u) ref = .uidFiltered v := by
  rw [verdict_of_known h, any_ne_eq_false.mpr hpv, if_neg Bool.false_ne_true,
    if_neg (Nat.not_lt.mpr hroom), if_neg (not_not.mpr hcrc), if_pos (by simpa using hne)]

/-- A block that passes both filters is accepted where there is no reference. -/
theorem verdict_eq_accept (h : KnownHeader get p lim v) (hpv : ∀ w ∈ pv, v = w)
    (hroom : p + v.blockSize ≤ lim)
    (hcrc : be16 (slice (get p v.blockSize) 4 6) = crcBlock (get p v.blockSize) v)
    (huid : ∀ u ∈ uf, be32 (slice (get p v.blockSize) 6 10) = u) :
    verdict get p lim pv uf none = .accept v := by
  rw [verdict_of_known h, any_ne_eq_false.mpr hpv, any_ne_eq_false.mpr huid, if_neg Bool.false_ne_true,
    if_neg (Nat.not_lt.mpr hroom), if_neg (not_not.mpr hcrc), if_neg Bool.false_ne_true]
  rfl

end

/-! ## BLK_CHECK (R137) -/

section

variable {s : State} {flags : BitVec 8} {v : Version}

/-- BLK_CHECK defines the FLAGS bits 0 and 1 (R85). -/
theorem blkCheck_wellFormed_iff : (Instr.blkCheck flags).wellFormed = true ↔ flags.toNat < 4 := by
  revert flags; decide

/-- The version that BLK_CHECK expects: `pv` under FLAGS.EV (R137). -/
def expectedVersion (flags : BitVec 8) (pv : Version) : Option Version :=
  if flags.getLsbD 0 then some pv else none

/-- The UID that BLK_CHECK expects: ARG3 under FLAGS.EU (R137). -/
def State.expectedUid (s : State) (flags : BitVec 8) : Option Word :=
  if flags.getLsbD 1 then some (s.ARG 3) else none

/-- The verdict that BLK_CHECK reaches on its region (R126, R137). -/
def State.checkVerdict (s : State) (flags : BitVec 8) (pv : Version) : Verdict :=
  verdict (fun x k => s.memRead (s.opNat 0 + x) k) 0 (s.opNat 1) (expectedVersion flags pv)
    (s.expectedUid flags) none

/-- What BLK_CHECK reports of a verdict (R137). -/
def State.checkReport (s : State) : Verdict → Except CmdError Staged
  | .accept v =>
    .ok { Staged.none with
      res := [v.byte.setWidth 32, be32 (slice (s.memRead (s.opNat 0) v.blockSize) 6 10),
              be32 (slice (s.memRead (s.opNat 0) v.blockSize) 10 14), BitVec.ofNat 32 v.blockSize,
              (be16 (slice (s.memRead (s.opNat 0) v.blockSize) 4 6)).setWidth 32] }
  | .unknownVersion b => .error (unknownVersionError b)
  | .uidFiltered v => .error { kind := .uidMismatch, info := (Verdict.uidFiltered v).code }
  | vd => .error { kind := .invalidBlock, info := vd.code }

/-- BLK_CHECK's version operand passes where it is not read or names a version. -/
theorem blkCheckVersion_passes {pv : Version} (hpv : flags.getLsbD 0 = true → VersionArg s 2 pv) :
    blkCheckVersion s flags = .ok (expectedVersion flags pv) := by
  unfold blkCheckVersion expectedVersion
  split
  · next hev =>
    rw [opXver_eq_ok.mpr (hpv hev)]
    rfl
  · rfl

/-- An argument that names no version is refused by type `xver` with Usage. -/
theorem opXver_refuses {k : Fin 8} (h : ∀ v, ¬ VersionArg s k v) : s.opXver k = .error (usageError k) := by
  rcases hx : s.opXver k with e | v
  · unfold State.opXver at hx
    split at hx
    · exact hx.symm
    · split at hx
      · exact hx.symm
      · exact absurd hx (by simp)
  · exact absurd (opXver_eq_ok.mp hx) (h v)

/-- Past its operand checks BLK_CHECK reports the verdict (R137). -/
theorem outcomeOf_blkCheck {pv : Version} (hflags : flags.toNat < 4)
    (hpv : flags.getLsbD 0 = true → VersionArg s 2 pv)
    (hrange : s.opNat 1 = 0 ∨ s.opNat 0 + s.opNat 1 ≤ s.params.bufSize) :
    outcomeOf (.blkCheck flags) s = s.checkReport (s.checkVerdict flags pv) := by
  simp only [outcomeOf, cmdBlkCheck, blkCheck_wellFormed_iff.mpr hflags, blkCheckVersion_passes hpv,
    checkRange_passes hrange, Bool.not_true, raiseIf_false, ok_bind]
  show _ = s.checkReport (verdict _ 0 (s.opNat 1) (expectedVersion flags pv) (s.expectedUid flags) none)
  unfold State.expectedUid
  cases verdict (fun x k => s.memRead (s.opNat 0 + x) k) 0 (s.opNat 1) (expectedVersion flags pv)
    (if flags.getLsbD 1 then some (s.ARG 3) else none) none <;> rfl

/-- The version that BLK_CHECK expects is the block's where FLAGS.EV is 0 or names it. -/
theorem eq_of_mem_expectedVersion {pv : Version} (h : flags.getLsbD 0 = true → v = pv) :
    ∀ w ∈ expectedVersion flags pv, v = w := by
  intro w hw
  unfold expectedVersion at hw
  split at hw
  · next hev =>
    cases hw
    exact h hev
  · cases hw

/-- The UID that BLK_CHECK expects is `uid` where FLAGS.EU is 0 or ARG3 is `uid`. -/
theorem eq_of_mem_expectedUid {uid : Word} (h : flags.getLsbD 1 = true → uid = s.ARG 3) :
    ∀ u ∈ s.expectedUid flags, uid = u := by
  intro u hu
  unfold State.expectedUid at hu
  split at hu
  · next heu =>
    cases hu
    exact h heu
  · cases hu

end

/-- Settles O33: every clause of the verdict is passed. -/
theorem checkAcceptsAValidBlock : Obligations.CheckAcceptsAValidBlock := by
  intro s flags v hflags hpv hroom hrange blk hhead hcrc huid
  have hmin := (blockSize_facts v).1
  obtain ⟨hmagic, hbyte⟩ : s.memRead (s.opNat 0) 3 = magic ∧ s.memRead (s.opNat 0 + 3) 1 = [v.byte] := by
    rw [slice_memRead s _ _ (by omega) (by omega)] at hhead
    exact List.append_inj (s₂ := magic) ((memRead_add s (s.opNat 0) 3 1).symm.trans hhead) (by simp [magic])
  have hvd : s.checkVerdict flags v = .accept v := by
    refine verdict_eq_accept ⟨by omega, hmagic, by simpa using hbyte⟩
      (eq_of_mem_expectedVersion fun _ => rfl) (by omega) ?_ (eq_of_mem_expectedUid ?_)
    · exact hcrc
    · exact huid
  refine exec_of_ok ?_
  rw [outcomeOf_blkCheck hflags hpv (.inr hrange), hvd]
  rfl

/-! ### The operand checks -/

section

variable {s : State} {flags : BitVec 8}

/-- A FLAGS bit above 1 is Usage(0x100) (R85, R104). -/
theorem blkCheck_fails_flags (hflags : 4 ≤ flags.toNat) : Fails (.blkCheck flags) s .usage 0x100#32 := by
  have hwf : (Instr.blkCheck flags).wellFormed = false :=
    Bool.eq_false_iff.mpr fun h => Nat.not_lt.mpr hflags (blkCheck_wellFormed_iff.mp h)
  exact exec_of_error (e := malformedWord) (by
    simp only [outcomeOf, cmdBlkCheck, hwf, Bool.not_false, raiseIf_true, error_bind])

/-- A bad expected version is Usage(2) (R137). -/
theorem blkCheck_fails_version (hflags : flags.toNat < 4) (hev : flags.getLsbD 0 = true)
    (hnone : ∀ v, ¬ VersionArg s 2 v) : Fails (.blkCheck flags) s .usage 2#32 := by
  have hversion : blkCheckVersion s flags = .error (usageError 2) := by
    rw [blkCheckVersion, if_pos hev, opXver_refuses hnone]
    rfl
  exact fails_usage (k := 2) (by simp only [outcomeOf, cmdBlkCheck, blkCheck_wellFormed_iff.mpr hflags,
    hversion, Bool.not_true, raiseIf_false, ok_bind, error_bind])

/-- A region out of range is IO(ARG0) (R137). -/
theorem blkCheck_fails_range {pv : Version} (hflags : flags.toNat < 4)
    (hpv : flags.getLsbD 0 = true → VersionArg s 2 pv) (hne : s.opNat 1 ≠ 0)
    (hr : s.params.bufSize < s.opNat 0 + s.opNat 1) : Fails (.blkCheck flags) s .io (s.ARG 0) :=
  fails_io (by simp only [outcomeOf, cmdBlkCheck, blkCheck_wellFormed_iff.mpr hflags,
    blkCheckVersion_passes hpv, checkRange_eq_ioError hne hr, Bool.not_true, raiseIf_false, ok_bind,
    error_bind])

end

/-- Settles O34: the operand checks in their order, then the clauses of the verdict in theirs. -/
theorem checkReportsTheFirstFailure : Obligations.CheckReportsTheFirstFailure := by
  refine ⟨fun s flags => blkCheck_fails_flags, fun s flags hflags =>
    ⟨blkCheck_fails_version hflags, fun hsome hne hr => ?_⟩, ?_⟩
  · obtain ⟨pv, hpv⟩ : ∃ pv, flags.getLsbD 0 = true → VersionArg s 2 pv := by
      by_cases hev : flags.getLsbD 0 = true
      · exact (hsome hev).imp fun _ h _ => h
      · exact ⟨.v1, fun h => absurd h hev⟩
    exact blkCheck_fails_range hflags hpv hne hr
  · intro s flags pv hflags hpv hrange get fails
    have hreport : ∀ {vd e},
        verdict get 0 (s.opNat 1) (expectedVersion flags pv) (s.expectedUid flags) none = vd →
        s.checkReport vd = .error e → fails e.kind e.info := fun hvd he =>
      exec_of_error (by rw [outcomeOf_blkCheck hflags hpv hrange, ← he, ← hvd]; rfl)
    refine ⟨fun h => ?_, fun hlen hmagic b hbyte => ⟨fun hb => ?_, fun v hv => ?_⟩⟩
    · exact hreport (verdict_eq_noMagic (by rwa [Nat.zero_add])) rfl
    · exact hreport (verdict_eq_unknownVersion (by omega) hmagic hbyte hb) rfl
    obtain rfl := ofByte?_eq_some hv
    have hknown : KnownHeader get 0 (s.opNat 1) v := ⟨by omega, hmagic, hbyte⟩
    have hmin := (blockSize_facts v).1
    have hstored : slice (get 0 v.blockSize) 4 6 = get 4 2 := slice_memRead s _ _ (by omega) (by omega)
    have huidField : slice (get 0 v.blockSize) 6 10 = get 6 4 := slice_memRead s _ _ (by omega) (by omega)
    refine ⟨fun hev hne => ?_, fun hsame => ⟨fun hshort => ?_, fun hroom => ⟨fun hcrc => ?_,
      fun hcrc heu huid => ?_⟩⟩⟩
    · have hexp : expectedVersion flags pv = some pv := if_pos hev
      exact hreport (by rw [hexp, verdict_eq_versionFiltered hknown hne]) rfl
    · exact hreport (verdict_eq_truncated hknown (eq_of_mem_expectedVersion hsame) (by omega)) rfl
    · exact hreport (verdict_eq_crcMismatch hknown (eq_of_mem_expectedVersion hsame) (by omega)
        (by rwa [hstored])) rfl
    · have hexp : s.expectedUid flags = some (s.ARG 3) := if_pos heu
      exact hreport (by rw [hexp, verdict_eq_uidFiltered hknown (eq_of_mem_expectedVersion hsame) (by omega)
        (by rwa [hstored]) (by rwa [huidField])]) rfl

/-- Settles O35: the sealed header passes every clause of the verdict, and its fields read back. -/
theorem sealedBlockIsAccepted : Obligations.SealedBlockIsAccepted := by
  intro s t u v hv hr hsnap ht hu hon hparams harg hroom hrange
  obtain rfl : (s.stage (s.sealStaged v)).completeOk = t := by
    simpa [exec_blkSeal hv hr] using ht
  have haddr : u.opNat 0 = s.opNat 0 := congrArg BitVec.toNat harg
  have hblk : u.memRead (u.opNat 0) v.blockSize =
      headerBytes v (s.sealedCrc v) (s.ARG 2) (s.ARG 3) ++ s.memRead (s.opNat 0 + 16) v.payloadLen := by
    rw [haddr]
    exact memRead_of_sealed hsnap hu hon
  have hcheck := checkAcceptsAValidBlock u 0#8 v (by decide) (by simp) hroom hrange
  simp only [hblk, slice_header_magic_version, be16_slice_header_crc, be32_slice_header_uid,
    be32_slice_header_seq, crcBlock_header v _ _ _ _ (memRead_length s _ _)] at hcheck
  exact hcheck trivial rfl (by simp)

end Sys2Proof.Machine

/-! PROOFS. BLK_KIND, LAYOUT_POS and LAYOUT_SEQ (41_block_codec.md R138-R140): their operand checks and their
results at the blocks of a group. -/

namespace Sys2Proof.Machine

open Sys2Proof

section

variable {s : State} {v : Version} {D P : Nat}

/-! ## Operands -/

/-- An argument that packs no geometry is refused by type `geom` with Usage. -/
theorem opGeom_refuses {k : Fin 8} (h : ∀ D P, ¬ GeometryArg s k D P) :
    s.opGeom k = .error (usageError k) := by
  rcases opGeom_cases s k with ⟨D, P, hok⟩ | herr
  · exact absurd (opGeom_eq_ok.mp hok) (h D P)
  · exact herr

/-- A version without parity reads no geometry. -/
theorem parityGeom_of_not_parity (hp : v.isParity = false) : parityGeom s v = .ok none := by
  simp [parityGeom, hp]

/-- A parity version reads its geometry. -/
theorem parityGeom_of_parity (hp : v.isParity = true) (hg : GeometryArg s 2 D P) :
    parityGeom s v = .ok (some (D, P)) := by
  rw [parityGeom, if_pos hp, opGeom_eq_ok.mpr hg]
  rfl

/-- A parity version refuses a bad geometry with Usage(2). -/
theorem parityGeom_refuses (hp : v.isParity = true) (hg : ∀ D P, ¬ GeometryArg s 2 D P) :
    parityGeom s v = .error (usageError 2) := by
  rw [parityGeom, if_pos hp, opGeom_refuses hg]
  rfl

/-- The burst parameter of a parity version is at most 1000. -/
theorem opBurst_of_parity {k : Fin 8} (hp : v.isParity = true) :
    s.opBurst k v = if 1000 < s.opNat k then .error (usageError k) else .ok (s.opNat k) := by
  rw [State.opBurst, if_pos hp]
  rfl

/-- The burst parameter of another version is 0. -/
theorem opBurst_of_not_parity {k : Fin 8} (hp : v.isParity = false) :
    s.opBurst k v = if s.opNat k ≠ 0 then .error (usageError k) else .ok (s.opNat k) := by
  rw [State.opBurst, if_neg (by simp [hp])]
  rfl

/-! ## BLK_KIND (R138) -/

/-- BLK_KIND past its operand checks. -/
theorem exec_blkKind {geom : Option (Nat × Nat)} {rs : List Word} (hv : VersionArg s 1 v)
    (hgeom : parityGeom s v = .ok geom) (hrs : blockKind (s.opNat 0) geom = rs) :
    ∃ t, exec .blkKind s = .next t ∧ CompletedOnly s t rs :=
  exec_of_ok (by simp only [outcomeOf, cmdBlkKind, opVer_eq_ok.mpr hv, hgeom, hrs, ok_bind, pure_eq_ok])

/-- Sequence number 0 is metadata (R138). -/
@[simp] theorem blockKind_zero (geom : Option (Nat × Nat)) :
    blockKind 0 geom = [0#32, NONE, NONE, NONE] := rfl

/-- The block at index `j` of group `g` is found by dividing by the group size. -/
theorem group_divMod {n g j : Nat} (hj : j < n) :
    (1 + g * n + j - 1) / n = g ∧ (1 + g * n + j - 1) % n = j := by
  rw [show 1 + g * n + j - 1 = g * n + j by omega]
  exact (Nat.div_mod_unique (by omega)).mpr ⟨by ring, hj⟩

/-- Block j < D of group g is a data block (R138). -/
theorem blockKind_data {g j : Nat} (hj : j < D) :
    blockKind (1 + g * (D + P) + j) (some (D, P)) =
      [1#32, BitVec.ofNat 32 g, BitVec.ofNat 32 j, BitVec.ofNat 32 (g * D + j)] := by
  obtain ⟨hdiv, hmod⟩ := group_divMod (g := g) (show j < D + P by omega)
  rw [blockKind, if_neg (by omega)]
  simp only [hdiv, hmod, if_pos hj]

/-- Block D + j of group g is parity block j (R138). -/
theorem blockKind_parity {g j : Nat} (hj : j < P) :
    blockKind (1 + g * (D + P) + D + j) (some (D, P)) =
      [2#32, BitVec.ofNat 32 g, BitVec.ofNat 32 j, NONE] := by
  obtain ⟨hdiv, hmod⟩ := group_divMod (g := g) (show D + j < D + P by omega)
  rw [Nat.add_assoc _ D j, blockKind, if_neg (by omega)]
  simp only [hdiv, hmod, if_neg (show ¬ D + j < D by omega), Nat.add_sub_cancel_left]

/-- For a version without parity every sequence number from 1 on is data (R138). -/
theorem blockKind_no_parity :
    blockKind (s.opNat 0) none =
      if s.ARG 0 = 0#32 then [0#32, NONE, NONE, NONE] else [1#32, NONE, NONE, s.ARG 0 - 1#32] := by
  by_cases h : s.ARG 0 = 0#32
  · rw [if_pos h, opNat_eq_zero.mpr h, blockKind_zero]
  · have hpos : s.opNat 0 ≠ 0 := fun h0 => h (opNat_eq_zero.mp h0)
    rw [if_neg h, blockKind, if_neg hpos, ← BitVec.ofNat_sub_ofNat_of_le _ _ (by decide) (by omega),
      ofNat_opNat]

end

/-- Settles O36: the checks of BLK_KIND, and the kind of each block of a group by division. -/
theorem kindOfASequenceNumber : Obligations.KindOfASequenceNumber := by
  refine ⟨decode_encode (i := .blkKind) rfl, fun s => checksVersion_of_opVer fun e he => ?_,
    fun s v hv hp hg => fails_usage (k := 2) ?_, fun s v hv hp => ?_, fun s v D P hv hp hg => ⟨fun hseq => ?_,
      fun g j hseq hj => ?_, fun g j hseq hj => ?_⟩⟩
  · simp only [outcomeOf, cmdBlkKind, he, error_bind]
  · simp only [outcomeOf, cmdBlkKind, opVer_eq_ok.mpr hv, parityGeom_refuses hp hg, ok_bind, error_bind]
  · exact exec_blkKind hv (parityGeom_of_not_parity hp) blockKind_no_parity
  · exact exec_blkKind hv (parityGeom_of_parity hp hg) (by rw [opNat_eq_zero.mpr hseq, blockKind_zero])
  · exact exec_blkKind hv (parityGeom_of_parity hp hg) (by rw [hseq, blockKind_data hj])
  · exact exec_blkKind hv (parityGeom_of_parity hp hg) (by rw [hseq, blockKind_parity hj])

/-! ## The operands of LAYOUT_POS and LAYOUT_SEQ (R139) -/

section

variable {s : State} {v : Version} {D P : Nat}

/-- The layout operands of a version without parity. -/
theorem layoutOperands_of_not_parity (hv : VersionArg s 1 v) (hp : v.isParity = false)
    (hB : s.ARG 3 = 0#32) : layoutOperands s = .ok (none, s.opNat 3) := by
  simp [layoutOperands, opVer_eq_ok.mpr hv, parityGeom_of_not_parity hp, opBurst_of_not_parity hp,
    opNat_eq_zero, hB]

/-- The layout operands of a parity version. -/
theorem layoutOperands_of_parity (hv : VersionArg s 1 v) (hp : v.isParity = true)
    (hg : GeometryArg s 2 D P) (hB : s.opNat 3 ≤ 1000) :
    layoutOperands s = .ok (some (D, P), s.opNat 3) := by
  simp [layoutOperands, opVer_eq_ok.mpr hv, parityGeom_of_parity hp hg, opBurst_of_parity hp,
    Nat.not_lt.mpr hB]

/-- A command that starts with the layout operands fails as their checks do, in R139's order. -/
theorem layout_checks {i : Instr} (h : ∀ s e, layoutOperands s = .error e → outcomeOf i s = .error e) :
    (∀ s : State, ChecksVersion i s 1) ∧
    ∀ (s : State) (v : Version), VersionArg s 1 v →
      (v.isParity = true → (∀ D P, ¬ GeometryArg s 2 D P) → Fails i s .usage 2#32) ∧
      (v.isParity = true → (∃ D P, GeometryArg s 2 D P) → 1000 < s.opNat 3 → Fails i s .usage 3#32) ∧
      (v.isParity = false → s.ARG 3 ≠ 0#32 → Fails i s .usage 3#32) := by
  refine ⟨fun s => checksVersion_of_opVer fun e he => h s e ?_, fun s v hv => ⟨fun hp hg =>
    fails_usage (k := 2) (h s _ ?_), fun hp ⟨D, P, hg⟩ hB => fails_usage (k := 3) (h s _ ?_), fun hp hB =>
    fails_usage (k := 3) (h s _ ?_)⟩⟩
  · simp [layoutOperands, he]
  · simp [layoutOperands, opVer_eq_ok.mpr hv, parityGeom_refuses hp hg]
  · simp [layoutOperands, opVer_eq_ok.mpr hv, parityGeom_of_parity hp hg, opBurst_of_parity hp, hB]
  · simp [layoutOperands, opVer_eq_ok.mpr hv, parityGeom_of_not_parity hp, opBurst_of_not_parity hp,
    opNat_eq_zero, hB]

theorem layoutFits_passes {x : Nat} (h : x < 2 ^ 32) : layoutFits x = .ok () :=
  raiseIf_eq_ok.mpr (decide_eq_false (by omega))

theorem layoutFits_refuses {x : Nat} (h : 2 ^ 32 ≤ x) : layoutFits x = .error (usageError 0) :=
  raiseIf_eq_error.mpr ⟨decide_eq_true (by omega), rfl⟩

end

/-! ## LAYOUT_POS (R139) -/

section

variable {s : State} {v : Version} {D P : Nat}

/-- The rule of LAYOUT_POS behind its operands. -/
theorem outcomeOf_layoutPos_parity (hops : layoutOperands s = .ok (some (D, P), s.opNat 3)) :
    outcomeOf .layoutPos s =
      if s.opNat 0 = 0 then .ok { Staged.none with res := [0#32, BitVec.ofNat 32 P] }
      else do
        layoutFits (phys D P (s.opNat 3) (s.opNat 0))
        return { Staged.none with res := [BitVec.ofNat 32 (phys D P (s.opNat 3) (s.opNat 0)), NONE] } := by
  simp only [outcomeOf, cmdLayoutPos, hops, ok_bind, pure_eq_ok]

/-- LAYOUT_POS places a sequence number from 1 on at its physical index, if that fits 32 bits. -/
theorem exec_layoutPos_place (hops : layoutOperands s = .ok (some (D, P), s.opNat 3))
    (hs : s.opNat 0 ≠ 0) {p : Nat} (hp : phys D P (s.opNat 3) (s.opNat 0) = p) :
    (p < 2 ^ 32 → ∃ t, exec .layoutPos s = .next t ∧ CompletedOnly s t [BitVec.ofNat 32 p, NONE]) ∧
    (2 ^ 32 ≤ p → Fails .layoutPos s .usage 0#32) := by
  have hout := outcomeOf_layoutPos_parity hops
  rw [if_neg hs, hp] at hout
  exact ⟨fun hfit => exec_of_ok (by rw [hout, layoutFits_passes hfit]; rfl),
    fun hbig => fails_usage (k := 0) (by rw [hout, layoutFits_refuses hbig]; rfl)⟩

end

/-- Settles O37: the shared checks, then R131's Phys at each block of a super-group. -/
theorem layoutPosFollowsTheInterleave : Obligations.LayoutPosFollowsTheInterleave := by
  obtain ⟨hversion, hchecks⟩ := layout_checks (i := .layoutPos) fun s e he => by
    simp only [outcomeOf, cmdLayoutPos, he, error_bind]
  refine ⟨decode_encode (i := .layoutPos) rfl, hversion, hchecks, fun s v hv hp hB => ?_,
    fun s v D P hv hp hg hB => ?_⟩
  · refine exec_of_ok ?_
    simp [outcomeOf, cmdLayoutPos, layoutOperands_of_not_parity hv hp hB, opNat_eq_zero]
  · have hops := layoutOperands_of_parity hv hp hg hB
    intro place
    refine ⟨fun hseq => exec_of_ok ?_, fun hseq hzero => ?_, fun q g j hlt hj hseq => ?_⟩
    · rw [outcomeOf_layoutPos_parity hops, if_pos (opNat_eq_zero.mpr hseq)]
    · have hpos : s.opNat 0 ≠ 0 := fun h => hseq (opNat_eq_zero.mp h)
      exact exec_layoutPos_place hops hpos (by rw [hzero, phys_of_no_burst (by omega)])
    · exact exec_layoutPos_place hops (by omega) (by rw [hseq, phys_of_local hlt hj])

/-! ## LAYOUT_SEQ (R140) -/

section

variable {s : State} {v : Version} {D P : Nat}

/-- The rule of LAYOUT_SEQ behind its operands. -/
theorem outcomeOf_layoutSeq_parity (hops : layoutOperands s = .ok (some (D, P), s.opNat 3)) :
    outcomeOf .layoutSeq s =
      if s.opNat 0 ≤ P then .ok { Staged.none with res := [0#32, BitVec.ofNat 32 (s.opNat 0)] }
      else do
        layoutFits (seqAt D P (s.opNat 3) (s.opNat 0))
        return { Staged.none with res := [BitVec.ofNat 32 (seqAt D P (s.opNat 3) (s.opNat 0)), NONE] } := by
  simp only [outcomeOf, cmdLayoutSeq, hops, ok_bind, pure_eq_ok]

/-- LAYOUT_SEQ reads a physical index behind the metadata as its sequence number, if that fits 32 bits. -/
theorem exec_layoutSeq_holds (hops : layoutOperands s = .ok (some (D, P), s.opNat 3))
    (hp : P < s.opNat 0) {q : Nat} (hq : seqAt D P (s.opNat 3) (s.opNat 0) = q) :
    (q < 2 ^ 32 → ∃ t, exec .layoutSeq s = .next t ∧ CompletedOnly s t [BitVec.ofNat 32 q, NONE]) ∧
    (2 ^ 32 ≤ q → Fails .layoutSeq s .usage 0#32) := by
  have hout := outcomeOf_layoutSeq_parity hops
  rw [if_neg (Nat.not_le.mpr hp), hq] at hout
  exact ⟨fun hfit => exec_of_ok (by rw [hout, layoutFits_passes hfit]; rfl),
    fun hbig => fails_usage (k := 0) (by rw [hout, layoutFits_refuses hbig]; rfl)⟩

end

/-- Settles O38: the shared checks, then R131's Seq at each local offset of a super-group. -/
theorem layoutSeqInvertsTheInterleave : Obligations.LayoutSeqInvertsTheInterleave := by
  obtain ⟨hversion, hchecks⟩ := layout_checks (i := .layoutSeq) fun s e he => by
    simp only [outcomeOf, cmdLayoutSeq, he, error_bind]
  refine ⟨decode_encode (i := .layoutSeq) rfl, hversion, hchecks, fun s v hv hp hB => ?_,
    fun s v D P hv hp hg hB => ?_⟩
  · refine exec_of_ok ?_
    simp [outcomeOf, cmdLayoutSeq, layoutOperands_of_not_parity hv hp hB, opNat_eq_zero]
  · have hops := layoutOperands_of_parity hv hp hg hB
    intro holds
    refine ⟨fun hmeta => exec_of_ok ?_, fun hdata hzero => ?_, fun q g j hlt hj hpos => ?_⟩
    · rw [outcomeOf_layoutSeq_parity hops, if_pos hmeta, ofNat_opNat]
    · exact exec_layoutSeq_holds hops hdata (by rw [hzero, seqAt_of_no_burst hdata])
    · exact exec_layoutSeq_holds hops (by omega) (by rw [hpos, seqAt_of_local hlt hj])

end Sys2Proof.Machine

/-! PROOFS. What the commands that write BUF leave alone (41_block_codec.md R136, 42_metadata_tlv.md R170, R172,
R173, 43_reed_solomon.md R208-R210). -/

namespace Sys2Proof.Machine

open Sys2Proof

section

variable {s t : State} {a : Nat}

/-- A byte that no staged write of a command covers reads as before, whatever the command's outcome. -/
theorem bufByte_exec_outside {i : Instr} (h : exec i s = .next t)
    (hout : ∀ st, outcomeOf i s = .ok st → ∀ w ∈ st.writes, Outside a w.1 w.2.length) :
    t.bufByte a = s.bufByte a := by
  rw [exec_eq_finish, Host.Outcome.next.injEq] at h
  subst h
  cases hr : outcomeOf i s with
  | ok st => exact bufByte_completeOk_outside (hout st hr)
  | error e => rfl

/-- A value length operand is the argument's value (R82). -/
theorem opTlen_eq_ok {k : Fin 8} {len : Nat} (h : s.opTlen k = .ok len) : len = s.opNat k := by
  unfold State.opTlen at h
  dsimp only at h
  split at h
  · cases h
  · cases h
    rfl

/-- BLK_SEAL writes the 16 header bytes (R136). -/
theorem blkSeal_region (h : exec .blkSeal s = .next t) (ha : Outside a (s.opNat 0) 16) :
    t.bufByte a = s.bufByte a := by
  refine bufByte_exec_outside h fun st hst => ?_
  obtain ⟨v, c, -, -, hw, -⟩ := cmdBlkSeal_ok hst
  simpa [hw] using ha

/-- TLV_PARSE writes inside its directory (R168, R170). -/
theorem tlvParse_region (h : exec .tlvParse s = .next t) (ha : Outside a (s.opNat 2) (8 * s.opNat 3)) :
    t.bufByte a = s.bufByte a := by
  refine bufByte_exec_outside h fun st hst w hmem => ?_
  obtain ⟨v, recs, stop, -, -, -, -, hw, -⟩ := cmdTlvParse_ok hst
  rw [hw] at hmem
  obtain ⟨hlo, hlen, hhi⟩ := dirWrites_region w hmem
  have htake : (recs.take (s.opNat 3)).length ≤ s.opNat 3 := by simp
  unfold Outside at ha ⊢
  omega

/-- TLV_APPEND writes one record at the cursor (R172). -/
theorem tlvAppend_region (h : exec .tlvAppend s = .next t)
    (ha : Outside a (s.opNat 0 + s.opNat 3) (4 + s.opNat 4)) : t.bufByte a = s.bufByte a := by
  refine bufByte_exec_outside h fun st hst => ?_
  obtain ⟨v, tag, len, -, hlen, -, -, hw, -⟩ := cmdTlvAppend_ok hst
  obtain rfl := opTlen_eq_ok hlen
  simpa [hw] using ha

/-- TLV_PAD writes from the cursor to the end of the payload (R173). -/
theorem tlvPad_region {v : Version} (h : exec .tlvPad s = .next t) (hv : VersionArg s 1 v)
    (ha : Outside a (s.opNat 0 + s.opNat 3) (v.payloadLen - s.opNat 3)) : t.bufByte a = s.bufByte a := by
  refine bufByte_exec_outside h fun st hst => ?_
  obtain ⟨v', hv', -, -, hw, -⟩ := cmdTlvPad_ok hst
  obtain rfl := versionArg_unique hv hv'
  simpa [hw] using ha

/-! ## The shards that an RS command writes -/

variable {v : Version} {D P : Nat}

/-- RS_ENCODE writes its parity shards (R208). -/
theorem rsEncode_region (h : exec .rsEncode s = .next t) (hv : VersionArg s 2 v) (hg : GeometryArg s 3 D P)
    (ha : ∀ j, j < P → Outside a (s.shardAddr (D + j)) v.payloadLen) : t.bufByte a = s.bufByte a := by
  refine bufByte_exec_outside h fun st hst w hmem => ?_
  obtain ⟨L, D', P', hops, hw, -⟩ := cmdRsEncode_ok hst
  obtain ⟨rfl, rfl, rfl⟩ := rsOperands_unique hops hv hg
  rw [hw] at hmem
  obtain ⟨j, hj, rfl⟩ := List.mem_map.mp hmem
  rw [parityShard_length (L := v.payloadLen) (by simp)]
  exact ha j (List.mem_range.mp hj)

/-- A missing shard is one of the shards and its bit of the mask is 0 (R31). -/
theorem mem_missingShards {n m : Nat} : m ∈ s.missingShards n ↔ m < n ∧ s.mask m = false := by
  simp [State.missingShards]

/-- RS_RECON writes the missing shards (R209). -/
theorem rsRecon_region (h : exec .rsRecon s = .next t) (hv : VersionArg s 2 v) (hg : GeometryArg s 3 D P)
    (ha : ∀ i, i < D + P → s.mask i = false → Outside a (s.shardAddr i) v.payloadLen) :
    t.bufByte a = s.bufByte a := by
  refine bufByte_exec_outside h fun st hst w hmem => ?_
  obtain ⟨L, D', P', hops, -, hw, -⟩ := cmdRsRecon_ok hst
  obtain ⟨rfl, rfl, rfl⟩ := rsOperands_unique hops hv hg
  obtain ⟨hnum, hlen⟩ := reconData_lengths (M := encMatrix D' P') (D := D') (L := v.payloadLen)
    (present := s.presentShards (D' + P')) (shard_length s v.payloadLen)
  rw [hw] at hmem
  obtain ⟨m, hm, rfl⟩ := List.mem_map.mp hmem
  obtain ⟨hlt, hmask⟩ := mem_missingShards.mp hm
  rw [reconShard_length hnum hlen]
  exact ha m hlt hmask

/-- RS_VOTE writes the missing copies (R210). -/
theorem rsVote_region (h : exec .rsVote s = .next t) (hv : VersionArg s 2 v) (hg : GeometryArg s 3 D P)
    (ha : ∀ i, i < D + P → s.mask i = false → Outside a (s.shardAddr i) v.payloadLen) :
    t.bufByte a = s.bufByte a := by
  refine bufByte_exec_outside h fun st hst w hmem => ?_
  obtain ⟨v', P', hv', -, hg', -, hw, -⟩ := cmdRsVote_ok hst
  obtain rfl := versionArg_unique hv hv'
  obtain ⟨rfl, rfl⟩ := geometryArg_unique hg hg'
  rw [hw] at hmem
  obtain ⟨m, hm, rfl⟩ := List.mem_map.mp hmem
  obtain ⟨hlt, hmask⟩ := mem_missingShards.mp hm
  rw [shard_length]
  exact ha m hlt hmask

end

/-- Settles O14: each command's staged writes lie in the regions that its rule names. -/
theorem writersStayInTheirRegions : Obligations.WritersStayInTheirRegions := by
  refine fun s t => ⟨fun h _ => blkSeal_region h, fun h _ => tlvParse_region h, fun h _ => tlvAppend_region h,
    fun h v hv _ => tlvPad_region h hv, fun h v D P hv hg _ => rsEncode_region h hv hg, ?_⟩
  rintro (h | h) v D P hv hg a ha
  · exact rsRecon_region h hv hg ha
  · exact rsVote_region h hv hg ha

end Sys2Proof.Machine

/-! PROOFS. What the TLV and multihash commands share (30_encoding.md R82, 42_metadata_tlv.md R164-R166): their
operand checks, a completion that stages one write, and the two ends that a parse of a payload can have. -/

namespace Sys2Proof.Machine

open Sys2Proof

section

variable {s : State} {i : Instr} {k : Fin 8}

/-! ## Operands -/

/-- A tag operand is 24 bits. -/
theorem opTag_passes (h : (s.ARG k).extractLsb' 24 8 = 0#8) :
    s.opTag k = .ok ((s.ARG k).extractLsb' 0 24) := by simp [State.opTag, h]

/-- A tag operand above 24 bits is Usage(k). -/
theorem opTag_refuses (h : (s.ARG k).extractLsb' 24 8 ≠ 0#8) : s.opTag k = .error (usageError k) := by
  simp [State.opTag, h]

/-- A value length is at most 255. -/
theorem opTlen_passes (h : s.opNat k ≤ 255) : s.opTlen k = .ok (s.opNat k) := if_neg (Nat.not_lt.mpr h)

/-- A value length above 255 is Usage(k). -/
theorem opTlen_refuses (h : 255 < s.opNat k) : s.opTlen k = .error (usageError k) := if_pos h

/-- A payload has at least 112 bytes, so it is never an empty region (R6). -/
theorem payloadLen_pos (v : Version) : v.payloadLen ≠ 0 := by cases v <;> decide

/-! ## Outcomes -/

/-- A rule that raises MetadataMalformed at an offset fails so. -/
theorem fails_malformed {off : Nat} (h : outcomeOf i s = .error (malformedError off)) :
    Fails i s .metadataMalformed (BitVec.ofNat 32 off) := exec_of_error h

/-- A rule that stages writes into the n bytes from `r` on, and no scanner registers, completes with no other
byte written. -/
theorem exec_of_writes {st : Staged} {r n : Nat} (h : outcomeOf i s = .ok st) (hscan : st.scan = none)
    (hin : ∀ w ∈ st.writes, r ≤ w.1 ∧ w.1 + w.2.length ≤ r + n) :
    exec i s = .next (s.stage st).completeOk ∧ CompletedWith s (s.stage st).completeOk st.res ∧
      WroteOnly s (s.stage st).completeOk r n := by
  refine ⟨by rw [exec_eq_finish, h, finish_ok], completeOk_completedWith s st, fun a ha => ?_, ?_⟩
  · refine bufByte_completeOk_outside fun w hw => ?_
    have := hin w hw
    unfold Outside at ha ⊢
    omega
  · simp [hscan]

/-- A rule that stages one write completes with it, and the bytes written read back. -/
theorem exec_of_write {rs : List Word} {a n : Nat} {bs : List Byte}
    (h : outcomeOf i s = .ok { res := rs, writes := [(a, bs)], scan := none }) (hn : bs.length = n) :
    ∃ t, exec i s = .next t ∧ CompletedWith s t rs ∧ WroteOnly s t a n ∧ t.bufBytes a n = bs := by
  subst hn
  obtain ⟨hexec, hdone, hwrote⟩ := exec_of_writes (r := a) (n := bs.length) h rfl (by simp)
  exact ⟨_, hexec, hdone, hwrote, bytesAt_store_same s.powerOns s.buf a bs⟩

end

/-! ## The parse of a payload (R164) -/

section

variable {rs : List (Tag × List Byte)} {pl tail : List Byte} {L : Nat}

/-- A payload of admissible records and a tail at which parsing stops parses to those records. -/
theorem parseTlv_records (hpl : pl = tlvBytes rs ++ tail) (hL : pl.length = L) (hok : RecordsOk rs)
    (hstop : StopsAfter rs tail) : parseTlv pl L = .ok (tlvRecsAt 0 rs, (tlvBytes rs).length) := by
  subst hpl
  simpa [parseTlv] using parseTlvFrom_records L tail rs [] L [] (by simpa using hL) (by simp) hok (by simp) hstop

/-- Admissible records none of which is PAD, as the parse lemmas ask for them. -/
theorem RecordsOk.unseen (hok : RecordsOk rs) (hpad : ∀ r ∈ rs, r.1 ≠ tagPAD) :
    ∀ r ∈ rs, RecordOk r ∧ r.1 ∉ ([] : List Tag) ∧ r.1 ≠ tagPAD :=
  fun r hr => ⟨hok.1 r hr, List.not_mem_nil, hpad r hr⟩

theorem RecordsOk.nodup (hok : RecordsOk rs) : (rs.map Prod.fst).Nodup := hok.2.1

/-- A payload of admissible records and a refused one is MetadataMalformed at the refused record. -/
theorem parseTlv_fault (hpl : pl = tlvBytes rs ++ tail) (hL : pl.length = L) (hok : RecordsOk rs)
    (hfault : FaultAfter rs tail) : parseTlv pl L = .error (malformedError (tlvBytes rs).length) := by
  subst hpl
  obtain ⟨hpad, href⟩ := hfault
  simpa [parseTlv] using parseTlvFrom_fault L tail rs [] L [] (by simpa using hL) (by simp)
    (hok.unseen hpad) hok.nodup (by simpa using href)

end

end Sys2Proof.Machine

/-! PROOFS. TLV_PAD (42_metadata_tlv.md R166, R173): the padding that it writes, and the parse of a padded
payload. -/

namespace Sys2Proof.Machine

open Sys2Proof

/-! ## TLV_PAD (R173) -/

/-- The padding of the last bytes of a payload, written out (R166). -/
theorem padBytes_eq (R : Nat) :
    padBytes R = if 4 ≤ R then
        [0x50#8, 0x41#8, 0x44#8, BitVec.ofNat 8 (min 255 (R - 4))] ++ List.replicate (R - 4) 0#8
      else List.replicate R 0#8 := by
  rw [padBytes, show tagBytes tagPAD = [0x50#8, 0x41#8, 0x44#8] by decide]
  rfl

/-- Settles O44: the checks of TLV_PAD in their order, and the one write that it stages. -/
theorem padFillsThePayload : Obligations.PadFillsThePayload := by
  refine ⟨decode_encode (i := .tlvPad) rfl, fun s => checksVersion_of_opVer fun e he => ?_, fun s v hv => ?_⟩
  · simp only [outcomeOf, cmdTlvPad, he, error_bind]
  · have hver := opVer_eq_ok.mpr hv
    refine ⟨fun hcur => fails_usage (k := 3) ?_, fun hcur hrange => fails_io ?_, fun hcur hrange => ?_⟩
    · simp only [outcomeOf, cmdTlvPad, hver, hcur, decide_true, raiseIf_true, ok_bind, error_bind]
    · simp only [outcomeOf, cmdTlvPad, hver, Nat.not_lt.mpr hcur, decide_false, raiseIf_false,
        checkRange_eq_ioError (payloadLen_pos v) hrange, ok_bind, error_bind]
    · intro R
      have hout : outcomeOf .tlvPad s = .ok
          { res := [BitVec.ofNat 32 v.payloadLen, padLength R],
            writes := [(s.opNat 0 + s.opNat 3, padBytes R)], scan := none } := by
        simp only [outcomeOf, cmdTlvPad, hver, Nat.not_lt.mpr hcur, decide_false, raiseIf_false,
          checkRange_passes (.inr hrange), ok_bind, pure_eq_ok]
        rfl
      rw [← padBytes_eq]
      exact exec_of_write hout (padBytes_length R)

/-! ## The parse of a padded payload (R166) -/

/-- Where a PAD record fits, the padding is that record and zero fill. -/
theorem padBytes_eq_record {R : Nat} (h : 4 ≤ R) :
    padBytes R = recordBytes tagPAD (zeros (min 255 (R - 4))) ++ zeros (R - 4 - min 255 (R - 4)) := by
  have hzeros : zeros (R - 4) = zeros (min 255 (R - 4)) ++ zeros (R - 4 - min 255 (R - 4)) := by
    rw [zeros, zeros, zeros, List.replicate_append_replicate, Nat.add_sub_cancel' (Nat.min_le_right _ _)]
  rw [padBytes, if_pos h, hzeros, recordBytes, zeros_length, List.append_assoc _ (zeros _)]

/-- PAD has no fixed length and no range (R162, R165). -/
theorem recordOk_pad {val : List Byte} (hlen : val.length ≤ 255) : RecordOk (tagPAD, val) :=
  have hne : tagPAD ≠ 0#24 ∧ tagPAD ≠ tagFSZ ∧ tagPAD ≠ tagFDT ∧ tagPAD ≠ tagSDT ∧ tagPAD ≠ tagPID :=
    by decide
  ⟨hne.1, hlen, by simp [hne], by simp [hne]⟩

/-- Records without PAD stay admissible with a PAD record behind them (R163). -/
theorem RecordsOk.append_pad {rs : List (Tag × List Byte)} (hok : RecordsOk rs)
    (hpad : ∀ r ∈ rs, r.1 ≠ tagPAD) {val : List Byte} (hlen : val.length ≤ 255) :
    RecordsOk (rs ++ [(tagPAD, val)]) := by
  obtain ⟨hrec, hnodup, -⟩ := hok
  refine ⟨fun r hr => ?_, ?_, ?_⟩
  · rcases List.mem_append.mp hr with hr | hr
    · exact hrec r hr
    · obtain rfl := List.mem_singleton.mp hr
      exact recordOk_pad hlen
  · rw [List.map_append, List.nodup_append]
    refine ⟨hnodup, List.nodup_singleton _, fun t ht t' ht' => ?_⟩
    obtain ⟨r, hr, rfl⟩ := List.mem_map.mp ht
    obtain rfl := List.mem_singleton.mp ht'
    exact hpad r hr
  · simpa using hpad

/-- Settles O45: the padding is a PAD record at which the parse stops, or fewer bytes than a record needs. -/
theorem paddedPayloadParses : Obligations.PaddedPayloadParses := by
  intro rs L hok hpad hfit R
  have hlen : (tlvBytes rs ++ padBytes R).length = L := by simp [R]; omega
  split
  · rename_i hR
    have hpl : tlvBytes rs ++ padBytes R =
        tlvBytes (rs ++ [(tagPAD, zeros (min 255 (R - 4)))]) ++ zeros (R - 4 - min 255 (R - 4)) := by
      simp [padBytes_eq_record hR, tlvBytes_append, tlvBytes]
    rw [parseTlv_records hpl hlen (hok.append_pad hpad (by simp)) (.inl ⟨_, List.getLast?_concat, rfl⟩)]
    simp [tlvBytes_append, tlvBytes, Nat.add_assoc]
  · rename_i hR
    exact parseTlv_records rfl hlen hok (.inr (.inl (by simp; omega)))

end Sys2Proof.Machine

/-! PROOFS. TLV_FIND (42_metadata_tlv.md R171): where the record with a tag stands among the records of a parse,
and what the command answers for it. -/

namespace Sys2Proof.Machine

open Sys2Proof

/-! ## The record with a tag -/

section

variable {t : Tag} {val : List Byte} {before after rs : List (Tag × List Byte)}

/-- The first record with a tag is found behind records with other tags, at the offset where those end. -/
theorem find?_tlvRecsAt_of_first (hbefore : ∀ r ∈ before, r.1 ≠ t) (c : Nat) :
    (tlvRecsAt c (before ++ (t, val) :: after)).find? (fun r => r.tag == t) =
      some { tag := t, len := val.length, off := c + (tlvBytes before).length + 4,
             rc := c + (tlvBytes before).length } := by
  induction before generalizing c with
  | nil => simp [tlvRecsAt, tlvBytes]
  | cons q qs ih =>
    obtain ⟨hq, hqs⟩ := List.forall_mem_cons.mp hbefore
    rw [List.cons_append, tlvRecsAt, List.find?_cons_of_neg (by simpa using hq), ih hqs]
    simp [tlvBytes, Nat.add_assoc]

/-- No record is found for a tag that none has. -/
theorem find?_tlvRecsAt_of_absent (habsent : ∀ r ∈ rs, r.1 ≠ t) (c : Nat) :
    (tlvRecsAt c rs).find? (fun r => r.tag == t) = none := by
  induction rs generalizing c with
  | nil => rfl
  | cons q qs ih =>
    obtain ⟨hq, hqs⟩ := List.forall_mem_cons.mp habsent
    rw [tlvRecsAt, List.find?_cons_of_neg (by simpa using hq), ih hqs]

/-- No tag of admissible records occurs twice (R163). -/
theorem RecordsOk.before_ne (hok : RecordsOk (before ++ (t, val) :: after)) : ∀ r ∈ before, r.1 ≠ t := by
  obtain ⟨-, hnodup, -⟩ := hok
  rw [List.map_append, List.map_cons, List.nodup_append] at hnodup
  obtain ⟨-, -, hdisj⟩ := hnodup
  exact fun r hr => hdisj r.1 (List.mem_map_of_mem hr) t List.mem_cons_self

end

/-! ## TLV_FIND (R171) -/

section

variable {s : State} {v : Version}

/-- TLV_FIND behind its operand checks. -/
theorem outcomeOf_tlvFind (hv : VersionArg s 1 v) (htag : (s.ARG 2).extractLsb' 24 8 = 0#8)
    (hr : s.opNat 0 + v.payloadLen ≤ s.params.bufSize) :
    outcomeOf .tlvFind s =
      parseTlv (s.memRead (s.opNat 0) v.payloadLen) v.payloadLen >>= fun x =>
        .ok { Staged.none with res := findResult x.1 ((s.ARG 2).extractLsb' 0 24) } := by
  simp only [outcomeOf, cmdTlvFind, opVer_eq_ok.mpr hv, opTag_passes htag, checkRange_passes (.inr hr), ok_bind,
    pure_eq_ok]

end

/-- Settles O42: the operand checks of TLV_FIND in their order, then the two ends of the parse. -/
theorem findLocatesTheRecord : Obligations.FindLocatesTheRecord := by
  refine ⟨fun s => checksVersion_of_opVer fun e he => ?_, fun s v hv => ⟨fun htag => fails_usage (k := 2) ?_,
    fun htag hr => fails_io ?_⟩, fun s v rs tail hv htag hr hpl hok => ?_⟩
  · simp only [outcomeOf, cmdTlvFind, he, error_bind]
  · simp only [outcomeOf, cmdTlvFind, opVer_eq_ok.mpr hv, opTag_refuses htag, ok_bind, error_bind]
  · simp only [outcomeOf, cmdTlvFind, opVer_eq_ok.mpr hv, opTag_passes htag,
      checkRange_eq_ioError (payloadLen_pos v) hr, ok_bind, error_bind]
  · have hout := outcomeOf_tlvFind hv htag hr
    refine ⟨fun hstop before val after hrs => exec_of_ok ?_, fun hstop habsent => exec_of_ok ?_,
      fun hfault => fails_malformed ?_⟩
    · subst hrs
      rw [hout, parseTlv_records hpl (memRead_length _ _ _) hok hstop, ok_bind, findResult,
        find?_tlvRecsAt_of_first hok.before_ne]
      simp only [Nat.zero_add]
    · rw [hout, parseTlv_records hpl (memRead_length _ _ _) hok hstop, ok_bind, findResult,
        find?_tlvRecsAt_of_absent habsent]
    · rw [hout, parseTlv_fault hpl (memRead_length _ _ _) hok hfault, error_bind]

end Sys2Proof.Machine

/-! PROOFS. TLV_PARSE (42_metadata_tlv.md R168, R170): the presence mask, the values of PID and FSZ, and the
directory that it writes. -/

namespace Sys2Proof.Machine

open Sys2Proof

/-! ## The presence mask -/

/-- A tag's presence bit is one of 0 to 8 (R162). -/
theorem presenceBit_le (t : Tag) : presenceBit t ≤ 8 := by
  unfold presenceBit
  split_ifs <;> decide

/-- The presence bits of records are set on top of a mask. -/
theorem presence_foldl_getLsbD (recs : List TlvRec) (m : Word) (b : Nat) :
    (recs.foldl (fun m r => m ||| (1#32 <<< presenceBit r.tag)) m).getLsbD b =
      (m.getLsbD b || recs.any (fun r => presenceBit r.tag == b)) := by
  induction recs generalizing m with
  | nil => simp
  | cons r recs ih =>
    have hlt : presenceBit r.tag < 32 := by have := presenceBit_le r.tag; omega
    have hbit : (1#32 <<< presenceBit r.tag).getLsbD b = (presenceBit r.tag == b) := by
      simpa [flagBit, eq_comm, Bool.beq_eq_decide_eq] using flagBit_getLsbD true hlt b
    rw [List.foldl_cons, ih, BitVec.getLsbD_or, hbit, List.any_cons, Bool.or_assoc]

section

variable {rs : List (Tag × List Byte)}

/-- The records of a parse have the tags of the payload's records. -/
theorem tlvRecsAt_map_tag (c : Nat) : (tlvRecsAt c rs).map TlvRec.tag = rs.map Prod.fst := by
  induction rs generalizing c with
  | nil => rfl
  | cons r rs ih => rw [tlvRecsAt, List.map_cons, List.map_cons, ih]

@[simp] theorem tlvRecsAt_length (c : Nat) : (tlvRecsAt c rs).length = rs.length := by
  simpa using congrArg List.length (tlvRecsAt_map_tag (rs := rs) c)

/-- A bit of the presence mask is set exactly where a record has that presence bit (R170). -/
theorem presenceMask_getLsbD (c b : Nat) :
    (presenceMask (tlvRecsAt c rs)).getLsbD b = rs.any (fun r => presenceBit r.1 == b) := by
  have htags := congrArg (List.any · (fun t => presenceBit t == b)) (tlvRecsAt_map_tag (rs := rs) c)
  simp only [List.any_map] at htags
  rw [presenceMask, presence_foldl_getLsbD, BitVec.getLsbD_zero, Bool.false_or]
  exact htags

/-! ## The values of PID and FSZ -/

/-- The value with a tag is that of the first record with the tag, or there is none. -/
theorem valueOf_cases (rs : List (Tag × List Byte)) (t : Tag) :
    ((∀ r ∈ rs, r.1 ≠ t) ∧ valueOf rs t = none) ∨
    ∃ before val after, rs = before ++ (t, val) :: after ∧ (∀ r ∈ before, r.1 ≠ t) ∧
      valueOf rs t = some val := by
  cases hfind : rs.find? (fun r => r.1 == t) with
  | none => exact .inl ⟨by simpa using hfind, by simp [valueOf, hfind]⟩
  | some r =>
    obtain ⟨htag, before, after, hrs, hbefore⟩ := List.find?_eq_some_iff_append.mp hfind
    obtain rfl : r.1 = t := by simpa using htag
    exact .inr ⟨before, r.2, after, hrs, by simpa using hbefore, by simp [valueOf, hfind]⟩

variable {t : Tag} {val : List Byte} {before after : List (Tag × List Byte)} {tail : List Byte}

/-- The value of a record stands behind its tag and its length (R161). -/
theorem slice_value (hlen : val.length ≤ 255) :
    slice (tlvBytes (before ++ (t, val) :: after) ++ tail) ((tlvBytes before).length + 4)
      ((tlvBytes before).length + 4 + val.length) = val := by
  obtain ⟨-, -, hval⟩ := record_fields (tlvBytes before) (t, val) (tlvBytes after ++ tail) hlen
  simpa [tlvBytes_append, tlvBytes] using hval

/-- A byte of a slice is the byte at the slice's start plus its index. -/
theorem getD_slice {l : List Byte} {a n i : Nat} (hi : i < n) :
    (slice l a (a + n)).getD i 0#8 = l.getD (a + i) 0#8 := by
  simp [slice, List.getD_eq_getElem?_getD, hi]

/-- A byte of a record's value stands at its index behind the record's head. -/
theorem getD_value (hlen : val.length ≤ 255) {i : Nat} (hi : i < val.length) :
    (tlvBytes (before ++ (t, val) :: after) ++ tail).getD ((tlvBytes before).length + 4 + i) 0#8 =
      val.getD i 0#8 := by
  rw [← getD_slice hi, slice_value hlen]

/-- RES2 of TLV_PARSE is the value of PID, D below P (R170). -/
theorem pidResult_eq (hok : RecordsOk rs) :
    pidResult (tlvBytes rs ++ tail) (tlvRecsAt 0 rs) =
      (valueOf rs tagPID).elim 0#32 fun val =>
        BitVec.ofNat 32 ((val.getD 0 0#8).toNat + 256 * (val.getD 1 0#8).toNat) := by
  rcases valueOf_cases rs tagPID with ⟨habsent, hnone⟩ | ⟨before, val, after, rfl, hbefore, hsome⟩
  · rw [hnone, pidResult, find?_tlvRecsAt_of_absent habsent]
    rfl
  · obtain ⟨-, hlen, -, hpid⟩ := hok.1 (tagPID, val) (by simp)
    obtain ⟨htwo, -⟩ : val.length = 2 ∧ pidOk val = true := hpid rfl
    have hbyte {i : Nat} (hi : i < 2) := getD_value (t := tagPID) (before := before) (after := after)
      (tail := tail) hlen (htwo ▸ hi)
    rw [hsome, pidResult, find?_tlvRecsAt_of_first hbefore, Option.elim_some,
      ← hbyte (i := 0) (by decide), ← hbyte (i := 1) (by decide)]
    simp only [Nat.zero_add, Nat.add_zero]

/-- The value of a byte sequence is below 256 to its length (R12). -/
theorem beNat_lt (a : List Byte) : beNat a < 256 ^ a.length := by
  induction a using List.reverseRecOn with
  | nil => simp [beNat]
  | append_singleton a b ih =>
    have := b.isLt
    simp only [beNat, List.foldl_append, List.foldl_cons, List.foldl_nil, List.length_append,
      List.length_singleton, Nat.pow_succ] at ih ⊢
    omega

/-- The bytes of `a` count above those of `b` (R12). -/
theorem beNat_append (a b : List Byte) : beNat (a ++ b) = beNat a * 256 ^ b.length + beNat b := by
  induction b using List.reverseRecOn with
  | nil => simp [beNat]
  | append_singleton b x ih =>
    simp only [beNat, ← List.append_assoc, List.foldl_append, List.foldl_cons, List.foldl_nil,
      List.length_append, List.length_singleton, Nat.pow_succ] at ih ⊢
    rw [ih]
    ring

/-- Four bytes read as their value, which fits 32 bits (R12). -/
theorem be32_toNat {a : List Byte} (h : a.length = 4) : (be32 a).toNat = beNat a := by
  have hlt : beNat a < 2 ^ 32 := by simpa [h] using beNat_lt a
  rw [be32, BitVec.toNat_ofNat, Nat.mod_eq_of_lt hlt]

/-- Eight bytes are two words, the first four bytes above the last four (R12). -/
theorem be64_append {a b : List Byte} (ha : a.length = 4) (hb : b.length = 4) :
    be64 (a ++ b) = be32 a ++ be32 b := by
  apply BitVec.eq_of_toNat_eq
  have hlt : beNat (a ++ b) < 2 ^ 64 := by simpa [ha, hb] using beNat_lt (a ++ b)
  rw [BitVec.toNat_append, ← Nat.shiftLeft_add_eq_or_of_lt (be32 b).isLt, Nat.shiftLeft_eq, be32_toNat ha,
    be32_toNat hb, be64, BitVec.toNat_ofNat, Nat.mod_eq_of_lt hlt, beNat_append, hb,
    show 256 ^ 4 = 2 ^ 32 by norm_num]

/-- The two words of a 64-bit value are its first and its last four bytes (R12). -/
theorem be64_halves {val : List Byte} (h : val.length = 8) :
    (be64 val).extractLsb' 32 32 = be32 (val.take 4) ∧ (be64 val).extractLsb' 0 32 = be32 (val.drop 4) := by
  have hsplit := be64_append (a := val.take 4) (b := val.drop 4) (by simp [h]) (by simp [h])
  rw [List.take_append_drop] at hsplit
  rw [hsplit]
  exact ⟨BitVec.extractLsb'_append_eq_left, BitVec.extractLsb'_append_eq_right⟩

/-- RES4 and RES5 of TLV_PARSE are the first four bytes and the last four of FSZ (R170). -/
theorem fszResult_halves (hok : RecordsOk rs) :
    (fszResult (tlvBytes rs ++ tail) (tlvRecsAt 0 rs)).extractLsb' 32 32 =
      (valueOf rs tagFSZ).elim 0#32 (fun val => be32 (val.take 4)) ∧
    (fszResult (tlvBytes rs ++ tail) (tlvRecsAt 0 rs)).extractLsb' 0 32 =
      (valueOf rs tagFSZ).elim 0#32 (fun val => be32 (val.drop 4)) := by
  rcases valueOf_cases rs tagFSZ with ⟨habsent, hnone⟩ | ⟨before, val, after, rfl, hbefore, hsome⟩
  · rw [hnone, fszResult, find?_tlvRecsAt_of_absent habsent]
    simp
  · obtain ⟨-, hlen, hfixed, -⟩ := hok.1 (tagFSZ, val) (by simp)
    have height : val.length = 8 := hfixed (.inl rfl)
    have hslice := slice_value (t := tagFSZ) (before := before) (after := after) (tail := tail) hlen
    simp only [height] at hslice
    rw [hsome, fszResult, find?_tlvRecsAt_of_first hbefore]
    simp only [Nat.zero_add, hslice]
    exact be64_halves height

/-! ## The directory (R168) -/

/-- The e-th record of a parse stands where the records before it end. -/
theorem tlvRecsAt_getElem (c : Nat) {e : Nat} (he : e < rs.length) :
    (tlvRecsAt c rs)[e]? = some
      { tag := rs[e].1, len := rs[e].2.length, off := c + (tlvBytes (rs.take e)).length + 4,
        rc := c + (tlvBytes (rs.take e)).length } := by
  induction rs generalizing c e with
  | nil => simp at he
  | cons r rs ih =>
    cases e with
    | zero => simp [tlvRecsAt, tlvBytes]
    | succ e =>
      rw [tlvRecsAt, List.getElem?_cons_succ, ih _ (by simpa using he)]
      simp [tlvBytes, Nat.add_assoc]

end

/-- A read that no staged write meets gives what it gave before. -/
theorem bytesAt_applyWrites_outside {epoch : Nat} {m : Memory} {ws : List (Nat × List Byte)} {x n : Nat}
    (h : ∀ w ∈ ws, x + n ≤ w.1 ∨ w.1 + w.2.length ≤ x) :
    bytesAt epoch (applyWrites m ws) x n = bytesAt epoch m x n := by
  refine List.map_congr_left fun i hi => byteAt_applyWrites_outside fun w hw => ?_
  have := h w hw
  have := List.mem_range.mp hi
  omega

/-- Entry e of the directory reads back as the entry of record e: the entries do not overlap. -/
theorem bytesAt_dirWrites {epoch : Nat} {m : Memory} {dir e : Nat} {recs : List TlvRec} {r : TlvRec}
    (hr : recs[e]? = some r) :
    bytesAt epoch (applyWrites m (dirWrites dir recs)) (dir + 8 * e) 8 = dirEntry r := by
  induction recs generalizing m dir e with
  | nil => simp at hr
  | cons q recs ih =>
    have hcons : applyWrites m (dirWrites dir (q :: recs)) =
        applyWrites (m.store dir (dirEntry q)) (dirWrites (dir + 8) recs) := rfl
    rw [hcons]
    cases e with
    | zero =>
      obtain rfl : q = r := by simpa using hr
      rw [show dir + 8 * 0 = dir from rfl, bytesAt_applyWrites_outside fun w hw => .inl (dirWrites_region w hw).1]
      simpa using bytesAt_store_same epoch m dir (dirEntry q)
    | succ e =>
      rw [show dir + 8 * (e + 1) = dir + 8 + 8 * e by omega]
      exact ih (by simpa using hr)

/-! ## TLV_PARSE (R170) -/

section

variable {s : State} {v : Version} {rs : List (Tag × List Byte)} {tail : List Byte}

/-- What TLV_PARSE stages for the records `recs` of the payload `pl` and the stop offset. -/
def State.parseStaged (s : State) (pl : List Byte) (recs : List TlvRec) (stop : Nat) : Staged :=
  { res := [BitVec.ofNat 32 recs.length, presenceMask recs, pidResult pl recs, BitVec.ofNat 32 stop,
            (fszResult pl recs).extractLsb' 32 32, (fszResult pl recs).extractLsb' 0 32],
    writes := dirWrites (s.opNat 2) (recs.take (s.opNat 3)), scan := none }

/-- The results of TLV_PARSE for admissible records (R170). -/
theorem parseStaged_res (hok : RecordsOk rs) (stop : Nat) :
    (s.parseStaged (tlvBytes rs ++ tail) (tlvRecsAt 0 rs) stop).res =
      [BitVec.ofNat 32 rs.length, presenceMask (tlvRecsAt 0 rs),
        (valueOf rs tagPID).elim 0#32 fun val =>
          BitVec.ofNat 32 ((val.getD 0 0#8).toNat + 256 * (val.getD 1 0#8).toNat),
        BitVec.ofNat 32 stop, (valueOf rs tagFSZ).elim 0#32 fun val => be32 (val.take 4),
        (valueOf rs tagFSZ).elim 0#32 fun val => be32 (val.drop 4)] := by
  obtain ⟨hhigh, hlow⟩ := fszResult_halves (tail := tail) hok
  rw [State.parseStaged, tlvRecsAt_length, pidResult_eq hok, hhigh, hlow]

/-- TLV_PARSE behind its operand checks. -/
theorem outcomeOf_tlvParse (hv : VersionArg s 1 v) (hpay : s.opNat 0 + v.payloadLen ≤ s.params.bufSize)
    (hdir : s.opNat 3 = 0 ∨ s.opNat 2 + 8 * s.opNat 3 ≤ s.params.bufSize) :
    outcomeOf .tlvParse s =
      parseTlv (s.memRead (s.opNat 0) v.payloadLen) v.payloadLen >>= fun x =>
        .ok (s.parseStaged (s.memRead (s.opNat 0) v.payloadLen) x.1 x.2) := by
  have hdir' : 8 * s.opNat 3 = 0 ∨ s.opNat 2 + 8 * s.opNat 3 ≤ s.params.bufSize :=
    hdir.imp_left fun h => by omega
  simp only [outcomeOf, cmdTlvParse, opVer_eq_ok.mpr hv, checkRange_passes (.inr hpay), checkRange_passes hdir',
    ok_bind, pure_eq_ok]
  rfl

/-- The directory has an entry for each record, but for no more than ARG3 (R168). -/
theorem parseStaged_region (pl : List Byte) (stop : Nat) :
    ∀ w ∈ (s.parseStaged pl (tlvRecsAt 0 rs) stop).writes,
      s.opNat 2 ≤ w.1 ∧ w.1 + w.2.length ≤ s.opNat 2 + 8 * min rs.length (s.opNat 3) := by
  intro w hw
  obtain ⟨hlo, hlen, hhi⟩ := dirWrites_region w hw
  rw [List.length_take, tlvRecsAt_length] at hhi
  omega

/-- Entry e of the directory as TLV_PARSE leaves it (R168). -/
theorem bufBytes_of_parsed (pl : List Byte) (stop : Nat) {e : Nat} (he : e < rs.length)
    (hm : e < s.opNat 3) :
    (s.stage (s.parseStaged pl (tlvRecsAt 0 rs) stop)).completeOk.bufBytes (s.opNat 2 + 8 * e) 8 =
      tagBytes rs[e].1 ++ [BitVec.ofNat 8 rs[e].2.length] ++
        bytesBE ((tlvBytes (rs.take e)).length + 4) 4 := by
  have hrec : ((tlvRecsAt 0 rs).take (s.opNat 3))[e]? = _ :=
    (List.getElem?_take_of_lt hm).trans (tlvRecsAt_getElem 0 he)
  rw [Nat.zero_add] at hrec
  exact bytesAt_dirWrites (epoch := s.powerOns) (m := s.buf) (dir := s.opNat 2) hrec

end

/-- Settles O41: the operand checks of TLV_PARSE in their order, then the two ends of the parse. -/
theorem parseListsTheRecords : Obligations.ParseListsTheRecords := by
  refine ⟨fun s => checksVersion_of_opVer fun e he => ?_, fun s v hv => ⟨fun hpay => fails_io ?_,
    fun hpay hm hdir => fails_io ?_, fun hpay hdir rs tail hpl hok hfault => fails_malformed ?_⟩,
    fun s v rs tail hv hpay hdir hpl hok hstop => ?_⟩
  · simp only [outcomeOf, cmdTlvParse, he, error_bind]
  · simp only [outcomeOf, cmdTlvParse, opVer_eq_ok.mpr hv, checkRange_eq_ioError (payloadLen_pos v) hpay, ok_bind,
      error_bind]
  · simp only [outcomeOf, cmdTlvParse, opVer_eq_ok.mpr hv, checkRange_passes (.inr hpay),
      checkRange_eq_ioError (show 8 * s.opNat 3 ≠ 0 by omega) hdir, ok_bind, error_bind]
  · rw [outcomeOf_tlvParse hv hpay hdir, parseTlv_fault hpl (memRead_length _ _ _) hok hfault, error_bind]
  · have hout : outcomeOf .tlvParse s =
        .ok (s.parseStaged (tlvBytes rs ++ tail) (tlvRecsAt 0 rs) (tlvBytes rs).length) := by
      rw [outcomeOf_tlvParse hv hpay hdir, parseTlv_records hpl (memRead_length _ _ _) hok hstop, ok_bind, hpl]
    obtain ⟨hexec, hdone, hwrote⟩ := exec_of_writes hout rfl (parseStaged_region _ _)
    rw [parseStaged_res hok] at hdone
    refine ⟨_, presenceMask (tlvRecsAt 0 rs), hexec, ?_, presenceMask_getLsbD 0, hwrote, fun e he =>
      bufBytes_of_parsed _ _ (by omega) (by omega)⟩
    revert hdone
    cases valueOf rs tagPID <;> cases valueOf rs tagFSZ <;> exact id

end Sys2Proof.Machine

/-! PROOFS. TLV_APPEND (42_metadata_tlv.md R172): its operand checks, ParsePrefix of the bytes before the cursor,
and the record that it writes. -/

namespace Sys2Proof.Machine

open Sys2Proof

/-! ## ParsePrefix -/

section

variable {rs : List (Tag × List Byte)} {pl tail rest : List Byte} {lim : Nat}

/-- ParsePrefix of admissible records without PAD answers their tags. -/
theorem parseLeading_records (hpl : pl = tlvBytes rs ++ rest) (hlim : (tlvBytes rs).length = lim)
    (hok : RecordsOk rs) (hpad : ∀ r ∈ rs, r.1 ≠ tagPAD) :
    ∃ tags, parseLeading pl lim = .ok tags ∧ ∀ t, t ∈ tags ↔ t ∈ rs.map Prod.fst := by
  subst hpl
  simpa [parseLeading] using parseLeadingFrom_records lim rest rs [] (lim + 1) [] (by simpa using hlim)
    (by simp) (hok.unseen hpad) hok.nodup

/-- ParsePrefix of admissible records and bytes that are no whole record without PAD is MetadataMalformed where
those bytes begin. -/
theorem parseLeading_fault (hpl : pl = tlvBytes rs ++ tail ++ rest)
    (hlim : (tlvBytes rs ++ tail).length = lim) (hok : RecordsOk rs) (hfault : LeadingFaultAfter rs tail) :
    parseLeading pl lim = .error (malformedError (tlvBytes rs).length) := by
  subst hpl
  obtain ⟨hpad, hend⟩ := hfault
  simpa [parseLeading] using parseLeadingFrom_fault lim tail rest rs [] (lim + 1) [] (by simpa using hlim)
    (by simp) (hok.unseen hpad) hok.nodup (by simpa using hend)

end

/-- A record that is not admissible, though its tag and its length are legal operands, breaks a fixed length or the
range of PID (R165). -/
theorem lengths_of_not_recordOk {t : Tag} {val : List Byte} (h0 : t ≠ 0#24) (hlen : val.length ≤ 255)
    (h : ¬ RecordOk (t, val)) :
    ((t = tagFSZ ∨ t = tagFDT ∨ t = tagSDT) ∧ val.length ≠ 8) ∨
      (t = tagPID ∧ (val.length ≠ 2 ∨ pidOk val = false)) := by
  by_contra hno
  obtain ⟨hfixed, hpid⟩ := not_or.mp hno
  refine h ⟨h0, hlen, fun ht => by_contra fun hne => hfixed ⟨ht, hne⟩, fun ht => ⟨?_, ?_⟩⟩
  · exact by_contra fun hne => hpid ⟨ht, .inl hne⟩
  · exact by_contra fun hne => hpid ⟨ht, .inr (Bool.eq_false_iff.mpr hne)⟩

/-! ## TLV_APPEND (R172) -/

section

variable {s : State} {v : Version}

/-- A rule that raises MetadataMalformed at the offset in argument k fails with that argument. -/
theorem fails_malformed_arg {i : Instr} {k : Fin 8} (h : outcomeOf i s = .error (malformedError (s.opNat k))) :
    Fails i s .metadataMalformed (s.ARG k) := by
  rw [← ofNat_opNat]
  exact fails_malformed h

/-- Argument 2 is the tag `t`, neither PAD nor 00 00 00. -/
def AppendTagArg (s : State) (t : Tag) : Prop :=
  (s.ARG 2).extractLsb' 24 8 = 0#8 ∧ (s.ARG 2).extractLsb' 0 24 = t ∧ t ≠ tagPAD ∧ t ≠ 0#24

theorem opAppendTag_passes {t : Tag} (h : AppendTagArg s t) : opAppendTag s = .ok t := by
  obtain ⟨hhigh, rfl, hpad, h0⟩ := h
  simp [opAppendTag, opTag_passes hhigh, hpad, h0]

theorem opAppendTag_refuses (h : (s.ARG 2).extractLsb' 24 8 ≠ 0#8 ∨
    (s.ARG 2).extractLsb' 0 24 = tagPAD ∨ (s.ARG 2).extractLsb' 0 24 = 0#24) :
    opAppendTag s = .error (usageError 2) := by
  by_cases hhigh : (s.ARG 2).extractLsb' 24 8 = 0#8
  · have hbad := h.resolve_left (not_not.mpr hhigh)
    rw [opAppendTag, opTag_passes hhigh, ok_bind, decide_eq_true hbad]
    rfl
  · rw [opAppendTag, opTag_refuses hhigh, error_bind]

/-- The arguments of TLV_APPEND are legal: they name version `v`, tag `t` and the value `val`. -/
structure AppendArgs (s : State) (v : Version) (t : Tag) (val : List Byte) : Prop where
  version : VersionArg s 1 v
  tag : AppendTagArg s t
  len : s.opNat 4 ≤ 255
  payload : s.opNat 0 + v.payloadLen ≤ s.params.bufSize
  value : s.opNat 4 = 0 ∨ s.opNat 5 + s.opNat 4 ≤ s.params.bufSize
  read : s.memRead (s.opNat 5) (s.opNat 4) = val

variable {t : Tag} {val : List Byte} {rs : List (Tag × List Byte)} {rest : List Byte}

theorem AppendArgs.length_eq (h : AppendArgs s v t val) : val.length = s.opNat 4 := by
  rw [← h.read, memRead_length]

/-- TLV_APPEND behind its operand checks. -/
theorem outcomeOf_tlvAppend (h : AppendArgs s v t val) :
    outcomeOf .tlvAppend s = (do
      raiseIf (decide (v.payloadLen < s.opNat 3 + 4 + val.length)) (malformedError (s.opNat 3))
      let seen ← parseLeading (s.memRead (s.opNat 0) v.payloadLen) (s.opNat 3)
      checkRecord t val.length val seen (s.opNat 3)
      .ok { res := [BitVec.ofNat 32 (s.opNat 3 + 4 + val.length)],
            writes := [(s.opNat 0 + s.opNat 3, recordBytes t val)], scan := none }) := by
  simp only [outcomeOf, cmdTlvAppend, opVer_eq_ok.mpr h.version, opAppendTag_passes h.tag, opTlen_passes h.len,
    checkRange_passes (.inr h.payload), checkRange_passes h.value, h.read, h.length_eq, ok_bind, pure_eq_ok]
  rfl

/-- TLV_APPEND of a record that does not fit is MetadataMalformed at the cursor. -/
theorem append_fails_room (h : AppendArgs s v t val) (hroom : v.payloadLen < s.opNat 3 + 4 + val.length) :
    Fails .tlvAppend s .metadataMalformed (s.ARG 3) :=
  fails_malformed_arg (by rw [outcomeOf_tlvAppend h, decide_eq_true hroom, raiseIf_true, error_bind])

/-- TLV_APPEND of a record that fits goes on to ParsePrefix and the record check. -/
theorem outcomeOf_tlvAppend_of_room (h : AppendArgs s v t val)
    (hroom : s.opNat 3 + 4 + val.length ≤ v.payloadLen) :
    outcomeOf .tlvAppend s = (do
      let seen ← parseLeading (s.memRead (s.opNat 0) v.payloadLen) (s.opNat 3)
      checkRecord t val.length val seen (s.opNat 3)
      .ok { res := [BitVec.ofNat 32 (s.opNat 3 + 4 + val.length)],
            writes := [(s.opNat 0 + s.opNat 3, recordBytes t val)], scan := none }) := by
  rw [outcomeOf_tlvAppend h, decide_eq_false (Nat.not_lt.mpr hroom), raiseIf_false, ok_bind]

/-- TLV_APPEND behind admissible records without PAD: a record that R165 refuses is MetadataMalformed at the
cursor, and an admissible one with a new tag is written there. -/
theorem append_behind_records (h : AppendArgs s v t val) (hroom : s.opNat 3 + 4 + val.length ≤ v.payloadLen)
    (hpl : s.memRead (s.opNat 0) v.payloadLen = tlvBytes rs ++ rest) (hcur : (tlvBytes rs).length = s.opNat 3)
    (hok : RecordsOk rs) (hpad : ∀ r ∈ rs, r.1 ≠ tagPAD) :
    (¬ RecordOk (t, val) ∨ (∃ r ∈ rs, r.1 = t) → Fails .tlvAppend s .metadataMalformed (s.ARG 3)) ∧
    (RecordOk (t, val) → (∀ r ∈ rs, r.1 ≠ t) →
      ∃ u, exec .tlvAppend s = .next u ∧ CompletedWith s u [BitVec.ofNat 32 (s.opNat 3 + 4 + val.length)] ∧
        WroteOnly s u (s.opNat 0 + s.opNat 3) (4 + val.length) ∧
        u.bufBytes (s.opNat 0 + s.opNat 3) (4 + val.length) = recordBytes t val) := by
  have hout := outcomeOf_tlvAppend_of_room h hroom
  obtain ⟨tags, hparse, hmem⟩ := parseLeading_records hpl hcur hok hpad
  rw [hparse, ok_bind] at hout
  refine ⟨fun hbad => fails_malformed_arg ?_, fun hrec hnew => exec_of_write ?_ (recordBytes_length t val)⟩
  · have hrefused : ((t = tagFSZ ∨ t = tagFDT ∨ t = tagSDT) ∧ val.length ≠ 8) ∨
        (t = tagPID ∧ (val.length ≠ 2 ∨ pidOk val = false)) ∨ t ∈ tags := by
      rcases hbad with hrec | ⟨r, hr, heq⟩
      · obtain ⟨-, -, -, h0⟩ := h.tag
        exact (lengths_of_not_recordOk h0 (h.length_eq ▸ h.len) hrec).imp_right .inl
      · exact .inr (.inr ((hmem t).mpr (heq ▸ List.mem_map_of_mem hr)))
    rw [hout, checkRecord_refused hrefused, error_bind]
  · have hunseen : t ∉ tags := fun ht => by
      obtain ⟨r, hr, heq⟩ := List.mem_map.mp ((hmem t).mp ht)
      exact hnew r hr heq
    have hcheck : checkRecord t val.length val tags (s.opNat 3) = .ok () := checkRecord_new hrec hunseen _
    rw [hout, hcheck, ok_bind]

end

/-- Settles O43: the operand checks of TLV_APPEND in their order, then the bytes before the cursor, the record
check, and the one write that is staged. -/
theorem appendAddsOneRecord : Obligations.AppendAddsOneRecord := by
  refine ⟨fun s => checksVersion_of_opVer fun e he => ?_, fun s v hv => ?_⟩
  · simp only [outcomeOf, cmdTlvAppend, he, error_bind]
  intro t0 val tagBad payloadIn valueIn
  have hver := opVer_eq_ok.mpr hv
  have htag : ¬ tagBad → AppendTagArg s t0 := fun h => by
    obtain ⟨hhigh, hpad, h0⟩ : _ ∧ _ ∧ _ := by simpa only [tagBad, not_or, not_not] using h
    exact ⟨hhigh, rfl, hpad, h0⟩
  refine ⟨fun hbad => fails_usage (k := 2) ?_, fun hgood hlen => fails_usage (k := 4) ?_, fun hgood hlen => ?_⟩
  · simp only [outcomeOf, cmdTlvAppend, hver, opAppendTag_refuses hbad, ok_bind, error_bind]
  · simp only [outcomeOf, cmdTlvAppend, hver, opAppendTag_passes (htag hgood), opTlen_refuses hlen, ok_bind,
      error_bind]
  have hargs : payloadIn → valueIn → AppendArgs s v t0 val := fun hpay hval =>
    ⟨hv, htag hgood, hlen, hpay, hval, rfl⟩
  have hvalLen : val.length = s.opNat 4 := memRead_length _ _ _
  refine ⟨fun hpay => fails_io ?_, fun hpay hval => fails_io ?_, fun hpay hval hroom =>
    append_fails_room (hargs hpay hval) (hvalLen ▸ hroom), fun hpay hval hroom rs tail rest hpl hcur hok =>
    ⟨fun hfault => fails_malformed ?_, fun htail hpad => ?_⟩⟩
  · simp only [outcomeOf, cmdTlvAppend, hver, opAppendTag_passes (htag hgood), opTlen_passes hlen,
      checkRange_eq_ioError (payloadLen_pos v) (Nat.not_le.mp hpay), ok_bind, error_bind]
  · obtain ⟨hne, hout⟩ := not_or.mp hval
    simp only [outcomeOf, cmdTlvAppend, hver, opAppendTag_passes (htag hgood), opTlen_passes hlen,
      checkRange_passes (.inr hpay), checkRange_eq_ioError hne (Nat.not_le.mp hout), ok_bind, error_bind]
  · rw [outcomeOf_tlvAppend_of_room (hargs hpay hval) (hvalLen ▸ hroom),
      parseLeading_fault hpl hcur hok hfault, error_bind]
  · rw [htail, List.append_nil] at hpl hcur
    rw [← hvalLen] at hroom ⊢
    exact append_behind_records (hargs hpay hval) hroom hpl hcur hok hpad

end Sys2Proof.Machine

/-! PROOFS. MH_PARSE (42_metadata_tlv.md R167, R174): a varint read byte by byte, where one fails, and the frame of
a multihash value. -/

namespace Sys2Proof.Machine

open Sys2Proof

/-! ## Varints (R167) -/

section

variable {before rest pl : List Byte} {n : Nat}

/-- One byte of a varint: its low 7 bits are added above those read before it, and bit 7 asks for another. -/
theorem varintFrom_cons {x : Byte} (hpl : pl = before ++ x :: rest) (hn : pl.length = n)
    (start fuel value : Nat) :
    varintFrom pl n start (fuel + 1) before.length value =
      if x.getLsbD 7 then
        varintFrom pl n start fuel (before.length + 1) (value + (x &&& 0x7F#8).toNat * 2 ^ (7 * (3 - fuel)))
      else .ok (value + (x &&& 0x7F#8).toNat * 2 ^ (7 * (3 - fuel)), before.length + 1) := by
  subst hpl
  rw [List.length_append, List.length_cons] at hn
  rw [varintFrom, if_neg (by omega), getD_middle rfl]

/-- The bytes of a varint, as many as the fuel allows, are read as their value (R167). -/
theorem varintFrom_ok (start : Nat) {xs : List Byte}
    (hbit : ∀ i, ∀ h : i < xs.length, xs[i].getLsbD 7 = decide (i + 1 < xs.length)) (hpos : xs ≠ [])
    (hpl : pl = before ++ (xs ++ rest)) (hn : pl.length = n) {fuel : Nat} (hfuel : xs.length ≤ fuel)
    (hfour : fuel ≤ 4) (value : Nat) :
    varintFrom pl n start fuel before.length value =
      .ok (value + varintValue xs * 2 ^ (7 * (4 - fuel)), before.length + xs.length) := by
  induction xs generalizing before fuel value with
  | nil => exact absurd rfl hpos
  | cons x xs ih =>
    obtain ⟨fuel, rfl⟩ : ∃ m, fuel = m + 1 := ⟨fuel - 1, by simp at hfuel; omega⟩
    rw [varintFrom_cons hpl hn, varintValue, show 4 - (fuel + 1) = 3 - fuel by omega]
    have hhead : x.getLsbD 7 = decide (xs ≠ []) :=
      (hbit 0 (by simp)).trans (by simp [List.length_pos_iff])
    by_cases hxs : xs = []
    · rw [hhead, decide_eq_false (not_not.mpr hxs), if_neg Bool.false_ne_true, hxs]
      rfl
    · have htail := ih (before := before ++ [x]) (fuel := fuel)
        (fun i hi => hbit (i + 1) (by simpa using hi) |>.trans (by simp)) hxs (by simp [hpl])
        (by simpa using hfuel) (by omega) (value + (x &&& 0x7F#8).toNat * 2 ^ (7 * (3 - fuel)))
      have hfuel : 1 ≤ fuel := by
        have := List.length_pos_iff.mpr hxs
        simp at hfuel
        omega
      rw [List.length_append, List.length_singleton, show 4 - fuel = 3 - fuel + 1 by omega, Nat.mul_succ,
        Nat.pow_add] at htail
      rw [hhead, decide_eq_true hxs, if_pos rfl, htail, List.length_cons]
      congr 2
      · ring
      · omega

/-- Bytes each of which asks for another are no varint, where the fuel or the value ends with them (R167). -/
theorem varintFrom_error (start : Nat) {ys : List Byte} (hbit : ∀ y ∈ ys, y.getLsbD 7 = true)
    (hpl : pl = before ++ (ys ++ rest)) (hn : pl.length = n) {fuel : Nat}
    (hend : ys.length = fuel ∨ (ys.length < fuel ∧ rest = [])) (value : Nat) :
    varintFrom pl n start fuel before.length value = .error (malformedError start) := by
  induction ys generalizing before fuel value with
  | nil =>
    cases fuel with
    | zero => rfl
    | succ fuel =>
      obtain rfl : rest = [] := by simpa using hend
      have hle : n ≤ before.length := by simp [← hn, hpl]
      rw [varintFrom, if_pos hle]
  | cons y ys ih =>
    obtain ⟨fuel, rfl⟩ : ∃ m, fuel = m + 1 := ⟨fuel - 1, by simp at hend; omega⟩
    obtain ⟨hy, hys⟩ := List.forall_mem_cons.mp hbit
    have htail := ih (before := before ++ [y]) (fuel := fuel) hys (by simp [hpl]) (by simpa using hend)
    rw [List.length_append, List.length_singleton] at htail
    rw [varintFrom_cons hpl hn, hy, if_pos rfl, htail]

/-- A varint reads as its value, up to the offset behind it. -/
theorem varint_of_isVarint {xs : List Byte} (h : IsVarint xs) (hpl : pl = before ++ (xs ++ rest))
    (hn : pl.length = n) :
    varint pl before.length n = .ok (varintValue xs, before.length + xs.length) := by
  obtain ⟨hpos, hfour, hbit⟩ := h
  simpa [varint] using
    varintFrom_ok before.length hbit (List.length_pos_iff.mp hpos) hpl hn hfour (le_refl 4) 0

/-- Bytes that begin no varint are MetadataMalformed at the first of them. -/
theorem varint_of_unfinished {ys : List Byte} (h : Unfinished ys rest) (hpl : pl = before ++ (ys ++ rest))
    (hn : pl.length = n) : varint pl before.length n = .error (malformedError before.length) := by
  obtain ⟨hbit, hend⟩ := h
  exact varintFrom_error before.length hbit hpl hn hend 0

end

/-! ## MH_PARSE (R174) -/

section

variable {s : State}

variable {xs ys rest : List Byte}

/-- The function code of a value that begins with a varint. -/
theorem varint_code (hpl : s.memRead (s.opNat 0) (s.opNat 1) = xs ++ rest) (hx : IsVarint xs) :
    varint (s.memRead (s.opNat 0) (s.opNat 1)) 0 (s.opNat 1) = .ok (varintValue xs, xs.length) := by
  simpa using varint_of_isVarint (before := []) hx hpl (memRead_length _ _ _)

/-- MH_PARSE whose first bytes begin no varint is MetadataMalformed at offset 0. -/
theorem mhParse_fails_code (hlen : s.opNat 1 ≤ 255)
    (hr : s.opNat 1 = 0 ∨ s.opNat 0 + s.opNat 1 ≤ s.params.bufSize)
    (hpl : s.memRead (s.opNat 0) (s.opNat 1) = ys ++ rest) (hbad : Unfinished ys rest) :
    Fails .mhParse s .metadataMalformed 0#32 := by
  have hcode : varint (s.memRead (s.opNat 0) (s.opNat 1)) 0 (s.opNat 1) = .error (malformedError 0) :=
    varint_of_unfinished (before := []) hbad hpl (memRead_length _ _ _)
  exact fails_malformed (off := 0) (by
    simp only [outcomeOf, cmdMhParse, opTlen_passes hlen, checkRange_passes hr, hcode, ok_bind, error_bind])

/-- MH_PARSE whose bytes behind the function code begin no varint is MetadataMalformed at the first of them. -/
theorem mhParse_fails_length (hlen : s.opNat 1 ≤ 255) (hr : s.opNat 0 + s.opNat 1 ≤ s.params.bufSize)
    (hpl : s.memRead (s.opNat 0) (s.opNat 1) = xs ++ (ys ++ rest)) (hx : IsVarint xs)
    (hbad : Unfinished ys rest) :
    Fails .mhParse s .metadataMalformed (BitVec.ofNat 32 xs.length) := by
  have hdl := varint_of_unfinished hbad hpl (memRead_length s _ _)
  exact fails_malformed (by simp only [outcomeOf, cmdMhParse, opTlen_passes hlen, checkRange_passes (.inr hr),
    varint_code hpl hx, hdl, ok_bind, error_bind])

/-- MH_PARSE behind both varints checks the digest against the bytes that remain. -/
theorem outcomeOf_mhParse_of_varints (hlen : s.opNat 1 ≤ 255) (hr : s.opNat 0 + s.opNat 1 ≤ s.params.bufSize)
    (hpl : s.memRead (s.opNat 0) (s.opNat 1) = xs ++ (ys ++ rest)) (hx : IsVarint xs) (hy : IsVarint ys) :
    outcomeOf .mhParse s = (do
      raiseIf (decide (rest.length < varintValue ys)) (malformedError xs.length)
      .ok { Staged.none with
        res := [BitVec.ofNat 32 (varintValue xs), BitVec.ofNat 32 (varintValue ys),
                BitVec.ofNat 32 (xs.length + ys.length),
                if varintValue xs = 0x12 ∧ varintValue ys = 32 then 1#32 else 0#32,
                BitVec.ofNat 32 (rest.length - varintValue ys)] }) := by
  have hdl := varint_of_isVarint hy hpl (memRead_length s _ _)
  have hrest : s.opNat 1 - (xs.length + ys.length) = rest.length := by
    have hn : s.opNat 1 = (xs ++ (ys ++ rest)).length := by rw [← hpl, memRead_length]
    simp only [List.length_append] at hn
    omega
  simp only [outcomeOf, cmdMhParse, opTlen_passes hlen, checkRange_passes (.inr hr), varint_code hpl hx, hdl,
    hrest, ok_bind, pure_eq_ok]

end

/-- Settles O46: the operand checks of MH_PARSE in their order, then the two varints and the digest. -/
theorem multihashParses : Obligations.MultihashParses := by
  refine ⟨decode_encode (i := .mhParse) rfl, fun s hlen => fails_usage (k := 1) ?_, fun s hzero => ?_,
    fun s xs ys digest trailing hlen hr hpl hx hy hdigest => exec_of_ok ?_,
    fun s xs ys rest hlen hr hpl hx hy hshort => fails_malformed ?_, fun s hlen hne hr => fails_io ?_,
    fun s ys rest hlen hr hbad => ⟨fun hpl => mhParse_fails_code hlen (.inr hr) hpl hbad, fun xs hpl hx =>
      mhParse_fails_length hlen hr (by rw [hpl, List.append_assoc]) hx hbad⟩⟩
  · simp only [outcomeOf, cmdMhParse, opTlen_refuses hlen, error_bind]
  · have hnone : Unfinished [] [] := ⟨by simp, .inr ⟨by simp, rfl⟩⟩
    exact mhParse_fails_code (by omega) (.inl hzero) (by rw [hzero]; rfl) hnone
  · rw [List.append_assoc, List.append_assoc] at hpl
    rw [outcomeOf_mhParse_of_varints hlen hr hpl hx hy, List.length_append,
      decide_eq_false (by omega), raiseIf_false, ok_bind, ← hdigest, Nat.add_sub_cancel_left]
  · rw [List.append_assoc] at hpl
    rw [outcomeOf_mhParse_of_varints hlen hr hpl hx hy, decide_eq_true hshort, raiseIf_true, error_bind]
  · simp only [outcomeOf, cmdMhParse, opTlen_passes hlen, checkRange_eq_ioError hne hr, ok_bind, error_bind]

end Sys2Proof.Machine

/-! PROOFS. The field GF(2^8) (43_reed_solomon.md R190-R192): the product is linear over ⊕ in each argument, so its
laws need checking on the powers of x only, and the bytes are a field. -/

namespace Sys2Proof.Machine

open Sys2Proof

/-! ## Linear functions on bytes -/

/-- A function on bytes that distributes over ⊕. -/
def XorLinear (f : Byte → Byte) : Prop := ∀ a b, f (a ^^^ b) = f a ^^^ f b

/-- The bits of `a` at the positions `is`, summed: x^i for each that is set. -/
def bitSum (a : Byte) : List (Fin 8) → Byte
  | [] => 0#8
  | i :: is => (if a.getLsbD i.val then 1#8 <<< i.val else 0#8) ^^^ bitSum a is

/-- A byte is the sum of its bits. -/
theorem bitSum_finRange (a : Byte) : bitSum a (List.finRange 8) = a := by
  revert a
  decide

namespace XorLinear

variable {f g : Byte → Byte}

theorem map_zero (hf : XorLinear f) : f 0#8 = 0#8 := by
  simpa using hf 0#8 0#8

theorem comp (hf : XorLinear f) (hg : XorLinear g) : XorLinear (f ∘ g) := fun a b =>
  (congrArg f (hg a b)).trans (hf _ _)

/-- Two linear functions that agree on the powers of x agree. -/
theorem eq_of_basis (hf : XorLinear f) (hg : XorLinear g)
    (h : ∀ i : Fin 8, f (1#8 <<< i.val) = g (1#8 <<< i.val)) (a : Byte) : f a = g a := by
  have hsum : ∀ is : List (Fin 8), f (bitSum a is) = g (bitSum a is) := by
    intro is
    induction is with
    | nil => exact hf.map_zero.trans hg.map_zero.symm
    | cons i is ih =>
      rw [bitSum, hf, hg, ih]
      split
      · rw [h]
      · rw [hf.map_zero, hg.map_zero]
  simpa only [bitSum_finRange] using hsum (List.finRange 8)

end XorLinear

/-! ## The product (R190) -/

/-- Multiplication by x is linear. -/
theorem gfDouble_linear : XorLinear gfDouble := by
  intro a b
  have hred : ∀ p q : Bool, (if (p ^^ q) = true then 0x1D#8 else 0#8) =
      (if p = true then 0x1D#8 else 0#8) ^^^ (if q = true then 0x1D#8 else 0#8) := by decide
  have hdouble : ∀ c : Byte, gfDouble c = (c <<< 1) ^^^ (if c.msb = true then 0x1D#8 else 0#8) := fun c => by
    unfold gfDouble
    split <;> simp
  rw [hdouble, hdouble, hdouble, BitVec.msb_xor, hred, BitVec.shiftLeft_xor_distrib]
  ac_rfl

/-- One round of the loop of R190. -/
theorem gmulLoop_succ (n : Nat) (a b p : Byte) :
    gmulLoop (n + 1) a b p =
      gmulLoop n (gfDouble a) (b >>> 1) (p ^^^ (if b.getLsbD 0 then a else 0#8)) := by
  rw [gmulLoop]
  split <;> simp

theorem gmulLoop_xor_left (n : Nat) (a a' b p p' : Byte) :
    gmulLoop n (a ^^^ a') b (p ^^^ p') = gmulLoop n a b p ^^^ gmulLoop n a' b p' := by
  induction n generalizing a a' b p p' with
  | zero => rfl
  | succ n ih =>
    have hadd : (if b.getLsbD 0 then a ^^^ a' else 0#8) =
        (if b.getLsbD 0 then a else 0#8) ^^^ (if b.getLsbD 0 then a' else 0#8) := by
      split <;> simp
    rw [gmulLoop_succ, gmulLoop_succ, gmulLoop_succ, gfDouble_linear, hadd, ← ih]
    congr 1
    ac_rfl

theorem gmulLoop_xor_right (n : Nat) (a b b' p p' : Byte) :
    gmulLoop n a (b ^^^ b') (p ^^^ p') = gmulLoop n a b p ^^^ gmulLoop n a b' p' := by
  induction n generalizing a b b' p p' with
  | zero => rfl
  | succ n ih =>
    have hadd : (if (b ^^^ b').getLsbD 0 then a else 0#8) =
        (if b.getLsbD 0 then a else 0#8) ^^^ (if b'.getLsbD 0 then a else 0#8) := by
      rw [BitVec.getLsbD_xor]
      cases b.getLsbD 0 <;> cases b'.getLsbD 0 <;> simp
    rw [gmulLoop_succ, gmulLoop_succ, gmulLoop_succ, hadd, BitVec.ushiftRight_xor_distrib, ← ih]
    congr 1
    ac_rfl

theorem gmul_linear_left (b : Byte) : XorLinear (fun a => gmul a b) := fun a a' =>
  gmulLoop_xor_left 8 a a' b 0#8 0#8

theorem gmul_linear_right (a : Byte) : XorLinear (gmul a) := fun b b' =>
  gmulLoop_xor_right 8 a b b' 0#8 0#8

theorem gmul_comm (a b : Byte) : gmul a b = gmul b a := by
  have hbasis : ∀ i j : Fin 8, gmul (1#8 <<< i.val) (1#8 <<< j.val) = gmul (1#8 <<< j.val) (1#8 <<< i.val) := by
    decide
  exact (gmul_linear_left b).eq_of_basis (gmul_linear_right b) (fun i =>
    (gmul_linear_right _).eq_of_basis (gmul_linear_left _) (hbasis i) b) a

theorem gmul_assoc (a b c : Byte) : gmul (gmul a b) c = gmul a (gmul b c) := by
  have hbasis : ∀ i j k : Fin 8, gmul (gmul (1#8 <<< i.val) (1#8 <<< j.val)) (1#8 <<< k.val) =
      gmul (1#8 <<< i.val) (gmul (1#8 <<< j.val) (1#8 <<< k.val)) := by
    decide
  refine ((gmul_linear_left c).comp (gmul_linear_left b)).eq_of_basis (gmul_linear_left _) (fun i => ?_) a
  refine ((gmul_linear_left c).comp (gmul_linear_right _)).eq_of_basis
    ((gmul_linear_right _).comp (gmul_linear_left c)) (fun j => ?_) b
  exact (gmul_linear_right _).eq_of_basis ((gmul_linear_right _).comp (gmul_linear_right _)) (hbasis i j) c

@[simp] theorem gmul_zero (a : Byte) : gmul a 0#8 = 0#8 := (gmul_linear_right a).map_zero

@[simp] theorem zero_gmul (a : Byte) : gmul 0#8 a = 0#8 := (gmul_linear_left a).map_zero

@[simp] theorem one_gmul (a : Byte) : gmul 1#8 a = a :=
  (gmul_linear_right 1#8).eq_of_basis (g := id) (fun _ _ => rfl) (by decide) a

@[simp] theorem gmul_one (a : Byte) : gmul a 1#8 = a := (gmul_comm a 1#8).trans (one_gmul a)

/-- inv(a) is an inverse of a (R192). -/
theorem gmul_ginv {a : Byte} (ha : a ≠ 0#8) : gmul a (ginv a) = 1#8 := by
  revert a
  decide +kernel

/-- No other byte is an inverse of a (R192). -/
theorem eq_ginv_of_gmul_eq_one {a c : Byte} (ha : a ≠ 0#8) (h : gmul a c = 1#8) : c = ginv a := by
  calc c = gmul (gmul a (ginv a)) c := by rw [gmul_ginv ha, one_gmul]
    _ = gmul (ginv a) (gmul a c) := by rw [gmul_comm a, gmul_assoc]
    _ = ginv a := by rw [h, gmul_one]

/-! ## The bytes as a field -/

/-- The bytes with the operations of R190 and R192 in place of the arithmetic of BitVec. -/
def Gf : Type := Byte

/-- GF(2^8): addition is ⊕, multiplication gmul, and inv(a) is a^254 (R190, R192). -/
@[reducible] def gfField : Field Gf where
  add a b := BitVec.xor a b
  add_assoc := BitVec.xor_assoc
  zero := 0#8
  zero_add _ := BitVec.zero_xor
  add_zero _ := BitVec.xor_zero
  nsmul := @nsmulRec _ ⟨0#8⟩ ⟨BitVec.xor⟩
  neg a := a
  zsmul := @zsmulRec _ ⟨0#8⟩ ⟨BitVec.xor⟩ ⟨fun a => a⟩ (@nsmulRec _ ⟨0#8⟩ ⟨BitVec.xor⟩)
  neg_add_cancel _ := BitVec.xor_self
  add_comm := BitVec.xor_comm
  mul := gmul
  left_distrib := gmul_linear_right
  right_distrib a b c := gmul_linear_left c a b
  zero_mul := zero_gmul
  mul_zero := gmul_zero
  mul_assoc := gmul_assoc
  one := 1#8
  one_mul := one_gmul
  mul_one := gmul_one
  mul_comm := gmul_comm
  inv := ginv
  exists_pair_ne := ⟨0#8, 1#8, (by decide : (0#8 : Byte) ≠ 1#8)⟩
  mul_inv_cancel _ := gmul_ginv
  inv_zero := (by decide : ginv 0#8 = 0#8)
  nnqsmul := _
  nnqsmul_def _ _ := rfl
  qsmul := _
  qsmul_def _ _ := rfl

end Sys2Proof.Machine

/-! PROOFS. GF_MUL and GF_INV (43_reed_solomon.md R205, R206): their operand checks and their results. -/

namespace Sys2Proof.Machine

open Sys2Proof

section

variable {s : State} {k : Fin 8} {a b : Byte}

/-! ## Byte operands (R82) -/

/-- An argument has no bit above its low byte exactly when it is at most 255. -/
theorem high24_eq_zero (w : Word) : w.extractLsb' 8 24 = 0#24 ↔ w.toNat ≤ 255 := by
  rw [← BitVec.toNat_inj, BitVec.extractLsb'_toNat, Nat.shiftRight_eq_div_pow]
  have := w.isLt
  simp only [BitVec.toNat_ofNat, Nat.zero_mod]
  omega

/-- A byte operand is at most 255. -/
theorem opByte_passes (h : s.opNat k ≤ 255) : s.opByte k = .ok (lowByte (s.ARG k)) :=
  if_neg (not_not.mpr ((high24_eq_zero _).mpr h))

/-- A byte operand above 255 is Usage(k). -/
theorem opByte_refuses (h : 255 < s.opNat k) : s.opByte k = .error (usageError k) :=
  if_pos (mt (high24_eq_zero _).mp (Nat.not_le.mpr h))

/-- An argument that holds a byte is that byte as an operand. -/
theorem opByte_of_byte (h : s.ARG k = a.setWidth 32) : s.opByte k = .ok a := by
  have hlow : lowByte (s.ARG k) = a := by
    rw [h, lowByte]
    apply BitVec.eq_of_toNat_eq
    simp [BitVec.extractLsb'_toNat]
    omega
  have hle : s.opNat k ≤ 255 := by
    rw [State.opNat, h, BitVec.toNat_setWidth]
    omega
  rw [opByte_passes hle, hlow]

/-! ## GF_MUL (R205) -/

theorem exec_gfMul (ha : s.ARG 0 = a.setWidth 32) (hb : s.ARG 1 = b.setWidth 32) :
    ∃ t, exec .gfMul s = .next t ∧ CompletedOnly s t [(gmul a b).setWidth 32] :=
  exec_of_ok (by
    simp only [outcomeOf, cmdGfMul, opByte_of_byte ha, opByte_of_byte hb, ok_bind, pure_eq_ok])

theorem gfMul_refuses_first (h : 255 < s.opNat 0) : Fails .gfMul s .usage 0#32 :=
  fails_usage (k := 0) (by simp only [outcomeOf, cmdGfMul, opByte_refuses h, error_bind])

theorem gfMul_refuses_second (h0 : s.opNat 0 ≤ 255) (h1 : 255 < s.opNat 1) : Fails .gfMul s .usage 1#32 :=
  fails_usage (k := 1) (by
    simp only [outcomeOf, cmdGfMul, opByte_passes h0, opByte_refuses h1, ok_bind, error_bind])

/-! ## GF_INV (R206) -/

theorem exec_gfInv (ha : s.ARG 0 = a.setWidth 32) (hne : a ≠ 0#8) :
    ∃ t, exec .gfInv s = .next t ∧ CompletedOnly s t [(ginv a).setWidth 32] :=
  exec_of_ok (by
    simp only [outcomeOf, cmdGfInv, opByte_of_byte ha, decide_eq_false hne, raiseIf_false, ok_bind, pure_eq_ok])

/-- 0 has no inverse. -/
theorem gfInv_refuses_zero (h : s.opNat 0 = 0) : Fails .gfInv s .usage 0#32 := by
  have hbyte : s.opByte 0 = .ok 0#8 := opByte_of_byte (a := 0#8) (opNat_eq_zero.mp h)
  exact fails_usage (k := 0) (by
    simp only [outcomeOf, cmdGfInv, hbyte, decide_true, raiseIf_true, ok_bind, error_bind])

theorem gfInv_refuses_large (h : 255 < s.opNat 0) : Fails .gfInv s .usage 0#32 :=
  fails_usage (k := 0) (by simp only [outcomeOf, cmdGfInv, opByte_refuses h, error_bind])

end

/-! ## Statements about the field -/

/-- Settles O47: the operand checks of GF_MUL in their order, and the laws of the product. -/
theorem gfMulIsTheFieldProduct : Obligations.GfMulIsTheFieldProduct :=
  ⟨decode_encode (i := .gfMul) rfl,
    fun _ => ⟨gfMul_refuses_first, gfMul_refuses_second, fun _ _ => exec_gfMul⟩,
    gmul_comm, gmul_assoc, gmul_linear_right, fun a => ⟨zero_gmul a, one_gmul a⟩, by decide⟩

/-- Settles O48: GF_INV answers a^254, the only inverse of its argument. -/
theorem gfInvCommand : Obligations.GfInvCommand := by
  refine ⟨decode_encode (i := .gfInv) rfl, fun s => ⟨?_, fun a hne ha => ?_⟩⟩
  · rintro (hzero | hlarge)
    · exact gfInv_refuses_zero hzero
    · exact gfInv_refuses_large hlarge
  · obtain ⟨t, hexec, hdone⟩ := exec_gfInv ha hne
    exact ⟨t, ginv a, hexec, hdone, gmul_ginv hne, fun c => eq_ginv_of_gmul_eq_one hne⟩

end Sys2Proof.Machine

/-! PROOFS. Vectors and matrices over GF(2^8) (43_reed_solomon.md R194, R200): the bytes map one-to-one into a field
of Mathlib, a sum over ⊕ to a sum there, and the lists of rows to matrices there. -/

namespace Sys2Proof.Machine

open Sys2Proof

/-! ## Bytes in a field -/

/-- A one-to-one map of the bytes into a field that takes ⊕ to + and ⊗ to *. -/
structure IsGfEmbedding {K : Type} [Field K] (φ : Byte → K) : Prop where
  injective : Function.Injective φ
  map_xor : ∀ a b, φ (a ^^^ b) = φ a + φ b
  map_gmul : ∀ a b, φ (gmul a b) = φ a * φ b
  map_one : φ 1#8 = 1

/-- There is such a map: the bytes are a field themselves. -/
theorem exists_gfEmbedding : ∃ (K : Type) (_ : Field K) (φ : Byte → K), IsGfEmbedding φ :=
  ⟨Gf, gfField, id, @IsGfEmbedding.mk Gf gfField id Function.injective_id (fun _ _ => rfl) (fun _ _ => rfl) rfl⟩

/-- The sum over ⊕ of `f 0`, .., `f (n - 1)`. -/
def xorSum (n : Nat) (f : Nat → Byte) : Byte := (List.range n).foldl (fun acc k => acc ^^^ f k) 0#8

@[simp] theorem xorSum_zero (f : Nat → Byte) : xorSum 0 f = 0#8 := rfl

theorem xorSum_succ (n : Nat) (f : Nat → Byte) : xorSum (n + 1) f = xorSum n f ^^^ f n := by
  simp [xorSum, List.range_succ]

/-- Element r of the product X · v of a matrix and a column, `n` elements of it (R194, R200). -/
def gfApply (n : Nat) (X : GfMatrix) (v : Nat → Byte) (r : Nat) : Byte :=
  xorSum n fun k => gmul (gfEntry X r k) (v k)

theorem gfApply_congr {n r : Nat} {X : GfMatrix} {v w : Nat → Byte} (h : ∀ k, k < n → v k = w k) :
    gfApply n X v r = gfApply n X w r := by
  have hsum : ∀ m, m ≤ n → xorSum m (fun k => gmul (gfEntry X r k) (v k)) =
      xorSum m (fun k => gmul (gfEntry X r k) (w k)) := by
    intro m hm
    induction m with
    | zero => rfl
    | succ m ih => rw [xorSum_succ, xorSum_succ, ih (by omega), h m (by omega)]
  exact hsum n le_rfl

namespace IsGfEmbedding

variable {K : Type} [Field K] {φ : Byte → K} (hφ : IsGfEmbedding φ)

include hφ

theorem map_zero : φ 0#8 = 0 := by
  simpa using hφ.map_xor 0#8 0#8

/-- Every byte is its own negative. -/
theorem add_self (a : Byte) : φ a + φ a = 0 := by
  rw [← hφ.map_xor, BitVec.xor_self, hφ.map_zero]

theorem map_xor_eq_sub (a b : Byte) : φ (a ^^^ b) = φ a - φ b := by
  rw [hφ.map_xor, sub_eq_add_neg, neg_eq_of_add_eq_zero_left (hφ.add_self b)]

theorem map_gexp (a : Byte) (k : Nat) : φ (gexp a k) = φ a ^ k := by
  induction k with
  | zero => exact hφ.map_one.trans (pow_zero _).symm
  | succ k ih => rw [gexp, hφ.map_gmul, ih, pow_succ]

theorem map_xorSum (n : Nat) (f : Nat → Byte) : φ (xorSum n f) = ∑ k : Fin n, φ (f k) := by
  induction n with
  | zero => simpa using hφ.map_zero
  | succ n ih => rw [xorSum_succ, hφ.map_xor, ih, Fin.sum_univ_castSucc]; rfl

end IsGfEmbedding

/-! ## Rows and columns -/

/-- A row of a matrix is one of its rows. -/
theorem getD_mem {X : GfMatrix} {r : Nat} (h : r < X.length) : X.getD r [] ∈ X := by
  rw [List.getD_eq_getElem _ _ h]
  exact List.getElem_mem h

/-- An entry of a matrix that is listed row by row. -/
theorem gfEntry_map {ι : Type} {f : ι → List Byte} {is : List ι} {r c : Nat} (hr : r < is.length) :
    gfEntry (is.map f) r c = (f is[r]).getD c 0#8 := by
  simp [gfEntry, hr]

theorem gfScale_getD (x : Byte) (v : List Byte) (j : Nat) :
    (gfScale x v).getD j 0#8 = gmul x (v.getD j 0#8) := by
  rw [gfScale, ← List.getD_map (f := gmul x), gmul_zero]

theorem gfAdd_getD {u v : List Byte} (h : u.length = v.length) (j : Nat) :
    (gfAdd u v).getD j 0#8 = u.getD j 0#8 ^^^ v.getD j 0#8 := by
  rcases Nat.lt_or_ge j u.length with hj | hj
  · have hv : j < v.length := h ▸ hj
    simp [gfAdd, hj, hv]
  · have hv : v.length ≤ j := h ▸ hj
    simp [gfAdd, hj, hv]

/-- One element of the combination of `n` rows that a row of X gives (R199). -/
theorem gfCombine_getD {len n r x : Nat} {X vs : GfMatrix} (hX : (X.getD r []).length = n)
    (hvs : vs.length = n) (hrow : ∀ v ∈ vs, v.length = len) (hx : x < len) :
    (gfCombine len (X.getD r []) vs).getD x 0#8 = gfApply n X (fun k => gfEntry vs k x) r := by
  have hzip : List.zipWith (fun a v => gmul a (v.getD x 0#8)) (X.getD r []) vs =
      (List.range n).map (fun k => gmul (gfEntry X r k) (gfEntry vs k x)) := by
    refine List.ext_getElem (by rw [List.length_zipWith, hX, hvs]; simp) fun k hk _ => ?_
    obtain ⟨hk1, hk2⟩ : k < (X.getD r []).length ∧ k < vs.length := by simpa using hk
    rw [List.getElem_zipWith, List.getElem_map, List.getElem_range, gfEntry, gfEntry,
      List.getD_eq_getElem _ _ hk1, List.getD_eq_getElem _ _ hk2]
  rw [gfCombine_element hx _ vs hrow, hzip, gfApply, xorSum, ← List.foldl_map (f := _) (g := fun acc a => acc ^^^ a),
    List.foldl_eq_foldr]

/-- One entry of a product (R194). -/
theorem gfEntry_gfMatMul {len n r c : Nat} {X Y : GfMatrix} (hr : r < X.length) (hX : ∀ v ∈ X, v.length = n)
    (hY : Y.length = n) (hrow : ∀ v ∈ Y, v.length = len) (hc : c < len) :
    gfEntry (gfMatMul len X Y) r c = gfApply n X (fun k => gfEntry Y k c) r := by
  rw [gfMatMul, gfEntry_map hr, ← List.getD_eq_getElem _ [] hr, gfCombine_getD (hX _ (getD_mem hr)) hY hrow hc]

/-! ## Matrices -/

section

variable {K : Type} (φ : Byte → K)

/-- The rows `g 0`, .., `g (m - 1)` of X, `n` elements of each, as a matrix over the field. -/
def rowsMatrix {m : Nat} (n : Nat) (X : GfMatrix) (g : Fin m → Nat) : Matrix (Fin m) (Fin n) K :=
  Matrix.of fun i j => φ (gfEntry X (g i) j)

/-- A square matrix as one over the field. -/
abbrev squareMatrix (n : Nat) (X : GfMatrix) : Matrix (Fin n) (Fin n) K := rowsMatrix φ n X Fin.val

variable {φ}

@[simp] theorem rowsMatrix_apply {m n : Nat} (X : GfMatrix) (g : Fin m → Nat) (i : Fin m) (j : Fin n) :
    rowsMatrix φ n X g i j = φ (gfEntry X (g i) j) := rfl

@[simp] theorem squareMatrix_apply {n : Nat} (X : GfMatrix) (i j : Fin n) :
    squareMatrix φ n X i j = φ (gfEntry X i j) := rfl

variable [Field K] (hφ : IsGfEmbedding φ)

include hφ

/-- The product of a matrix and a column is the product over the field. -/
theorem mulVec_rowsMatrix {m n : Nat} (X : GfMatrix) (g : Fin m → Nat) (v : Nat → Byte) :
    Matrix.mulVec (rowsMatrix φ n X g) (fun k => φ (v k)) = fun i => φ (gfApply n X v (g i)) := by
  ext i
  simp only [Matrix.mulVec, dotProduct, gfApply, hφ.map_xorSum, hφ.map_gmul, rowsMatrix_apply]

/-- The product of matrices is the product over the field. -/
theorem rowsMatrix_gfMatMul {m n : Nat} {X Y : GfMatrix} {g : Fin m → Nat}
    (hg : ∀ i, g i < X.length) (hX : ∀ v ∈ X, v.length = n) (hY : Y.length = n) (hrow : ∀ v ∈ Y, v.length = n) :
    rowsMatrix φ n (gfMatMul n X Y) g = rowsMatrix φ n X g * squareMatrix φ n Y := by
  ext i j
  rw [rowsMatrix_apply, gfEntry_gfMatMul (hg i) hX hY hrow j.isLt]
  exact (congrFun (mulVec_rowsMatrix hφ X g fun k => gfEntry Y k j) i).symm

end

end Sys2Proof.Machine

/-! PROOFS. Gauss-Jordan elimination (43_reed_solomon.md R195): in every row the left half is the right half times X,
and the left halves determine a vector by its products with them. So each column of an invertible X has a pivot, and
the right halves end as the inverse. -/

namespace Sys2Proof.Machine

open Sys2Proof

/-! ## The pivot row -/

/-- A column has no pivot exactly when each row has 0 there. -/
theorem pickPivot_eq_none {c : Nat} {rows : GfMatrix} :
    pickPivot c rows = none ↔ ∀ w ∈ rows, w.getD c 0#8 = 0#8 := by
  induction rows with
  | nil => simp [pickPivot]
  | cons row rows ih =>
    rw [pickPivot, List.forall_mem_cons, ← ih]
    split
    · rename_i hzero
      simp only [Option.map_eq_none_iff, hzero, true_and]
    · rename_i hne
      exact ⟨nofun, fun h => absurd h.1 hne⟩

/-- The pivot row and the others are the rows. -/
theorem pickPivot_perm {c : Nat} {rows others : GfMatrix} {p : List Byte}
    (h : pickPivot c rows = some (p, others)) : (p :: others).Perm rows := by
  induction rows generalizing p others with
  | nil => cases h
  | cons row rows ih =>
    rw [pickPivot] at h
    split at h
    · obtain ⟨⟨p', others'⟩, hpick, heq⟩ := Option.map_eq_some_iff.mp h
      cases heq
      exact (List.Perm.swap row p' others').trans ((ih hpick).cons row)
    · cases h
      exact .refl _

theorem clearColumn_getD {c : Nat} {pivot row : List Byte} (h : row.length = pivot.length) (j : Nat) :
    (clearColumn c pivot row).getD j 0#8 =
      row.getD j 0#8 ^^^ gmul (row.getD c 0#8) (pivot.getD j 0#8) := by
  rw [clearColumn, gfAdd_getD (by simpa using h), gfScale_getD]

/-- A row scaled by the inverse of its element at column `c`. -/
abbrev normalize (c : Nat) (p : List Byte) : List Byte := gfScale (ginv (p.getD c 0#8)) p

/-- The pivot is 1. -/
theorem normalize_getD_self {c : Nat} {p : List Byte} (hp : p.getD c 0#8 ≠ 0#8) :
    (normalize c p).getD c 0#8 = 1#8 := by
  rw [gfScale_getD, gmul_comm, gmul_ginv hp]

/-! ## Parts of a row as vectors -/

section

variable {K : Type} {φ : Byte → K} {n c : Nat}

/-- The `n` elements from column `k` on of a row, as a vector over the field. -/
def partOf (φ : Byte → K) (n k : Nat) (w : List Byte) : Fin n → K := fun j => φ (w.getD (k + j) 0#8)

theorem partOf_apply (k : Nat) (w : List Byte) (j : Fin n) : partOf φ n k w j = φ (w.getD (k + j) 0#8) := rfl

/-- The left half of a row is its first `n` elements. -/
theorem left_apply (w : List Byte) (j : Fin n) : partOf φ n 0 w j = φ (w.getD j 0#8) := by
  rw [partOf_apply, Nat.zero_add]

variable [Field K]

theorem partOf_gfScale (hφ : IsGfEmbedding φ) (k : Nat) (x : Byte) (w : List Byte) :
    partOf φ n k (gfScale x w) = φ x • partOf φ n k w := by
  ext j
  rw [partOf_apply, gfScale_getD, hφ.map_gmul, Pi.smul_apply, smul_eq_mul, partOf_apply]

theorem partOf_clearColumn (hφ : IsGfEmbedding φ) (k : Nat) {pivot row : List Byte}
    (h : row.length = pivot.length) :
    partOf φ n k (clearColumn c pivot row) =
      partOf φ n k row - φ (row.getD c 0#8) • partOf φ n k pivot := by
  ext j
  rw [partOf_apply, clearColumn_getD h, hφ.map_xor_eq_sub, hφ.map_gmul]
  rfl

/-! ## The invariant of the elimination -/

/-- The state of the elimination at column `c`: `top` holds the rows with the pivots of the columns before `c`, `rest`
the others. Every row is a combination of the rows of [X | I], and only the zero vector is orthogonal to all of
them. -/
structure Eliminated (φ : Byte → K) (n : Nat) (X : Matrix (Fin n) (Fin n) K) (c : Nat) (top rest : GfMatrix) :
    Prop where
  row_length : ∀ w ∈ top ++ rest, w.length = n + n
  top_length : top.length = c
  rest_length : c + rest.length = n
  left_eq : ∀ w ∈ top ++ rest, partOf φ n 0 w = Matrix.vecMul (partOf φ n n w) X
  kernel : ∀ v, (∀ w ∈ top ++ rest, partOf φ n 0 w ⬝ᵥ v = 0) → v = 0
  top_unit : ∀ i j, i < c → j < c → gfEntry top i j = if i = j then 1#8 else 0#8
  rest_zero : ∀ w ∈ rest, ∀ j, j < c → w.getD j 0#8 = 0#8

variable {X : Matrix (Fin n) (Fin n) K} {top rest others : GfMatrix} {p : List Byte}

/-- The vector that the rows in `top` and rows with 0 up to column `c` are orthogonal to. -/
def kernelVector (φ : Byte → K) (n : Nat) (top : GfMatrix) (c : Nat) : Fin n → K := fun j =>
  (if j.val = c then 1 else 0) - (if j.val < c then φ (gfEntry top j c) else 0)

/-- A row in `top` is orthogonal to that vector: its only other element before column `c` is its pivot. -/
theorem top_dotProduct_kernelVector (hφ : IsGfEmbedding φ) (h : Eliminated φ n X c top rest) (hc : c < n) {i : Nat}
    (hi : i < c) : partOf φ n 0 (top.getD i []) ⬝ᵥ kernelVector φ n top c = 0 := by
  have hterm : ∀ j : Fin n, partOf φ n 0 (top.getD i []) j * kernelVector φ n top c j =
      (if j = ⟨c, hc⟩ then φ (gfEntry top i c) else 0) -
        (if j = ⟨i, by omega⟩ then φ (gfEntry top i c) else 0) := by
    intro j
    rw [left_apply, kernelVector, ← gfEntry]
    rcases Nat.lt_trichotomy j.val c with hlt | heq | hgt
    · rw [h.top_unit i j hi hlt]
      by_cases hij : i = j
      · subst hij
        simp [hlt.ne, hlt, hφ.map_one, Fin.ext_iff]
      · simp [hlt.ne, hlt, hφ.map_zero, Fin.ext_iff, hij, Ne.symm hij]
    · simp [heq, Fin.ext_iff, hi.ne']
    · simp [Fin.ext_iff, hgt.ne', hgt.le.not_gt, (hi.trans hgt).ne']
  simp only [dotProduct, hterm, Finset.sum_sub_distrib, Finset.sum_ite_eq', Finset.mem_univ, if_true, sub_self]

/-- Every column has a pivot (R196). -/
theorem exists_pivot (hφ : IsGfEmbedding φ) (h : Eliminated φ n X c top rest) (hc : c < n) :
    ∃ p others, pickPivot c rest = some (p, others) := by
  cases hpick : pickPivot c rest with
  | some po => exact ⟨po.1, po.2, rfl⟩
  | none =>
    have hzero := pickPivot_eq_none.mp hpick
    have hker : kernelVector φ n top c = 0 := by
      refine h.kernel _ fun w hw => ?_
      rcases List.mem_append.mp hw with htop | hrest
      · obtain ⟨i, hi, rfl⟩ := List.mem_iff_getElem.mp htop
        rw [← List.getD_eq_getElem _ [] hi]
        exact top_dotProduct_kernelVector hφ h hc (h.top_length ▸ hi)
      · refine Finset.sum_eq_zero fun j _ => ?_
        rw [left_apply, kernelVector]
        rcases Nat.lt_trichotomy j.val c with hlt | heq | hgt
        · rw [h.rest_zero w hrest j hlt, hφ.map_zero, zero_mul]
        · rw [heq, hzero w hrest, hφ.map_zero, zero_mul]
        · rw [if_neg hgt.ne', if_neg hgt.le.not_gt, sub_self, mul_zero]
    have hone := congrFun hker ⟨c, hc⟩
    simp [kernelVector] at hone

/-! ## One round -/

section

/-- The rows with pivots after a round with the pivot row `p`. -/
abbrev clearedTop (c : Nat) (p : List Byte) (top : GfMatrix) : GfMatrix :=
  top.map (clearColumn c (normalize c p)) ++ [normalize c p]

/-- The other rows after the round. -/
abbrev clearedRest (c : Nat) (p : List Byte) (others : GfMatrix) : GfMatrix :=
  others.map (clearColumn c (normalize c p))

/-- The rows after a round: the pivot row, and the others cleared. -/
theorem mem_cleared_iff {w : List Byte} :
    w ∈ clearedTop c p top ++ clearedRest c p others ↔
      w = normalize c p ∨ ∃ u ∈ top ++ others, clearColumn c (normalize c p) u = w := by
  simp only [List.mem_append, List.mem_map, List.mem_singleton, or_and_right, exists_or]
  rw [or_assoc, or_left_comm]

variable (hφ : IsGfEmbedding φ) (h : Eliminated φ n X c top rest) (hpick : pickPivot c rest = some (p, others))

omit [Field K] in
include hpick in
/-- The rows before the round, the pivot row first. -/
theorem mem_rows_iff {w : List Byte} : w ∈ top ++ rest ↔ w = p ∨ w ∈ top ++ others := by
  have hrest : w ∈ rest ↔ w = p ∨ w ∈ others := by
    rw [← (pickPivot_perm hpick).mem_iff, List.mem_cons]
  rw [List.mem_append, List.mem_append, hrest]
  tauto

include h hpick

theorem Eliminated.pivot_length : (normalize c p).length = n + n := by
  rw [gfScale_length, h.row_length p ((mem_rows_iff hpick).mpr (.inl rfl))]

theorem Eliminated.other_length {u : List Byte} (hu : u ∈ top ++ others) : u.length = (normalize c p).length :=
  (h.row_length u ((mem_rows_iff hpick).mpr (.inr hu))).trans (h.pivot_length hpick).symm

/-- The pivot row up to its pivot. -/
theorem Eliminated.pivot_getD {j : Nat} (hj : j < c + 1) :
    (normalize c p).getD j 0#8 = if j = c then 1#8 else 0#8 := by
  obtain ⟨-, hp, -, hne⟩ := pickPivot_shape hpick
  split
  · rename_i heq
    rw [heq, normalize_getD_self hne]
  · rw [gfScale_getD, h.rest_zero p hp j (by omega), gmul_zero]

/-- A row after the round, up to the new pivot's column. -/
theorem Eliminated.cleared_getD {u : List Byte} (hu : u ∈ top ++ others) {j : Nat} (hj : j < c + 1) :
    (clearColumn c (normalize c p) u).getD j 0#8 = if j = c then 0#8 else u.getD j 0#8 := by
  rw [clearColumn_getD (h.other_length hpick hu), h.pivot_getD hpick hj]
  split
  · rename_i heq
    rw [heq, gmul_one, BitVec.xor_self]
  · rw [gmul_zero, BitVec.xor_zero]

/-- After the round the rows in `top` have their pivots. -/
theorem Eliminated.top_unit_step {i j : Nat} (hi : i < c + 1) (hj : j < c + 1) :
    gfEntry (clearedTop c p top) i j = if i = j then 1#8 else 0#8 := by
  have htop := h.top_length
  rcases Nat.lt_or_ge i c with hlt | hge
  · have hi' : i < top.length := htop.symm ▸ hlt
    have hrow : gfEntry (clearedTop c p top) i j =
        (clearColumn c (normalize c p) (top.getD i [])).getD j 0#8 := by
      simp [gfEntry, List.getElem?_append, hi']
    rw [hrow, h.cleared_getD hpick (List.mem_append_left _ (getD_mem hi')) hj, ← gfEntry]
    split
    · rw [if_neg (by omega)]
    · exact h.top_unit i j hlt (by omega)
  · obtain rfl : i = c := by omega
    have hrow : gfEntry (clearedTop i p top) i j = (normalize i p).getD j 0#8 := by
      simp [gfEntry, htop]
    rw [hrow, h.pivot_getD hpick hj]
    exact if_congr eq_comm rfl rfl

include hφ

/-- A round makes combinations of combinations. -/
theorem Eliminated.left_eq_step {w : List Byte} (hw : w ∈ clearedTop c p top ++ clearedRest c p others) :
    partOf φ n 0 w = Matrix.vecMul (partOf φ n n w) X := by
  have hpivot : partOf φ n 0 (normalize c p) = Matrix.vecMul (partOf φ n n (normalize c p)) X := by
    rw [partOf_gfScale hφ, partOf_gfScale hφ, h.left_eq p ((mem_rows_iff hpick).mpr (.inl rfl)),
      Matrix.smul_vecMul]
  rcases mem_cleared_iff.mp hw with rfl | ⟨u, hu, rfl⟩
  · exact hpivot
  · have hlen := h.other_length hpick hu
    rw [partOf_clearColumn hφ 0 hlen, partOf_clearColumn hφ n hlen, hpivot,
      h.left_eq u ((mem_rows_iff hpick).mpr (.inr hu)), Matrix.sub_vecMul, Matrix.smul_vecMul]

/-- A round can be undone: a vector orthogonal to the rows after it is orthogonal to those before it. -/
theorem Eliminated.kernel_step {v : Fin n → K}
    (hv : ∀ w ∈ clearedTop c p top ++ clearedRest c p others, partOf φ n 0 w ⬝ᵥ v = 0) : v = 0 := by
  obtain ⟨-, -, -, hne⟩ := pickPivot_shape hpick
  have hpivot : partOf φ n 0 (normalize c p) ⬝ᵥ v = 0 := hv _ (mem_cleared_iff.mpr (.inl rfl))
  refine h.kernel v fun w hw => ?_
  rcases (mem_rows_iff hpick).mp hw with rfl | hother
  · have hinv : φ (w.getD c 0#8) * φ (ginv (w.getD c 0#8)) = 1 := by
      rw [← hφ.map_gmul, gmul_ginv hne, hφ.map_one]
    rw [partOf_gfScale hφ, smul_dotProduct, smul_eq_mul] at hpivot
    exact (mul_eq_zero.mp hpivot).resolve_left (right_ne_zero_of_mul_eq_one hinv)
  · have hcleared := hv _ (mem_cleared_iff.mpr (.inr ⟨w, hother, rfl⟩))
    rwa [partOf_clearColumn hφ 0 (h.other_length hpick hother), sub_dotProduct, smul_dotProduct, hpivot,
      smul_zero, sub_zero] at hcleared

/-- A round keeps the invariant. -/
theorem Eliminated.step : Eliminated φ n X (c + 1) (clearedTop c p top) (clearedRest c p others) where
  row_length w hw := by
    rcases mem_cleared_iff.mp hw with rfl | ⟨u, hu, rfl⟩
    · exact h.pivot_length hpick
    · exact clearColumn_length (h.pivot_length hpick) (h.row_length u ((mem_rows_iff hpick).mpr (.inr hu)))
  top_length := by simp [h.top_length]
  rest_length := by
    obtain ⟨hcount, -⟩ := pickPivot_shape hpick
    have := h.rest_length
    rw [List.length_map]
    omega
  left_eq _ := h.left_eq_step hφ hpick
  kernel _ := h.kernel_step hφ hpick
  top_unit _ _ := h.top_unit_step hpick
  rest_zero w hw j hj := by
    obtain ⟨u, hu, rfl⟩ := List.mem_map.mp hw
    rw [h.cleared_getD hpick (List.mem_append_right _ hu) hj]
    split
    · rfl
    · exact h.rest_zero u ((pickPivot_perm hpick).mem_iff.mp (List.mem_cons_of_mem _ hu)) j (by omega)

end

/-- After the last column all rows have their pivots. -/
theorem gaussJordan_eliminated (hφ : IsGfEmbedding φ) (m : Nat) (h : Eliminated φ n X c top rest) (hm : c + m = n) :
    Eliminated φ n X n (gaussJordan m c top rest) [] := by
  induction m generalizing c top rest with
  | zero =>
    have hrest : rest = [] := List.eq_nil_of_length_eq_zero (by have := h.rest_length; omega)
    subst hrest
    obtain rfl : c = n := hm
    simpa [gaussJordan] using h
  | succ m ih =>
    obtain ⟨p, others, hpick⟩ := exists_pivot hφ h (by omega)
    rw [gaussJordan, hpick]
    exact ih (h.step hφ hpick) (by omega)

/-! ## The inverse (R195) -/

variable {Xs : GfMatrix}

/-- The rows of [X | I]. -/
abbrev augmented (n : Nat) (Xs : GfMatrix) : GfMatrix := List.zipWith (fun row u => row ++ u) Xs (gfIdentity n)

omit [Field K] in
theorem left_append {row u : List Byte} (hrow : row.length = n) (j : Fin n) :
    partOf φ n 0 (row ++ u) j = φ (row.getD j 0#8) := by
  rw [left_apply, List.getD_append _ _ _ _ (hrow.symm ▸ j.isLt)]

/-- The right half of row i is row i of I. -/
theorem right_append_gfUnit (hφ : IsGfEmbedding φ) {row : List Byte} (hrow : row.length = n) (i : Fin n) :
    partOf φ n n (row ++ gfUnit n i) = Pi.single i 1 := by
  ext j
  rw [partOf_apply, List.getD_append_right _ _ _ _ (by omega), hrow, Nat.add_sub_cancel_left]
  by_cases hij : j = i
  · simp [hij, gfUnit, hφ.map_one]
  · simp [gfUnit, hij, Fin.val_ne_of_ne hij, hφ.map_zero]

theorem mem_augmented (hlen : Xs.length = n) {w : List Byte} :
    w ∈ augmented n Xs ↔ ∃ i : Fin n, Xs.getD i [] ++ gfUnit n i = w := by
  constructor
  · intro hw
    obtain ⟨i, hi, rfl⟩ := List.mem_iff_getElem.mp hw
    obtain ⟨hi1, hi2⟩ : i < Xs.length ∧ i < n := by simpa [gfIdentity] using hi
    exact ⟨⟨i, hi2⟩, by simp [gfIdentity, hi1]⟩
  · rintro ⟨i, rfl⟩
    exact List.mem_iff_getElem.mpr ⟨i, by simp [gfIdentity, hlen], by simp [gfIdentity, hlen]⟩

/-- The invariant before the first round, X invertible. -/
theorem eliminated_start (hφ : IsGfEmbedding φ) (hlen : Xs.length = n) (hrow : ∀ r ∈ Xs, r.length = n)
    (hdet : (squareMatrix φ n Xs).det ≠ 0) : Eliminated φ n (squareMatrix φ n Xs) 0 [] (augmented n Xs) := by
  have hget : ∀ i : Fin n, (Xs.getD i []).length = n := fun i => hrow _ (getD_mem (hlen ▸ i.isLt))
  have hleft : ∀ i : Fin n, partOf φ n 0 (Xs.getD i [] ++ gfUnit n i) = squareMatrix φ n Xs i := fun i =>
    funext (left_append (hget i))
  refine ⟨fun w hw => ?_, rfl, by simp [gfIdentity, hlen], fun w hw => ?_, fun v hv => ?_, nofun, nofun⟩
  · obtain ⟨i, rfl⟩ := (mem_augmented hlen).mp hw
    rw [List.length_append, hget, gfUnit_length]
  · obtain ⟨i, rfl⟩ := (mem_augmented hlen).mp hw
    rw [hleft, right_append_gfUnit hφ (hget i), Matrix.single_one_vecMul]
    rfl
  · refine Matrix.eq_zero_of_mulVec_eq_zero hdet (funext fun i => ?_)
    rw [Matrix.mulVec, ← hleft]
    exact hv _ ((mem_augmented hlen).mpr ⟨i, rfl⟩)

/-- The elimination inverts an invertible matrix (R195). -/
theorem gfInverse_mul (hφ : IsGfEmbedding φ) (hlen : Xs.length = n) (hrow : ∀ r ∈ Xs, r.length = n)
    (hdet : (squareMatrix φ n Xs).det ≠ 0) :
    squareMatrix φ n (gfInverse n Xs) * squareMatrix φ n Xs = 1 := by
  have h := gaussJordan_eliminated hφ n (eliminated_start hφ hlen hrow hdet) (Nat.zero_add n)
  rw [gfInverse]
  set rows := gaussJordan n 0 [] (augmented n Xs)
  ext i j
  have hi : i.val < rows.length := h.top_length.symm ▸ i.isLt
  have hrightHalf : squareMatrix φ n (rows.map (fun row => row.drop n)) i = partOf φ n n (rows.getD i []) := by
    ext k
    rw [squareMatrix_apply, gfEntry_map hi, partOf_apply, List.getD_eq_getElem _ _ hi]
    simp
  have hleft := congrFun (h.left_eq _ (List.mem_append_left _ (getD_mem hi))) j
  rw [left_apply, ← gfEntry, h.top_unit i j i.isLt j.isLt] at hleft
  rw [Matrix.mul_apply_eq_vecMul, hrightHalf, ← hleft, Matrix.one_apply]
  simp only [Fin.ext_iff, apply_ite φ, hφ.map_one, hφ.map_zero]

end

end Sys2Proof.Machine

/-! PROOFS. The encoding matrix (43_reed_solomon.md R193-R197, R207): M · T = V, any D rows of M are invertible, and
RS_COEF. -/

namespace Sys2Proof.Machine

open Sys2Proof

/-! ## The Vandermonde matrix (R193) -/

theorem gfEntry_vandermonde {n D r c : Nat} (hr : r < n) (hc : c < D) :
    gfEntry (vandermonde n D) r c = gexp (BitVec.ofNat 8 r) c := by
  rw [vandermonde, gfEntry_map (by simpa using hr)]
  simp [vandermondeRow, hc]

section

variable {K : Type} [Field K] {φ : Byte → K} {D P m : Nat}

/-- D rows of V are a Vandermonde matrix over the field. -/
theorem rowsMatrix_vandermonde (hφ : IsGfEmbedding φ) {n : Nat} {g : Fin D → Nat} (hg : ∀ i, g i < n) :
    rowsMatrix φ D (vandermonde n D) g = Matrix.vandermonde fun i => φ (BitVec.ofNat 8 (g i)) := by
  ext i j
  rw [rowsMatrix_apply, gfEntry_vandermonde (hg i) j.isLt, hφ.map_gexp, Matrix.vandermonde_apply]

/-- D distinct rows of V are invertible (R196). -/
theorem det_rowsMatrix_vandermonde_ne_zero (hφ : IsGfEmbedding φ) {n : Nat} {g : Fin D → Nat}
    (hg : ∀ i, g i < n) (hn : n ≤ 256) (hinj : Function.Injective g) :
    (rowsMatrix φ D (vandermonde n D) g).det ≠ 0 := by
  rw [rowsMatrix_vandermonde hφ hg, Matrix.det_vandermonde_ne_zero_iff]
  refine fun i j hij => hinj ?_
  have hbyte := congrArg BitVec.toNat (hφ.injective hij)
  have hi := hg i
  have hj := hg j
  simp only [BitVec.toNat_ofNat] at hbyte
  omega

/-! ## The encoding matrix (R194) -/

/-- T⁻¹ · T = I. -/
theorem topInverse_mul (hφ : IsGfEmbedding φ) (hD : D ≤ 128) :
    squareMatrix φ D (topInverse D) * squareMatrix φ D (vandermonde D D) = 1 :=
  gfInverse_mul hφ (vandermonde_shape D D).1 (vandermonde_shape D D).2
    (det_rowsMatrix_vandermonde_ne_zero hφ (fun i => i.isLt) (by omega) Fin.val_injective)

/-- Rows of M are those rows of V times T⁻¹. -/
theorem rowsMatrix_encMatrix (hφ : IsGfEmbedding φ) {g : Fin m → Nat} (hg : ∀ i, g i < D + P) :
    rowsMatrix φ D (encMatrix D P) g =
      rowsMatrix φ D (vandermonde (D + P) D) g * squareMatrix φ D (topInverse D) := by
  obtain ⟨hlen, hrow⟩ := vandermonde_shape (D + P) D
  obtain ⟨hlen', hrow'⟩ := gfInverse_shape (vandermonde_shape D D).1 (vandermonde_shape D D).2
  exact rowsMatrix_gfMatMul hφ (fun i => hlen.symm ▸ hg i) hrow hlen' hrow'

/-- M · T = V. -/
theorem rowsMatrix_encMatrix_mul (hφ : IsGfEmbedding φ) (hD : D ≤ 128) {g : Fin m → Nat} (hg : ∀ i, g i < D + P) :
    rowsMatrix φ D (encMatrix D P) g * squareMatrix φ D (vandermonde D D) =
      rowsMatrix φ D (vandermonde (D + P) D) g := by
  rw [rowsMatrix_encMatrix hφ hg, Matrix.mul_assoc, topInverse_mul hφ hD, Matrix.mul_one]

/-- The first D rows of M are I. -/
theorem squareMatrix_encMatrix (hφ : IsGfEmbedding φ) (hD : D ≤ 128) : squareMatrix φ D (encMatrix D P) = 1 := by
  have htop : rowsMatrix φ D (vandermonde (D + P) D) Fin.val = squareMatrix φ D (vandermonde D D) := by
    ext i j
    rw [rowsMatrix_apply, squareMatrix_apply, gfEntry_vandermonde (by omega) j.isLt,
      gfEntry_vandermonde i.isLt j.isLt]
  rw [squareMatrix, rowsMatrix_encMatrix hφ (fun i => by omega), htop, mul_eq_one_comm.mp (topInverse_mul hφ hD)]

/-- Any D distinct rows of M are invertible (R196). -/
theorem det_rowsMatrix_encMatrix_ne_zero (hφ : IsGfEmbedding φ) (hD : D ≤ 128) (hP : P ≤ 128) {g : Fin D → Nat}
    (hg : ∀ i, g i < D + P) (hinj : Function.Injective g) : (rowsMatrix φ D (encMatrix D P) g).det ≠ 0 := by
  have hdet := det_rowsMatrix_vandermonde_ne_zero hφ hg (by omega) hinj
  rw [← rowsMatrix_encMatrix_mul hφ hD hg, Matrix.det_mul] at hdet
  exact left_ne_zero_of_mul hdet

end

section

variable {D P r c : Nat}

/-- One entry of M · T = V. -/
theorem gfApply_encMatrix_gexp (hD : D ≤ 128) (hr : r < D + P) (hc : c < D) :
    gfApply D (encMatrix D P) (fun k => gexp (BitVec.ofNat 8 k) c) r = gexp (BitVec.ofNat 8 r) c := by
  obtain ⟨K, _, φ, hφ⟩ := exists_gfEmbedding
  have hentry := congrFun₂ (rowsMatrix_encMatrix_mul hφ hD (g := fun _ : Fin 1 => r) fun _ => hr) 0 ⟨c, hc⟩
  rw [rowsMatrix_apply, gfEntry_vandermonde hr hc] at hentry
  rw [gfApply_congr fun k hk => (gfEntry_vandermonde hk hc).symm]
  exact hφ.injective ((congrFun (mulVec_rowsMatrix hφ _ (fun _ : Fin 1 => r) _) 0).symm.trans hentry)

/-- A data shard is a codeword's row unchanged. -/
theorem gfEntry_encMatrix_top (hD : D ≤ 128) (hr : r < D) (hc : c < D) :
    gfEntry (encMatrix D P) r c = if r = c then 1#8 else 0#8 := by
  obtain ⟨K, _, φ, hφ⟩ := exists_gfEmbedding
  have hentry := congrFun₂ (squareMatrix_encMatrix (P := P) hφ hD) ⟨r, hr⟩ ⟨c, hc⟩
  rw [squareMatrix_apply, Matrix.one_apply] at hentry
  refine hφ.injective (hentry.trans ?_)
  simp only [Fin.mk.injEq, apply_ite φ, hφ.map_one, hφ.map_zero]

/-- The first D elements of a codeword are its data. -/
theorem gfApply_encMatrix_top (hD : D ≤ 128) (v : Nat → Byte) (hr : r < D) :
    gfApply D (encMatrix D P) v r = v r := by
  obtain ⟨K, _, φ, hφ⟩ := exists_gfEmbedding
  have hdata := congrFun (mulVec_rowsMatrix hφ (n := D) (encMatrix D P) Fin.val v) ⟨r, hr⟩
  rw [← squareMatrix, squareMatrix_encMatrix hφ hD, Matrix.one_mulVec] at hdata
  exact hφ.injective hdata.symm

/-- The elements of the codeword of the data `v`: the data, then the parity (R200). -/
theorem gfApply_encMatrix (hD : D ≤ 128) (v : Nat → Byte) :
    gfApply D (encMatrix D P) v r = if r < D then v r else parityColumn D P (r - D) v := by
  split
  · rename_i hr
    exact gfApply_encMatrix_top hD v hr
  · rename_i hr
    rw [← Nat.add_sub_of_le (Nat.not_lt.mp hr), Nat.add_sub_cancel_left]
    rfl

/-- The inverse of D distinct rows of M, as the engine computes it (R195, R196). -/
theorem gfInverse_encMatrix_rows_mul {K : Type} [Field K] {φ : Byte → K} (hφ : IsGfEmbedding φ) (hD : D ≤ 128)
    (hP : P ≤ 128) {S : List Nat} (hlen : S.length = D) (hnodup : S.Nodup) (hbound : ∀ r ∈ S, r < D + P) :
    squareMatrix φ D (gfInverse D (S.map fun r => (encMatrix D P).getD r [])) *
      rowsMatrix φ D (encMatrix D P) (fun a => S.getD a 0) = 1 := by
  obtain ⟨hMlen, hMrow⟩ := encMatrix_shape D P
  have hget : ∀ a : Fin D, S.getD a 0 = S[a.val]'(hlen ▸ a.isLt) := fun a =>
    List.getD_eq_getElem _ _ (hlen ▸ a.isLt)
  have hrows : squareMatrix φ D (S.map fun r => (encMatrix D P).getD r []) =
      rowsMatrix φ D (encMatrix D P) fun a => S.getD a 0 := by
    ext a j
    rw [squareMatrix_apply, gfEntry_map (hlen ▸ a.isLt), rowsMatrix_apply, hget]
    rfl
  rw [← hrows]
  refine gfInverse_mul hφ (by simpa using hlen) (List.forall_mem_map.mpr fun r hr =>
    hMrow _ (getD_mem (hMlen.symm ▸ hbound r hr))) ?_
  rw [hrows]
  refine det_rowsMatrix_encMatrix_ne_zero hφ hD hP (fun a => ?_) fun a b hab => ?_
  · rw [hget]
    exact hbound _ (List.getElem_mem _)
  · rw [hget, hget, hnodup.getElem_inj_iff] at hab
    exact Fin.ext hab

/-- D elements of a codeword determine its data (R196): the inverse of their rows of M gives it back. -/
theorem gfApply_gfInverse (hD : D ≤ 128) (hP : P ≤ 128) {S : List Nat} (hlen : S.length = D) (hnodup : S.Nodup)
    (hbound : ∀ r ∈ S, r < D + P) (v : Nat → Byte) (hc : c < D) :
    gfApply D (gfInverse D (S.map fun r => (encMatrix D P).getD r []))
      (fun a => gfApply D (encMatrix D P) v (S.getD a 0)) c = v c := by
  obtain ⟨K, _, φ, hφ⟩ := exists_gfEmbedding
  have hdata := congrFun (mulVec_rowsMatrix hφ (n := D) (gfInverse D (S.map fun r => (encMatrix D P).getD r []))
    Fin.val fun a => gfApply D (encMatrix D P) v (S.getD a 0)) ⟨c, hc⟩
  rw [← mulVec_rowsMatrix hφ _ (fun a : Fin D => S.getD a 0), Matrix.mulVec_mulVec, ← squareMatrix,
    gfInverse_encMatrix_rows_mul hφ hD hP hlen hnodup hbound, Matrix.one_mulVec] at hdata
  exact hφ.injective hdata.symm

/-- With one data shard every entry of M is 1 (R197). -/
theorem gfEntry_encMatrix_one (hr : r < 1 + P) : gfEntry (encMatrix 1 P) r 0 = 1#8 := by
  simpa [gfApply, xorSum_succ, gexp] using gfApply_encMatrix_gexp (D := 1) (by omega) hr Nat.one_pos

end

/-- Settles O50: M is V times the inverse that the elimination finds of T, an invertible Vandermonde matrix. -/
theorem encodingMatrixIsSystematic : Obligations.EncodingMatrixIsSystematic :=
  fun D P _ hD _ _ => ⟨encMatrix_shape D P, fun _ _ => gfApply_encMatrix_gexp hD, fun _ _ => gfEntry_encMatrix_top hD⟩

/-! ## RS_COEF (R207) -/

section

variable {s : State} {D P : Nat}

theorem exec_rsCoef (hg : GeometryArg s 0 D P) (hr : s.opNat 1 < D + P) (hc : s.opNat 2 < D) :
    ∃ t, exec .rsCoef s = .next t ∧
      CompletedOnly s t [(gfEntry (encMatrix D P) (s.opNat 1) (s.opNat 2)).setWidth 32] :=
  exec_of_ok (by
    simp only [outcomeOf, cmdRsCoef, opGeom_eq_ok.mpr hg, decide_eq_false (Nat.not_le.mpr hr),
      decide_eq_false (Nat.not_le.mpr hc), raiseIf_false, ok_bind, pure_eq_ok])

theorem rsCoef_refuses_geometry (h : ∀ D P, ¬ GeometryArg s 0 D P) : Fails .rsCoef s .usage 0#32 :=
  fails_usage (k := 0) (by simp only [outcomeOf, cmdRsCoef, opGeom_refuses h, error_bind])

theorem rsCoef_refuses_row (hg : GeometryArg s 0 D P) (hr : D + P ≤ s.opNat 1) : Fails .rsCoef s .usage 1#32 :=
  fails_usage (k := 1) (by
    simp only [outcomeOf, cmdRsCoef, opGeom_eq_ok.mpr hg, decide_eq_true hr, raiseIf_true, ok_bind, error_bind])

theorem rsCoef_refuses_column (hg : GeometryArg s 0 D P) (hr : s.opNat 1 < D + P) (hc : D ≤ s.opNat 2) :
    Fails .rsCoef s .usage 2#32 :=
  fails_usage (k := 2) (by
    simp only [outcomeOf, cmdRsCoef, opGeom_eq_ok.mpr hg, decide_eq_false (Nat.not_le.mpr hr), decide_eq_true hc,
      raiseIf_false, raiseIf_true, ok_bind, error_bind])

end

/-- Settles O49: the operand checks of RS_COEF in their order, and the entry, 1 for D = 1. -/
theorem rsCoefCommand : Obligations.RsCoefCommand := by
  refine ⟨decode_encode (i := .rsCoef) rfl, fun _ => rsCoef_refuses_geometry, fun s D P hg =>
    ⟨rsCoef_refuses_row hg, rsCoef_refuses_column hg, exec_rsCoef hg, ?_⟩⟩
  rintro rfl hr hc
  have hexec := exec_rsCoef hg hr (hc ▸ Nat.one_pos)
  rwa [hc, gfEntry_encMatrix_one hr] at hexec

end Sys2Proof.Machine

/-! PROOFS. What the RS commands share (43_reed_solomon.md R198, R208-R210): their operand checks in order, and the
shards that they write, which do not overlap. -/

namespace Sys2Proof.Machine

open Sys2Proof

section

variable {s : State} {i : Instr} {v : Version} {D P : Nat}

/-! ## Operands (R208) -/

/-- A version argument that type `ver` refuses is refused alike by type `pver`. -/
theorem opPver_of_opVer_error {k : Fin 8} {e : CmdError} (h : s.opVer k = .error e) : s.opPver k = .error e := by
  rw [State.opPver, h, error_bind]

/-- A version without parity is refused by type `pver`. -/
theorem opPver_refuses {k : Fin 8} (hv : VersionArg s k v) (hp : v.isParity = false) :
    s.opPver k = .error (usageError k) := by
  simp only [State.opPver, opVer_eq_ok.mpr hv, hp, Bool.not_false, raiseIf_true, ok_bind, error_bind]

/-- An argument that packs no geometry with D = 1 is refused by type `vgeom`. -/
theorem opVgeom_refuses {k : Fin 8} (h : ∀ P, ¬ GeometryArg s k 1 P) : s.opVgeom k = .error (usageError k) := by
  have hnot : ∀ P, s.opVgeom k ≠ .ok P := fun P hok => h P (opVgeom_eq_ok.mp hok)
  unfold State.opVgeom at hnot ⊢
  dsimp only at hnot ⊢
  split at hnot
  · exact absurd rfl (hnot _)
  · rename_i hbad
    rw [if_neg hbad]

theorem checkShards_refuses_stride {L n : Nat} (h : s.opNat 1 < L) : s.checkShards L n = .error (usageError 1) := by
  rw [State.checkShards, decide_eq_true h, raiseIf_true, error_bind]

theorem checkShards_refuses_span {L n : Nat} (hL : L ≠ 0) (hstride : L ≤ s.opNat 1)
    (hspan : s.params.bufSize < s.opNat 0 + ((n - 1) * s.opNat 1 + L)) :
    s.checkShards L n = .error (ioError (s.opNat 0)) := by
  rw [State.checkShards, decide_eq_false (Nat.not_lt.mpr hstride), raiseIf_false, ok_bind,
    checkRange_eq_ioError (by omega) hspan]

/-- The stride and the span of legal shards pass. -/
theorem checkShards_passes {L n : Nat} (hstride : L ≤ s.opNat 1)
    (hspan : s.opNat 0 + ((n - 1) * s.opNat 1 + L) ≤ s.params.bufSize) : s.checkShards L n = .ok () :=
  checkShards_eq_ok.mpr ⟨hstride, inRange_iff.mpr (.inr hspan)⟩

theorem rsOperands_passes (hv : VersionArg s 2 v) (hp : v.isParity = true) (hg : GeometryArg s 3 D P)
    (hstride : v.payloadLen ≤ s.opNat 1)
    (hspan : s.opNat 0 + ((D + P - 1) * s.opNat 1 + v.payloadLen) ≤ s.params.bufSize) :
    rsOperands s = .ok (v.payloadLen, D, P) :=
  rsOperands_eq_ok.mpr ⟨v, hv, hp, rfl, hg, hstride, inRange_iff.mpr (.inr hspan)⟩

/-! ## The shared checks in their order -/

/-- A command whose rule starts with `rsOperands` fails as they do. -/
theorem outcomeOf_of_rsOperands_error (hi : i = .rsEncode ∨ i = .rsRecon) {e : CmdError}
    (h : rsOperands s = .error e) : outcomeOf i s = .error e := by
  rcases hi with rfl | rfl
  · rw [outcomeOf, cmdRsEncode, h, error_bind]
  · rw [outcomeOf, cmdRsRecon, h, error_bind]

/-- The three commands check the version first. -/
theorem rs_version_error (hi : i = .rsEncode ∨ i = .rsRecon ∨ i = .rsVote) {e : CmdError}
    (h : s.opPver 2 = .error e) : outcomeOf i s = .error e := by
  rw [← or_assoc] at hi
  rcases hi with hi | rfl
  · exact outcomeOf_of_rsOperands_error hi (by rw [rsOperands, h, error_bind])
  · rw [outcomeOf, cmdRsVote, h, error_bind]

/-- Then the geometry, RS_VOTE's D = 1 included. -/
theorem rs_geometry_error (hi : i = .rsEncode ∨ i = .rsRecon ∨ i = .rsVote) (hv : VersionArg s 2 v)
    (hp : v.isParity = true) (hg : ∀ D P, GeometryArg s 3 D P → i = .rsVote ∧ D ≠ 1) :
    outcomeOf i s = .error (usageError 3) := by
  have hver : s.opPver 2 = .ok v := opPver_eq_ok.mpr ⟨hv, hp⟩
  rw [← or_assoc] at hi
  rcases hi with hi | rfl
  · have hvote : i ≠ .rsVote := by rcases hi with rfl | rfl <;> nofun
    have hgeom := opGeom_refuses fun D P hgeom => hvote (hg D P hgeom).1
    exact outcomeOf_of_rsOperands_error hi (by rw [rsOperands, hver, ok_bind, hgeom, error_bind])
  · have hgeom := opVgeom_refuses fun P hgeom => (hg 1 P hgeom).2 rfl
    rw [outcomeOf, cmdRsVote, hver, ok_bind, hgeom, error_bind]

/-- Then the stride and the span. -/
theorem rs_shards_error (hi : i = .rsEncode ∨ i = .rsRecon ∨ i = .rsVote) (hv : VersionArg s 2 v)
    (hp : v.isParity = true) (hg : GeometryArg s 3 D P) (hD : i = .rsVote → D = 1) {e : CmdError}
    (h : s.checkShards v.payloadLen (D + P) = .error e) : outcomeOf i s = .error e := by
  have hver : s.opPver 2 = .ok v := opPver_eq_ok.mpr ⟨hv, hp⟩
  rw [← or_assoc] at hi
  rcases hi with hi | rfl
  · refine outcomeOf_of_rsOperands_error hi ?_
    simp only [rsOperands, hver, opGeom_eq_ok.mpr hg, h, ok_bind, error_bind]
  · obtain rfl := hD rfl
    simp only [outcomeOf, cmdRsVote, hver, opVgeom_eq_ok.mpr hg, h, ok_bind, error_bind]

end

/-- Settles O52: the version, the geometry, the stride and the span are checked in this order. -/
theorem rsChecksInOrder : Obligations.RsChecksInOrder := by
  intro s i hi
  obtain ⟨hreserved, hunknown⟩ : ChecksVersion i s 2 :=
    checksVersion_of_opVer fun e he => rs_version_error hi (opPver_of_opVer_error he)
  refine ⟨hreserved, hunknown, fun v hv hp => ?_, fun v hv hp hg => ?_, fun v D P hv hp hg hD =>
    ⟨fun hstride => ?_, fun hstride hspan => ?_⟩⟩
  · exact fails_usage (rs_version_error hi (opPver_refuses hv hp))
  · exact fails_usage (rs_geometry_error hi hv hp hg)
  · exact fails_usage (rs_shards_error hi hv hp hg hD (checkShards_refuses_stride hstride))
  · exact fails_io (rs_shards_error hi hv hp hg hD (checkShards_refuses_span (payloadLen_pos v) hstride hspan))

/-! ## Shards that are written -/

/-- A byte of a staged write reads back when no other staged write overlaps it. -/
theorem byteAt_applyWrites_inside {epoch : Nat} {m : Memory} {ws : List (Nat × List Byte)}
    (hdisjoint : ws.Pairwise fun u w => u.1 + u.2.length ≤ w.1 ∨ w.1 + w.2.length ≤ u.1)
    {w : Nat × List Byte} (hw : w ∈ ws) {x : Nat} (hx : x < w.2.length) :
    byteAt epoch (applyWrites m ws) (w.1 + x) = w.2.getD x 0#8 := by
  induction ws generalizing m with
  | nil => cases hw
  | cons u ws ih =>
    obtain ⟨hu, hws⟩ := List.pairwise_cons.mp hdisjoint
    rcases List.mem_cons.mp hw with rfl | hmem
    · have hafter := byteAt_applyWrites_outside (epoch := epoch) (m := Memory.store m w.1 w.2) (ws := ws)
        (x := w.1 + x) fun w' hw' => by have := hu w' hw'; omega
      refine hafter.trans ?_
      rw [byteAt_store_inside (by omega) (by omega), Nat.add_sub_cancel_left]
    · exact ih hws hmem

section

variable {s : State} {i : Instr} {L : Nat}

/-- Distinct shards do not overlap (R198). -/
theorem shardAddr_disjoint (hstride : L ≤ s.opNat 1) {a b : Nat} (hab : a ≠ b) :
    s.shardAddr a + L ≤ s.shardAddr b ∨ s.shardAddr b + L ≤ s.shardAddr a := by
  have hle : ∀ {a b : Nat}, a < b → s.shardAddr a + L ≤ s.shardAddr b := fun {a b} h => by
    have := Nat.mul_le_mul_right (s.opNat 1) (Nat.succ_le_of_lt h)
    rw [Nat.succ_mul] at this
    unfold State.shardAddr
    omega
  exact (Nat.lt_or_gt_of_ne hab).imp hle hle

/-- One byte of the n bytes from `a` on. -/
theorem bytesAt_getD {epoch a n x : Nat} {m : Memory} (hx : x < n) :
    (bytesAt epoch m a n).getD x 0#8 = byteAt epoch m (a + x) := by
  simp [bytesAt, hx]

/-- Byte x of a shard as the command reads it. -/
theorem shard_getD {j x : Nat} (hx : x < L) : (s.shard L j).getD x 0#8 = s.shardByte j x := bytesAt_getD hx

/-- Byte x of the n bytes of BUF from `a` on. -/
theorem bufBytes_getD {t : State} {a n x : Nat} (hx : x < n) :
    (t.bufBytes a n).getD x 0#8 = t.bufByte (a + x) := bytesAt_getD hx

/-- The staged effects of a command that writes the shards `g j` for the `j` in `js` and answers `rs`. -/
def shardsStaged (s : State) (rs : List Word) (js : List Nat) (g : Nat → Nat) (f : Nat → List Byte) : Staged :=
  { Staged.none with res := rs, writes := js.map fun j => (s.shardAddr (g j), f j) }

/-- A rule that stages whole shards, each once, completes with them written, and no other byte. -/
theorem exec_of_shards {rs : List Word} {js : List Nat} {g : Nat → Nat} {f : Nat → List Byte}
    (h : outcomeOf i s = .ok (shardsStaged s rs js g f)) (hjs : js.Nodup) (hg : Function.Injective g)
    (hlen : ∀ j ∈ js, (f j).length = L) (hstride : L ≤ s.opNat 1) :
    ∃ t, exec i s = .next t ∧ CompletedWith s t rs ∧
      (∀ j ∈ js, t.bufBytes (s.shardAddr (g j)) L = f j) ∧
      (∀ a, (∀ j ∈ js, Outside a (s.shardAddr (g j)) L) → t.bufByte a = s.bufByte a) ∧ t.scan = s.scan := by
  have hdisjoint : (shardsStaged s rs js g f).writes.Pairwise fun u w =>
      u.1 + u.2.length ≤ w.1 ∨ w.1 + w.2.length ≤ u.1 := by
    refine List.pairwise_map.mpr (hjs.imp_of_mem fun {a b} ha hb hab => ?_)
    rw [hlen a ha, hlen b hb]
    exact shardAddr_disjoint hstride (hg.ne hab)
  refine ⟨(s.stage (shardsStaged s rs js g f)).completeOk, by rw [exec_eq_finish, h, finish_ok],
    completeOk_completedWith s _, fun j hj => ?_, fun a ha => ?_, rfl⟩
  · refine List.ext_getElem ((bytesAt_length _ _ _ _).trans (hlen j hj).symm) fun x hx _ => ?_
    have hx' : x < L := hx.trans_eq (bytesAt_length _ _ _ _)
    rw [← List.getD_eq_getElem _ 0#8, ← List.getD_eq_getElem _ 0#8, bufBytes_getD hx']
    exact byteAt_applyWrites_inside hdisjoint (List.mem_map_of_mem hj) ((hlen j hj).symm ▸ hx')
  · refine bufByte_completeOk_outside fun w hw => ?_
    obtain ⟨j, hj, rfl⟩ := List.mem_map.mp hw
    rw [hlen j hj]
    exact ha j hj

end

end Sys2Proof.Machine

/-! PROOFS. RS_ENCODE and RS_RECON (43_reed_solomon.md R199-R201, R208, R209): the parity of a column, and the data
that the D present shards of lowest index give back. -/

namespace Sys2Proof.Machine

open Sys2Proof

/-! ## Parity (R200) -/

/-- Byte x of a parity shard is the parity of the column of x (R199, R200). -/
theorem parityShard_getD {D P L j x : Nat} {data : List (List Byte)} (hj : j < P) (hnum : data.length = D)
    (hlen : ∀ d ∈ data, d.length = L) (hx : x < L) :
    (parityShard (encMatrix D P) D L j data).getD x 0#8 = parityColumn D P j (fun c => gfEntry data c x) := by
  obtain ⟨hM, hrow⟩ := encMatrix_shape D P
  exact gfCombine_getD (hrow _ (getD_mem (by omega))) hnum hlen hx

/-- The parity of a column depends on its D bytes only. -/
theorem parityColumn_congr {D P j : Nat} {v w : Nat → Byte} (h : ∀ c, c < D → v c = w c) :
    parityColumn D P j v = parityColumn D P j w := gfApply_congr h

/-! ## RS_ENCODE (R208) -/

section

variable {s : State}

theorem outcomeOf_rsEncode {L D P : Nat} (hops : rsOperands s = .ok (L, D, P)) :
    outcomeOf .rsEncode s = .ok (shardsStaged s [BitVec.ofNat 32 (D + P), BitVec.ofNat 32 L] (List.range P) (D + ·)
      fun j => parityShard (encMatrix D P) D L j ((List.range D).map (s.shard L))) := by
  rw [outcomeOf, cmdRsEncode, hops]
  rfl

/-- The data shards as RS_ENCODE reads them. -/
theorem gfEntry_shards {L D c x : Nat} (hc : c < D) (hx : x < L) :
    gfEntry ((List.range D).map (s.shard L)) c x = s.shardByte c x := by
  rw [gfEntry_map (by simpa using hc), List.getElem_range, shard_getD hx]

end

/-- Settles O51: RS_ENCODE writes whole parity shards, each byte the parity of its column. -/
theorem encodeWritesTheParity : Obligations.EncodeWritesTheParity := by
  intro s v D P hv hp hg hstride hspan
  have hdata : ∀ d ∈ (List.range D).map (s.shard v.payloadLen), d.length = v.payloadLen := by
    simp
  obtain ⟨t, hexec, hdone, hshards, houtside, hscan⟩ :=
    exec_of_shards (outcomeOf_rsEncode (rsOperands_passes hv hp hg hstride hspan)) List.nodup_range
      (add_right_injective D) (fun _ _ => parityShard_length hdata) hstride
  refine ⟨t, hexec, hdone, fun j x hj hx => ?_, fun a ha => houtside a fun j hj => ha j (List.mem_range.mp hj), hscan⟩
  rw [← bufBytes_getD hx, hshards j (List.mem_range.mpr hj), parityShard_getD hj (by simp) hdata hx]
  exact parityColumn_congr fun c hc => gfEntry_shards hc hx

/-! ## Reconstruct (R201) -/

section

variable {D P L x c : Nat} {sh : Nat → List Byte} {present : List Nat}

/-- A present data shard is kept. -/
theorem gfEntry_reconData_present {M : GfMatrix} (hc : c < D) (hpresent : c ∈ present) :
    gfEntry (reconData M D L sh present) c x = (sh c).getD x 0#8 := by
  rw [reconData, gfEntry_map (by simpa using hc), List.getElem_range,
    if_pos (List.contains_iff_mem.mpr hpresent)]

/-- A missing data shard is computed from the D present shards of lowest index. -/
theorem gfEntry_reconData_missing {M : GfMatrix} (hM : ∀ r ∈ present.take D, (M.getD r []).length = D)
    (hcount : D ≤ present.length) (hlen : ∀ i, (sh i).length = L) (hx : x < L) (hc : c < D)
    (hmissing : c ∉ present) :
    gfEntry (reconData M D L sh present) c x =
      gfApply D (gfInverse D ((present.take D).map fun r => M.getD r []))
        (fun a => (sh ((present.take D).getD a 0)).getD x 0#8) c := by
  have htake : (present.take D).length = D := List.length_take_of_le hcount
  obtain ⟨hY, hYrow⟩ := gfInverse_shape (n := D) (X := (present.take D).map fun r => M.getD r [])
    (by rw [List.length_map, htake]) (List.forall_mem_map.mpr hM)
  rw [reconData, gfEntry_map (by simpa using hc), List.getElem_range,
    if_neg (mt List.contains_iff_mem.mp hmissing),
    gfCombine_getD (hYrow _ (getD_mem (hY.symm ▸ hc))) (by rw [List.length_map, htake])
      (List.forall_mem_map.mpr fun r _ => hlen r) hx]
  refine gfApply_congr fun a ha => ?_
  have ha' : a < (present.take D).length := htake.symm ▸ ha
  rw [gfEntry_map ha', List.getD_eq_getElem _ _ ha']

/-- Shards of which the D of lowest index hold the codeword of the column `v` give back its data. -/
theorem gfEntry_reconData_codeword (hD : D ≤ 128) (hP : P ≤ 128) {v : Nat → Byte} (hnodup : present.Nodup)
    (hbound : ∀ r ∈ present, r < D + P) (hcount : D ≤ present.length) (hlen : ∀ i, (sh i).length = L) (hx : x < L)
    (hlow : ∀ c, c < D → c ∈ present → c ∈ present.take D)
    (hcode : ∀ r ∈ present.take D, (sh r).getD x 0#8 = gfApply D (encMatrix D P) v r) (hc : c < D) :
    gfEntry (reconData (encMatrix D P) D L sh present) c x = v c := by
  obtain ⟨hMlen, hMrow⟩ := encMatrix_shape D P
  have htake : (present.take D).length = D := List.length_take_of_le hcount
  have hbound' : ∀ r ∈ present.take D, r < D + P := fun r hr => hbound r (List.mem_of_mem_take hr)
  by_cases hpresent : c ∈ present
  · rw [gfEntry_reconData_present hc hpresent, hcode c (hlow c hc hpresent), gfApply_encMatrix_top hD v hc]
  · rw [gfEntry_reconData_missing (fun r hr => hMrow _ (getD_mem (hMlen.symm ▸ hbound' r hr))) hcount hlen hx hc
      hpresent, ← gfApply_gfInverse hD hP htake (hnodup.sublist (List.take_sublist D present)) hbound' v hc]
    refine gfApply_congr fun a ha => hcode _ ?_
    rw [List.getD_eq_getElem _ _ (htake.symm ▸ ha)]
    exact List.getElem_mem _

/-- A rebuilt shard holds what the codeword of the data has there (R201). -/
theorem reconShard_getD {data : List (List Byte)} {m : Nat} (hm : m < D + P) (hnum : data.length = D)
    (hlen : ∀ d ∈ data, d.length = L) (hx : x < L) :
    (reconShard (encMatrix D P) D L data m).getD x 0#8 =
      if m < D then gfEntry data m x else parityColumn D P (m - D) (fun c => gfEntry data c x) := by
  unfold reconShard
  split
  · rfl
  · exact parityShard_getD (by omega) hnum hlen hx

end

/-! ## RS_RECON (R209) -/

section

variable {s : State} {L D P : Nat}

theorem mem_presentShards {n i : Nat} : i ∈ s.presentShards n ↔ i < n ∧ s.mask i = true := by
  simp [State.presentShards]

/-- At most c present shards lie below c, so those below D are among the D of lowest index. -/
theorem mem_take_presentShards {c : Nat} (hc : c < D) (hpresent : c ∈ s.presentShards (D + P)) :
    c ∈ (s.presentShards (D + P)).take D := by
  have hsplit : s.presentShards (D + P) =
      (List.range D).filter s.mask ++ ((List.range P).map (D + ·)).filter s.mask := by
    rw [State.presentShards, List.range_add, List.filter_append]
  have hfew : ((List.range D).filter s.mask).length ≤ D :=
    (List.length_filter_le _ _).trans_eq List.length_range
  rw [hsplit, List.take_append, List.take_of_length_le hfew]
  exact List.mem_append_left _ (List.mem_filter.mpr
    ⟨List.mem_range.mpr hc, (mem_presentShards.mp hpresent).2⟩)

/-- The data shards that RS_RECON computes. -/
abbrev reconstructed (s : State) (L D P : Nat) : List (List Byte) :=
  reconData (encMatrix D P) D L (s.shard L) (s.presentShards (D + P))

theorem outcomeOf_rsRecon (hops : rsOperands s = .ok (L, D, P)) (hcount : D ≤ (s.presentShards (D + P)).length) :
    outcomeOf .rsRecon s = .ok (shardsStaged s
      [BitVec.ofNat 32 (D + P - (s.presentShards (D + P)).length), BitVec.ofNat 32 L] (s.missingShards (D + P)) id
      fun m => reconShard (encMatrix D P) D L (reconstructed s L D P) m) := by
  simp only [outcomeOf, cmdRsRecon, hops, ok_bind, decide_eq_false (Nat.not_lt.mpr hcount), raiseIf_false]
  rfl

theorem rsRecon_refuses_few (hops : rsOperands s = .ok (L, D, P)) (hcount : (s.presentShards (D + P)).length < D) :
    Fails .rsRecon s .insufficientShards (BitVec.ofNat 32 (s.presentShards (D + P)).length) :=
  exec_of_error (e := insufficientError _) (by
    simp only [outcomeOf, cmdRsRecon, hops, ok_bind, decide_eq_true hcount, raiseIf_true, error_bind])

/-- RS_RECON writes the missing shards as Reconstruct gives them, and no other byte. -/
theorem exec_rsRecon (hops : rsOperands s = .ok (L, D, P)) (hcount : D ≤ (s.presentShards (D + P)).length)
    (hstride : L ≤ s.opNat 1) :
    ∃ t, exec .rsRecon s = .next t ∧
      CompletedWith s t [BitVec.ofNat 32 (D + P - (s.presentShards (D + P)).length), BitVec.ofNat 32 L] ∧
      (∀ i x, i < D + P → s.mask i = false → x < L → t.bufByte (s.shardAddr i + x) =
        if i < D then gfEntry (reconstructed s L D P) i x
        else parityColumn D P (i - D) (fun c => gfEntry (reconstructed s L D P) c x)) ∧
      (∀ a, (∀ i, i < D + P → s.mask i = false → Outside a (s.shardAddr i) L) → t.bufByte a = s.bufByte a) ∧
      t.scan = s.scan := by
  obtain ⟨hnum, hlen⟩ := reconData_lengths (M := encMatrix D P) (D := D) (L := L)
    (present := s.presentShards (D + P)) (shard_length s L)
  obtain ⟨t, hexec, hdone, hshards, houtside, hscan⟩ :=
    exec_of_shards (outcomeOf_rsRecon hops hcount) (List.nodup_range.filter _) Function.injective_id
      (fun _ _ => reconShard_length hnum hlen) hstride
  refine ⟨t, hexec, hdone, fun i x hi hmask hx => ?_, fun a ha => houtside a fun i hi => ?_, hscan⟩
  · rw [← bufBytes_getD hx, ← reconShard_getD hi hnum hlen hx]
    exact congrArg (fun bs => bs.getD x 0#8) (hshards i (mem_missingShards.mpr ⟨hi, hmask⟩))
  · obtain ⟨hlt, hmask⟩ := mem_missingShards.mp hi
    exact ha i hlt hmask

end

/-- Settles O53: RS_RECON completes or fails by the number of present shards; present data shards are kept, so missing
parity is encoded from them. -/
theorem reconRebuildsMissingShards : Obligations.ReconRebuildsMissingShards := by
  intro s v D P hv hp hg hstride hspan k
  have hops := rsOperands_passes hv hp hg hstride hspan
  refine ⟨rsRecon_refuses_few hops, fun hcount => ?_⟩
  obtain ⟨t, hexec, hdone, hwritten, houtside, hscan⟩ := exec_rsRecon hops hcount hstride
  refine ⟨t, hexec, hdone, houtside, hscan, fun hall j x hj hmask hx => ?_⟩
  rw [hwritten (D + j) x (by omega) hmask hx, if_neg (by omega), Nat.add_sub_cancel_left]
  refine parityColumn_congr fun c hc => ?_
  rw [gfEntry_reconData_present hc (mem_presentShards.mpr ⟨by omega, hall c hc⟩), shard_getD hx]

/-- Settles O54: any D rows of the encoding matrix are invertible, so the D present shards of lowest index give back
the data of their codeword, and the data its parity. -/
theorem reconRestoresACodeword : Obligations.ReconRestoresACodeword := by
  intro s v D P d hv hp hg hstride hspan hcount word hword
  have ⟨_, _, hD, _, hP⟩ := hg
  obtain ⟨t, hexec, -, hwritten, -, -⟩ := exec_rsRecon (rsOperands_passes hv hp hg hstride hspan) hcount hstride
  refine ⟨t, hexec, fun i x hi hmask hx => ?_⟩
  have hdata : ∀ c, c < D → gfEntry (reconstructed s v.payloadLen D P) c x = d c x := fun c hc =>
    gfEntry_reconData_codeword (v := fun c => d c x) hD hP (List.nodup_range.filter _)
      (fun r hr => (mem_presentShards.mp hr).1) hcount (shard_length s _) hx (fun c => mem_take_presentShards)
      (fun r hr => by rw [shard_getD hx, gfApply_encMatrix hD]; exact hword r hr x hx) hc
  rw [hwritten i x hi hmask hx]
  exact ite_congr rfl (fun hlt => hdata i hlt) fun _ => parityColumn_congr hdata

end Sys2Proof.Machine

/-! PROOFS. RS_VOTE (43_reed_solomon.md R202, R210): the winner is the first present copy in a largest class. -/

namespace Sys2Proof.Machine

open Sys2Proof

/-! ## The vote (R202) -/

section

variable {sh : Nat → List Byte} {present : List Nat}

/-- The size of a largest class, of the classes of the present copies. -/
theorem voteMax_eq_max (h : present.map (voteCount sh present) ≠ []) :
    voteMax sh present = (present.map (voteCount sh present)).max h := by
  rw [voteMax, List.foldl_max, List.max?_eq_some_max h, Option.getD_some, Nat.zero_max]

/-- No class is larger. -/
theorem voteCount_le_voteMax {i : Nat} (hi : i ∈ present) : voteCount sh present i ≤ voteMax sh present := by
  rw [voteMax_eq_max (by simpa using List.ne_nil_of_mem hi)]
  exact List.le_max_of_mem (List.mem_map_of_mem hi)

/-- The winner is present and its class is a largest one; of the copies in the largest classes it has the smallest
index. -/
theorem voteWinner_spec (hne : present ≠ []) (hsorted : present.Pairwise (· < ·)) :
    voteWinner sh present ∈ present ∧ voteCount sh present (voteWinner sh present) = voteMax sh present ∧
      ∀ i ∈ present, voteCount sh present i = voteMax sh present → voteWinner sh present ≤ i := by
  have hmap : present.map (voteCount sh present) ≠ [] := by simpa using hne
  obtain ⟨j, hj, hmax⟩ := List.mem_map.mp (List.max_mem hmap)
  rw [← voteMax_eq_max hmap] at hmax
  obtain ⟨win, hfind⟩ : ∃ win, present.find? (fun i => voteCount sh present i == voteMax sh present) = some win :=
    Option.isSome_iff_exists.mp (List.find?_isSome.mpr ⟨j, hj, by simpa using hmax⟩)
  have hwin : voteWinner sh present = win := by rw [voteWinner, hfind, Option.getD_some]
  obtain ⟨hcount, before, after, hsplit, hbefore⟩ := List.find?_eq_some_iff_append.mp hfind
  rw [hwin]
  refine ⟨List.mem_of_find?_eq_some hfind, by simpa using hcount, fun i hi hclass => ?_⟩
  rw [hsplit] at hi hsorted
  rcases List.mem_append.mp hi with hlow | hhigh
  · exact absurd hclass (by simpa using hbefore i hlow)
  · rcases List.mem_cons.mp hhigh with rfl | hafter
    · exact le_rfl
    · exact ((List.pairwise_cons.mp (List.pairwise_append.mp hsorted).2.1).1 i hafter).le

end

/-! ## RS_VOTE (R210) -/

section

variable {s : State} {v : Version} {P : Nat}

theorem presentShards_sorted (n : Nat) : (s.presentShards n).Pairwise (· < ·) := List.pairwise_lt_range.filter _

/-- The winning copy of RS_VOTE. -/
abbrev winner (s : State) (L P : Nat) : Nat := voteWinner (s.shard L) (s.presentShards (1 + P))

theorem outcomeOf_rsVote (hv : VersionArg s 2 v) (hp : v.isParity = true) (hg : GeometryArg s 3 1 P)
    (hshards : s.checkShards v.payloadLen (1 + P) = .ok ()) (hpresent : s.presentShards (1 + P) ≠ []) :
    outcomeOf .rsVote s = .ok (shardsStaged s
      [BitVec.ofNat 32 (winner s v.payloadLen P),
        BitVec.ofNat 32 (voteMax (s.shard v.payloadLen) (s.presentShards (1 + P))),
        BitVec.ofNat 32 ((s.presentShards (1 + P)).length - voteMax (s.shard v.payloadLen) (s.presentShards (1 + P))),
        BitVec.ofNat 32 (1 + P - (s.presentShards (1 + P)).length)]
      (s.missingShards (1 + P)) id fun _ => s.shard v.payloadLen (winner s v.payloadLen P)) := by
  simp only [outcomeOf, cmdRsVote, opPver_eq_ok.mpr ⟨hv, hp⟩, opVgeom_eq_ok.mpr hg, hshards,
    List.isEmpty_eq_false_iff.mpr hpresent, raiseIf_false, ok_bind]
  rfl

theorem rsVote_refuses_none (hv : VersionArg s 2 v) (hp : v.isParity = true) (hg : GeometryArg s 3 1 P)
    (hshards : s.checkShards v.payloadLen (1 + P) = .ok ()) (hpresent : s.presentShards (1 + P) = []) :
    Fails .rsVote s .insufficientShards 0#32 :=
  exec_of_error (e := insufficientError 0) (by
    simp only [outcomeOf, cmdRsVote, opPver_eq_ok.mpr ⟨hv, hp⟩, opVgeom_eq_ok.mpr hg, hshards, hpresent,
      List.isEmpty_nil, raiseIf_true, ok_bind, error_bind])

end

/-- Settles O55: RS_VOTE writes the payload of the first present copy in a largest class to every missing copy. -/
theorem voteRepairsFromTheMajority : Obligations.VoteRepairsFromTheMajority := by
  intro s v P hv hp hg hstride hspan copy present class_
  have hshards : s.checkShards v.payloadLen (1 + P) = .ok () :=
    checkShards_passes hstride (by rwa [Nat.add_sub_cancel_left])
  refine ⟨rsVote_refuses_none hv hp hg hshards, fun hne => ?_⟩
  have hclass : ∀ i, class_ i = voteCount (s.shard v.payloadLen) (s.presentShards (1 + P)) i := fun i =>
    congrArg List.length (List.filter_congr fun j _ => by rw [beq_eq_decide]; rfl)
  obtain ⟨hmem, hcount, hfirst⟩ := 
    voteWinner_spec (sh := s.shard v.payloadLen) (present := s.presentShards (1 + P)) hne
      (presentShards_sorted (1 + P))
  obtain ⟨t, hexec, hdone, hwritten, houtside, hscan⟩ :=
    exec_of_shards (outcomeOf_rsVote hv hp hg hshards hne) (List.nodup_range.filter _) Function.injective_id
      (fun _ _ => shard_length s _ _) hstride
  refine ⟨t, winner s v.payloadLen P, hexec, hmem, fun i hi => ?_, ?_,
    fun i hi hmask => hwritten i (mem_missingShards.mpr ⟨hi, hmask⟩), fun a ha => houtside a fun i hi => ?_, hscan⟩
  · rw [hclass, hclass, hcount]
    exact ⟨voteCount_le_voteMax hi, hfirst i hi⟩
  · rw [hclass, hcount]
    exact hdone
  · obtain ⟨hlt, hmask⟩ := mem_missingShards.mp hi
    exact ha i hlt hmask

end Sys2Proof.Machine

/-! PROOFS. The scanner's verdict (44_scanner.md R231, R236): the stream as the verdict reads it, and the verdict that
each offset gets. -/

namespace Sys2Proof.Machine

open Sys2Proof

/-! ## The stream (R231) -/

section

variable {s : State} {p : Nat}

@[simp] theorem streamRead_length (s : State) (x k : Nat) : (s.streamRead x k).length = k := bytesAt_length _ _ _ _

/-- A slice of the bytes read from the stream is the bytes read from the slice's start on. -/
theorem slice_streamRead (s : State) (x n : Nat) {i j : Nat} (hij : i ≤ j) (hj : j ≤ n) :
    slice (s.streamRead x n) i j = s.streamRead (x + i) (j - i) := by
  rw [State.streamRead, slice_memRead s _ _ hij hj, Nat.add_assoc, State.streamRead]

/-- A byte of the stream, read alone. -/
theorem streamRead_one (s : State) (x : Nat) : s.streamRead x 1 = [(s.streamRead x 1).headD 0#8] := by
  obtain ⟨b, hb⟩ := List.length_eq_one_iff.mp (streamRead_length s x 1)
  rw [hb, List.headD_cons]

/-- The first four bytes of a block are the magic and a byte exactly when its first three and its fourth are. -/
theorem streamRead_four_iff {b : Byte} :
    s.streamRead p 4 = [0x53#8, 0x42#8, 0x78#8, b] ↔ s.streamRead p 3 = magic ∧ s.streamRead (p + 3) 1 = [b] := by
  have hsplit : s.streamRead p 4 = s.streamRead p 3 ++ s.streamRead (p + 3) 1 := memRead_add s _ 3 1
  rw [hsplit]
  exact ⟨fun h => List.append_inj (s₂ := magic) h (by simp [magic]),
    fun ⟨hmagic, hbyte⟩ => by rw [hmagic, hbyte]; rfl⟩

/-- The CRC field of a block in the stream. -/
theorem slice_streamRead_crc (v : Version) :
    slice (s.streamRead p v.blockSize) 4 6 = s.streamRead (p + 4) 2 :=
  slice_streamRead s p _ (by decide) ((by decide : 6 ≤ 128).trans (blockSize_facts v).1)

/-- The UID field of a block in the stream. -/
theorem slice_streamRead_uid (v : Version) :
    slice (s.streamRead p v.blockSize) 6 10 = s.streamRead (p + 6) 4 :=
  slice_streamRead s p _ (by decide) ((by decide : 10 ≤ 128).trans (blockSize_facts v).1)

end

/-! ## The verdict behind the CRC (R126) -/

section

variable {get : Nat → Nat → List Byte} {p lim : Nat} {pv : Option Version} {uf : Option Word}
  {ref : Option (Version × Word)} {v : Version}

/-- The reference takes a block that has its version and its UID. -/
theorem any_reference_eq_false {uid : Word} :
    ref.any (fun r => decide (v ≠ r.1) || decide (uid ≠ r.2)) = false ↔ ∀ r ∈ ref, v = r.1 ∧ uid = r.2 := by
  cases ref <;> simp

/-- Behind a known header a block is accepted exactly when it passes every further clause. -/
theorem verdict_eq_accept_iff (h : KnownHeader get p lim v) :
    verdict get p lim pv uf ref = .accept v ↔
      (∀ w ∈ pv, v = w) ∧ p + v.blockSize ≤ lim ∧
      be16 (slice (get p v.blockSize) 4 6) = crcBlock (get p v.blockSize) v ∧
      (∀ u ∈ uf, be32 (slice (get p v.blockSize) 6 10) = u) ∧
      ∀ r ∈ ref, v = r.1 ∧ be32 (slice (get p v.blockSize) 6 10) = r.2 := by
  rw [verdict_of_known h, ← any_ne_eq_false, ← any_ne_eq_false, ← any_reference_eq_false]
  split_ifs <;> simp_all

/-- A block that passes the CRC and that the UID filter or the reference refuses. -/
theorem verdict_eq_uidFiltered_of_refused (h : KnownHeader get p lim v) (hpv : ∀ w ∈ pv, v = w)
    (hroom : p + v.blockSize ≤ lim)
    (hcrc : be16 (slice (get p v.blockSize) 4 6) = crcBlock (get p v.blockSize) v)
    (href : ∃ r ∈ ref, v ≠ r.1 ∨ be32 (slice (get p v.blockSize) 6 10) ≠ r.2) :
    verdict get p lim pv uf ref = .uidFiltered v := by
  obtain ⟨r, hr, hne⟩ := href
  rw [verdict_of_known h, any_ne_eq_false.mpr hpv, if_neg Bool.false_ne_true,
    if_neg (Nat.not_lt.mpr hroom), if_neg (not_not.mpr hcrc)]
  split
  · rfl
  · rw [if_pos (by simpa [Option.mem_def.mp hr] using hne)]

end

/-! ## The scanner's verdict (R236) -/

section

variable {s : State} {p : Nat} {v : Version}

/-- The strict reference is the one held, under STRICT. -/
theorem mem_strictRef {c : Scan} {x : Version × Word} :
    x ∈ c.strictRef ↔ c.strict = true ∧ ∃ r, c.ref = some r ∧ (r.ver, r.uid) = x := by
  unfold Scan.strictRef
  split <;> simp [*]

/-- An accepted offset has the magic and the version byte of its block below SCAN_TO. -/
theorem knownHeader_of_accept (h : s.scanVerdict p = .accept v) :
    KnownHeader s.streamRead p s.scan.to_.toNat v := by
  obtain ⟨hroom, hmagic, hbyte⟩ := verdict_accept h
  have hmin := (blockSize_facts v).1
  exact ⟨by omega, hmagic, by rw [streamRead_one, ofByte?_eq_some hbyte]⟩

end

/-- Settles O59: the verdict goes through its clauses in their order. -/
theorem scanVerdictAcceptsValidBlocks : Obligations.ScanVerdictAcceptsValidBlocks := by
  refine ⟨fun s p v => ⟨fun h => ?_, fun ⟨hroom, hhead, hcrc, hpv, huid, href⟩ => ?_⟩, ?_⟩
  · have hknown := knownHeader_of_accept h
    obtain ⟨hpv, hroom, hcrc, huid, href⟩ := (verdict_eq_accept_iff hknown).mp h
    rw [slice_streamRead_crc] at hcrc
    rw [slice_streamRead_uid] at huid href
    exact ⟨hroom, streamRead_four_iff.mpr hknown.2, hcrc, hpv, huid,
      fun hstrict r hr => href _ (mem_strictRef.mpr ⟨hstrict, r, hr, rfl⟩)⟩
  · have hmin := (blockSize_facts v).1
    refine (verdict_eq_accept_iff ⟨by omega, streamRead_four_iff.mp hhead⟩).mpr ⟨hpv, hroom, ?_, ?_, ?_⟩
    · rwa [slice_streamRead_crc]
    · rwa [slice_streamRead_uid]
    · rintro _ hx
      obtain ⟨hstrict, r, hr, rfl⟩ := mem_strictRef.mp hx
      rw [slice_streamRead_uid]
      exact href hstrict r hr
  · intro s p is uid
    have of_eq : ∀ {vd}, s.scanVerdict p = vd → is vd.code := fun h => congrArg Verdict.code h
    refine ⟨fun h => of_eq (verdict_eq_noMagic h), fun hlen hmagic b hbyte =>
      ⟨fun hb => of_eq (verdict_eq_unknownVersion hlen hmagic hbyte hb), fun v hv => ?_⟩⟩
    obtain rfl := ofByte?_eq_some hv
    have hknown : KnownHeader s.streamRead p s.scan.to_.toNat v := ⟨hlen, hmagic, hbyte⟩
    refine ⟨fun ⟨w, hw, hne⟩ => ?_, fun hpv => ⟨fun hshort => ?_, fun hroom => ?_⟩⟩
    · refine of_eq ?_ (vd := .versionFiltered v)
      rw [State.scanVerdict, hw, verdict_eq_versionFiltered hknown hne]
    · exact of_eq (verdict_eq_truncated hknown hpv hshort)
    · refine ⟨fun hcrc => ?_, fun hcrc ⟨u, hu, hne⟩ => ?_, fun hcrc hstrict ⟨r, hr, hne⟩ => ?_⟩
      · exact of_eq (verdict_eq_crcMismatch hknown hpv hroom (by rwa [slice_streamRead_crc]))
      · refine of_eq ?_ (vd := .uidFiltered v)
        rw [State.scanVerdict, hu, verdict_eq_uidFiltered hknown hpv hroom (by rwa [slice_streamRead_crc])
          (by rwa [slice_streamRead_uid])]
      · exact of_eq (verdict_eq_uidFiltered_of_refused hknown hpv hroom (by rwa [slice_streamRead_crc])
          ⟨_, mem_strictRef.mpr ⟨hstrict, r, hr, rfl⟩, by rwa [slice_streamRead_uid]⟩)

end Sys2Proof.Machine

/-! PROOFS. SCAN_PROBE and SCAN_INIT (44_scanner.md R233, R234, R245, R247): the lattice an offset is classified by,
and the scan that SCAN_INIT opens. -/

namespace Sys2Proof.Machine

open Sys2Proof

/-! ## SCAN_PROBE (R247) -/

section

variable {s : State} {p : Nat}

/-- An offset on the lattice of the reference, or of the alignment where none is held, is not misaligned. -/
theorem Scan.misaligned_eq_false {c : Scan} :
    c.misaligned p = false ↔
      (∀ r, c.ref = some r → (r.ver.blockSize : Int) ∣ (p : Int) - (r.off.toNat : Int)) ∧
      (c.ref = none → c.align.bytes ∣ p) := by
  unfold Scan.misaligned
  split <;> simp [*, Nat.dvd_iff_mod_eq_zero]

/-- SCAN_PROBE completes with its classification of ARG0 and moves nothing. -/
theorem exec_scanProbe {rs : List Word} (h : s.probeResult (s.opNat 0) = rs) :
    ∃ t, exec .scanProbe s = .next t ∧ CompletedOnly s t rs :=
  exec_of_ok (by rw [← h]; rfl)

theorem probeResult_of_outside (h : ¬ (s.scan.from_.toNat ≤ p ∧ p < s.scan.to_.toNat)) :
    s.probeResult p = [8#32] := by
  rw [State.probeResult, if_pos (by omega)]
  rfl

/-- An offset inside the window goes on to the lattice. -/
theorem probeResult_of_misaligned (hin : s.scan.from_.toNat ≤ p ∧ p < s.scan.to_.toNat)
    (h : s.scan.misaligned p = true) : s.probeResult p = [1#32] := by
  rw [State.probeResult, if_neg (by omega), if_pos h]
  rfl

/-- An offset on the lattice goes on to the verdict. -/
theorem probeResult_of_aligned (hin : s.scan.from_.toNat ≤ p ∧ p < s.scan.to_.toNat)
    (h : s.scan.misaligned p = false) :
    s.probeResult p = if s.scanVerdict p = .noMagic then [2#32]
      else (s.scanVerdict p).code :: s.probeHeader p := by
  rw [State.probeResult, if_neg (by omega), if_neg (by simp [h])]
  cases s.scanVerdict p <;> rfl

/-- The four words after the verdict: the header's UID and sequence number only where the header lies below
SCAN_TO. -/
theorem probeHeader_eq {b : Byte} (hbyte : s.streamRead (p + 3) 1 = [b]) :
    s.probeHeader p = [b.setWidth 32,
      if p + 16 ≤ s.scan.to_.toNat then be32 (s.streamRead (p + 6) 4) else 0#32,
      if p + 16 ≤ s.scan.to_.toNat then be32 (s.streamRead (p + 10) 4) else 0#32,
      BitVec.ofNat 32 (((Version.ofByte? b).map Version.blockSize).getD 0)] := by
  simp only [State.probeHeader, hbyte, List.headD_cons, decide_eq_true_eq]

end

/-- Settles O60: SCAN_PROBE classifies by the window, then the lattice, then the verdict. -/
theorem scanProbeClassifies : Obligations.ScanProbeClassifies := by
  refine ⟨decode_encode (i := .scanProbe) rfl, fun s => ?_⟩
  intro p gives inside aligned
  have haligned : s.scan.misaligned p = false ↔ aligned := Scan.misaligned_eq_false
  refine ⟨fun hout => exec_scanProbe (probeResult_of_outside hout), fun hin hmis => ?_,
    fun hin hal hvd => ?_, fun hin hal hvd b hbyte => ?_⟩
  · exact exec_scanProbe (probeResult_of_misaligned hin (by simpa using mt haligned.mp hmis))
  · exact exec_scanProbe (by rw [probeResult_of_aligned hin (haligned.mpr hal), if_pos hvd])
  · have hres := probeResult_of_aligned hin (haligned.mpr hal)
    rw [if_neg hvd, probeHeader_eq hbyte] at hres
    refine ⟨fun hwhole => exec_scanProbe ?_, fun hcut => exec_scanProbe ?_⟩
    · rw [hres, if_pos hwhole, if_pos hwhole]
    · rw [hres, if_neg (Nat.not_le.mpr hcut), if_neg (Nat.not_le.mpr hcut)]

/-! ## Clamping and aligning (R11, R233, R234) -/

/-- clamp moves a stream offset into [0, len]. -/
theorem clampTo_eq (x : Int) (len : Nat) : (clampTo x len : Int) = min (max x 0) len := by
  unfold clampTo
  omega

theorem clampTo_le (x : Int) (len : Nat) : clampTo x len ≤ len := Nat.min_le_right _ _

/-- align_up gives the first multiple of `a` at or after `x`. -/
theorem alignUp_spec (x : Nat) {a : Nat} (ha : 0 < a) :
    x ≤ alignUp x a ∧ alignUp x a % a = 0 ∧ alignUp x a < x + a := by
  have hdiv := Nat.div_add_mod' (x + a - 1) a
  have hmod := Nat.mod_lt (x + a - 1) ha
  unfold alignUp
  exact ⟨by omega, Nat.mul_mod_left _ _, by omega⟩

/-! ## SCAN_INIT (R245) -/

section

variable {s : State} {flags : BitVec 8} {k : Fin 8} {al : Align} {pv : Option Version}

/-- SCAN_INIT defines the FLAGS bits 0 to 3 (R85). -/
theorem scanInit_wellFormed_iff : (Instr.scanInit flags).wellFormed = true ↔ flags.toNat < 16 := by
  revert flags; decide

/-- An alignment code passes the check of type `align` (R232). -/
theorem opAlign_of_code (h : s.ARG k = al.code) : s.opAlign k = .ok al := by
  rw [State.opAlign, h]
  cases al <;> rfl

/-- A code above 2 is no alignment (R232). -/
theorem opAlign_refuses (h : 2 < s.opNat k) : s.opAlign k = .error (usageError k) := by
  unfold State.opNat at h
  unfold State.opAlign
  split
  · omega
  · omega
  · omega
  · rfl

/-- A code up to 2 is an alignment (R232). -/
theorem exists_opAlign (h : s.opNat k ≤ 2) : ∃ al, s.opAlign k = .ok al := by
  have hcode : s.opNat k = 0 ∨ s.opNat k = 1 ∨ s.opNat k = 2 := by omega
  rcases hcode with h0 | h1 | h2
  · exact ⟨.a128, opAlign_of_code (BitVec.eq_of_toNat_eq h0)⟩
  · exact ⟨.a512, opAlign_of_code (BitVec.eq_of_toNat_eq h1)⟩
  · exact ⟨.a4096, opAlign_of_code (BitVec.eq_of_toNat_eq h2)⟩

/-- The version filter that FLAGS and ARG5 give (R245): the version of ARG5 under FLAGS.PV, else none. -/
def VersionFilter (s : State) (flags : BitVec 8) (pv : Option Version) : Prop :=
  (flags.getLsbD 2 = true → ∃ v, VersionArg s 5 v ∧ pv = some v) ∧ (flags.getLsbD 2 = false → pv = none)

/-- SCAN_INIT's version operand passes where it is not read or names a version. -/
theorem scanInitVersion_passes (h : flags.getLsbD 2 = true → ∃ v, VersionArg s 5 v) :
    ∃ pv, scanInitVersion s flags = .ok pv ∧ VersionFilter s flags pv := by
  unfold scanInitVersion VersionFilter
  cases hset : flags.getLsbD 2 with
  | false => exact ⟨none, rfl, by simp, fun _ => rfl⟩
  | true =>
    obtain ⟨v, hv⟩ := h hset
    exact ⟨some v, by rw [if_pos rfl, opXver_eq_ok.mpr hv]; rfl, fun _ => ⟨v, hv, rfl⟩, by simp⟩

/-- A bad filter version is Usage(5). -/
theorem scanInitVersion_refuses (hset : flags.getLsbD 2 = true) (h : ∀ v, ¬ VersionArg s 5 v) :
    scanInitVersion s flags = .error (usageError 5) := by
  rw [scanInitVersion, if_pos hset, opXver_refuses h]
  rfl

/-! ### The scan that it opens -/

/-- SCAN_FROM as SCAN_INIT sets it (R233). -/
def State.initFrom (s : State) : Nat := clampTo (s.opSoff 2) (s.opNat 1)

/-- SCAN_TO as SCAN_INIT sets it (R233). -/
def State.initTo (s : State) (flags : BitVec 8) : Nat :=
  if flags.getLsbD 0 then clampTo (s.opSoff 3) (s.opNat 1) else s.opNat 1

/-- The scanner registers that SCAN_INIT stages (R245). -/
def State.initScan (s : State) (flags : BitVec 8) (al : Align) (pv : Option Version) : Scan :=
  { base := s.ARG 0, len := s.ARG 1, from_ := BitVec.ofNat 32 s.initFrom,
    to_ := BitVec.ofNat 32 (s.initTo flags), pos := BitVec.ofNat 32 (alignUp s.initFrom al.bytes),
    align := al, strict := flags.getLsbD 1, toSet := flags.getLsbD 0, pv := pv,
    uid := if flags.getLsbD 3 then some (s.ARG 6) else none, ref := none, exhausted := false, errs := 0 }

/-- What SCAN_INIT stages: the scan, and its window and cursor as results. -/
def initStaged (c : Scan) : Staged := { Staged.none with res := [c.from_, c.to_, c.pos], scan := some c }

/-- Past its operand checks SCAN_INIT stages the scan. -/
theorem outcomeOf_scanInit (hflags : flags.toNat < 16) (hal : s.ARG 4 = al.code)
    (hpv : scanInitVersion s flags = .ok pv)
    (hrange : s.opNat 1 = 0 ∨ s.opNat 0 + s.opNat 1 ≤ s.params.bufSize) :
    outcomeOf (.scanInit flags) s = .ok (initStaged (s.initScan flags al pv)) := by
  simp only [outcomeOf, cmdScanInit, scanInit_wellFormed_iff.mpr hflags, opAlign_of_code hal, hpv,
    checkRange_passes hrange, Bool.not_true, raiseIf_false, ok_bind]
  rfl

theorem State.initFrom_le (s : State) : s.initFrom ≤ s.opNat 1 := clampTo_le _ _

theorem State.initTo_le (s : State) (flags : BitVec 8) : s.initTo flags ≤ s.opNat 1 := by
  unfold State.initTo
  split
  · exact clampTo_le _ _
  · exact le_rfl

/-- A number below 2^32 fits a register. -/
theorem toNat_ofNat_of_lt {n : Nat} (h : n < 2 ^ 32) : (BitVec.ofNat 32 n).toNat = n := by
  rw [BitVec.toNat_ofNat, Nat.mod_eq_of_lt h]

/-- A stream in range is at most half of what a register can hold (R8, R65). -/
theorem stream_length_le {a n : Nat} (hp : s.params.Valid) (h : s.inRange a n = true) : n ≤ 0x80000000 := by
  obtain ⟨-, -, hsize, -⟩ := hp
  rcases inRange_iff.mp h with h | h
  · omega
  · omega

/-- The window and the cursor fit their registers. -/
theorem initScan_toNat (hp : s.params.Valid) (hrange : s.inRange (s.opNat 0) (s.opNat 1) = true) :
    (s.initScan flags al pv).from_.toNat = s.initFrom ∧ (s.initScan flags al pv).to_.toNat = s.initTo flags ∧
      (s.initScan flags al pv).pos.toNat = alignUp s.initFrom al.bytes := by
  have hlen := stream_length_le hp hrange
  have hfrom := s.initFrom_le
  have hto := s.initTo_le flags
  obtain ⟨hmin, hmax⟩ := alignBytes_facts al
  obtain ⟨-, -, hpos⟩ := alignUp_spec s.initFrom (show 0 < al.bytes by omega)
  exact ⟨toNat_ofNat_of_lt (by omega), toNat_ofNat_of_lt (by omega), toNat_ofNat_of_lt (by omega)⟩

/-! ### The operand checks -/

/-- A FLAGS bit above 3 is Usage(0x100) (R85, R104). -/
theorem scanInit_fails_flags (hflags : 16 ≤ flags.toNat) : Fails (.scanInit flags) s .usage 0x100#32 := by
  have hwf : (Instr.scanInit flags).wellFormed = false :=
    Bool.eq_false_iff.mpr fun h => Nat.not_lt.mpr hflags (scanInit_wellFormed_iff.mp h)
  exact exec_of_error (e := malformedWord) (by
    simp only [outcomeOf, cmdScanInit, hwf, Bool.not_false, raiseIf_true, error_bind])

/-- A bad alignment code is Usage(4). -/
theorem scanInit_fails_align (hflags : flags.toNat < 16) (hal : 2 < s.opNat 4) :
    Fails (.scanInit flags) s .usage 4#32 :=
  fails_usage (k := 4) (by simp only [outcomeOf, cmdScanInit, scanInit_wellFormed_iff.mpr hflags,
    opAlign_refuses hal, Bool.not_true, raiseIf_false, ok_bind, error_bind])

/-- A bad filter version is Usage(5), behind a legal alignment. -/
theorem scanInit_fails_version (hflags : flags.toNat < 16) (hal : s.opNat 4 ≤ 2)
    (hset : flags.getLsbD 2 = true) (hnone : ∀ v, ¬ VersionArg s 5 v) :
    Fails (.scanInit flags) s .usage 5#32 := by
  obtain ⟨al, hal⟩ := exists_opAlign hal
  exact fails_usage (k := 5) (by simp only [outcomeOf, cmdScanInit, scanInit_wellFormed_iff.mpr hflags, hal,
    scanInitVersion_refuses hset hnone, Bool.not_true, raiseIf_false, ok_bind, error_bind])

/-- A stream out of range is IO(ARG0). -/
theorem scanInit_fails_range (hflags : flags.toNat < 16) (hal : s.ARG 4 = al.code)
    (hpv : scanInitVersion s flags = .ok pv) (hne : s.opNat 1 ≠ 0)
    (hr : s.params.bufSize < s.opNat 0 + s.opNat 1) : Fails (.scanInit flags) s .io (s.ARG 0) :=
  fails_io (by simp only [outcomeOf, cmdScanInit, scanInit_wellFormed_iff.mpr hflags, opAlign_of_code hal,
    hpv, checkRange_eq_ioError hne hr, Bool.not_true, raiseIf_false, ok_bind, error_bind])

/-- SCAN_INIT reads no snapshot: neither its rule nor its completion depends on it. -/
theorem exec_scanInit_snap (m : Memory) :
    exec (.scanInit flags) { s with snap := m } = exec (.scanInit flags) s := by
  have hsame : outcomeOf (.scanInit flags) { s with snap := m } = outcomeOf (.scanInit flags) s := rfl
  rw [exec_eq_finish, exec_eq_finish, hsame]
  cases outcomeOf (.scanInit flags) s <;> rfl

/-- A rule that stages the scanner registers `c` and no write completes with them. -/
theorem exec_of_scan {i : Instr} {st : Staged} {c : Scan} (h : outcomeOf i s = .ok st) (hw : st.writes = [])
    (hc : st.scan = some c) :
    ∃ t, exec i s = .next t ∧ CompletedWith s t st.res ∧ SameBuf s t ∧ t.scan = c := by
  refine ⟨(s.stage st).completeOk, by rw [exec_eq_finish, h]; rfl, completeOk_completedWith s st, ?_, ?_⟩
  · exact fun a => bufByte_completeOk_outside (by simp [hw])
  · simp [hc]

end

/-- Settles O56: the operand checks of SCAN_INIT in their order, and the registers of the scan that it opens. -/
theorem scanInitOpensAScan : Obligations.ScanInitOpensAScan := by
  refine ⟨fun s flags => scanInit_fails_flags, fun s flags => scanInit_fails_align,
    fun s flags => scanInit_fails_version, fun s flags al hflags hal hversion => ?_,
    fun s flags m => exec_scanInit_snap m⟩
  obtain ⟨pv, hpv, hset, hclear⟩ := scanInitVersion_passes hversion
  refine ⟨fun ⟨hne, hr⟩ => scanInit_fails_range hflags hal hpv hne hr, fun hrange hp => ?_⟩
  obtain ⟨t, hexec, hdone, hbuf, hscan⟩ := exec_of_scan (outcomeOf_scanInit hflags hal hpv hrange) rfl rfl
  obtain ⟨hfrom, hto, hpos⟩ := initScan_toNat (flags := flags) (al := al) (pv := pv) hp (inRange_iff.mpr hrange)
  have hal_pos : 0 < al.bytes := lt_of_lt_of_le (by decide) (alignBytes_facts al).1
  refine ⟨t, hexec, ?_⟩
  rw [hscan, hfrom, hto, hpos]
  refine ⟨hdone, hbuf, rfl, rfl, clampTo_eq _ _, ?_, alignUp_spec _ hal_pos, rfl, rfl, rfl, hset, hclear, rfl, rfl,
    rfl, rfl⟩
  rw [State.initTo, apply_ite Nat.cast, clampTo_eq]
  rfl

end Sys2Proof.Machine

/-! PROOFS. SCAN_NEXT (44_scanner.md R235, R237-R239, R246): the candidates from the cursor on, the one at which a
call ends, and the window that every step keeps. -/

namespace Sys2Proof.Machine

open Sys2Proof

/-! ## Candidates (R235) -/

section

variable {s : State} {m : Nat} {v : Version}

/-- The k-th candidate from the cursor on. -/
abbrev State.candidate (s : State) (k : Nat) : Nat := s.scan.pos.toNat + k * s.scan.step

/-- The first `m` candidates lie below SCAN_TO and are rejected. -/
def State.Rejects (s : State) (m : Nat) : Prop :=
  ∀ k, k < m → s.candidate k < s.scan.to_.toNat ∧ ∀ w, s.scanVerdict (s.candidate k) ≠ .accept w

/-- The m-th candidate is the first that is accepted, with version `v`. -/
def State.AcceptsAt (s : State) (m : Nat) (v : Version) : Prop :=
  s.Rejects m ∧ s.candidate m < s.scan.to_.toNat ∧ s.scanVerdict (s.candidate m) = .accept v

/-- The m-th candidate is the first at or after SCAN_TO, and those before it are rejected. -/
def State.EndsAt (s : State) (m : Nat) : Prop := s.Rejects m ∧ s.scan.to_.toNat ≤ s.candidate m

theorem candidate_mono {j k : Nat} (h : j ≤ k) : s.candidate j ≤ s.candidate k :=
  Nat.add_le_add_left (Nat.mul_le_mul_right _ h) _

theorem candidate_succ (k : Nat) : s.candidate (k + 1) = s.candidate k + s.scan.step := by
  rw [State.candidate, Nat.succ_mul, Nat.add_assoc]

/-- Rejected candidates come before an accepted one. -/
theorem State.Rejects.le_of_accept {n : Nat} (h : s.Rejects n)
    (haccept : s.scanVerdict (s.candidate m) = .accept v) : n ≤ m :=
  Nat.le_of_not_lt fun hlt => (h m hlt).2 v haccept

/-- Candidates below SCAN_TO come before one at or after it. -/
theorem State.Rejects.le_of_end {n : Nat} (h : s.Rejects n) (hend : s.scan.to_.toNat ≤ s.candidate m) : n ≤ m :=
  Nat.le_of_not_lt fun hlt => Nat.not_lt.mpr hend (h m hlt).1

/-- A scan has at most one first accepted candidate. -/
theorem State.AcceptsAt.unique {n : Nat} {w : Version} (h : s.AcceptsAt m v) (h' : s.AcceptsAt n w) :
    m = n ∧ v = w := by
  obtain ⟨hrej, -, hacc⟩ := h
  obtain ⟨hrej', -, hacc'⟩ := h'
  obtain rfl := le_antisymm (hrej.le_of_accept hacc') (hrej'.le_of_accept hacc)
  exact ⟨rfl, by simpa using hacc.symm.trans hacc'⟩

/-- A scan has at most one first candidate at or after SCAN_TO. -/
theorem State.EndsAt.unique {n : Nat} (h : s.EndsAt m) (h' : s.EndsAt n) : m = n :=
  le_antisymm (h.1.le_of_end h'.2) (h'.1.le_of_end h.2)

/-- A scan that comes to an accepted candidate does not come to SCAN_TO. -/
theorem State.AcceptsAt.not_endsAt {n : Nat} (h : s.AcceptsAt m v) (h' : s.EndsAt n) : False := by
  obtain ⟨hrej, hlt, hacc⟩ := h
  have hmono := candidate_mono (s := s) (h'.1.le_of_accept hacc)
  have := h'.2
  omega

/-! ## The rule -/

/-- SCAN_ERRS counts the verdicts 3 to 7 (R238). -/
theorem counted_eq_code_range (vd : Verdict) :
    vd.counted = (decide (3 ≤ vd.code.toNat) && decide (vd.code.toNat ≤ 7)) := by
  cases vd <;> rfl

/-- SCAN_ERRS after the first `m` candidates (R238). -/
def State.errsAfter (s : State) (m : Nat) : Word :=
  s.scan.errs + BitVec.ofNat 32 (countedBefore s s.scan.pos.toNat m)

/-- The reference that the scan holds after it accepts its m-th candidate with version `v` (R237). -/
def State.refAfter (s : State) (m : Nat) (v : Version) : ScanRef :=
  (s.scan.ref).getD { off := BitVec.ofNat 32 (s.candidate m), ver := v,
                      uid := be32 (s.streamRead (s.candidate m + 6) 4) }

/-- The scanner registers after the m-th candidate is accepted with version `v` (R246). -/
def State.scanAfter (s : State) (m : Nat) (v : Version) : Scan :=
  { s.scan with ref := some (s.refAfter m v), errs := s.errsAfter m,
                pos := BitVec.ofNat 32 (s.candidate m + (s.refAfter m v).ver.blockSize) }

/-- What SCAN_NEXT stages where the m-th candidate is accepted with version `v` (R246). -/
def State.foundStaged (s : State) (m : Nat) (v : Version) : Staged :=
  { Staged.none with
    res := [1#32, BitVec.ofNat 32 (s.candidate m), v.byte.setWidth 32, be32 (s.streamRead (s.candidate m + 6) 4),
            be32 (s.streamRead (s.candidate m + 10) 4), BitVec.ofNat 32 v.blockSize],
    scan := some (s.scanAfter m v) }

/-- The scanner registers of a scan exhausted at its m-th candidate (R239). -/
def State.scanExhausted (s : State) (m : Nat) : Scan :=
  { s.scan with pos := BitVec.ofNat 32 (s.candidate m), exhausted := true, errs := s.errsAfter m }

/-- What SCAN_NEXT stages where the scan is exhausted at its m-th candidate (R239). -/
def State.exhaustStaged (s : State) (m : Nat) : Staged :=
  { Staged.none with res := [0#32], scan := some (s.scanExhausted m) }

/-- The reference held, or the accepted block (R237). -/
theorem adopt_eq_getD (c : Scan) (p : Nat) (v : Version) (uid : Word) :
    c.adopt p v uid = c.ref.getD { off := BitVec.ofNat 32 p, ver := v, uid := uid } := by
  unfold Scan.adopt
  split <;> simp [*]

/-- A call of SCAN_NEXT on a scan that is not exhausted ends at the first accepted candidate, or at SCAN_TO. -/
theorem scanNext_cases (hex : s.scan.exhausted = false) :
    (∃ m v, s.AcceptsAt m v ∧ outcomeOf .scanNext s = .ok (s.foundStaged m v)) ∨
      ∃ m, s.EndsAt m ∧ outcomeOf .scanNext s = .ok (s.exhaustStaged m) := by
  obtain ⟨m, hat, hrej, herrs, hfound, hnone⟩ :=
    scanLoop_spec s (s.scan.to_.toNat - s.scan.pos.toNat) s.scan.pos.toNat s.scan.errs le_rfl
  have huid : slice (s.streamRead (s.candidate m) 16) 6 10 = s.streamRead (s.candidate m + 6) 4 :=
    slice_streamRead s _ _ (by decide) (by decide)
  have hseq : slice (s.streamRead (s.candidate m) 16) 10 14 = s.streamRead (s.candidate m + 10) 4 :=
    slice_streamRead s _ _ (by decide) (by decide)
  rw [show outcomeOf .scanNext s = cmdScanNext s from rfl, cmdScanNext, if_neg (by simp [hex])]
  cases hres : (scanLoop s (s.scan.to_.toNat - s.scan.pos.toNat) s.scan.pos.toNat s.scan.errs).found with
  | some v =>
    refine .inl ⟨m, v, ⟨hrej, hfound v hres⟩, ?_⟩
    simp only [hres, hat, herrs, huid, hseq, adopt_eq_getD]
    rfl
  | none =>
    refine .inr ⟨m, ⟨hrej, hnone hres⟩, ?_⟩
    simp only [hres, hat, herrs]
    rfl

/-- SCAN_NEXT on a scan with a first accepted candidate. -/
theorem outcomeOf_scanNext_found (hex : s.scan.exhausted = false) (h : s.AcceptsAt m v) :
    outcomeOf .scanNext s = .ok (s.foundStaged m v) := by
  rcases scanNext_cases hex with ⟨n, w, h', hout⟩ | ⟨n, h', -⟩
  · obtain ⟨rfl, rfl⟩ := h.unique h'
    exact hout
  · exact (h.not_endsAt h').elim

/-- SCAN_NEXT on a scan with no accepted candidate before SCAN_TO. -/
theorem outcomeOf_scanNext_exhausts (hex : s.scan.exhausted = false) (h : s.EndsAt m) :
    outcomeOf .scanNext s = .ok (s.exhaustStaged m) := by
  rcases scanNext_cases hex with ⟨n, w, h', -⟩ | ⟨n, h', hout⟩
  · exact (h'.not_endsAt h).elim
  · obtain rfl := h.unique h'
    exact hout

/-- SCAN_NEXT on an exhausted scan stages its one result only (R239). -/
theorem outcomeOf_scanNext_exhausted (hex : s.scan.exhausted = true) :
    outcomeOf .scanNext s = .ok { Staged.none with res := [0#32] } := by
  simp only [outcomeOf, cmdScanNext, hex, if_true]

/-- The one result 0 is what an undefined result reads as (R89). -/
theorem resFile_zero : resFile [0#32] = resFile [] :=
  Vector.ext fun i hi => by cases i <;> simp [resFile]

/-- To complete with the result 0 is to complete with no result. -/
theorem CompletedWith.of_zero {s t : State} (h : CompletedWith s t [0#32]) : CompletedWith s t [] := by
  unfold CompletedWith at h ⊢
  rwa [resFile_zero] at h

/-- SCAN_ERRS after the first `m` candidates, counted by their verdict codes. -/
theorem errsAfter_eq_codes (s : State) (m : Nat) :
    s.errsAfter m = s.scan.errs + BitVec.ofNat 32 ((List.range m).filter (fun k =>
      decide (3 ≤ (s.scanVerdict (s.candidate k)).code.toNat) &&
      decide ((s.scanVerdict (s.candidate k)).code.toNat ≤ 7))).length := by
  simp only [State.errsAfter, countedBefore, counted_eq_code_range]

end

/-- Settles O57: the call ends at the first accepted candidate. -/
theorem scanNextYieldsTheFirstAccepted : Obligations.ScanNextYieldsTheFirstAccepted := by
  intro s m v cand hex hlt hacc hfirst uid ref
  have hrejects : s.Rejects m := fun k hk => ⟨(candidate_mono hk.le).trans_lt hlt, hfirst k hk⟩
  obtain ⟨t, hexec, hdone, hbuf, hscan⟩ :=
    exec_of_scan (outcomeOf_scanNext_found hex ⟨hrejects, hlt, hacc⟩) rfl rfl
  refine ⟨t, hexec, hbuf, hdone, ?_⟩
  rw [hscan, State.scanAfter, errsAfter_eq_codes]
  rfl

/-- Settles O58: the call ends at the first candidate at or after SCAN_TO, and later calls do nothing more. -/
theorem scanNextExhausts : Obligations.ScanNextExhausts := by
  refine ⟨fun s hex => ?_, fun s m => ?_⟩
  · obtain ⟨t, hexec, hdone, hsame⟩ := exec_of_ok (outcomeOf_scanNext_exhausted hex)
    exact ⟨t, hexec, hdone.of_zero, hsame⟩
  · intro cand hex hend hrejects
    obtain ⟨t, hexec, hdone, hbuf, hscan⟩ :=
      exec_of_scan (outcomeOf_scanNext_exhausts hex ⟨hrejects, hend⟩) rfl rfl
    refine ⟨t, hexec, hbuf, hdone.of_zero, ?_⟩
    rw [hscan, State.scanExhausted, errsAfter_eq_codes]

/-! ## The window (R231-R239) -/

section

variable {s : State} {c : Scan} {m : Nat} {v : Version}

/-- The window depends on the parameters and the scanner registers only. -/
theorem ScanWindow.congr {t : State} (h : ScanWindow s) (hparams : t.params = s.params)
    (hscan : t.scan = s.scan) : ScanWindow t := by
  unfold ScanWindow State.inRange at h ⊢
  rwa [hparams, hscan]

/-- The registers of an empty scan are a window. -/
theorem scanWindow_reset (s : State) : ScanWindow { s with scan := Scan.reset } :=
  ⟨le_rfl, le_rfl, rfl, by simp [Scan.reset], fun _ => ⟨rfl, le_rfl⟩, by simp [Scan.reset]⟩

/-- SCAN_INIT opens a window. -/
theorem scanWindow_initScan {flags : BitVec 8} {al : Align} {pv : Option Version} (hp : s.params.Valid)
    (hrange : s.inRange (s.opNat 0) (s.opNat 1) = true) :
    ScanWindow { s with scan := s.initScan flags al pv } := by
  obtain ⟨hfrom, hto, hpos⟩ := initScan_toNat (flags := flags) (al := al) (pv := pv) hp hrange
  obtain ⟨hlo, hmod, -⟩ :=
    alignUp_spec s.initFrom (lt_of_lt_of_le (by decide) (alignBytes_facts al).1 : 0 < al.bytes)
  refine ⟨hfrom.trans_le s.initFrom_le, hto.trans_le (s.initTo_le flags), hrange, ?_, fun _ => ?_, ?_⟩
  · simp [State.initScan]
  · exact ⟨by rw [hpos]; exact hmod, by rw [hpos, hfrom]; exact hlo⟩
  · simp [State.initScan]

/-- The candidates of a window lie on its lattice, at or after its cursor. -/
theorem ScanWindow.candidate_lattice (h : ScanWindow s) (k : Nat) :
    (∀ r, s.scan.ref = some r →
      (s.candidate k - r.off.toNat) % r.ver.blockSize = 0 ∧ r.off.toNat < s.candidate k) ∧
    (s.scan.ref = none → s.candidate k % s.scan.align.bytes = 0 ∧ s.scan.from_.toNat ≤ s.candidate k) := by
  obtain ⟨-, -, -, href, hnone, -⟩ := h
  refine ⟨fun r hr => ?_, fun hr => ?_⟩
  · obtain ⟨-, -, -, hmod, hlt⟩ := href r hr
    have hstep : s.scan.step = r.ver.blockSize := by rw [Scan.step, hr]
    rw [State.candidate, hstep, Nat.sub_add_comm hlt.le, Nat.add_mul_mod_self_right]
    exact ⟨hmod, by omega⟩
  · obtain ⟨hmod, hle⟩ := hnone hr
    have hstep : s.scan.step = s.scan.align.bytes := by rw [Scan.step, hr]
    rw [State.candidate, hstep, Nat.add_mul_mod_self_right]
    exact ⟨hmod, by omega⟩

/-- The cursor may move to any candidate that fits its register; a scan exhausted there must have it at or after
SCAN_TO. -/
theorem ScanWindow.move (h : ScanWindow s) {k : Nat} (hfits : s.candidate k < 2 ^ 32) {ex : Bool} {errs : Word}
    (hex : ex = true → s.scan.to_.toNat ≤ s.candidate k) :
    ScanWindow { s with scan :=
      { s.scan with pos := BitVec.ofNat 32 (s.candidate k), exhausted := ex, errs := errs } } := by
  obtain ⟨hlatticeRef, hlatticeNone⟩ := h.candidate_lattice k
  obtain ⟨hfrom, hto, hrange, href, -, -⟩ := h
  refine ⟨hfrom, hto, hrange, fun r hr => ?_, fun hr => ?_, fun hset => ?_⟩
  · obtain ⟨hlo, hhi, hal, -, -⟩ := href r hr
    rw [toNat_ofNat_of_lt hfits]
    exact ⟨hlo, hhi, hal, hlatticeRef r hr⟩
  · rw [toNat_ofNat_of_lt hfits]
    exact hlatticeNone hr
  · rw [toNat_ofNat_of_lt hfits]
    exact hex hset

/-- SCAN_TO is at most half of what a register can hold. -/
theorem ScanWindow.to_le (h : ScanWindow s) (hp : s.params.Valid) : s.scan.to_.toNat ≤ 0x80000000 := by
  obtain ⟨-, hto, hrange, -⟩ := h
  exact hto.trans (stream_length_le hp hrange)

/-- The candidate behind rejected ones fits the cursor's register. -/
theorem ScanWindow.candidate_fits (h : ScanWindow s) (hp : s.params.Valid) (hrej : s.Rejects m) :
    s.candidate m < 2 ^ 32 := by
  cases m with
  | zero => simpa [State.candidate] using s.scan.pos.isLt
  | succ k =>
    have hto := h.to_le hp
    have hbelow := (hrej k k.lt_succ_self).1
    have hstep := (scanStep_facts s.scan).2
    rw [candidate_succ]
    omega

/-- An exhausted scan keeps its window. -/
theorem scanWindow_exhausted (h : ScanWindow s) (hp : s.params.Valid) (hend : s.EndsAt m) :
    ScanWindow { s with scan := s.scanExhausted m } :=
  h.move (h.candidate_fits hp hend.1) fun _ => hend.2

/-- An accepted block, with the reference that the scan then holds, keeps the window. -/
theorem scanWindow_after (h : ScanWindow s) (hp : s.params.Valid) (hex : s.scan.exhausted = false)
    (hacc : s.AcceptsAt m v) : ScanWindow { s with scan := s.scanAfter m v } := by
  obtain ⟨hrej, hlt, hvd⟩ := hacc
  have hto := h.to_le hp
  cases href : s.scan.ref with
  | some r =>
    have hkept : s.refAfter m v = r := by rw [State.refAfter, href, Option.getD_some]
    have hstep : s.scan.step = r.ver.blockSize := by rw [Scan.step, href]
    have hmax := (blockSize_facts r.ver).2.1
    have hnext : s.candidate (m + 1) = s.candidate m + r.ver.blockSize := by rw [candidate_succ, hstep]
    rw [State.scanAfter, hkept, ← hnext, ← href]
    exact h.move (ex := s.scan.exhausted) (by omega) (by simp [hex])
  | none =>
    have hroom := (verdict_accept hvd).1
    have hmin := (blockSize_facts v).1
    obtain ⟨hmod, hle⟩ := (h.candidate_lattice m).2 href
    have hoff : (BitVec.ofNat 32 (s.candidate m)).toNat = s.candidate m := toNat_ofNat_of_lt (by omega)
    have hpos : (BitVec.ofNat 32 (s.candidate m + v.blockSize)).toNat = s.candidate m + v.blockSize :=
      toNat_ofNat_of_lt (by omega)
    obtain ⟨hfrom, htolen, hrange, -⟩ := h
    rw [State.scanAfter, State.refAfter, href, Option.getD_none]
    refine ⟨hfrom, htolen, hrange, fun r hr => ?_, fun hr => absurd hr (Option.some_ne_none _),
      fun hset => absurd hset (by simp [hex])⟩
    cases hr
    rw [hoff, hpos, Nat.add_sub_cancel_left, Nat.mod_self]
    exact ⟨hle, hroom, hmod, rfl, by omega⟩

/-- What a completed command leaves in the scanner registers is a window: what it staged, or what stood there. -/
theorem scanWindow_completeOk {st : Staged} (h : ScanWindow { s with scan := st.scan.getD s.scan }) :
    ScanWindow (s.stage st).completeOk := h.congr rfl rfl

/-- Every command keeps the window (R101). -/
theorem scanWindow_outcome {i : Instr} {st : Staged} (h : ScanWindow s) (hp : s.params.Valid)
    (hout : outcomeOf i s = .ok st) : ScanWindow (s.stage st).completeOk := by
  refine scanWindow_completeOk ?_
  by_cases hinit : ∃ flags, i = .scanInit flags
  · obtain ⟨flags, rfl⟩ := hinit
    obtain ⟨al, pv, -, hrange, -, hst⟩ := cmdScanInit_ok hout
    rw [hst]
    exact scanWindow_initScan (al := al) (pv := pv) hp hrange
  by_cases hnext : i = .scanNext
  · subst hnext
    cases hex : s.scan.exhausted with
    | true =>
      rw [outcomeOf_scanNext_exhausted hex] at hout
      cases hout
      exact h
    | false =>
      rcases scanNext_cases hex with ⟨m, v, hacc, hfound⟩ | ⟨m, hend, hexhaust⟩
      · cases hfound.symm.trans hout
        exact scanWindow_after h hp hex hacc
      · cases hexhaust.symm.trans hout
        exact scanWindow_exhausted h hp hend
  · rw [outcomeOf_scan_none hout (fun flags hi => hinit ⟨flags, hi⟩) hnext]
    exact h

end

/-- The scanner registers are a window under the parameters `p`. -/
def WindowFits (p : Params) (s : State) : Prop := s.params = p ∧ ScanWindow s

/-- Every operation keeps the parameters and the window: only a reset, SCAN_INIT and SCAN_NEXT touch it. -/
theorem windowFits_kept {p : Params} (hp : p.Valid) : KeptByOperations (WindowFits p) where
  tick _ h := h
  advanceHost _ _ h := h
  returned _ _ h := h
  ctrlBits _ _ _ h := h
  writeStatus _ _ h := h
  writeErracc _ _ h := h
  dropWrite _ h := h
  accept _ _ _ h := h
  storeArg _ _ _ _ h := h
  storeMask _ _ _ _ h := h
  bufWrite _ _ _ _ _ _ h := h
  softReset s h := ⟨h.1, (scanWindow_reset s).congr rfl rfl⟩
  powerOnReset s h := ⟨h.1, (scanWindow_reset s).congr rfl rfl⟩
  completeError _ _ _ h := h
  completeOk s i st hout h := by
    obtain ⟨rfl, hwindow⟩ := h
    exact ⟨rfl, scanWindow_outcome hwindow hp hout⟩

/-- Settles O28: every operation of a step keeps the scanner registers a window. -/
theorem everyStepKeepsScanWindow : Obligations.EveryStepKeepsScanWindow :=
  fun _ _ hp hs h => ((windowFits_kept hp).step ⟨rfl, hs⟩ h).2

end Sys2Proof.Machine

/-! PROOFS. The interrupt line (60_exceptions.md R274): its value by DONE and IE, and what completions, register
writes and resets do to it. -/

namespace Sys2Proof.Machine

open Sys2Proof

section

variable {s t : State}

/-! ## IRQ by DONE and IE (R22) -/

/-- While DONE is set, IRQ is IE. -/
theorem State.irq_of_done (h : s.done = true) : s.irq = s.ie := by
  rw [State.irq, h, Bool.true_and]

/-- IRQ is low while DONE is clear. -/
theorem State.irq_of_not_done (h : s.done = false) : s.irq = false := by
  rw [State.irq, h, Bool.false_and]

/-- IRQ is low while IE is clear. -/
theorem State.irq_of_not_ie (h : s.ie = false) : s.irq = false := by
  rw [State.irq, h, Bool.and_false]

/-! ## Completions raise IRQ when IE = 1 -/

/-- After a successful completion IRQ is IE (R102). -/
theorem State.irq_completeOk (s : State) : s.completeOk.irq = s.ie := State.irq_of_done s.completeOk_done

/-- After an error completion IRQ is IE (R103). -/
theorem State.irq_completeError (s : State) (e : CmdError) : (s.completeError e).irq = s.ie :=
  State.irq_of_done (s.completeError_done e)

/-- Whatever the outcome of a command, after its completion IRQ is IE. -/
theorem irq_finish (s : State) (r : Except CmdError Staged) : (s.finish r).irq = s.ie := by
  cases r with
  | ok st => exact (s.stage st).irq_completeOk
  | error e => exact s.irq_completeError e

/-- After the step of a due command, cancelled and malformed ones among them, IRQ is IE. -/
theorem irq_step_of_due (hdue : s.due = true) (h : step s = .next t) : t.irq = s.ie := by
  rcases step_of_due hdue h with ⟨e, -, rfl⟩ | ⟨i, st, -, rfl⟩
  · exact s.irq_completeError e
  · exact (s.stage st).irq_completeOk

/-! ## What lowers IRQ, and what leaves it -/

/-- A write of STATUS with bit 1 set clears DONE, and IRQ with it (R23). -/
theorem State.irq_writeStatus (s : State) {v : Word} (h : v.getLsbD 1 = true) : (s.writeStatus v).irq = false :=
  State.irq_of_not_done (by simp [h])

/-- A soft reset lowers IRQ (R291). -/
theorem State.irq_softReset (s : State) : s.softReset.irq = false := State.irq_of_not_done s.softReset_done

/-- A power-on lowers IRQ (R290). -/
theorem State.irq_powerOnReset (s : State) : s.powerOnReset.irq = false :=
  State.irq_of_not_done s.powerOnReset_done

/-- A write of CTRL with IE = 0 lowers IRQ, as a soft reset or by clearing IE (R22). -/
theorem State.irq_writeCtrl (s : State) {v : Word} (h : v.getLsbD 0 = false) : (s.writeCtrl v).irq = false := by
  cases hsrst : v.getLsbD 2 with
  | true => rw [s.writeCtrl_of_srst hsrst, s.irq_softReset]
  | false =>
    rw [s.writeCtrl_of_not_srst hsrst]
    exact State.irq_of_not_ie h

/-- Acceptance clears DONE, and IRQ with it (R100). -/
theorem State.irq_accept (s : State) (w : Word) : (s.accept w).irq = false := State.irq_of_not_done (s.accept_done w)

/-- A dropped write leaves IRQ alone (R294). -/
theorem State.irq_dropWrite (s : State) : s.dropWrite.irq = s.irq := by
  rw [State.irq, s.dropWrite_done, s.dropWrite_ie, State.irq]

end

/-! ## The registers written (R20) -/

/-- The register at 0x004 is CTRL. -/
theorem State.regWrite_ctrl (s : State) (v : Word) : s.regWrite 0x004 v = s.writeCtrl v := rfl

/-- The register at 0x008 is STATUS. -/
theorem State.regWrite_status (s : State) (v : Word) : s.regWrite 0x008 v = s.writeStatus v := rfl

/-- The register at 0x010 is CMD. -/
theorem State.regWrite_cmd (s : State) (w : Word) : s.regWrite 0x010 w = s.writeCmd w := rfl

/-- Settles O15: a completion sets DONE, so IRQ is IE after it; the W1C write, acceptance and the resets clear DONE,
a CTRL write can clear IE, and a dropped write touches neither. -/
theorem interruptFollowsDoneAndEnable : Obligations.InterruptFollowsDoneAndEnable := by
  refine ⟨fun _ => rfl, fun i s t h => ?_,
    fun s t hbusy hdelay => irq_step_of_due (State.due_eq_true.mpr ⟨hbusy, hdelay⟩), fun s v hdone => ?_,
    fun s v hie => ?_, fun s w hidle => ?_, fun s w hbusy => ?_,
    fun s => ⟨s.irq_softReset, s.irq_powerOnReset⟩⟩
  · rw [exec_eq_finish, Host.Outcome.next.injEq] at h
    subst h
    exact irq_finish s _
  · rw [s.regWrite_status]
    exact s.irq_writeStatus hdone
  · rw [s.regWrite_ctrl]
    exact s.irq_writeCtrl hie
  · rw [s.regWrite_cmd, s.writeCmd_of_idle w hidle]
    exact s.irq_accept w
  · rw [s.regWrite_cmd, s.writeCmd_of_busy w hbusy]
    exact s.irq_dropWrite

end Sys2Proof.Machine

/-! PROOFS. Resets and hazards (70_reset_and_hazards.md R290-R300): what a soft reset leaves, the register writes
while a command is in flight, what moves the scanner registers, and the completion of an accepted command. -/

namespace Sys2Proof.Machine

open Sys2Proof

section

variable {s t : State} {off : Nat} {v : Word}

/-! ## Resets (R290, R291) -/

/-- Every register but BUFSZ reads its reset value after a soft reset (R291). -/
theorem State.regRead_softReset (s : State) (h : off ≠ 0x01C) :
    s.softReset.regRead off = State.reset.regRead off :=
  State.reset.regRead_params s.params h

/-- A host write of CTRL reaches the CTRL register (R22, R63). -/
theorem hostWrite_ctrl (s : State) (v : Word) : hostWrite s .w32 0x004 v = .next (s.writeCtrl v) :=
  hostWrite_reg s v (by decide) (by decide)

/-- The parameters after reset are the defaults of R8, which meet its constraints. -/
theorem reset_params_valid : State.reset.params.Valid := by decide

/-- After reset nothing is written to BUF and no snapshot is held (R290). -/
theorem memoryWellFormed_reset : MemoryWellFormed State.reset :=
  ⟨rfl, rfl, List.forall_mem_nil _, List.forall_mem_nil _⟩

/-! ## The registers that a busy engine does not take (R294) -/

/-- An ARG write while busy is dropped. -/
theorem State.writeArg_of_busy (s : State) (k : Nat) (v : Word) (h : s.busy = true) :
    s.writeArg k v = s.dropWrite := if_pos h

/-- An ARG write while idle stores the word (R29). -/
theorem State.writeArg_of_idle (s : State) (k : Nat) (v : Word) (h : s.busy = false) :
    s.writeArg k v = { s with arg := fileSet s.arg k v } :=
  if_neg (Bool.eq_false_iff.mp h)

/-- An RS_MASK write while busy is dropped. -/
theorem State.writeMask_of_busy (s : State) (k : Nat) (v : Word) (h : s.busy = true) :
    s.writeMask k v = s.dropWrite := if_pos h

/-- An RS_MASK write while idle stores the word (R31). -/
theorem State.writeMask_of_idle (s : State) (k : Nat) (v : Word) (h : s.busy = false) :
    s.writeMask k v = { s with rsMask := fileSet s.rsMask k v } :=
  if_neg (Bool.eq_false_iff.mp h)

/-- A word of a register file is written in place. -/
theorem fileSet_fin (f : Vector Word 8) (k : Fin 8) (x : Word) : fileSet f k x = f.set k x :=
  Vector.ext fun i hi => by simp [fileSet, Vector.getElem_set, Vector.getElem_setIfInBounds]

/-! ## The register written, by its offset (R20) -/

/-- The register at 0x00C is ERRACC. -/
theorem State.regWrite_erracc (s : State) (v : Word) : s.regWrite 0x00C v = s.writeErracc v := rfl

/-- The offsets from 0x020 to 0x03F are the ARG registers. -/
theorem State.regWrite_arg (s : State) (v : Word) (h : 0x020 ≤ off ∧ off < 0x040) :
    s.regWrite off v = s.writeArg ((off - 0x020) / 4) v := by
  have hlow : ∀ n, n < 0x020 → off ≠ n := by omega
  simp [State.regWrite, hlow, h]

/-- The offsets from 0x060 to 0x07F are the RS_MASK registers. -/
theorem State.regWrite_mask (s : State) (v : Word) (h : 0x060 ≤ off ∧ off < 0x080) :
    s.regWrite off v = s.writeMask ((off - 0x060) / 4) v := by
  have hlow : ∀ n, n < 0x020 → off ≠ n := by omega
  simp [State.regWrite, hlow, h, show ¬ off < 0x040 by omega]

/-- ARGk stands at 0x020 + 4k. -/
theorem State.regWrite_arg_fin (s : State) (k : Fin 8) (v : Word) :
    s.regWrite (0x020 + 4 * k.val) v = s.writeArg k v := by
  rw [s.regWrite_arg v (by omega), Nat.add_sub_cancel_left, Nat.mul_div_cancel_left _ (by decide)]

/-- RS_MASKk stands at 0x060 + 4k. -/
theorem State.regWrite_mask_fin (s : State) (k : Fin 8) (v : Word) :
    s.regWrite (0x060 + 4 * k.val) v = s.writeMask k v := by
  rw [s.regWrite_mask v (by omega), Nat.add_sub_cancel_left, Nat.mul_div_cancel_left _ (by decide)]

/-- A write to a RO or reserved register is ignored (R294). -/
theorem State.regWrite_of_read_only (s : State) (v : Word)
    (h : off = 0x000 ∨ (0x014 ≤ off ∧ off < 0x020) ∨ (0x040 ≤ off ∧ off < 0x060) ∨ 0x080 ≤ off) :
    s.regWrite off v = s := by
  have hne : off ≠ 0x004 ∧ off ≠ 0x008 ∧ off ≠ 0x00C ∧ off ≠ 0x010 := by omega
  have hfiles : ¬ (0x020 ≤ off ∧ off < 0x040) ∧ ¬ (0x060 ≤ off ∧ off < 0x080) := by omega
  simp only [State.regWrite, hne, hfiles, if_false]

/-- While busy a write to CMD, an ARG or an RS_MASK register is dropped (R294). -/
theorem State.regWrite_of_busy (s : State) (v : Word) (hbusy : s.busy = true)
    (h : off = 0x010 ∨ (0x020 ≤ off ∧ off < 0x040) ∨ (0x060 ≤ off ∧ off < 0x080)) :
    s.regWrite off v = s.dropWrite := by
  rcases h with rfl | harg | hmask
  · rw [s.regWrite_cmd, s.writeCmd_of_busy v hbusy]
  · rw [s.regWrite_arg v harg, s.writeArg_of_busy _ v hbusy]
  · rw [s.regWrite_mask v hmask, s.writeMask_of_busy _ v hbusy]

/-- A write of CTRL does not set WERR (R294). -/
theorem State.werr_of_writeCtrl (h : (s.writeCtrl v).werr = true) : s.werr = true := by
  cases hsrst : v.getLsbD 2 with
  | true => simp [s.writeCtrl_of_srst hsrst] at h
  | false => rwa [s.writeCtrl_of_not_srst hsrst] at h

/-- A write of STATUS does not set WERR (R294). -/
theorem State.werr_of_writeStatus (h : (s.writeStatus v).werr = true) : s.werr = true := by
  rw [s.writeStatus_werr, Bool.and_eq_true] at h
  exact h.1

/-! ## What moves the scanner registers (R298) -/

/-- No command but SCAN_INIT and SCAN_NEXT moves the scanner registers, whatever its outcome. -/
theorem scan_finish_outcome {i : Instr} (s : State) (hinit : ∀ f, i ≠ .scanInit f) (hnext : i ≠ .scanNext) :
    (s.finish (outcomeOf i s)).scan = s.scan := by
  cases hout : outcomeOf i s with
  | error e => rfl
  | ok st => rw [finish_ok, State.completeOk_scan, s.stage_staged, outcomeOf_scan_none hout hinit hnext]; rfl

/-- A CMD write leaves the scanner registers alone, accepted or dropped. -/
@[simp] theorem State.writeCmd_scan (s : State) (w : Word) : (s.writeCmd w).scan = s.scan := by
  cases hbusy : s.busy with
  | true => rw [s.writeCmd_of_busy w hbusy, s.dropWrite_scan]
  | false => rw [s.writeCmd_of_idle w hbusy, s.accept_scan]

/-- An ARG write leaves the scanner registers alone, stored or dropped. -/
@[simp] theorem State.writeArg_scan (s : State) (k : Nat) (v : Word) : (s.writeArg k v).scan = s.scan := by
  cases hbusy : s.busy with
  | true => rw [s.writeArg_of_busy k v hbusy, s.dropWrite_scan]
  | false => rw [s.writeArg_of_idle k v hbusy]

/-- An RS_MASK write leaves the scanner registers alone, stored or dropped. -/
@[simp] theorem State.writeMask_scan (s : State) (k : Nat) (v : Word) : (s.writeMask k v).scan = s.scan := by
  cases hbusy : s.busy with
  | true => rw [s.writeMask_of_busy k v hbusy, s.dropWrite_scan]
  | false => rw [s.writeMask_of_idle k v hbusy]

/-- A CTRL write with SRST = 0 leaves the scanner registers alone. -/
theorem State.writeCtrl_scan (s : State) (h : v.getLsbD 2 = false) : (s.writeCtrl v).scan = s.scan := by
  rw [s.writeCtrl_of_not_srst h]

/-- A register write moves the scanner registers only as a soft reset: their own offsets are read-only. -/
theorem State.regWrite_scan (s : State) (h : off = 0x004 → v.getLsbD 2 = false) :
    (s.regWrite off v).scan = s.scan := by
  unfold State.regWrite
  split_ifs with hctrl
  · exact s.writeCtrl_scan (h hctrl)
  · exact s.writeStatus_scan v
  · exact s.writeErracc_scan v
  · exact s.writeCmd_scan v
  · exact s.writeArg_scan _ v
  · exact s.writeMask_scan _ v
  · rfl

/-- A host write moves the scanner registers only as a write of CTRL with SRST = 1. -/
theorem scan_hostWrite {w : Width} (h : hostWrite s w off v = .next t)
    (hctrl : w = .w32 → off = 0x004 → v.getLsbD 2 = false) : t.scan = s.scan := by
  rw [hostWrite_eq_outcome] at h
  obtain ⟨tg, hhit, rfl⟩ := BusCheck.outcome_next_iff.mp h
  cases tg with
  | reg r =>
    obtain ⟨-, rfl, hw, -⟩ := busCheck_reg.mp hhit
    exact s.regWrite_scan (hctrl hw)
  | buf a => exact s.bufWrite_scan a _ v

/-- A host read leaves the scanner registers alone (R67). -/
theorem scan_hostRead {w : Width} (h : hostRead s w off = .next t) : t.scan = s.scan := by
  obtain ⟨ht, -⟩ := hostRead_idempotent h
  rw [ht, s.returned_scan]

/-! ## The completion of an accepted command (R300) -/

/-- From `s` to `t` one command was completed: `t` is idle with DONE = 1, and CMDCNT counted up once. -/
def CompletedOnce (s t : State) : Prop := t.busy = false ∧ t.done = true ∧ t.cmdcnt = s.cmdcnt + 1

/-- Every error completion counts as one. -/
theorem completedOnce_completeError (s : State) (e : CmdError) : CompletedOnce s (s.completeError e) :=
  ⟨rfl, rfl, rfl⟩

/-- Whatever a rule answers, its completion counts as one. -/
theorem completedOnce_finish (s : State) (r : Except CmdError Staged) : CompletedOnce s (s.finish r) := by
  cases r with
  | ok st => exact ⟨rfl, rfl, rfl⟩
  | error e => exact completedOnce_completeError s e

/-- The step of a due command never stops the machine: it completes, cancelled and malformed ones among them. -/
theorem step_completes_of_due (hdue : s.due = true) : ∃ t, step s = .next t ∧ CompletedOnce s t := by
  rcases step_cases s with ⟨hnot, -⟩ | ⟨-, -, hstep⟩ | ⟨-, -, -, hstep⟩ | ⟨-, -, i, -, hstep⟩
  · simp [hdue] at hnot
  · exact ⟨_, hstep, completedOnce_completeError s _⟩
  · exact ⟨_, hstep, completedOnce_completeError s _⟩
  · exact ⟨_, hstep, completedOnce_finish s _⟩

/-- A run goes on from the state that its first step reaches. -/
theorem core_run_succ (k : Nat) (h : step s = .next t) :
    Sys2Proof.core.run (k + 1) s = Sys2Proof.core.run k t := by
  have hstep : Sys2Proof.core.step s = .next t := h
  simp only [Host.Core.run, hstep]

/-- Where the host waits, a command in flight completes in one step more than its delay: each step before the
last takes one off the delay. -/
theorem run_completes (hbusy : s.busy = true) (hhost : s.host = []) :
    ∃ t, Sys2Proof.core.run (s.delay + 1) s = .next t ∧ CompletedOnce s t := by
  induction hdelay : s.delay generalizing s with
  | zero =>
    obtain ⟨t, hstep, ht⟩ := step_completes_of_due (State.due_eq_true.mpr ⟨hbusy, hdelay⟩)
    exact ⟨t, core_run_succ 0 hstep, ht⟩
  | succ d ih =>
    have hwait : step s = .next s.tick := by
      rw [step_eq_hostTurn (State.due_eq_false.mpr (.inr (by omega))), hostTurn_of_nil hhost]
    obtain ⟨t, hrun, ht⟩ := ih (s := s.tick) hbusy hhost (by rw [s.tick_delay, hdelay, Nat.add_sub_cancel])
    exact ⟨t, (core_run_succ (d + 1) hwait).trans hrun, ht⟩

end

/-! ## The statements -/

/-- Settles O8: the delay of the command in flight is finite, and the step after it completes the command. -/
theorem acceptedCommandCompletes : Obligations.AcceptedCommandCompletes :=
  fun s hbusy hhost => ⟨s.delay + 1, run_completes hbusy hhost⟩

/-- Settles O12: a rule other than the two scan commands' stages no scanner registers, and no register that the
host can write is one of them, so that only the soft reset in a CTRL write reaches them. -/
theorem onlyScanCommandsMoveTheScanner : Obligations.OnlyScanCommandsMoveTheScanner := by
  refine ⟨fun i s t h hinit hnext => ?_, fun s t op h hpower hctrl => ?_⟩
  · rw [exec_eq_finish, Host.Outcome.next.injEq] at h
    subst h
    exact scan_finish_outcome s hinit hnext
  · cases op with
    | powerOn => exact absurd rfl hpower
    | read w off => exact scan_hostRead h
    | write w off v => exact scan_hostWrite h fun hw hoff => hctrl v (by rw [hw, hoff])

/-- Settles O19: a busy engine drops the writes of CMD, ARG and RS_MASK, an idle one stores ARG and RS_MASK, and no
other register write depends on BUSY or sets WERR. -/
theorem busyDroppedWrites : Obligations.BusyDroppedWrites := by
  refine ⟨fun s off v hbusy halign h => ?_, fun s k v hidle => ⟨?_, ?_⟩, fun s off v halign hlt h => ?_,
    fun s v => ⟨hostWrite_ctrl s v, hostWrite_reg s v (by decide) (by decide),
      hostWrite_reg s v (by decide) (by decide), fun off h hwerr => ?_⟩⟩
  · rw [hostWrite_reg s v (by omega) halign, s.regWrite_of_busy v hbusy h, State.dropWrite]
  · rw [hostWrite_reg s v (by omega) (by omega), s.regWrite_arg_fin, s.writeArg_of_idle _ v hidle, fileSet_fin]
  · rw [hostWrite_reg s v (by omega) (by omega), s.regWrite_mask_fin, s.writeMask_of_idle _ v hidle, fileSet_fin]
  · rw [hostWrite_reg s v hlt halign, s.regWrite_of_read_only v h]
  · rcases h with rfl | rfl | rfl
    · exact State.werr_of_writeCtrl (s.regWrite_ctrl v ▸ hwerr)
    · exact State.werr_of_writeStatus (s.regWrite_status v ▸ hwerr)
    · rwa [s.regWrite_erracc, s.writeErracc_werr] at hwerr

/-- Settles O22: the write is a soft reset, which keeps BUF and BUF_SIZE and resets every other register. -/
theorem softResetKeepsBuf : Obligations.SoftResetKeepsBuf := by
  intro s v hsrst
  refine ⟨s.softReset, ?_, fun _ => s.regRead_softReset, rfl, ⟨rfl, rfl, rfl, rfl⟩, s.softReset_busy,
    s.softReset_done, s.softReset_cmdcnt, s.irq_softReset, s.softReset_buf, fun _ => rfl⟩
  rw [hostWrite_ctrl, s.writeCtrl_of_srst hsrst]

/-- Settles O24: after reset no error is reported, the hidden state is clear, the memories are empty, and the scan is
the empty one. -/
theorem resetMeetsTheInvariants : Obligations.ResetMeetsTheInvariants :=
  ⟨reset_params_valid, statusCoherent_of_no_error (fun _ => rfl) rfl rfl rfl,
    hiddenDiscipline_of_idle rfl ⟨rfl, rfl, rfl, rfl⟩ rfl, memoryWellFormed_reset, scanWindow_reset State.reset⟩

end Sys2Proof.Machine
